-- ==== Sys2Proof/Word.lean ====
section
/-! DEFINITION. The bit vectors and keys that every other file uses. -/

namespace Sys2Proof

/-- One byte of memory. -/
abbrev Byte := BitVec 8

/-- A 32-bit register (R30). -/
abbrev W32 := BitVec 32

/-- A 64-bit pair of registers, or a virtual address of 57 bits zero-extended (R6, R30). -/
abbrev W64 := BitVec 64

/-- One bit per lane of a course, bit L for lane L (R36, R39). -/
abbrev Mask := BitVec 32

/-- The number of lanes of a course (R27). -/
abbrev lanes : Nat := 32

/-- The bytes of one line (R5). -/
abbrev lineBytes : Nat := 128

/-- Sparse data by key: pairs of a key and a value, keys strictly rising, no value equal to the default. -/
abbrev Cells (w : Nat) := List (Nat × BitVec w)

end Sys2Proof
end

