-- ==== Sys2Proof/Config.lean ====
section
/-! DEFINITION. What an implementation fixes, and the free values: constants without a body, whose value no proof can see.
Each is applied to what it may depend on, or to the counter `free` of the state for a value fresh each time. -/

namespace Sys2Proof.Config

/-- Which of the allowed results a `.fast` transcendental gives (R61; log 9): an index into the candidates within 2 ulp. The
function is named by `fn`, and the result depends on the function, the TYPE and the input bits alone. -/
opaque fastPick : (fn : Nat) → (wide : Bool) → (bits : BitVec 64) → Nat

/-- Whether a late transition replays an instruction under over-scaled voltage (R64; log 10). -/
opaque lateTransition : Nat → Bool

/-- Whether an access of a killed team that no agent has observed is still performed (R235; log 11). -/
opaque killPerforms : Nat → Bool

/-- An element that no source supplies to the last block of a block-encode stage (R196; log 17). -/
opaque padElement : Nat → BitVec 64

/-- The bytes of an image section whose layout only cores of the image's revision read (R336; log 20). -/
opaque revisionByte : (token : Nat) → (offset : Nat) → BitVec 8

/-- The words of what a core of the revision reads in the revision sections of an image that no core of this device wrote (R336;
log 20). -/
opaque imageWord : (image : List (BitVec 8)) → Nat → BitVec 32

/-- A grid's %grid value, before one that is in use is passed over (R35; log 15). -/
opaque gridId : Nat → BitVec 32

/-- The bytes of a parked flit that a port spills to memory (R341; log 19). -/
opaque flitByte : Nat → BitVec 8

/-- What spares replace parts of: an SRAM array's group of 256 rows, a DRAM bank, or the lanes of a link (R372). -/
inductive FuseUnit where
  | sram (die group : Nat)
  | dram (die bank : Nat)
  | lane (link : Nat)
  deriving DecidableEq, Repr

/-- A row or a lane of a unit, which a spare may replace (R372). -/
structure Fuse where
  unit : FuseUnit
  row  : Nat
  deriving DecidableEq, Repr

/-- The core to which an SRAM array belongs, by its die and its group of rows; none for one of a slice or of the fabric (R372; log 21). -/
opaque arrayCore : (die group : Nat) → Option Nat

/-- FUSEDIG of a core, and of the package with `core` 2048, under a fuse map (R337, R372, R374; log 21). -/
opaque fuseDigest : (core : Nat) → (map : List Fuse) → BitVec 48

/-- STEPPING of a core, and of the package with `core` 2048 (R337, R374; log 21). -/
opaque stepping : (core : Nat) → BitVec 16

/-- Signature r of the attestation report formed over the 112 signed bytes (R374; log 21). -/
opaque signR : List (BitVec 8) → Nat → BitVec 384

/-- Signature s of the attestation report formed over the 112 signed bytes (R374; log 21). -/
opaque signS : List (BitVec 8) → Nat → BitVec 384

/-- Digest of a firmware image, named by its version (R374; log 21). -/
opaque firmwareDigest : BitVec 32 → BitVec 384

/-- The device certificate's bytes (R374; log 21). -/
opaque certificate : Nat → BitVec 8

/-- The length of the device certificate in bytes (R375; log 21). -/
opaque certificateLength : Nat

/-- TEMP as a reading gives it (R375; log 22). -/
opaque temperature : Nat → BitVec 64

/-- POWER as a reading gives it (R375; log 22). -/
opaque moduleDraw : Nat → BitVec 32

/-- Which of the values that a 4-byte part of a word of code has held a running grid fetches (R283; log 16). -/
opaque fetchOld : Nat → Nat

/-- Whether the reads of an instruction meet a word of its core that a soft error has corrupted (R365, R366; log 23). -/
opaque meetsError : Nat → Bool

/-- TRAPVA after a trap of cause PERMISSION that no address raised (R328; log 12). -/
opaque openVa : Nat → BitVec 64

/-- TRAPINFO [7:0] after such a trap (R328; log 12). -/
opaque openInfo : Nat → BitVec 8

/-- The set of a slice in which a superblock stands (R244, R245; log 29). -/
opaque l2Set : (superblock : Nat) → Nat

/-- Whether the host grants a line of its memory that the device reads alone, in E, rather than in S (R345; log 92). -/
opaque hostGrantsAlone : Nat → Bool

/-- Bytes of the far tier fitted to a die (R1, R236; log 88): at most 256 GiB of them exist. -/
opaque farFitted : (die : Nat) → Nat

/-- Whether the inbound aperture of a neighbour refuses an access (R355; log 6). -/
opaque peerRefuses : Nat → Bool

/-- The same for an access of a transfer engine at an address (R355; log 6). -/
opaque peerRefusesEngine : Nat → (va : Nat) → Bool

/-- The line that leaves L1 when it needs room (R240, R241; log 39). -/
opaque privVictim : Nat → Nat

end Sys2Proof.Config
end

