-- ==== Sys2Proof/Syntax.lean ====
section
/-! DEFINITION. The instruction words and the device events: one constructor of `Instr` for each row of the opcode table.
A word constructor carries the fields of its word (R68) with every operand named; an event constructor carries what
names the unit, the operation or the input that the event is about. -/

namespace Sys2Proof

/-- The element types of R73; code 15 is reserved and has no constructor. -/
inductive Ty where
  | i32 | n32 | i64 | n64 | i16 | n16 | i8 | n8 | f32 | f64 | f16 | bf16 | e4m3 | e5m2 | b32
  deriving DecidableEq, Repr

/-- The rounding directions of R46. -/
inductive Rnd where
  | rne | rtz | rup | rdn
  deriving DecidableEq, Repr

/-- The special registers of R35, in the order of their codes from 0xC0. -/
inductive Special where
  | lane | strand | course | team | teamx | teamy | teamz | gridx | gridy | gridz | grid | core | sector | die
  | clock | depth | phase | trapCause | trapPc | status | accepts | proposals | replays | energyLeft | poisonCount
  | mask | fragment | pending | quadrant | ragged
  deriving DecidableEq, Repr

/-- What an operand field names (R70, R120, R168, R203). -/
inductive Operand where
  /-- an unused field, holding 0x00 -/
  | none
  /-- v0 to v127, or the pair from an even register -/
  | v (n : Fin 128)
  /-- s0 to s63, or the pair from an even register -/
  | s (n : Fin 64)
  /-- a special register -/
  | special (r : Special)
  /-- the immediate in IMM32 (R75) -/
  | imm
  /-- zero of the operand's type -/
  | zero
  /-- p0 to p31; as a source, `inv` inverts the value read (R120) -/
  | pred (inv : Bool) (n : Fin 32)
  /-- acc0 to acc7 (R168) -/
  | tile (n : Fin 8)
  /-- a field whose code the entry checks itself at step 4 (PEEK's A, SWRITE's D) -/
  | code (c : BitVec 8)
  deriving DecidableEq, Repr

/-- The scheduling hints of R78, without the reserved bit. -/
structure Hints where
  reuseB  : Bool
  reuseA  : Bool
  reconv  : Bool
  sym     : Bool
  uniform : Bool
  energy  : Fin 4
  bump    : Fin 6
  yield   : Bool
  stall   : Fin 16
  deriving DecidableEq, Repr

/-- The fields of one 96-bit word but OPCODE and the reserved bits (R68). -/
structure Fields where
  guard : Fin 32
  gneg  : Bool
  d     : Operand
  a     : Operand
  b     : Operand
  ty    : Ty
  round : Rnd
  sat   : Bool
  modx  : Bool
  imm   : W32
  hints : Hints
  deriving DecidableEq, Repr

/-- A soft error's place (R365, R366). -/
inductive Site where
  /-- a line of a DRAM tier, or of the L2 of its home with `inL2`, by its physical address -/
  | line (pa : Nat) (inL2 : Bool)
  /-- an array of a core that a team holds: register file, bank, scratchpad, tiles, course state -/
  | core (core team : Nat)
  /-- a line in a cache of a die other than the L2 of its home: an L1, the die's copy, or a victim buffer -/
  | copy (die line : Nat)
  /-- a translation that a core's TLB, or its sector's, holds for an address of a context -/
  | tlb (core asid va : Nat)
  /-- the tag of a line in the L2 of its home -/
  | tag (line : Nat)
  /-- a buffer of the fabric or of a link, on a die -/
  | buffer (die : Nat)
  deriving DecidableEq, Repr

/-- A soft error's place, and the row or lane in which it lies (R365, R372). -/
structure Spot where
  site : Site
  row  : Config.Fuse
  deriving DecidableEq, Repr

/-- What a kill takes: one team, or the grid of a team with all below it (R229, R234, R235). -/
inductive Kill where
  | one (team : Nat)
  | gridOf (team : Nat)
  deriving DecidableEq, Repr

/-- What firmware sets at boot: the ECAPs that differ from the reset value, by core; the inbound apertures of the links, as link,
base and limit; and the FWMIN that it fuses (R316, R355, R373). -/
structure BootSetup where
  ecaps     : List (Nat × Nat) := []
  apertures : List (Nat × Nat × Nat) := []
  fwMin     : W32 := 0
  deriving DecidableEq, Repr

/-- A register of a host page (R348, R375). -/
inductive HostReg where
  /-- the context page of `asid`, at a byte offset -/
  | ctx (asid : Nat) (offset : Nat)
  /-- the management page, at a byte offset -/
  | mgmt (offset : Nat)
  deriving DecidableEq, Repr

/-- An access that arrives over a peer link (R354, R355). -/
inductive PeerAccess where
  | read (pa : Nat) (n : Nat)
  | write (pa : Nat) (bytes : List Byte)
  /-- an atomic's operation by its code in IMM32 (R144) -/
  | atomic (pa code : Nat) (ty : Ty) (round : Rnd) (val cmp : W64)
  /-- a pool operation of the neighbour, for a context of this device -/
  | pool (push : Bool) (pa asid : Nat) (wide : Bool) (item : W64)
  | wake (pa : Nat)
  deriving DecidableEq, Repr

/-- The lanes of a load in flight, or of a scratchpad access, whose reads are performed at one moment (R281). -/
structure Reading where
  op    : Nat
  lanes : BitVec 32 := BitVec.allOnes 32
  deriving DecidableEq, Repr

/-- How a store in flight is performed: in its core's store path only (R270); and, in scratchpad, how many of its accesses at one
moment (R281). -/
structure Performing where
  atCore : Bool := false
  many   : Nat := 128
  deriving DecidableEq, Repr

/-- The granules of 32 bytes that a transfer job reads from scratchpad at one moment (R281). -/
structure Moving where
  job  : Nat
  many : Nat := 128
  deriving DecidableEq, Repr

/-- Every row of the opcode table: first the instructions, then the events of the device. -/
inductive Instr where
  | nop (w : Fields) | bra (w : Fields) | brx (w : Fields) | call (w : Fields) | callInd (w : Fields)
  | ret (w : Fields) | retTrap (w : Fields) | exit (w : Fields) | trap (w : Fields) | bkpt (w : Fields)
  | yield (w : Fields) | launch (w : Fields) | phase (w : Fields) | tokpass (w : Fields)
  | sread (w : Fields) | sreadCtl (w : Fields) | swrite (w : Fields) | swriteCtl (w : Fields)
  | capture (w : Fields) | restore (w : Fields)
  | tlbinvPage (w : Fields) | tlbinvRange (w : Fields) | tlbinvAll (w : Fields) | poisonclr (w : Fields)
  | add (w : Fields) | sub (w : Fields) | mul (w : Fields) | mulhi (w : Fields) | mad (w : Fields)
  | div (w : Fields) | rem (w : Fields) | min (w : Fields) | max (w : Fields) | abs (w : Fields) | neg (w : Fields)
  | and (w : Fields) | or (w : Fields) | xor (w : Fields) | not (w : Fields)
  | shl (w : Fields) | shr (w : Fields) | sar (w : Fields) | rot (w : Fields)
  | clz (w : Fields) | popc (w : Fields) | brev (w : Fields) | bfx (w : Fields) | bfi (w : Fields)
  | lea (w : Fields) | sel (w : Fields) | cmp (w : Fields) | mov (w : Fields) | addmin (w : Fields)
  | fadd (w : Fields) | fsub (w : Fields) | fmul (w : Fields) | ffma (w : Fields) | fmin (w : Fields)
  | fmax (w : Fields) | fabs (w : Fields) | fneg (w : Fields) | fcmp (w : Fields) | fclass (w : Fields)
  | fdiv (w : Fields) | fsqrt (w : Fields) | frnd (w : Fields) | fscale (w : Fields) | faddmin (w : Fields)
  | fdot4 (w : Fields)
  | frcpAuto (w : Fields) | frsqAuto (w : Fields) | fexp2Auto (w : Fields) | flog2Auto (w : Fields)
  | fsinAuto (w : Fields) | fcosAuto (w : Fields)
  | frcpFast (w : Fields) | frsqFast (w : Fields) | fexp2Fast (w : Fields) | flog2Fast (w : Fields)
  | fsinFast (w : Fields) | fcosFast (w : Fields)
  | frcpExact (w : Fields) | frsqExact (w : Fields) | fexp2Exact (w : Fields) | flog2Exact (w : Fields)
  | fsinExact (w : Fields) | fcosExact (w : Fields)
  | cvt (w : Fields) | pack (w : Fields) | unpack (w : Fields)
  | pand (w : Fields) | por (w : Fields) | pxor (w : Fields) | pnot (w : Fields) | pmov (w : Fields)
  | pcount (w : Fields) | lshup (w : Fields) | lshdn (w : Fields) | shfl (w : Fields) | vote (w : Fields)
  | elect (w : Fields) | redux (w : Fields) | xchg (w : Fields)
  /-- two waiting XCHG, named by their stamps -/
  | xchgPairing (i j : Nat)
  | xchgTimeout (i : Nat)
  | ld (w : Fields) | st (w : Fields) | lds (w : Fields) | sts (w : Fields) | ldp (w : Fields) | stp (w : Fields)
  | ldu (w : Fields) | pref (w : Fields) | atom (w : Fields) | red (w : Fields) | fence (w : Fields)
  /-- an operation in flight, named by its stamp, and what of it is read -/
  | loadDataReturn (r : Reading)
  /-- the next line of a store in flight -/
  | storePerformed (op : Nat) (how : Performing)
  | writeLeaseWaitEnd (op : Nat)
  | binit (w : Fields) | barrive (w : Fields) | bwait (w : Fields) | bexpect (w : Fields) | bflags (w : Fields)
  | qpush (w : Fields) | qpop (w : Fields)
  | queueHeldOperationServed (core team q : Nat)
  | gpush (w : Fields) | gpop (w : Fields)
  /-- a pool operation in flight, named by its stamp -/
  | poolSwitchArrival (p : Nat) | fretWindowExpiry (p : Nat) | poolOpAtHome (p : Nat)
  | queueOperationComplete (op : Nat)
  | wait (w : Fields) | waitr (w : Fields) | waitaddr (w : Fields)
  | waitaddrReread (i : Nat) | waitaddrTimeout (i : Nat)
  | wake (w : Fields)
  | zld (w : Fields) | zst (w : Fields) | zldb (w : Fields) | zstb (w : Fields) | zflush (w : Fields)
  | zflushAll (w : Fields)
  /-- the buffer entry whose block starts at a physical address -/
  | blockBufferEviction (pa : Nat)
  | copy (w : Fields) | copyl (w : Fields)
  /-- a transfer job, named by its stamp -/
  | transferJobStart (j : Nat) | transferChunk (r : Moving) | copylIteration (j : Nat) | transferJobComplete (j : Nat)
  | mzero (w : Fields) | mload (w : Fields) | mstore (w : Fields) | mmac (w : Fields) | mmacs (w : Fields)
  | mmacg (w : Fields) | msmax (w : Fields) | mdrain (w : Fields) | mdrainSpad (w : Fields) | planes (w : Fields)
  | tileOperationStart (core : Nat) | tileOperationComplete (core : Nat) | globalDrainAtHome (core : Nat)
  | prop (w : Fields) | accept (w : Fields) | pdrop (w : Fields) | peek (w : Fields) | rng (w : Fields) | rngf (w : Fields)
  | fragmentFusion (core slot entry : Nat)
  | serialFrameAdvance (core slot entry : Nat)
  | handlerEntry (core slot : Nat)
  /-- `whole` when the supervisor or the host kills the team's grid -/
  | teamKill (core : Nat) (what : Kill)
  /-- a walk for `va` of context `asid` that answers the cores listed -/
  | pageWalk (asid : Nat) (va : W64) (cores : List Nat)
  | l2ReadMiss (line : Nat) | dramFillArrival (line : Nat)
  | class3ReadSwitchPass (op switch : Nat)
  | l2Writeback (line : Nat)
  | recall (line : Nat) | recallTimeout (line : Nat)
  | victimWritebackRequest (die line : Nat) | writebackGrant (die line : Nat)
  /-- `data` when the snoop asks for data and leaves the line shared -/
  | hostSnoop (line : Nat) (data : Bool)
  /-- `port` names the host port when the host caches the line it reads -/
  | hostRead (pa n : Nat) (port : Option Nat)
  | hostWrite (pa : Nat) (bytes : List Byte)
  | peerAccessArrival (link : Nat) (acc : PeerAccess)
  | linkTrainingLoss (link : Nat) | linkTrained (link : Nat) | linkFlitResend (link : Nat)
  | hostPortFatal (die : Nat)
  | lqtail (asid q : Nat) (v : W32)
  /-- the next packet of queue `q`, a host queue or a child queue -/
  | launchAcceptance (asid q : Nat) (child : Bool)
  | eventWordReread (grid : Nat)
  | teamAdmission (grid team core rot : Nat)
  | gridRetirement (grid : Nat)
  | energyBudgetTick (asid : Nat)
  | mode (asid : Nat) (v : W32) | vtarget (asid : Nat) (v : W32)
  | supplyChange (core : Nat)
  | registerWrite (reg : HostReg) (v : W64)
  | ctxcmdMakeLive (asid : Nat) | ctxcmdTearDown (asid : Nat) | ctxcmdCapture (asid : Nat) | ctxcmdRelease (asid : Nat)
  | capoStop (core : Nat)
  /-- the answer of an operation in flight reaches a stopped core's port -/
  | parkFlit (op : Nat)
  | imageStreamComplete (core : Nat) | restoreComplete (core : Nat) | bindingClose (core : Nat)
  | attcmd (v : W32) | attestationReportDone
  | scrubRead (line : Nat)
  | deviceReset | powerUp
  /-- the rows and lanes that failed their boot test, cores fenced off, ports in PCIe mode, and what firmware sets -/
  | boot (failed : List Config.Fuse) (fenced pcie : List Nat) (setup : BootSetup)
  /-- the host writes an image to the slot: `signed` when its signature verifies -/
  | firmwareRecovery (signed : Bool) (version : W32)
  | throttleEntry | throttleExit | thermalIssueStall | thermalShutdown | powerDown
  /-- `bits` corrupted bits in one 64-bit word -/
  | softError (spot : Spot) (bits : Nat)
  | creditReturn (core cls n : Nat)
  deriving DecidableEq, Repr

end Sys2Proof
end

