-- ==== Sys2Proof/Machine/Encoding.lean ====
section
/-! DEFINITION. The encoding tables of the spec: the fields of a word (R68, R78), the opcode map with what each entry
admits (R74, R84, R87 and the entries), and the codes of operands and types (R70, R73). -/

namespace Sys2Proof.Encoding

/-- The bits of one word, cut into its fields (R68). -/
structure Raw where
  op    : BitVec 9
  guard : BitVec 5
  gneg  : Bool
  r15   : Bool
  d     : BitVec 8
  a     : BitVec 8
  b     : BitVec 8
  ty    : BitVec 4
  round : BitVec 2
  sat   : Bool
  modx  : Bool
  imm   : BitVec 32
  stall : BitVec 4
  yield : Bool
  bump  : BitVec 3
  energy : BitVec 2
  uniform : Bool
  sym   : Bool
  reconv : Bool
  reuseA : Bool
  reuseB : Bool
  r95   : Bool
  deriving DecidableEq, Repr

/-- R68 and R78: the field boundaries. -/
def Raw.ofWord (w : BitVec 96) : Raw where
  op := w.extractLsb' 0 9
  guard := w.extractLsb' 9 5
  gneg := w.getLsbD 14
  r15 := w.getLsbD 15
  d := w.extractLsb' 16 8
  a := w.extractLsb' 24 8
  b := w.extractLsb' 32 8
  ty := w.extractLsb' 40 4
  round := w.extractLsb' 44 2
  sat := w.getLsbD 46
  modx := w.getLsbD 47
  imm := w.extractLsb' 48 32
  stall := w.extractLsb' 80 4
  yield := w.getLsbD 84
  bump := w.extractLsb' 85 3
  energy := w.extractLsb' 88 2
  uniform := w.getLsbD 90
  sym := w.getLsbD 91
  reconv := w.getLsbD 92
  reuseA := w.getLsbD 93
  reuseB := w.getLsbD 94
  r95 := w.getLsbD 95

/-- The word whose fields are `r`: R68 read from the top bit down. -/
def Raw.toWord (r : Raw) : BitVec 96 :=
  (BitVec.ofBool r.r95 ++ BitVec.ofBool r.reuseB ++ BitVec.ofBool r.reuseA ++ BitVec.ofBool r.reconv ++
    BitVec.ofBool r.sym ++ BitVec.ofBool r.uniform ++ r.energy ++ r.bump ++ BitVec.ofBool r.yield ++ r.stall ++
    r.imm ++ BitVec.ofBool r.modx ++ BitVec.ofBool r.sat ++ r.round ++ r.ty ++ r.b ++ r.a ++ r.d ++
    BitVec.ofBool r.r15 ++ BitVec.ofBool r.gneg ++ r.guard ++ r.op : BitVec 96)

/-- The codes of R73. -/
def tyCode : Ty → Nat
  | .i32 => 0 | .n32 => 1 | .i64 => 2 | .n64 => 3 | .i16 => 4 | .n16 => 5 | .i8 => 6 | .n8 => 7
  | .f32 => 8 | .f64 => 9 | .f16 => 10 | .bf16 => 11 | .e4m3 => 12 | .e5m2 => 13 | .b32 => 14

/-- R73 read back; 15 is reserved. -/
def tyOfCode : Nat → Option Ty
  | 0 => some .i32 | 1 => some .n32 | 2 => some .i64 | 3 => some .n64 | 4 => some .i16 | 5 => some .n16
  | 6 => some .i8 | 7 => some .n8 | 8 => some .f32 | 9 => some .f64 | 10 => some .f16 | 11 => some .bf16
  | 12 => some .e4m3 | 13 => some .e5m2 | 14 => some .b32 | _ => none

/-- Whether a type takes a pair of registers (R30, R87). -/
def wideCode (c : Nat) : Bool := c == 2 || c == 3 || c == 9

def rndCode : Rnd → Nat
  | .rne => 0 | .rtz => 1 | .rup => 2 | .rdn => 3

def rndOfCode : Nat → Rnd
  | 0 => .rne | 1 => .rtz | 2 => .rup | _ => .rdn

/-- The special registers in the order of R35; the code of each is 0xC0 plus its place. -/
def specials : List Special :=
  [.lane, .strand, .course, .team, .teamx, .teamy, .teamz, .gridx, .gridy, .gridz, .grid, .core, .sector, .die,
   .clock, .depth, .phase, .trapCause, .trapPc, .status, .accepts, .proposals, .replays, .energyLeft, .poisonCount,
   .mask, .fragment, .pending, .quadrant, .ragged]

def specialCode (r : Special) : Nat := 0xC0 + specials.idxOf r

def specialOfCode (c : Nat) : Option Special := if c < 0xC0 then none else specials[c - 0xC0]?

/-- The special registers that differ between strands: not allowed under UNIFORM (R81). -/
def perStrand : Special → Bool
  | .lane | .strand | .status | .accepts | .proposals => true
  | _ => false

/-- How many registers an operand takes. -/
inductive Wd where
  /-- as TYPE gives (R87) -/
  | ty
  /-- one register whatever TYPE holds -/
  | one
  /-- always a pair -/
  | two
  /-- as the source type in IMM32[3:0] gives (R117) -/
  | cvt
  /-- a pair for the 16-bit formats of FDOT4 (R115) -/
  | dot
  /-- an address pair unless IMM32[9] selects scratchpad (R143) -/
  | spad
  /-- an address pair unless IMM32[0] selects scratchpad (R167) -/
  | drain
  deriving DecidableEq, Repr

/-- What an operand field holds (R70, R71, R120, R168, R203, R211). -/
inductive Slot where
  | unused
  /-- a register written (and read where the entry says so) -/
  | dst (w : Wd)
  /-- a register only read, in the D field -/
  | dsrc (w : Wd)
  | pdst
  | psrc
  | src (w : Wd)
  /-- a special register to read (R211) -/
  | special
  /-- an s register, or zero -/
  | sreg (w : Wd)
  | tile
  | code
  deriving DecidableEq, Repr

/-- What IMM32 holds (R87). -/
inductive ImmUse where
  /-- an immediate when a source is 0xE0, else zero -/
  | imm
  /-- always zero -/
  | zero
  /-- an extension, with the bits that the entry defines -/
  | ext (mask : Nat)
  deriving DecidableEq, Repr

/-- Whether an opcode has a uniform form (R81). -/
inductive Uni where
  | no | may | must
  deriving DecidableEq, Repr

/-- One opcode with what its entry admits. -/
structure Row where
  op    : Nat
  types : List Nat
  round : Bool := false
  sat   : Bool := false
  modx  : Bool := false
  uni   : Uni := .no
  imm   : ImmUse := .zero
  d     : Slot := .unused
  a     : Slot := .unused
  b     : Slot := .unused
  /-- a whole-course opcode, whose guard is zero (R77) -/
  whole : Bool := false
  /-- the constructor for the word's fields -/
  build : Fields → Instr

/-- The types 0 to 7, 8 to 11 and so on, as the entries name them. -/
def tInt : List Nat := [0, 1, 2, 3, 4, 5, 6, 7]
def tBit : List Nat := [14, 3]
def tFp : List Nat := [8, 9, 10, 11]
def tAny : List Nat := [0, 1, 2, 3, 4, 5, 6, 7, 8, 9, 10, 11, 12, 13, 14]
def tMem : List Nat := [3, 4, 5, 6, 7, 14]
def tAtom : List Nat := [0, 1, 2, 3, 8, 9, 14]
def tElem : List Nat := [8, 9, 10, 11, 12, 13]

def allOnes : Nat := 0xFFFFFFFF

/-- R88, R211 to R216: control and system. The MODX of CALL, RET, SREAD, SWRITE and the KIND of TLBINV choose the
table's row. -/
def rowsControl : List Row :=
  [{ op := 0x000, types := [0], build := .nop },
   { op := 0x001, types := [0], imm := .ext allOnes, build := .bra },
   { op := 0x002, types := [0], imm := .ext 0xFFFF0000, a := .src .two, build := .brx },
   { op := 0x003, types := [0], modx := true, imm := .ext allOnes, d := .dst .two, a := .src .two,
     build := fun f => if f.modx then .callInd f else .call f },
   { op := 0x004, types := [0], modx := true, a := .src .two, build := fun f => if f.modx then .retTrap f else .ret f },
   { op := 0x005, types := [0], build := .exit },
   { op := 0x006, types := [0], imm := .ext 0xFFFF, build := .trap },
   { op := 0x007, types := [0], build := .bkpt },
   { op := 0x008, types := [0], build := .yield },
   { op := 0x009, types := [0], d := .dst .one, a := .src .two, build := .launch },
   { op := 0x00A, types := [0], imm := .imm, a := .src .one, build := .phase },
   { op := 0x00B, types := [0], build := .tokpass },
   { op := 0x00C, types := tBit, modx := true, uni := .may, imm := .ext 0xFFF, d := .dst .ty, a := .special,
     build := fun f => if f.modx then .sreadCtl f else .sread f },
   { op := 0x00D, types := tBit, modx := true, imm := .ext 0xFFF, d := .code, a := .src .ty,
     build := fun f => if f.modx then .swriteCtl f else .swrite f },
   { op := 0x00E, types := [0], a := .src .one, b := .src .two, build := .capture },
   { op := 0x00F, types := [0], d := .dst .one, a := .src .one, b := .src .two, build := .restore },
   { op := 0x010, types := [0], modx := true, imm := .ext 0x1F, a := .src .two, b := .src .one,
     build := fun f => match (f.imm.toNat / 8) % 4 with
       | 0 => .tlbinvPage f | 1 => .tlbinvRange f | _ => .tlbinvAll f },
   { op := 0x011, types := [0], a := .src .two, build := .poisonclr }]

/-- R99: integer and address. -/
def rowsInt : List Row :=
  let r3 (op : Nat) (t : List Nat) (build : Fields → Instr) : Row :=
    { op, types := t, uni := .may, imm := .imm, d := .dst .ty, a := .src .ty, b := .src .ty, build }
  let r2 (op : Nat) (t : List Nat) (build : Fields → Instr) : Row :=
    { op, types := t, uni := .may, imm := .imm, d := .dst .ty, a := .src .ty, build }
  [{ r3 0x020 tInt .add with sat := true }, { r3 0x021 tInt .sub with sat := true },
   { r3 0x022 tInt .mul with sat := true }, r3 0x023 [0, 1, 2, 3] .mulhi, { r3 0x024 tInt .mad with sat := true },
   { r3 0x025 tInt .div with sat := true }, r3 0x026 tInt .rem, r3 0x027 tInt .min, r3 0x028 tInt .max,
   { r2 0x029 [0, 2, 4, 6] .abs with sat := true }, { r2 0x02A tInt .neg with sat := true },
   r3 0x02B tBit .and, r3 0x02C tBit .or, r3 0x02D tBit .xor, r2 0x02E tBit .not,
   { r3 0x030 tBit .shl with b := .src .one }, { r3 0x031 tBit .shr with b := .src .one },
   { r3 0x032 [0, 2] .sar with b := .src .one }, { r3 0x033 tBit .rot with b := .src .one },
   { r2 0x034 tBit .clz with d := .dst .one }, { r2 0x035 tBit .popc with d := .dst .one }, r2 0x036 tBit .brev,
   { r3 0x037 [0, 1, 2, 3] .bfx with b := .src .one }, { r3 0x038 tBit .bfi with b := .src .one },
   { r3 0x039 [3] .lea with b := .src .one, modx := true, imm := .ext 7 },
   { r3 0x03A tAny .sel with imm := .ext 0x1F },
   { r3 0x03B tInt .cmp with d := .pdst, round := true, modx := true },
   r2 0x03C tAny .mov, r3 0x03D [0, 1, 4, 5] .addmin]

/-- R108: floating point. -/
def rowsFp : List Row :=
  let r3 (op : Nat) (build : Fields → Instr) : Row :=
    { op, types := tFp, uni := .may, imm := .imm, d := .dst .ty, a := .src .ty, b := .src .ty, build }
  let r2 (op : Nat) (build : Fields → Instr) : Row :=
    { op, types := tFp, uni := .may, imm := .imm, d := .dst .ty, a := .src .ty, build }
  [{ r3 0x060 .fadd with round := true, sat := true, modx := true },
   { r3 0x061 .fsub with round := true, sat := true, modx := true },
   { r3 0x062 .fmul with round := true, sat := true, modx := true },
   { r3 0x063 .ffma with round := true, modx := true },
   r3 0x064 .fmin, r3 0x065 .fmax, r2 0x066 .fabs, r2 0x067 .fneg,
   { r3 0x068 .fcmp with d := .pdst, round := true, modx := true },
   { r2 0x069 .fclass with d := .dst .one },
   { r3 0x06A .fdiv with round := true, sat := true, modx := true },
   { r2 0x06B .fsqrt with round := true, modx := true },
   { r2 0x06C .frnd with round := true },
   { r3 0x06D .fscale with b := .src .one, round := true, sat := true },
   { r3 0x06E .faddmin with round := true },
   { r3 0x06F .fdot4 with types := [10, 11, 12, 13], d := .dst .one, a := .src .dot, b := .src .dot, round := true }]

/-- R84, R116 to R119: transcendentals and conversion. -/
def rowsConv : List Row :=
  let tr (op : Nat) (build : Fields → Instr) : Row :=
    { op, types := [8, 9], round := true, imm := .imm, d := .dst .ty, a := .src .ty, build }
  [tr 0x0A0 .frcpAuto, tr 0x0A1 .frsqAuto, tr 0x0A2 .fexp2Auto, tr 0x0A3 .flog2Auto, tr 0x0A4 .fsinAuto,
   tr 0x0A5 .fcosAuto,
   tr 0x0A8 .frcpFast, tr 0x0A9 .frsqFast, tr 0x0AA .fexp2Fast, tr 0x0AB .flog2Fast, tr 0x0AC .fsinFast,
   tr 0x0AD .fcosFast,
   tr 0x0B0 .frcpExact, tr 0x0B1 .frsqExact, tr 0x0B2 .fexp2Exact, tr 0x0B3 .flog2Exact, tr 0x0B4 .fsinExact,
   tr 0x0B5 .fcosExact,
   { op := 0x0B8, types := [0, 1, 2, 3, 4, 5, 6, 7, 8, 9, 10, 11, 12, 13], round := true, sat := true, uni := .may,
     imm := .ext 0xF, d := .dst .ty, a := .src .cvt, build := .cvt },
   { op := 0x0B9, types := [4, 5, 6, 7, 10, 11, 12, 13], round := true, sat := true, modx := true, uni := .may,
     imm := .imm, d := .dst .one, a := .src .one, b := .src .one, build := .pack },
   { op := 0x0BA, types := [4, 5, 6, 7, 10, 11, 12, 13], uni := .may, imm := .ext 3, d := .dst .one, a := .src .one,
     build := .unpack }]

/-- R120 to R128: predicates and lanes. -/
def rowsLane : List Row :=
  [{ op := 0x0C0, types := [0], d := .pdst, a := .psrc, b := .psrc, build := .pand },
   { op := 0x0C1, types := [0], d := .pdst, a := .psrc, b := .psrc, build := .por },
   { op := 0x0C2, types := [0], d := .pdst, a := .psrc, b := .psrc, build := .pxor },
   { op := 0x0C3, types := [0], d := .pdst, a := .psrc, build := .pnot },
   { op := 0x0C4, types := [0], d := .pdst, a := .psrc, build := .pmov },
   { op := 0x0C5, types := [0], d := .dst .one, a := .psrc, build := .pcount },
   { op := 0x0C8, types := tBit, imm := .ext 0x1F, d := .dst .ty, a := .src .ty, b := .src .ty, build := .lshup },
   { op := 0x0C9, types := tBit, imm := .ext 0x1F, d := .dst .ty, a := .src .ty, b := .src .ty, build := .lshdn },
   { op := 0x0CA, types := tBit, modx := true, imm := .imm, d := .dst .ty, a := .src .ty, b := .src .one, build := .shfl },
   { op := 0x0CB, types := [0], imm := .ext 3, d := .pdst, a := .psrc, build := .vote },
   { op := 0x0CC, types := [0], d := .pdst, build := .elect },
   { op := 0x0CD, types := tAtom, round := true, sat := true, imm := .ext 7, d := .dst .ty, a := .src .ty,
     build := .redux },
   { op := 0x0CE, types := tBit, imm := .ext 0x1FFF, d := .dst .ty, a := .src .ty, b := .sreg .one, build := .xchg }]

/-- R137, R143, R146: loads, stores, prefetch, atomics, fences. -/
def rowsMem : List Row :=
  [{ op := 0x0E0, types := tMem, modx := true, imm := .ext 0x1FF, d := .dst .ty, a := .src .two, build := .ld },
   { op := 0x0E1, types := tMem, imm := .ext 0x1FF, a := .src .two, b := .src .ty, build := .st },
   { op := 0x0E2, types := tMem, imm := .ext 0x198, d := .dst .ty, a := .src .one, build := .lds },
   { op := 0x0E3, types := tMem, imm := .ext 0x198, a := .src .one, b := .src .ty, build := .sts },
   { op := 0x0E4, types := tMem, imm := .ext 0x180, d := .dst .ty, a := .src .one, build := .ldp },
   { op := 0x0E5, types := tMem, imm := .ext 0x180, a := .src .one, b := .src .ty, build := .stp },
   { op := 0x0E6, types := tBit, modx := true, uni := .must, imm := .ext 0x1FF, d := .dst .ty, a := .src .two,
     build := .ldu },
   { op := 0x0E7, types := [0], imm := .ext 3, a := .src .two, build := .pref },
   { op := 0x120, types := tAtom, round := true, modx := true, imm := .ext 0x3FF, d := .dst .ty, a := .src .spad,
     b := .src .ty, build := .atom },
   { op := 0x121, types := tAtom, round := true, imm := .ext 0x3FF, a := .src .spad, b := .src .ty, build := .red },
   { op := 0x122, types := [0], modx := true, imm := .ext 0x1F, build := .fence }]

/-- R148, R156, R159, R163 to R166: barriers, queues, pools, waits. -/
def rowsSync : List Row :=
  [{ op := 0x140, types := [0], imm := .ext 0xF, a := .src .one, b := .src .one, build := .binit },
   { op := 0x141, types := [0], imm := .ext 0xF, d := .dst .one, build := .barrive },
   { op := 0x142, types := [0], imm := .ext 0xF, a := .src .one, build := .bwait },
   { op := 0x143, types := [0], imm := .ext 0xF, a := .src .one, build := .bexpect },
   { op := 0x144, types := [0], modx := true, imm := .ext 0xF, d := .dst .one, build := .bflags },
   { op := 0x148, types := tBit, imm := .ext 0xF, a := .src .ty, build := .qpush },
   { op := 0x149, types := tBit, imm := .ext 0xF, d := .dst .ty, build := .qpop },
   { op := 0x14A, types := tBit, imm := .ext 0xFF, a := .src .two, b := .src .ty, build := .gpush },
   { op := 0x14B, types := tBit, imm := .ext 0xFF, d := .dst .ty, a := .src .two, build := .gpop },
   { op := 0x150, types := [0], imm := .ext 0xFFFFFF, build := .wait },
   { op := 0x151, types := [0], imm := .ext 7, a := .src .one, build := .waitr },
   { op := 0x152, types := tBit, modx := true, imm := .ext 0x1FF, d := .dst .ty, a := .src .two, b := .src .ty,
     build := .waitaddr },
   { op := 0x153, types := [0], imm := .ext 7, a := .src .two, build := .wake }]

/-- R167, R188, R193, R203, R210: compressed arrays, transfer engine, matrix, proposals, generator. -/
def rowsEngine : List Row :=
  [{ op := 0x160, types := [8, 9], imm := .imm, d := .dst .ty, a := .src .one, b := .src .one, build := .zld },
   { op := 0x161, types := [8, 9], imm := .imm, d := .dsrc .ty, a := .src .one, b := .src .one, build := .zst },
   { op := 0x162, types := [8, 9], imm := .imm, d := .dsrc .one, a := .src .two, b := .src .one, build := .zldb },
   { op := 0x163, types := [8, 9], imm := .imm, d := .dsrc .one, a := .src .two, b := .src .one, build := .zstb },
   { op := 0x164, types := [0], modx := true, imm := .imm, a := .src .two, b := .src .one,
     build := fun f => if f.modx then .zflushAll f else .zflush f },
   { op := 0x168, types := [0], a := .sreg .one, build := .copy },
   { op := 0x169, types := [0], a := .sreg .one, build := .copyl },
   { op := 0x180, types := [0], whole := true, d := .tile, build := .mzero },
   { op := 0x181, types := [8, 9, 10, 11], whole := true, imm := .ext 0x1FFF, d := .tile, a := .sreg .one, build := .mload },
   { op := 0x182, types := tElem, round := true, sat := true, modx := true, whole := true, imm := .ext 0x1FFF,
     d := .tile, a := .sreg .one, build := .mstore },
   { op := 0x183, types := [0], round := true, sat := true, whole := true, imm := .ext 0x3FFF, d := .tile,
     a := .sreg .one, b := .sreg .one, build := .mmac },
   { op := 0x184, types := [0], round := true, sat := true, whole := true, imm := .ext 0x3FFF, d := .tile,
     a := .sreg .one, b := .sreg .one, build := .mmacs },
   { op := 0x185, types := [0], round := true, sat := true, whole := true, imm := .ext 0x3FFF, d := .tile,
     a := .sreg .one, b := .sreg .one, build := .mmacg },
   { op := 0x186, types := [0], whole := true, imm := .ext allOnes, d := .tile, a := .tile, build := .msmax },
   { op := 0x187, types := [8, 9], round := true, modx := true, whole := true, imm := .ext 0x1FFF, d := .tile,
     a := .sreg .drain, build := fun f => if f.imm.getLsbD 0 then .mdrainSpad f else .mdrain f },
   { op := 0x188, types := tElem, whole := true, imm := .ext 0x3FFFFFFF, a := .sreg .one, b := .sreg .one, build := .planes },
   { op := 0x1A0, types := [0], build := .prop },
   { op := 0x1A1, types := [8, 9], d := .pdst, a := .src .ty, b := .src .ty, build := .accept },
   { op := 0x1A2, types := [0], build := .pdrop },
   { op := 0x1A3, types := tBit, d := .dst .ty, a := .code, build := .peek },
   { op := 0x1A4, types := [14], uni := .may, imm := .imm, d := .dst .one, a := .src .one, b := .src .one, build := .rng },
   { op := 0x1A5, types := [8], uni := .may, imm := .imm, d := .dst .one, a := .src .one, b := .src .one, build := .rngf }]

/-- R84: every assigned opcode. -/
def rows : List Row :=
  rowsControl ++ rowsInt ++ rowsFp ++ rowsConv ++ rowsLane ++ rowsMem ++ rowsSync ++ rowsEngine

/-- The row of an opcode; none where R84 leaves it unassigned (R85). -/
def rowOf (op : Nat) : Option Row := rows.find? (fun r => r.op == op)

/-- Field `n` bits from bit `lo` of IMM32. -/
def immField (imm : W32) (lo n : Nat) : Nat := (imm.toNat >>> lo) % 2 ^ n

/-- The fields of the word that choose a form of an opcode. -/
structure Sel where
  op   : Nat
  ty   : Nat
  round : Nat
  sat  : Bool
  modx : Bool
  imm  : W32

/-- The slots of a word, where an entry makes a field depend on MODX or IMM32 (R88, R125, R211, R215). -/
def Row.slots (row : Row) (x : Sel) : Slot × Slot × Slot :=
  let d := if row.op == 0x0CB && immField x.imm 0 2 == 3 then .dst .one
    else if row.op == 0x00D && x.modx then .unused else row.d
  let a := if row.op == 0x003 && !x.modx then .unused
    else if row.op == 0x004 && x.modx then .unused
    else if row.op == 0x00C && x.modx then .unused
    else if row.op == 0x010 && immField x.imm 3 2 == 2 then .unused else row.a
  let b := if row.op == 0x010 && immField x.imm 3 2 != 1 then .unused else row.b
  (d, a, b)

/-- Whether an operand of width `w` is a pair in this word. -/
def Wd.wide (w : Wd) (x : Sel) : Bool :=
  match w with
  | .ty => wideCode x.ty
  | .one => false
  | .two => true
  | .cvt => wideCode (immField x.imm 0 4)
  | .dot => x.ty == 10 || x.ty == 11
  | .spad => !x.imm.getLsbD 9
  | .drain => !x.imm.getLsbD 0

/-- Whether the scope code is one of R76. -/
def scopeOk (imm : W32) : Bool := immField imm 0 3 ≤ 5

/-- The field combinations that an entry excludes at step 2 of R83: R76 scopes, R106, R117 to R119, R127, R133, R137,
R143, R146, R164, R165, R167, R211, R215. -/
def extraOk (x : Sel) : Bool :=
  let f := immField x.imm
  match x.op with
  | 0x010 => scopeOk x.imm && f 3 2 != 3
  | 0x03B => (if x.modx then 4 else 0) + x.round < 6
  | 0x0B8 => f 0 4 < 14
  | 0x0B9 => !(x.modx && (x.ty == 4 || x.ty == 5 || x.ty == 10 || x.ty == 11))
  | 0x0BA => f 0 2 < 2 || !(x.ty == 4 || x.ty == 5 || x.ty == 10 || x.ty == 11)
  | 0x0CD =>
    let op := f 0 3
    let fp := x.ty == 8 || x.ty == 9
    (if op == 0 then x.ty ≤ 3 || fp else if op ≤ 2 then x.ty ≤ 3 || fp else op ≤ 5 && (x.ty == 14 || x.ty == 3)) &&
    (x.round == 0 || (op == 0 && fp)) && (!x.sat || (op == 0 && x.ty ≤ 3))
  | 0x0E0 | 0x0E1 | 0x0E6 =>
    scopeOk x.imm && f 3 2 != 3 && (f 3 2 != 0 || f 0 3 == 0) && f 7 2 != 3 &&
    (f 7 2 == 0 || x.ty == 3 || x.ty == 14) && (!x.modx || f 3 2 == 2)
  | 0x0E2 | 0x0E3 => (f 3 2 == 0 || f 3 2 == 2) && f 7 2 != 3 && (f 7 2 == 0 || x.ty == 3 || x.ty == 14)
  | 0x0E4 | 0x0E5 => f 7 2 != 3 && (f 7 2 == 0 || x.ty == 3 || x.ty == 14)
  | 0x0E7 => f 0 2 ≤ 1
  | 0x120 | 0x121 =>
    let op := f 5 4
    let fp := x.ty == 8 || x.ty == 9
    scopeOk x.imm && (if op ≤ 2 then x.ty ≤ 3 || fp else op ≤ 7 && (x.ty == 3 || x.ty == 14)) &&
    (x.round == 0 || (op == 0 && fp)) && (f 9 1 == 0 || f 0 3 == 0) &&
    (if x.op == 0x120 then !x.modx || f 3 2 == 1 || f 3 2 == 3 else op ≤ 5 && (f 3 2 == 0 || f 3 2 == 2))
  | 0x122 => scopeOk x.imm && f 3 2 != 3 && (!x.modx || f 3 2 ≤ 1)
  | 0x14A | 0x14B => scopeOk x.imm
  | 0x151 => 1 ≤ f 0 3 && f 0 3 ≤ 5
  | 0x152 => scopeOk x.imm && (!x.modx || x.imm.getLsbD 3)
  | 0x153 => scopeOk x.imm
  | 0x187 => x.imm.getLsbD 0 || f 1 12 == 0
  | _ => true

/-- What IMM32 holds in a form of an opcode: CALL `.ind` and the special-register forms of SREAD and SWRITE give it no use
(R88, R211). -/
def Row.use (row : Row) (x : Sel) : ImmUse :=
  if (row.op == 0x003 && x.modx) || ((row.op == 0x00C || row.op == 0x00D) && !x.modx) then .zero else row.imm

/-- Whether IMM32 holds only what the opcode gives it a use for (R71, R76); `named` when an operand is 0xE0, which step 3
then refuses where the opcode admits no immediate. -/
def ImmUse.ok (u : ImmUse) (named : Bool) (imm : W32) : Bool :=
  match u with
  | .imm | .zero => named || imm == 0
  | .ext m => imm.toNat ||| m == m

/-- The steps that every word passes but for its operand fields: TYPE, ROUND, SAT, MODX, UNIFORM, SYM, guard, extension
(R74, R77, R81, R82, R83 step 2). LDU writes no v register; XCHG and GPOP write a predicate beside D. R82 is read by the form: VOTE
`.ballot`, which writes a v register, admits SYM, though VOTE in its other modes writes a predicate (DEDUCED, log 102). -/
def Row.admits (row : Row) (x : Sel) (uniform sym guardZero : Bool) : Bool :=
  let slots := row.slots x
  row.types.contains x.ty && (row.round || x.round == 0) && (row.sat || !x.sat) && (row.modx || !x.modx) &&
  (match row.uni with | .no => !uniform | .may => true | .must => uniform) &&
  (!sym || (match slots.1 with | .dst _ => row.op != 0x0E6 && row.op != 0x0CE && row.op != 0x14B | _ => false)) &&
  (!row.whole || guardZero) && extraOk x

/-- The code of an operand (R70, R120, R168). -/
def operandCode : Operand → BitVec 8
  | .none => 0
  | .v n => BitVec.ofNat 8 n.val
  | .s n => BitVec.ofNat 8 (0x80 + n.val)
  | .special r => BitVec.ofNat 8 (specialCode r)
  | .imm => 0xE0
  | .zero => 0xE1
  | .pred inv n => BitVec.ofNat 8 ((if inv then 32 else 0) + n.val)
  | .tile n => BitVec.ofNat 8 n.val
  | .code c => c

/-- A source code read by R70. -/
def srcOfCode (c : Nat) : Option Operand :=
  if c < 0x80 then some (.v (Fin.ofNat 128 c))
  else if c < 0xC0 then some (.s (Fin.ofNat 64 (c - 0x80)))
  else if c == 0xE0 then some .imm
  else if c == 0xE1 then some .zero
  else (specialOfCode c).map .special

/-- The operand that a field of kind `slot` names; none where the code is not legal there. -/
def Slot.read (slot : Slot) (c : BitVec 8) : Option Operand :=
  match slot with
  | .unused => some .none
  | .dst _ | .dsrc _ => if c.toNat < 0xC0 then srcOfCode c.toNat else none
  | .pdst => some (.pred false (Fin.ofNat 32 (c.toNat % 32)))
  | .psrc => some (.pred (c.getLsbD 5) (Fin.ofNat 32 (c.toNat % 32)))
  | .src _ => srcOfCode c.toNat
  | .special => (specialOfCode c.toNat).map .special
  | .sreg _ => if c.toNat == 0xE1 then some .zero
    else if 0x80 ≤ c.toNat && c.toNat < 0xC0 then some (.s (Fin.ofNat 64 (c.toNat - 0x80))) else none
  | .tile => if c.toNat < 8 then some (.tile (Fin.ofNat 8 c.toNat)) else none
  | .code => some (.code c)

/-- Step 2 for one operand field: unused fields hold 0x00, predicate fields keep their upper bits zero (R71, R120). -/
def Slot.clean (slot : Slot) (c : BitVec 8) : Bool :=
  match slot with
  | .unused => c == 0
  | .pdst => c.toNat < 32
  | .psrc => c.toNat < 64
  | _ => true

/-- Whether a register operand is even where it is a pair (R71). -/
def evenOk (wide : Bool) : Operand → Bool
  | .v n => !wide || n.val % 2 == 0
  | .s n => !wide || n.val % 2 == 0
  | _ => true

def Slot.wd : Slot → Wd
  | .dst w | .dsrc w | .src w | .sreg w => w
  | _ => .one

/-- Step 3 for one operand: the form fits the slot, a pair is even, 0xE0 stands only where IMM32 is imm, and the
register kind agrees with UNIFORM (R71, R81). The address of a global MDRAIN is no zero (R168). DEDUCED (log 87): an entry
that lists registers for a source excludes neither 0xE1 nor a special register, and one that marks IMM32 for B admits 0xE0
in A too. -/
def operandOk (row : Row) (x : Sel) (uniform : Bool) (slot : Slot) (o : Operand) : Bool :=
  evenOk (slot.wd.wide x) o &&
  (match slot, o with
   | .unused, .none => true
   | .dst _, .v _ => !uniform
   | .dst _, .s _ => uniform
   | .dsrc _, .v _ => true
   | .dsrc _, .s _ => true
   | .pdst, .pred inv _ => !inv
   | .psrc, .pred _ _ => true
   | .src _, .v _ => !uniform
   | .src _, .s _ => true
   | .src _, .special r => !(uniform && perStrand r)
   | .src _, .imm => row.imm == .imm
   | .src _, .zero => true
   | .special, .special r => !(uniform && perStrand r)
   | .sreg _, .s _ => true
   | .sreg w, .zero => !(w == .drain && w.wide x)
   | .tile, .tile _ => true
   | .code, .code _ => true
   | _, _ => false)

/-- Step 3 for SYM: D lies in v96 to v111, a pair whole, and never with UNIFORM (R82). -/
def symOk (wide uniform : Bool) : Operand → Bool
  | .v n => !uniform && 96 ≤ n.val && n.val + (if wide then 1 else 0) ≤ 111
  | _ => false

/-- Step 3 for all three operands (R83). -/
def Row.operandsOk (row : Row) (x : Sel) (uniform sym : Bool) (d a b : Operand) : Bool :=
  let slots := row.slots x
  operandOk row x uniform slots.1 d && operandOk row x uniform slots.2.1 a && operandOk row x uniform slots.2.2 b &&
  (!sym || symOk (slots.1.wd.wide x) uniform d)

/-- The opcode and the fields of an instruction; none of an event of the device, which is no word. -/
def wordOf : Instr → Option (Nat × Fields)
  | .nop f => some (0x000, f) | .bra f => some (0x001, f) | .brx f => some (0x002, f)
  | .call f => some (0x003, f) | .callInd f => some (0x003, f) | .ret f => some (0x004, f)
  | .retTrap f => some (0x004, f) | .exit f => some (0x005, f) | .trap f => some (0x006, f)
  | .bkpt f => some (0x007, f) | .yield f => some (0x008, f) | .launch f => some (0x009, f)
  | .phase f => some (0x00A, f) | .tokpass f => some (0x00B, f) | .sread f => some (0x00C, f)
  | .sreadCtl f => some (0x00C, f) | .swrite f => some (0x00D, f) | .swriteCtl f => some (0x00D, f)
  | .capture f => some (0x00E, f) | .restore f => some (0x00F, f) | .tlbinvPage f => some (0x010, f)
  | .tlbinvRange f => some (0x010, f) | .tlbinvAll f => some (0x010, f) | .poisonclr f => some (0x011, f)
  | .add f => some (0x020, f) | .sub f => some (0x021, f) | .mul f => some (0x022, f)
  | .mulhi f => some (0x023, f) | .mad f => some (0x024, f) | .div f => some (0x025, f)
  | .rem f => some (0x026, f) | .min f => some (0x027, f) | .max f => some (0x028, f)
  | .abs f => some (0x029, f) | .neg f => some (0x02A, f) | .and f => some (0x02B, f)
  | .or f => some (0x02C, f) | .xor f => some (0x02D, f) | .not f => some (0x02E, f)
  | .shl f => some (0x030, f) | .shr f => some (0x031, f) | .sar f => some (0x032, f)
  | .rot f => some (0x033, f) | .clz f => some (0x034, f) | .popc f => some (0x035, f)
  | .brev f => some (0x036, f) | .bfx f => some (0x037, f) | .bfi f => some (0x038, f)
  | .lea f => some (0x039, f) | .sel f => some (0x03A, f) | .cmp f => some (0x03B, f)
  | .mov f => some (0x03C, f) | .addmin f => some (0x03D, f) | .fadd f => some (0x060, f)
  | .fsub f => some (0x061, f) | .fmul f => some (0x062, f) | .ffma f => some (0x063, f)
  | .fmin f => some (0x064, f) | .fmax f => some (0x065, f) | .fabs f => some (0x066, f)
  | .fneg f => some (0x067, f) | .fcmp f => some (0x068, f) | .fclass f => some (0x069, f)
  | .fdiv f => some (0x06A, f) | .fsqrt f => some (0x06B, f) | .frnd f => some (0x06C, f)
  | .fscale f => some (0x06D, f) | .faddmin f => some (0x06E, f) | .fdot4 f => some (0x06F, f)
  | .frcpAuto f => some (0x0A0, f) | .frsqAuto f => some (0x0A1, f) | .fexp2Auto f => some (0x0A2, f)
  | .flog2Auto f => some (0x0A3, f) | .fsinAuto f => some (0x0A4, f) | .fcosAuto f => some (0x0A5, f)
  | .frcpFast f => some (0x0A8, f) | .frsqFast f => some (0x0A9, f) | .fexp2Fast f => some (0x0AA, f)
  | .flog2Fast f => some (0x0AB, f) | .fsinFast f => some (0x0AC, f) | .fcosFast f => some (0x0AD, f)
  | .frcpExact f => some (0x0B0, f) | .frsqExact f => some (0x0B1, f) | .fexp2Exact f => some (0x0B2, f)
  | .flog2Exact f => some (0x0B3, f) | .fsinExact f => some (0x0B4, f) | .fcosExact f => some (0x0B5, f)
  | .cvt f => some (0x0B8, f) | .pack f => some (0x0B9, f) | .unpack f => some (0x0BA, f)
  | .pand f => some (0x0C0, f) | .por f => some (0x0C1, f) | .pxor f => some (0x0C2, f)
  | .pnot f => some (0x0C3, f) | .pmov f => some (0x0C4, f) | .pcount f => some (0x0C5, f)
  | .lshup f => some (0x0C8, f) | .lshdn f => some (0x0C9, f) | .shfl f => some (0x0CA, f)
  | .vote f => some (0x0CB, f) | .elect f => some (0x0CC, f) | .redux f => some (0x0CD, f)
  | .xchg f => some (0x0CE, f) | .ld f => some (0x0E0, f) | .st f => some (0x0E1, f)
  | .lds f => some (0x0E2, f) | .sts f => some (0x0E3, f) | .ldp f => some (0x0E4, f)
  | .stp f => some (0x0E5, f) | .ldu f => some (0x0E6, f) | .pref f => some (0x0E7, f)
  | .atom f => some (0x120, f) | .red f => some (0x121, f) | .fence f => some (0x122, f)
  | .binit f => some (0x140, f) | .barrive f => some (0x141, f) | .bwait f => some (0x142, f)
  | .bexpect f => some (0x143, f) | .bflags f => some (0x144, f) | .qpush f => some (0x148, f)
  | .qpop f => some (0x149, f) | .gpush f => some (0x14A, f) | .gpop f => some (0x14B, f)
  | .wait f => some (0x150, f) | .waitr f => some (0x151, f) | .waitaddr f => some (0x152, f)
  | .wake f => some (0x153, f) | .zld f => some (0x160, f) | .zst f => some (0x161, f)
  | .zldb f => some (0x162, f) | .zstb f => some (0x163, f) | .zflush f => some (0x164, f)
  | .zflushAll f => some (0x164, f) | .copy f => some (0x168, f) | .copyl f => some (0x169, f)
  | .mzero f => some (0x180, f) | .mload f => some (0x181, f) | .mstore f => some (0x182, f)
  | .mmac f => some (0x183, f) | .mmacs f => some (0x184, f) | .mmacg f => some (0x185, f)
  | .msmax f => some (0x186, f) | .mdrain f => some (0x187, f) | .mdrainSpad f => some (0x187, f)
  | .planes f => some (0x188, f) | .prop f => some (0x1A0, f) | .accept f => some (0x1A1, f)
  | .pdrop f => some (0x1A2, f) | .peek f => some (0x1A3, f) | .rng f => some (0x1A4, f)
  | .rngf f => some (0x1A5, f)
  | .xchgPairing _ _ => none | .xchgTimeout _ => none | .loadDataReturn _ => none
  | .storePerformed _ _ => none | .writeLeaseWaitEnd _ => none | .queueHeldOperationServed _ _ _ => none
  | .poolSwitchArrival _ => none | .fretWindowExpiry _ => none | .poolOpAtHome _ => none
  | .queueOperationComplete _ => none | .waitaddrReread _ => none | .waitaddrTimeout _ => none
  | .blockBufferEviction _ => none | .transferJobStart _ => none | .transferChunk _ => none
  | .copylIteration _ => none | .transferJobComplete _ => none | .tileOperationStart _ => none
  | .tileOperationComplete _ => none | .globalDrainAtHome _ => none | .fragmentFusion _ _ _ => none
  | .serialFrameAdvance _ _ _ => none | .handlerEntry _ _ => none | .teamKill _ _ => none
  | .pageWalk _ _ _ => none | .l2ReadMiss _ => none | .dramFillArrival _ => none
  | .class3ReadSwitchPass _ _ => none | .l2Writeback _ => none | .recall _ => none
  | .recallTimeout _ => none | .victimWritebackRequest _ _ => none | .writebackGrant _ _ => none
  | .hostSnoop _ _ => none | .hostRead _ _ _ => none | .hostWrite _ _ => none
  | .peerAccessArrival _ _ => none | .linkTrainingLoss _ => none | .linkTrained _ => none
  | .linkFlitResend _ => none | .hostPortFatal _ => none | .lqtail _ _ _ => none
  | .launchAcceptance _ _ _ => none | .eventWordReread _ => none | .teamAdmission _ _ _ _ => none
  | .gridRetirement _ => none | .energyBudgetTick _ => none | .mode _ _ => none | .vtarget _ _ => none
  | .supplyChange _ => none | .registerWrite _ _ => none | .ctxcmdMakeLive _ => none
  | .ctxcmdTearDown _ => none | .ctxcmdCapture _ => none | .ctxcmdRelease _ => none | .capoStop _ => none
  | .parkFlit _ => none | .imageStreamComplete _ => none | .restoreComplete _ => none
  | .bindingClose _ => none | .attcmd _ => none | .attestationReportDone => none | .scrubRead _ => none
  | .deviceReset => none | .powerUp => none | .boot _ _ _ _ => none | .firmwareRecovery _ _ => none
  | .throttleEntry => none | .throttleExit => none | .thermalIssueStall => none | .thermalShutdown => none
  | .powerDown => none | .softError _ _ => none | .creditReturn _ _ _ => none

/-- The fields of a word that choose its form. -/
def selOf (op : Nat) (f : Fields) : Sel :=
  { op, ty := tyCode f.ty, round := rndCode f.round, sat := f.sat, modx := f.modx, imm := f.imm }

/-- The word of an opcode with typed fields. -/
def rawOf (op : Nat) (f : Fields) : Raw where
  op := BitVec.ofNat 9 op
  guard := BitVec.ofNat 5 f.guard.val
  gneg := f.gneg
  r15 := false
  d := operandCode f.d
  a := operandCode f.a
  b := operandCode f.b
  ty := BitVec.ofNat 4 (tyCode f.ty)
  round := BitVec.ofNat 2 (rndCode f.round)
  sat := f.sat
  modx := f.modx
  imm := f.imm
  stall := BitVec.ofNat 4 f.hints.stall.val
  yield := f.hints.yield
  bump := BitVec.ofNat 3 f.hints.bump.val
  energy := BitVec.ofNat 2 f.hints.energy.val
  uniform := f.hints.uniform
  sym := f.hints.sym
  reconv := f.hints.reconv
  reuseA := f.hints.reuseA
  reuseB := f.hints.reuseB
  r95 := false

end Sys2Proof.Encoding
end

