-- ==== Sys2Proof/WellFormed.lean ====
section
/-! DEFINITION. Well-formed instructions: the fields that the encoding tables admit for the opcode (R71 to R83), and for
an event of the device the units and numbers that exist. -/

namespace Sys2Proof

open Sys2Proof.Encoding

/-- A word passes steps 1 to 3 of R83, and its constructor is the one its fields choose. -/
def Fields.wf (op : Nat) (f : Fields) (i : Instr) : Bool :=
  match rowOf op with
  | none => false
  | some row =>
    let x := selOf op f
    row.build f == i && row.admits x f.hints.uniform f.hints.sym (f.guard.val == 0 && !f.gneg) &&
    (row.use x).ok (f.a == .imm || f.b == .imm) f.imm && row.operandsOk x f.hints.uniform f.hints.sym f.d f.a f.b

/-- Cores of the device: four dies of 512 (R35). -/
abbrev coreCount : Nat := 2048

/-- Contexts of the device (R328, R348). -/
abbrev ctxCount : Nat := 64

/-- An event names units and numbers that the device has. -/
def Instr.argsOk : Instr → Bool
  | .queueHeldOperationServed c _ q => c < coreCount && q < 16
  | .tileOperationStart c | .tileOperationComplete c | .globalDrainAtHome c | .supplyChange c | .capoStop c
  | .imageStreamComplete c | .restoreComplete c | .bindingClose c => c < coreCount
  | .fragmentFusion c k e | .serialFrameAdvance c k e => c < coreCount && k < 16 && e < 8
  | .handlerEntry c k => c < coreCount && k < 16
  | .teamKill c _ => c < coreCount
  | .boot _ fenced pcie b =>
    fenced.all (· < coreCount) && pcie.all (· < 4) && b.ecaps.all (fun e => e.1 < coreCount && 16 ≤ e.2 && e.2 ≤ 64) &&
      b.apertures.all (fun a => a.1 < 18)
  | .pageWalk a _ cs => a < ctxCount && cs.all (· < coreCount)
  | .victimWritebackRequest d _ | .writebackGrant d _ | .hostPortFatal d => d < 4
  | .linkTrainingLoss l | .linkTrained l | .linkFlitResend l => l < 18
  | .peerAccessArrival l _ => l < 18
  | .hostRead _ _ (some p) => p < 4
  | .lqtail a q _ => a < ctxCount && q < 8
  | .launchAcceptance a q child => a < ctxCount && (child || q < 8)
  | .energyBudgetTick a | .mode a _ | .vtarget a _ | .ctxcmdMakeLive a | .ctxcmdTearDown a | .ctxcmdCapture a
  | .ctxcmdRelease a => a < ctxCount
  | .registerWrite (.ctx a _) _ => a < ctxCount
  | .teamAdmission _ _ c r => c < coreCount && r < 16
  | .class3ReadSwitchPass _ k => k < 52
  | .softError ⟨.core c _, _⟩ n | .softError ⟨.tlb c _ _, _⟩ n => c < coreCount && 0 < n
  | .softError ⟨.copy d _, _⟩ n | .softError ⟨.buffer d, _⟩ n => d < 4 && 0 < n
  | .softError _ n => 0 < n
  | .creditReturn c k _ => c < coreCount && k < 4
  | _ => true

/-- The instruction is one that the spec gives. -/
def Instr.wf (i : Instr) : Bool :=
  match wordOf i with
  | some (op, f) => f.wf op i
  | none => i.argsOk

end Sys2Proof
end

