-- ==== Sys2Proof/Decode.lean ====
section
/-! DEFINITION. From bits to instructions by the first three steps of R83, and back. -/

namespace Sys2Proof

open Sys2Proof.Encoding

/-- Why a word is no instruction, by the trap that R83 gives it. -/
inductive Reject where
  | illegalOpcode
  | reservedField
  | illegalOperand
  deriving DecidableEq, Repr

/-- The fields of a word whose type code, BUMP and operands have been read. -/
def fieldsOf (r : Raw) (t : Ty) (d a b : Operand) : Fields where
  guard := Fin.ofNat 32 r.guard.toNat
  gneg := r.gneg
  d := d
  a := a
  b := b
  ty := t
  round := rndOfCode r.round.toNat
  sat := r.sat
  modx := r.modx
  imm := r.imm
  hints := { reuseB := r.reuseB, reuseA := r.reuseA, reconv := r.reconv, sym := r.sym, uniform := r.uniform,
             energy := Fin.ofNat 4 r.energy.toNat, bump := Fin.ofNat 6 r.bump.toNat, yield := r.yield,
             stall := Fin.ofNat 16 r.stall.toNat }

/-- Step 2 of R83. -/
def stepTwoOk (row : Row) (x : Sel) (r : Raw) : Bool :=
  let slots := row.slots x
  let named (s : Slot) (c : BitVec 8) : Bool := match s with | .unused | .pdst | .psrc | .code => false | _ => c == 0xE0
  !r.r15 && !r.r95 && r.bump.toNat ≤ 5 &&
  row.admits x r.uniform r.sym (r.guard.toNat == 0 && !r.gneg) &&
  slots.1.clean r.d && slots.2.1.clean r.a && slots.2.2.clean r.b &&
  (row.use x).ok (named slots.1 r.d || named slots.2.1 r.a || named slots.2.2 r.b) r.imm

/-- Steps 1 to 3 of R83, in their order. -/
def decodeRaw (r : Raw) : Except Reject Instr :=
  match rowOf r.op.toNat with
  | none => .error .illegalOpcode
  | some row =>
    let x : Sel := { op := r.op.toNat, ty := r.ty.toNat, round := r.round.toNat, sat := r.sat, modx := r.modx,
                     imm := r.imm }
    match tyOfCode r.ty.toNat, stepTwoOk row x r with
    | some t, true =>
      let slots := row.slots x
      match slots.1.read r.d, slots.2.1.read r.a, slots.2.2.read r.b with
      | some d, some a, some b =>
        if row.operandsOk x r.uniform r.sym d a b then .ok (row.build (fieldsOf r t d a b))
        else .error .illegalOperand
      | _, _, _ => .error .illegalOperand
    | _, _ => .error .reservedField

/-- The instruction that a 96-bit word is (R68, R83, R85). -/
def decode (w : BitVec 96) : Except Reject Instr := decodeRaw (Raw.ofWord w)

/-- The word of an instruction; an event of the device has none. -/
def encode (i : Instr) : Option (BitVec 96) := (wordOf i).map (fun p => (rawOf p.1 p.2).toWord)

/-- The 12 bytes of a word in memory: little-endian from the first (R68). -/
def bytesOfWord (w : BitVec 96) : List Byte := (List.range 12).map (fun k => w.extractLsb' (8 * k) 8)

/-- The word of 12 bytes in memory (R68). -/
def wordOfBytes (bs : List Byte) : BitVec 96 :=
  BitVec.ofNat 96 (bs.foldr (fun b acc => b.toNat + 256 * acc) 0)

/-- The instruction of a word given by its low `nbits` bits, the bits above them zero. -/
def decodeTableWord (nbits w : Nat) : Option Instr :=
  (decode (wordOfBytes (bytesOfWord (BitVec.ofNat 96 (w % 2 ^ nbits))))).toOption

end Sys2Proof
end

