-- ==== Sys2Proof/Machine/Flags.lean ====
section
/-! DEFINITION. The sticky flags of %status [7:0] (R36). -/

namespace Sys2Proof.Machine

abbrev Flags := BitVec 8

def Flags.none : Flags := 0x00
def Flags.invalid : Flags := 0x01
def Flags.divzero : Flags := 0x02
def Flags.overflow : Flags := 0x04
def Flags.underflow : Flags := 0x08
def Flags.inexact : Flags := 0x10
def Flags.nonfinite : Flags := 0x20
def Flags.poisoned : Flags := 0x40
def Flags.ragged : Flags := 0x80

/-- A flag where a condition holds. -/
def Flags.when (b : Bool) (f : Flags) : Flags := if b then f else 0

end Sys2Proof.Machine
end

