-- ==== Sys2Proof/Machine/Numbers.lean ====
section
/-! DEFINITION. Integers and floating-point formats, rounding and the exact operations under them (R40 to R51). -/

namespace Sys2Proof.Machine

/-! ### Integer types (R40, R41) -/

/-- The width of a type's values. -/
def tyBits : Ty → Nat
  | .i32 | .n32 | .f32 | .b32 => 32
  | .i64 | .n64 | .f64 => 64
  | .i16 | .n16 | .f16 | .bf16 => 16
  | .i8 | .n8 | .e4m3 | .e5m2 => 8

/-- Whether a type's values take a pair of registers. -/
def tyWide (t : Ty) : Bool := tyBits t == 64

/-- The bytes of one element. -/
def tyBytes (t : Ty) : Nat := tyBits t / 8

def tySigned : Ty → Bool
  | .i32 | .i64 | .i16 | .i8 => true
  | _ => false

def tyFloat : Ty → Bool
  | .f32 | .f64 | .f16 | .bf16 | .e4m3 | .e5m2 => true
  | _ => false

/-- The integer that a register holds: its low bits, signed or not (R41). -/
def intOf (t : Ty) (x : W64) : Int :=
  let w := tyBits t
  let n := x.toNat % 2 ^ w
  if tySigned t ∧ 2 ^ (w - 1) ≤ n then (n : Int) - 2 ^ w else n

def tyLo (t : Ty) : Int := if tySigned t then -(2 ^ (tyBits t - 1)) else 0
def tyHi (t : Ty) : Int := if tySigned t then 2 ^ (tyBits t - 1) - 1 else 2 ^ tyBits t - 1

/-- An integer in a register: extended to 32 bits by its type, or all 64 bits (R41). -/
def regOfInt (t : Ty) (x : Int) : W64 :=
  if tyWide t then BitVec.ofInt 64 x
  else (BitVec.ofInt 32 (intOf t (BitVec.ofInt 64 x))).setWidth 64

/-- An exact result brought into range: wrapped, or saturated under SAT (R40). -/
def fitInt (t : Ty) (sat : Bool) (x : Int) : W64 :=
  regOfInt t (if sat then min (max x (tyLo t)) (tyHi t) else x)

/-- An integer in a register extended from `bits` low bits by a type (R41). -/
def extend (t : Ty) (x : W64) : W64 := regOfInt t (intOf t x)

/-! ### Floating-point formats (R42 to R44) -/

/-- A format: exponent bits, fraction bits, bias, and the significand of its largest finite number. -/
structure Fmt where
  ebits : Nat
  fbits : Nat
  bias  : Nat
  inf   : Bool
  deriving DecidableEq, Repr

def fmtOf : Ty → Fmt
  | .f64 => ⟨11, 52, 1023, true⟩
  | .f16 => ⟨5, 10, 15, true⟩
  | .bf16 => ⟨8, 7, 127, true⟩
  | .e5m2 => ⟨5, 2, 15, true⟩
  | .e4m3 => ⟨4, 3, 7, false⟩
  | _ => ⟨8, 23, 127, true⟩

/-- Significand width, the hidden bit included. -/
def Fmt.w (f : Fmt) : Nat := f.fbits + 1
/-- The exponent of the smallest normal number. -/
def Fmt.emin (f : Fmt) : Int := 1 - (f.bias : Int)
/-- The exponent of the unit of the smallest subnormal. -/
def Fmt.qmin (f : Fmt) : Int := f.emin - f.fbits
/-- Significand and unit of the largest finite number. -/
def Fmt.maxM (f : Fmt) : Nat := if f.inf then 2 ^ f.w - 1 else 2 ^ f.w - 2
def Fmt.maxQ (f : Fmt) : Int := (if f.inf then (f.bias : Int) else f.bias + 1) - f.fbits
def Fmt.signBit (f : Fmt) (neg : Bool) : Nat := if neg then 2 ^ (f.ebits + f.fbits) else 0

/-- A floating-point value: a NaN, an infinity, or ±m × 2^e. -/
inductive Fp where
  | nan (signalling : Bool)
  | inf (neg : Bool)
  | fin (neg : Bool) (m : Nat) (e : Int)
  deriving DecidableEq, Repr

/-- The value of a bit pattern (R42, R43). -/
def Fmt.decode (f : Fmt) (x : W64) : Fp :=
  let frac := x.toNat % 2 ^ f.fbits
  let ex := x.toNat / 2 ^ f.fbits % 2 ^ f.ebits
  let neg := x.toNat / 2 ^ (f.ebits + f.fbits) % 2 == 1
  if f.inf then
    if ex = 2 ^ f.ebits - 1 then
      if frac = 0 then .inf neg else .nan (frac < 2 ^ (f.fbits - 1))
    else if ex = 0 then .fin neg frac f.qmin
    else .fin neg (2 ^ f.fbits + frac) (f.qmin + ex - 1)
  else if ex = 2 ^ f.ebits - 1 ∧ frac = 2 ^ f.fbits - 1 then .nan false
  else if ex = 0 then .fin neg frac f.qmin
  else .fin neg (2 ^ f.fbits + frac) (f.qmin + ex - 1)

/-- The canonical NaN (R44). -/
def Fmt.canonNan (f : Fmt) : W64 :=
  BitVec.ofNat 64 (if f.inf then (2 ^ f.ebits - 1) * 2 ^ f.fbits + 2 ^ (f.fbits - 1) else 0x7F)

def Fmt.infinity (f : Fmt) (neg : Bool) : W64 := BitVec.ofNat 64 (f.signBit neg + (2 ^ f.ebits - 1) * 2 ^ f.fbits)

/-- The encoding of significand `n` at unit 2^q, already within the format. -/
def Fmt.encode (f : Fmt) (neg : Bool) (n : Nat) (q : Int) : W64 :=
  if n < 2 ^ f.fbits then BitVec.ofNat 64 (f.signBit neg + n)
  else BitVec.ofNat 64 (f.signBit neg + (q - f.qmin + 1).toNat * 2 ^ f.fbits + (n - 2 ^ f.fbits))

def Fmt.largest (f : Fmt) (neg : Bool) : W64 := f.encode neg f.maxM f.maxQ
def Fmt.zero (f : Fmt) (neg : Bool) : W64 := BitVec.ofNat 64 (f.signBit neg)

/-- The number of bits of a number. -/
def bitLen (n : Nat) : Nat := if n = 0 then 0 else Nat.log2 n + 1

/-- A significand cut by `sh` bits in a rounding direction, and whether anything was lost (R46). -/
def roundShift (mode : Rnd) (neg : Bool) (m sh : Nat) : Nat × Bool :=
  let n := m / 2 ^ sh
  let r := m % 2 ^ sh
  let up := match mode with
    | .rne => 2 ^ sh < 2 * r || (2 * r == 2 ^ sh && n % 2 == 1)
    | .rtz => false
    | .rup => r != 0 && !neg
    | .rdn => r != 0 && neg
  (if up then n + 1 else n, r != 0)

/-- ±m × 2^e as significand at the unit 2^q, exact where q is at most e. -/
def scaleTo (mode : Rnd) (neg : Bool) (m : Nat) (e q : Int) : Nat × Bool :=
  if q ≤ e then (m * 2 ^ (e - q).toNat, false) else roundShift mode neg m (q - e).toNat

/-- Which of infinity and the largest finite number a finite overflow gives (R46). -/
def overflowToInf (mode : Rnd) (neg : Bool) : Bool :=
  match mode with
  | .rne => true | .rtz => false | .rup => !neg | .rdn => neg

/-- An infinity in a format: e4m3 has none (R49). -/
def Fmt.giveInf (f : Fmt) (neg sat : Bool) : W64 × Flags :=
  if f.inf then (f.infinity neg, Flags.none)
  else if sat then (f.largest neg, Flags.none) else (f.canonNan, Flags.invalid)

/-- ±m × 2^e rounded once into a format (R46 to R49). -/
def Fmt.round (f : Fmt) (mode : Rnd) (sat : Bool) (neg : Bool) (m : Nat) (e : Int) : W64 × Flags :=
  if m = 0 then (f.zero neg, Flags.none)
  else
    let free : Int := (bitLen m : Int) + e - f.w
    let q := max free f.qmin
    let r := scaleTo mode neg m e q
    let carry := 2 ^ f.w ≤ r.1
    let n := if carry then r.1 / 2 else r.1
    let q := if carry then q + 1 else q
    let u := scaleTo mode neg m e free
    let tiny := free + f.w - 1 + (if 2 ^ f.w ≤ u.1 then 1 else 0) < f.emin
    if f.maxQ < q ∨ (q = f.maxQ ∧ f.maxM < n) then
      let v := if overflowToInf mode neg && !sat then (if f.inf then f.infinity neg else f.canonNan) else f.largest neg
      (v, Flags.overflow ||| Flags.inexact)
    else (f.encode neg n q, Flags.when r.2 Flags.inexact ||| Flags.when (r.2 && tiny) Flags.underflow)

/-- Whether an encoded value is subnormal. -/
def Fmt.subnormal (f : Fmt) (x : W64) : Bool :=
  x.toNat / 2 ^ f.fbits % 2 ^ f.ebits == 0 && x.toNat % 2 ^ f.fbits != 0

/-- A subnormal result under flush-to-zero (R45). -/
def Fmt.flushOut (f : Fmt) (ftz : Bool) (r : W64 × Flags) : W64 × Flags :=
  if ftz && f.subnormal r.1 then
    (f.zero (r.1.toNat / 2 ^ (f.ebits + f.fbits) % 2 == 1), r.2 ||| Flags.underflow ||| Flags.inexact)
  else r

/-- A subnormal operand under flush-to-zero (R45). -/
def Fmt.flushIn (f : Fmt) (ftz : Bool) (x : Fp) : Fp :=
  match x with
  | .fin neg m e => if ftz && m < 2 ^ f.fbits then .fin neg 0 e else .fin neg m e
  | x => x

/-! ### Exact values -/

/-- ±m × 2^e as a signed integer at a unit no larger than its own. -/
def signedAt (neg : Bool) (m : Nat) (e q : Int) : Int :=
  let n : Int := m * 2 ^ (e - q).toNat
  if neg then -n else n

/-- The exact sum of two finite values, at the smaller unit. -/
def addFin (n₁ : Bool) (m₁ : Nat) (e₁ : Int) (n₂ : Bool) (m₂ : Nat) (e₂ : Int) : Int × Int :=
  let q := min e₁ e₂
  (signedAt n₁ m₁ e₁ q + signedAt n₂ m₂ e₂ q, q)

/-- The sign of an exact zero sum (R47). -/
def zeroSign (mode : Rnd) (n₁ n₂ : Bool) : Bool := if n₁ = n₂ then n₁ else mode = .rdn

/-- The rounded sum of two finite values. -/
def Fmt.sum (f : Fmt) (mode : Rnd) (sat : Bool) (n₁ : Bool) (m₁ : Nat) (e₁ : Int) (n₂ : Bool) (m₂ : Nat) (e₂ : Int) :
    W64 × Flags :=
  let t := addFin n₁ m₁ e₁ n₂ m₂ e₂
  if t.1 = 0 then (f.zero (zeroSign mode n₁ n₂), Flags.none)
  else f.round mode sat (t.1 < 0) t.1.natAbs t.2

def Fp.isSnan : Fp → Bool
  | .nan s => s
  | _ => false

def Fp.isNan : Fp → Bool
  | .nan _ => true
  | _ => false

def Fp.neg : Fp → Fp
  | .fin s m e => .fin (!s) m e
  | .inf s => .inf (!s)
  | x => x

/-- A NaN result: INVALID where an operand signals or the operation is invalid (R44). -/
def Fmt.nanResult (f : Fmt) (invalid : Bool) : W64 × Flags := (f.canonNan, Flags.when invalid Flags.invalid)

/-- The rounded sum of two values (R46 to R48). -/
def Fmt.add (f : Fmt) (mode : Rnd) (sat : Bool) (x y : Fp) : W64 × Flags :=
  match x, y with
  | .nan a, y => f.nanResult (a || y.isSnan)
  | x, .nan b => f.nanResult (x.isSnan || b)
  | .inf a, .inf b => if a = b then (f.infinity a, Flags.none) else f.nanResult true
  | .inf a, .fin _ _ _ => (f.infinity a, Flags.none)
  | .fin _ _ _, .inf b => (f.infinity b, Flags.none)
  | .fin n₁ m₁ e₁, .fin n₂ m₂ e₂ => f.sum mode sat n₁ m₁ e₁ n₂ m₂ e₂

/-- The rounded product of two values. -/
def Fmt.mul (f : Fmt) (mode : Rnd) (sat : Bool) (x y : Fp) : W64 × Flags :=
  match x, y with
  | .nan a, y => f.nanResult (a || y.isSnan)
  | x, .nan b => f.nanResult (x.isSnan || b)
  | .inf a, .inf b => (f.infinity (a != b), Flags.none)
  | .inf a, .fin b m _ => if m = 0 then f.nanResult true else (f.infinity (a != b), Flags.none)
  | .fin b m _, .inf a => if m = 0 then f.nanResult true else (f.infinity (a != b), Flags.none)
  | .fin n₁ m₁ e₁, .fin n₂ m₂ e₂ => f.round mode sat (n₁ != n₂) (m₁ * m₂) (e₁ + e₂)

/-- The rounded value of x × y + z, the product exact. -/
def Fmt.fma (f : Fmt) (mode : Rnd) (sat : Bool) (x y z : Fp) : W64 × Flags :=
  let snan := x.isSnan || y.isSnan || z.isSnan
  let zeroInf := match x, y with
    | .inf _, .fin _ m _ => m == 0
    | .fin _ m _, .inf _ => m == 0
    | _, _ => false
  if x.isNan || y.isNan || z.isNan || zeroInf then f.nanResult (snan || zeroInf)
  else
    match x, y with
    | .fin n₁ m₁ e₁, .fin n₂ m₂ e₂ => f.add mode sat (.fin (n₁ != n₂) (m₁ * m₂) (e₁ + e₂)) z
    | .inf a, .inf b => f.add mode sat (.inf (a != b)) z
    | .inf a, .fin b _ _ => f.add mode sat (.inf (a != b)) z
    | .fin b _ _, .inf a => f.add mode sat (.inf (a != b)) z
    | _, _ => f.nanResult snan

/-- The quotient of significands with enough bits to round, its last bit set where it is inexact. -/
def quotient (w m₁ m₂ : Nat) : Nat × Nat :=
  let k := w + 4 + bitLen m₂ - bitLen m₁
  let n := m₁ * 2 ^ k / m₂
  (2 * n + (if m₁ * 2 ^ k % m₂ = 0 then 0 else 1), k + 1)

/-- The rounded quotient of two values. -/
def Fmt.div (f : Fmt) (mode : Rnd) (sat : Bool) (x y : Fp) : W64 × Flags :=
  match x, y with
  | .nan a, y => f.nanResult (a || y.isSnan)
  | x, .nan b => f.nanResult (x.isSnan || b)
  | .inf _, .inf _ => f.nanResult true
  | .inf a, .fin b _ _ => (f.infinity (a != b), Flags.none)
  | .fin a _ _, .inf b => (f.zero (a != b), Flags.none)
  | .fin a m₁ e₁, .fin b m₂ e₂ =>
    if m₂ = 0 then (if m₁ = 0 then f.nanResult true else (f.infinity (a != b), Flags.divzero))
    else
      let t := quotient f.w m₁ m₂
      f.round mode sat (a != b) t.1 (e₁ - e₂ - t.2)

/-- The integer square root of `n` from its `k` low binary places: bits are tried from the top. -/
def isqrt (n : Nat) : Nat → Nat → Nat
  | 0, r => r
  | k + 1, r => if (r + 2 ^ k) * (r + 2 ^ k) ≤ n then isqrt n k (r + 2 ^ k) else isqrt n k r

/-- The root of m × 2^e with enough bits to round, its last bit set where it is inexact: significand and exponent. -/
def rootOf (w m : Nat) (e : Int) : Nat × Int :=
  let k := 2 * (w + 3)
  let k := if (e - k) % 2 = 0 then k else k + 1
  let n := m * 2 ^ k
  let r := isqrt n (bitLen n / 2 + 1) 0
  (2 * r + (if r * r = n then 0 else 1), (e - k) / 2 - 1)

/-- The rounded square root. -/
def Fmt.sqrt (f : Fmt) (mode : Rnd) (x : Fp) : W64 × Flags :=
  match x with
  | .nan a => f.nanResult a
  | .inf neg => if neg then f.nanResult true else (f.infinity false, Flags.none)
  | .fin neg m e =>
    if m = 0 then (f.zero neg, Flags.none)
    else if neg then f.nanResult true
    else
      let t := rootOf f.w m e
      f.round mode false false t.1 t.2

/-- The exact order of two values that are no NaN. -/
def Fp.lt : Fp → Fp → Bool
  | .inf a, .inf b => a && !b
  | .inf a, .fin _ _ _ => a
  | .fin _ _ _, .inf b => !b
  | .fin n₁ m₁ e₁, .fin n₂ m₂ e₂ =>
    let q := min e₁ e₂
    signedAt n₁ m₁ e₁ q < signedAt n₂ m₂ e₂ q
  | _, _ => false

def Fp.eq (x y : Fp) : Bool := !x.isNan && !y.isNan && !x.lt y && !y.lt x

/-- A value of one format converted into another (R49). -/
def Fmt.convert (f : Fmt) (mode : Rnd) (sat : Bool) (x : Fp) : W64 × Flags :=
  match x with
  | .nan a => f.nanResult a
  | .inf neg => f.giveInf neg sat
  | .fin neg m e => f.round mode sat neg m e

/-- A floating-point value rounded to an integer of a type: it always saturates (R50). -/
def toInt (t : Ty) (mode : Rnd) (x : Fp) : W64 × Flags :=
  match x with
  | .nan _ => (regOfInt t 0, Flags.invalid)
  | .inf neg => (regOfInt t (if neg then tyLo t else tyHi t), Flags.invalid)
  | .fin neg m e =>
    let r := scaleTo mode neg m e 0
    let n : Int := if neg then -(r.1 : Int) else r.1
    if n < tyLo t then (regOfInt t (tyLo t), Flags.invalid)
    else if tyHi t < n then (regOfInt t (tyHi t), Flags.invalid)
    else (regOfInt t n, Flags.when r.2 Flags.inexact)

/-- An integer converted to a format (R51). -/
def Fmt.ofInt (f : Fmt) (mode : Rnd) (sat : Bool) (x : Int) : W64 × Flags := f.round mode sat (x < 0) x.natAbs 0

/-! ### Immediates (R75) -/

/-- IMM32 converted to the type in which a source is read; no flag is raised. -/
def immValue (t : Ty) (mode : Rnd) (imm : W32) : W64 :=
  let x := (fmtOf .f32).decode (imm.setWidth 64)
  match t with
  | .i32 | .n32 | .b32 => imm.setWidth 64
  | .i16 | .n16 | .i8 | .n8 => extend t (imm.setWidth 64)
  | .i64 => imm.signExtend 64
  | .n64 => imm.setWidth 64
  | .f32 => if x.isNan then (fmtOf .f32).canonNan else imm.setWidth 64
  | .f64 => ((fmtOf .f64).convert .rne false x).1
  | .e4m3 => ((fmtOf .e4m3).convert mode true x).1
  | t => ((fmtOf t).convert mode false x).1

/-! ### The generator (R66, R67) -/

/-- RNG of R66. -/
def rng (key index : W32) : W32 :=
  let h := index ^^^ (key * 0x9E3779B1#32)
  let h := h ^^^ (h >>> 16)
  let h := h * 0x85EBCA6B#32
  let h := h ^^^ (h >>> 13)
  let h := h * 0xC2B2AE35#32
  h ^^^ (h >>> 16)

/-- RNGF of R67: the top 24 bits as a fraction, exactly. -/
def rngf (h : W32) : W64 := ((fmtOf .f32).round .rne false false (h.toNat / 256) (-24)).1

/-! ### The tree of every sum (R52) -/

/-- TreeSum over 2^k positions from a list that may be shorter; absent positions pass the other side through. -/
def treeSum {α : Type} (add : α → α → α) : (k : Nat) → List (Option α) → Option α
  | 0, xs => xs.head?.join
  | k + 1, xs =>
    match treeSum add k (xs.take (2 ^ k)), treeSum add k (xs.drop (2 ^ k)) with
    | l, none => l
    | none, r => r
    | some a, some b => some (add a b)

/-- The k of the smallest power of two that is at least `n`. -/
def treeDepth (n : Nat) : Nat := if n ≤ 1 then 0 else Nat.log2 (n - 1) + 1

end Sys2Proof.Machine
end

