-- ==== Sys2Proof/Machine/Cells.lean ====
section
/-! DEFINITION. Data by key: lists of pairs of a key and a value. `assign` keeps every key it has met; `put` keeps the
canonical form, in which no entry holds the default. -/

namespace Sys2Proof.Machine

variable {α : Type}

/-- The value at a key, if one is listed. -/
def lookup? : List (Nat × α) → Nat → Option α
  | [], _ => none
  | (k, v) :: t, a => if k = a then some v else lookup? t a

/-- The value at a key, the default where none is listed. -/
def get (d : α) (m : List (Nat × α)) (k : Nat) : α := (lookup? m k).getD d

/-- The list with a value at a key, keys kept in rising order. -/
def assign : List (Nat × α) → Nat → α → List (Nat × α)
  | [], a, x => [(a, x)]
  | (k, v) :: t, a, x => if a < k then (a, x) :: (k, v) :: t else if a = k then (a, x) :: t else (k, v) :: assign t a x

/-- The list without a key. -/
def erase : List (Nat × α) → Nat → List (Nat × α)
  | [], _ => []
  | (k, v) :: t, a => if k = a then erase t a else (k, v) :: erase t a

/-- The list with a value at a key, an entry equal to the default left out. -/
def put [DecidableEq α] (d : α) (m : List (Nat × α)) (k : Nat) (x : α) : List (Nat × α) :=
  if x = d then erase m k else assign m k x

/-- Several values at consecutive keys from `k`. -/
def putAll [DecidableEq α] (d : α) (m : List (Nat × α)) (k : Nat) : List α → List (Nat × α)
  | [] => m
  | x :: xs => putAll d (put d m k x) (k + 1) xs

/-- `n` values at consecutive keys from `k`. -/
def getAll (d : α) (m : List (Nat × α)) (k n : Nat) : List α := (List.range n).map (fun i => get d m (k + i))

/-- The canonical list of a sequence, keyed from 0. -/
def ofSeq [DecidableEq α] (d : α) (xs : List α) : List (Nat × α) :=
  (xs.zipIdx.filter (fun p => p.1 ≠ d)).map (fun p => (p.2, p.1))

/-- The list without the keys of a range. -/
def eraseRange (m : List (Nat × α)) (lo hi : Nat) : List (Nat × α) := m.filter (fun p => p.1 < lo || hi ≤ p.1)

/-- `n` values at consecutive keys from `k`, of a list whose keys rise and lie at or above `k`. -/
def readOff (d : α) : (m : List (Nat × α)) → (k n : Nat) → List α
  | _, _, 0 => []
  | [], _, n + 1 => List.replicate (n + 1) d
  | (a, v) :: t, k, n + 1 => if a = k then v :: readOff d t (k + 1) n else d :: readOff d ((a, v) :: t) (k + 1) n

/-- `n` values at consecutive keys from `k`, read in one pass. -/
def getBlock (d : α) (m : List (Nat × α)) (k n : Nat) : List α := readOff d (m.dropWhile (fun p => p.1 < k)) k n

/-- Several values at consecutive keys from `k`, written in one pass. -/
def putBlock [DecidableEq α] (d : α) (m : List (Nat × α)) (k : Nat) (xs : List α) : List (Nat × α) :=
  m.filter (fun p => p.1 < k) ++ (ofSeq d xs).map (fun p => (k + p.1, p.2)) ++
    m.filter (fun p => k + xs.length ≤ p.1)

/-- A list with a changed value at a key that it holds. -/
def adjust (m : List (Nat × α)) (k : Nat) (f : α → α) : List (Nat × α) :=
  match lookup? m k with
  | none => m
  | some x => assign m k (f x)

/-- Keys rise strictly. -/
abbrev Sorted : List (Nat × α) → Prop := List.Pairwise (fun p q => p.1 < q.1)

/-- The canonical form: keys rise strictly and no entry equals the default. -/
abbrev Canonical (d : α) (m : List (Nat × α)) : Prop := Sorted m ∧ ∀ p ∈ m, p.2 ≠ d

end Sys2Proof.Machine
end

