-- ==== Sys2Proof/Machine/State.lean ====
section
/-! DEFINITION. The state of the device as plain data, its value after reset, and why a step can stop. -/

namespace Sys2Proof.Machine

/-- Why the machine stops. -/
inductive Fault where
  /-- Raised by the meaning of an instruction word when the state names no fragment that could issue it. Safe: `step`
  runs a word only for a fragment that it found. -/
  | noFragment
  deriving DecidableEq, Repr

/-- Why an instruction has no meaning. -/
inductive Refusal where
  /-- Raised by an arm of `exec` that has no meaning yet. Safe: no claim speaks of what the instruction does. -/
  | notModelled (mnemonic : String)
  deriving DecidableEq, Repr

/-- The trap causes of R231. -/
inductive Cause where
  | illegalOpcode | reservedField | illegalOperand | illegalConvergence | staleHandle | notProducer | illegalChain
  | barrierExpectOverflow | barrierMisuse | queueMisuse | nestingLimit | misaligned | pageFault | permission | poison
  | scopeUnreachable | proposalMisuse | software | breakpoint
  deriving DecidableEq, Repr

/-- What TRAPVA and TRAPINFO report of an access that trapped (R328). -/
structure FaultAt where
  va    : Nat
  lane  : Nat
  fetch : Bool := false
  write : Bool := false
  cow   : Bool := false
  deriving DecidableEq, Repr

/-- A trap as the checks decide it. -/
structure Trap where
  cause : Cause
  site  : Option FaultAt := none
  /-- the walk met a poisoned table line, which counts in %poison_count (R330) -/
  walkPoison : Bool := false
  deriving DecidableEq, Repr

/-- One entry of the split table (R39), with the count of R220 and the mark of a fragment that a blocking instruction
holds (R79). -/
structure Entry where
  mask   : Mask := 0
  valid  : Bool := false
  pc     : W64 := 0
  rpc    : W64 := 0
  age    : Nat := 0
  passed : Nat := 0
  held   : Bool := false
  /-- the executing lanes of an instruction that has begun and waits: its guard is read once -/
  began  : Option Mask := none
  /-- lanes of a held LAUNCH whose packets are submitted, and the stamp of its group (R96, R309) -/
  launched : Mask := 0
  launchOp : Nat := 0
  deriving DecidableEq, Repr

/-- A pending group of the serial store (R224). -/
structure Group where
  mask : Mask
  pc   : W64
  deriving DecidableEq, Repr

/-- A frame of the serial store (R224, R338); the last frame of an entry in the list is its top. -/
structure Frame where
  entry   : Nat
  rpc     : W64
  pending : List Group
  held    : Mask
  deriving DecidableEq, Repr

/-- The outstanding-operation counters (R38). -/
structure Counts where
  load  : Nat := 0
  store : Nat := 0
  copy  : Nat := 0
  tile  : Nat := 0
  queue : Nat := 0
  deriving DecidableEq, Repr

/-- What handler entry saves (R232). -/
structure Saved where
  entry : Nat
  mask  : Mask
  pc    : W64
  /-- the frames that the fragment had -/
  frames : Nat := 0
  deriving DecidableEq, Repr

/-- A trap that is decided and waits for earlier work of its course (R230). -/
structure TrapWait where
  entry : Nat
  trap  : Trap
  deriving DecidableEq, Repr

/-- The state of a course and of its strands (R27, R30 to R39). -/
structure Course where
  stamp    : Nat := 0
  grid     : Nat := 0
  team     : Nat := 0
  index    : Nat := 0
  launch   : Mask := 0
  cbase    : Nat := 0
  psize    : Nat := 0
  v        : List (Nat × W32) := []
  y        : List (Nat × W32) := []
  s        : List (Nat × W32) := []
  p        : List (Nat × Mask) := []
  propMask : List (Nat × BitVec 16) := []
  propOpen : Mask := 0
  flags    : List (Nat × BitVec 8) := []
  accepts  : List (Nat × W32) := []
  proposals : List (Nat × W32) := []
  entries  : List (Nat × Entry) := []
  frames   : List Frame := []
  counts   : Counts := {}
  phase    : W32 := 0
  trapCause : BitVec 8 := 0
  trapPc   : W64 := 0
  replays  : W32 := 0
  trapVa   : W64 := 0
  trapInfo : W32 := 0
  super    : Bool := false
  token    : Bool := false
  det      : Bool := false
  strict   : Bool := false
  exact    : Bool := false
  saved    : Option Saved := none
  trapWait : Option TrapWait := none
  /-- no issue before this cycle (R79) -/
  nextIssue : Nat := 0
  /-- the cycle of the last instruction if it had YIELD -/
  yieldAt  : Option Nat := none
  /-- the cycle of the last read of %pending, from which on completions show in the next cycle (R38) -/
  pendingAt : Option Nat := none
  deriving DecidableEq, Repr

/-- A barrier register (R147), with the phases completed since team start, which COPYL counts (R198). -/
structure Barrier where
  progress : BitVec 19 := 0
  flags    : BitVec 8 := 0
  bytes    : BitVec 24 := 0
  pending  : BitVec 6 := 0
  expected : BitVec 6 := 0
  phase    : Bool := false
  phases   : Nat := 0
  deriving DecidableEq, Repr

/-- A queue operation that waits on a local queue (R157): its course and fragment. -/
structure QWait where
  queue : Nat
  push  : Bool
  slot  : Nat
  stamp : Nat
  entry : Nat
  word  : Fields
  deriving DecidableEq, Repr

/-- A BWAIT that holds its fragment (R151): its barrier, the phase that it waits out, and whether that phase has
completed. -/
structure BWait where
  bar   : Nat
  phase : Bool
  stamp : Nat
  entry : Nat
  ended : Bool
  deriving DecidableEq, Repr

/-- A resident team (R226). -/
structure Team where
  grid     : Nat := 0
  asid     : Nat := 0
  linear   : Nat := 0
  core     : Nat := 0
  rot      : Nat := 0
  slots    : List Nat := []
  base     : Nat := 0
  size     : Nat := 0
  tiles    : Bool := false
  producer : Nat := 0
  weight   : Nat := 0
  barriers : List (Nat × Barrier) := []
  qwaits   : List QWait := []
  bwaits   : List BWait := []
  /-- a co-resident grid's team that waits for the last of its teams (R315) -/
  waiting  : Bool := false
  deriving DecidableEq, Repr

/-- A cached translation (R330, R331). -/
structure TlbEntry where
  asid  : Nat
  va    : Nat
  /-- log2 of the page's bytes -/
  bits  : Nat
  frame : Nat
  read  : Bool
  write : Bool
  exec  : Bool
  cow   : Bool
  dedup : Bool
  deriving DecidableEq, Repr

/-- An entry of a core's window cache (R265). -/
structure WindowEntry where
  pa      : Nat
  mode    : Bool
  window  : Nat
  expiry  : Nat
  lastUse : Nat
  deriving DecidableEq, Repr

/-- The element types that a matrix operand's bytes hold, and what the operation does (07_isa_matrix.md). -/
inductive TileKind where
  | zero | load | store | mac | macSparse | macGrouped | smax | drain | drainSpad | planes
  deriving DecidableEq, Repr

/-- A tile operation in the queue of a core's matrix engine (R170): the word's fields and the blocks read at issue. -/
structure TileOp where
  kind   : TileKind
  op     : Nat
  stamp  : Nat
  slot   : Nat
  team   : Nat
  asid   : Nat
  d      : Nat
  a      : Nat
  ty     : Ty
  round  : Rnd
  sat    : Bool
  modx   : Bool
  imm    : W32
  /-- operands A and B: places in the core's scratchpad, or the drain's virtual address -/
  x      : Nat
  z      : Nat
  /-- where the team's allocation begins -/
  base   : Nat
  /-- the format block and the row counts read at issue (R172, R181) -/
  fa     : BitVec 256
  counts : List Nat
  /-- the frames of a global drain's pages -/
  frames : List Nat
  exact  : Bool
  started : Bool := false
  /-- a part of it has run below 650 mV (R64) -/
  slow    : Bool := false
  /-- a global drain that has been performed at its home -/
  drained : Bool := false
  /-- chunks that a multiply-accumulate has promoted (R178), and the flags they raise when it completes -/
  chunk   : Nat := 0
  flags   : BitVec 8 := 0
  deriving DecidableEq, Repr

/-- A dirty line of a strand's private memory in L1 (R240): the course it belongs to, and its bytes by physical address. -/
structure PrivLine where
  line  : Nat
  stamp : Nat
  bytes : List (Nat × Byte)
  deriving DecidableEq, Repr

/-- What a core's clock does (R334, R339). -/
inductive RunState where
  | running
  | stopped (capclock : Nat)
  | loading
  deriving DecidableEq, Repr

/-- What arrives at a stopped core's port (R341): the answer of an operation in flight or of a waiting XCHG, or the wake of a
WAITADDR, by its stamp; data for a team's scratchpad; an engine's count-down or arrival on a team's barrier. -/
inductive ParkItem where
  | answer (op : Nat)
  | xchg (id : Nat)
  | wake (id : Nat)
  | data (team at_ : Nat) (bytes : List Byte)
  | count (team bar n : Nat)
  | arrive (team bar : Nat)
  deriving DecidableEq, Repr

/-- What a stopped core's port keeps, with the sequence number of its first flit (R341). -/
structure Parked where
  seq  : Nat
  item : ParkItem
  deriving DecidableEq, Repr

/-- The state of one core. -/
structure Core where
  courses  : List (Nat × Course) := []
  scratch  : Cells 8 := []
  /-- scratchpad KiB, 0 while never set (R238, R337) -/
  split    : Nat := 0
  /-- the context that last used the scratchpad -/
  lastCtx  : Option Nat := none
  /-- acc0 to acc7, by 4096 × tile + 64 × row + column -/
  acc      : Cells 32 := []
  rowMax   : List (Nat × W32) := []
  rowSum   : List (Nat × W32) := []
  tileQ    : List TileOp := []
  tlb      : List TlbEntry := []
  windows  : List WindowEntry := []
  /-- L1 lines held, with the cycle their lease ends (R241) -/
  l1       : List (Nat × Nat) := []
  /-- dirty private lines in L1 (R240) -/
  privs    : List PrivLine := []
  run      : RunState := .running
  /-- the context for which the clock was stopped (R327) -/
  heldFor  : Option Nat := none
  parked   : List Parked := []
  parkSeq  : Nat := 0
  /-- send credits held, per class (R341) -/
  credits  : List (Nat × Nat) := []
  /-- credits returned to a stopped core's port, per class -/
  returned : List (Nat × Nat) := []
  /-- the core that a binding forwards to (R342) -/
  binding  : Option Nat := none
  /-- the operations and jobs that an open binding waits for, by their stamps -/
  bound    : List Nat := []
  mv       : Nat := 650
  /-- the end of a supply change in progress and its new value (R319) -/
  change   : Option (Nat × Nat) := none
  ecapBoot : Nat := 64
  fenced   : Bool := false
  /-- starved fragments in the order they joined: slot and entry (R220) -/
  starved  : List (Nat × Nat) := []
  deriving DecidableEq, Repr

/-- The space an access names (R130). -/
inductive Space where
  | global | scratch | priv
  deriving DecidableEq, Repr

/-- The registers a result goes to. -/
inductive File where
  | v | s | y
  deriving DecidableEq, Repr

/-- One element access of one lane. -/
structure Access where
  lane : Nat
  /-- the virtual address, or the offset in the core's scratchpad -/
  va   : Nat
  /-- the physical address, or the offset in the core's scratchpad -/
  pa   : Nat
  size : Nat
  val  : W64 := 0
  cmp  : W64 := 0
  /-- the destination register -/
  reg  : Nat := 0
  /-- the lanes in which the access raises flags -/
  who  : Mask := 0
  /-- a read that has been performed, with its value in `val`; and whether it met poison -/
  got  : Bool := false
  bad  : Bool := false
  /-- an access over a peer link that is refused (R355, R356) -/
  lost : Bool := false
  deriving DecidableEq, Repr

/-- What orders an operation (R133, R272). -/
structure Order where
  acquire  : Bool := false
  release  : Bool := false
  scope    : Nat := 0
  promoted : Bool := false
  /-- POLICY (R137): 1 `.strm`, 2 `.nol1`, 3 `.keep` -/
  policy   : Nat := 0
  /-- SEM 1 or 2, whose messages travel in class 3 (R246) -/
  class3   : Bool := false
  deriving DecidableEq, Repr

/-- What an atomic brings back to its lane. -/
structure Reply where
  lane  : Nat
  reg   : Nat
  va    : Nat := 0
  val   : W64
  poisoned : Bool
  flags : BitVec 8
  /-- the lanes in which poison is flagged, 0 for an atomic's own lane -/
  who   : Mask := 0
  /-- refused at a neighbour (R355) -/
  lost  : Bool := false
  deriving DecidableEq, Repr

/-- The shape of a compressed array's blocks (R252). -/
structure ZShape where
  dim  : Nat
  wide : Bool
  rate : Nat
  deriving DecidableEq, Repr

/-- The element of a compressed array that a lane names. -/
structure ZAccess where
  lane  : Nat
  shape : ZShape
  /-- the block's virtual address, and where its bytes in its first and in its second page lie -/
  va    : Nat := 0
  pa    : Nat
  pa2   : Nat
  elem  : Nat
  val   : W64 := 0
  reg   : Nat := 0
  /-- the scratchpad byte that a block move names -/
  spad  : Nat := 0
  /-- a read that has been performed, with its value in `val`; and whether its decode met poison -/
  got   : Bool := false
  bad   : Bool := false
  deriving DecidableEq, Repr

/-- The blocks of a shape that start in a range of physical memory. -/
structure ZRange where
  shape : ZShape
  lo    : Nat
  len   : Nat
  /-- a block that is named alone, with its bytes in its second page, before the home has its entry (R190) -/
  pa2   : Nat := 0
  opens : Bool := false
  deriving DecidableEq, Repr

/-- What an operation in flight does. -/
inductive OpKind where
  /-- nothing: a counter raised by the hint alone (R78) -/
  | hint
  | load (space : Space) (file : File) (ty : Ty) (ord : Order) (accs : List Access)
  | store (space : Space) (ord : Order) (accs : List Access) (whole : List Nat)
  | rmw (space : Space) (file : File) (code : Nat) (ty : Ty) (rnd : Rnd) (ret : Bool) (ord : Order)
      (accs : List Access) (vals : List Reply)
  /-- an atomic that has been performed and whose old values are on their way -/
  | reply (file : File) (wide : Bool) (ord : Order) (vals : List Reply)
  | zload (file : File) (block : Bool) (accs : List ZAccess)
  | zstore (accs : List ZAccess)
  | zflush (ranges : List ZRange)
  /-- pool operations of the lanes, one or more still to answer; `pop` for GPOP -/
  | pool (pop : Bool)
  /-- the items of a QPOP that has been served, on their way to D (R80, R157) -/
  | qpop (file : File) (wide : Bool) (vals : List Reply)
  | copy (job : Nat)
  | tile
  /-- child grids of a LAUNCH, by the stamp of their group (R96) -/
  | launch (group : Nat)
  deriving DecidableEq, Repr

/-- An operation in flight, in issue order, until it has lowered its counter (R38, R134). -/
structure Op where
  id     : Nat
  core   : Nat
  slot   : Nat
  stamp  : Nat
  entry  : Nat
  team   : Nat
  grid   : Nat
  asid   : Nat
  strict : Bool
  sym    : Bool
  cls    : Nat
  kind   : OpKind
  /-- the cycle of its issue (R248) -/
  at_    : Nat := 0
  /-- performed in its core's store path (R270), and its place in the order of that path -/
  inCore : Bool := false
  seq    : Nat := 0
  done   : Bool := false
  /-- it names a shared-deterministic region (R98, R136) -/
  shared : Bool := false
  /-- flags that it raises when it completes, with their lanes (R37) -/
  flags  : List (Mask × BitVec 8) := []
  deriving DecidableEq, Repr

/-- One lane's GPUSH or GPOP on its way (R159, R266). -/
structure PoolOp where
  id     : Nat
  op     : Nat
  core   : Nat
  slot   : Nat
  stamp  : Nat
  asid   : Nat
  grid   : Nat
  gid    : W32
  team   : Nat
  linear : Nat
  lane   : Nat
  push   : Bool
  va     : Nat
  pa     : Nat
  item   : W64
  wide   : Bool
  file   : File
  reg    : Nat
  pred   : Nat
  window : Nat
  marked : Bool
  strict : Bool
  entry  : Nat
  /-- 0 on its way to its sector crossbar, 1 held there, 2 on its way to its central crossbar, 3 held there, 4 on its way
  to the home's central crossbar, 5 on its way to the home, 6 answered -/
  stage  : Nat
  /-- the cycle at which its hold ends -/
  until_ : Nat
  /-- the cycle at which the lease on the descriptor's MODE and WINDOW ends that the home gave (R265) -/
  lease  : Nat := 0
  scope  : Nat
  /-- the answer: item, predicate, poisoned, and the descriptor's mode and window when the home gave it -/
  ans    : W64
  ok     : Bool
  poisoned : Bool
  info   : Option (Bool × Nat)
  /-- an operation over a peer link that is refused (R355, R356) -/
  lost   : Bool := false
  deriving DecidableEq, Repr

/-- An XCHG that waits at its sector crossbar for its partner (R129). -/
structure XWait where
  id     : Nat
  core   : Nat
  slot   : Nat
  stamp  : Nat
  entry  : Nat
  target : Nat
  mask   : Mask
  /-- the value that each executing lane sends -/
  vals   : List (Nat × W64)
  /-- cycles of its core left before the timeout -/
  left   : Nat
  word   : Fields
  /-- the partner's values, which a stopped core's port keeps (R341) -/
  ans    : Option (List (Nat × W64)) := none
  deriving DecidableEq, Repr

/-- A WAITADDR that holds its fragment (R165). -/
structure Watch where
  id    : Nat
  core  : Nat
  slot  : Nat
  stamp : Nat
  entry : Nat
  asid  : Nat
  /-- the watched word of each lane, with its comparand and, once it is read, its value -/
  lanes : List Access
  /-- cycles of its core left before the timeout, none without one -/
  left  : Option Nat
  /-- a wake that no pass of the loop has followed, and a pass under way since a cycle -/
  woken : Bool
  reading : Bool := false
  at_   : Nat := 0
  word  : Fields
  deriving DecidableEq, Repr

/-- A fragment held by a request that ends elsewhere (R213, R214), none for the host. -/
structure Waiter where
  core  : Nat
  slot  : Nat
  stamp : Nat
  entry : Nat
  deriving DecidableEq, Repr

/-- The state of a transfer job (R201). -/
inductive JobState where
  | queued | running | faulted
  deriving DecidableEq, Repr

/-- A job of a sector's transfer engine (R193 to R202). -/
structure Job where
  id     : Nat
  core   : Nat
  slot   : Nat
  stamp  : Nat
  team   : Nat
  linear : Nat
  base   : Nat
  grid   : Nat
  gid    : W32
  asid   : Nat
  strict : Bool
  card   : BitVec 512
  /-- the descriptors of SHANDLE and DHANDLE as they stood at issue -/
  sdesc  : BitVec 512
  ddesc  : BitVec 512
  indices : List Nat
  state  : JobState
  iter   : Nat := 0
  srcDone : Nat := 0
  dstDone : Nat := 0
  chunkSrc : Nat := 0
  chunkDst : Nat := 0
  stage  : Nat := 0
  cause  : Option Cause := none
  faultVa : Nat := 0
  missed : Bool := false
  flags  : BitVec 8 := 0
  /-- the source bytes of the chunk that have been read from scratchpad so far (R281) -/
  taken  : List Byte := []
  /-- the chunk past every middle stage, until it is written; for coded output its elements, which are encoded as they are
  written (R261) -/
  buffer : Option (List Byte) := none
  /-- bytes performed at the destination, over every iteration -/
  moved  : Nat := 0
  /-- phases that the empty barriers had completed when the job was issued (R198) -/
  phases : List Nat := []
  deriving DecidableEq, Repr

/-- A live entry of a decoded block buffer (R262). -/
structure ZEntry where
  pa    : Nat
  pa2   : Nat
  asid  : Nat
  shape : ZShape
  elems : List W64
  dirty : W64
  deriving DecidableEq, Repr

/-- A soft error not yet found (R365): its place and its bits. -/
structure SoftError where
  spot : Spot
  bits : Nat
  deriving DecidableEq, Repr

/-- A die's copy of another die's line (R350), and what a home's slice holds of a line: M when it is dirty, E where the host has
granted a line of its window alone (R345), else S. -/
inductive Mesi where
  | s | e | m
  deriving DecidableEq, Repr

/-- A line in a victim buffer (R352): `taken` once a recall or snoop has been answered from it. -/
structure Victim where
  die   : Nat
  line  : Nat
  taken : Bool
  deriving DecidableEq, Repr

/-- A read that an absorb table holds (R248): the cycle at which it passed the switch, and the reads absorbed. -/
structure Absorb where
  switch : Nat
  line   : Nat
  asid   : Nat
  op     : Nat
  passed : Nat
  joined : List Nat := []
  deriving DecidableEq, Repr

/-- A combining entry of a slice of a die (R247): the cycle it opened, the reads that joined, and the prefetches: their cores, with
the lease for L1 that each asks. -/
structure Combine where
  die   : Nat
  line  : Nat
  since : Nat
  ops   : List Nat
  fills : List (Nat × Option Nat) := []
  deriving DecidableEq, Repr

/-- A shared copy of deduplicated lines (R251). -/
structure Shared where
  data  : List Byte
  count : Nat
  asid  : Nat
  deriving DecidableEq, Repr

/-- A packet of LAUNCH in its child queue, and the lane that waits for its status (R96, R309). -/
structure Child where
  queue  : Nat
  packet : BitVec 512
  parent : Nat
  op     : Nat
  core   : Nat
  slot   : Nat
  stamp  : Nat
  lane   : Nat
  file   : File
  reg    : Nat
  /-- the status that a stopped core's port keeps for the lane (R341) -/
  status : Option Nat := none
  deriving DecidableEq, Repr

/-- The control registers and queues of a context (R318, R328, R348, R371). -/
structure Ctx where
  state     : Nat := 0
  capCore   : W32 := 0
  capAddr   : W64 := 0
  cmdStatus : W32 := 0
  zdtBase   : W64 := 0
  zdtCount  : W32 := 0
  lqBase    : List (Nat × W64) := []
  lqSize    : W32 := 2
  lqHead    : List (Nat × W32) := []
  lqTail    : List (Nat × W32) := []
  erate     : W32 := 0
  emax      : W32 := 0xFFFFFFFF
  privBase  : W64 := 0
  privStride : W32 := 0
  mode      : W32 := 0
  slotBase  : W64 := 0
  vtarget   : W32 := 650
  handler   : W64 := 0
  ptroot    : W64 := 0
  lease     : W32 := 512
  capRight  : W32 := 0
  fqBase    : W64 := 0
  fqSize    : W32 := 0
  fqHead    : W32 := 0
  fqTail    : W32 := 0
  fqCount   : W64 := 0
  fqLost    : W32 := 0
  parkBase  : W64 := 0
  parkStride : W32 := 0
  grants    : List (Nat × W64) := []
  errCtl    : W32 := 0
  cntSel    : W32 := 0
  budget    : W32 := 0xFFFFFFFF
  debit     : Nat := 0
  /-- this cycle's step of the budget has been made -/
  ticked    : Bool := false
  poisonCount : W32 := 0
  ragged    : W32 := 0
  /-- packets of LAUNCH that wait in the child queues (R96, R309) -/
  children  : List Child := []
  /-- the grid last accepted of each queue, child queues from 8 on (R312) -/
  lastGrid  : List (Nat × Nat) := []
  /-- the writes of the queues' tails whose packets have not all been taken: queue, cycle and value (R308) -/
  tails     : List (Nat × Nat × W32) := []
  deriving DecidableEq, Repr

/-- A grid between its acceptance and its retirement (R305 to R312, R320 to R323). -/
structure Grid where
  asid     : Nat := 0
  gid      : W32 := 0
  packet   : BitVec 512 := 0
  krec     : BitVec 256 := 0
  code     : Nat := 0
  params   : List W32 := []
  ext      : Option (BitVec 1024) := none
  depth    : Nat := 0
  parent   : Option Nat := none
  queue    : Nat := 0
  child    : Bool := false
  prio     : Nat := 0
  det      : Bool := false
  strict   : Bool := false
  exact    : Bool := false
  eventSeen : Bool := false
  nextTeam : Nat := 0
  killed   : Bool := false
  /-- the grid before it in its queue (R312) -/
  prev     : Option Nat := none
  /-- the words of the signature before the trace (R324) -/
  sigWords : List W32 := []
  token    : Option Nat := none
  /-- identifiers of ended courses of a deterministic grid -/
  endedIds : List Nat := []
  /-- the records of the dispatch trace, to be written or to be followed -/
  trace    : List (BitVec 64) := []
  regions  : List (Nat × Nat) := []
  deriving DecidableEq, Repr

/-- A capture (R213, R334): asked for, then arrived at its target's clock, then streamed. -/
structure CapReq where
  target : Nat
  asid   : Nat
  va     : Nat
  /-- 1 CAPTURE, 2 the host -/
  origin : Nat
  /-- the fragment that CAPTURE holds, and the core through whose TLB the image is written, none for the host -/
  who    : Option Waiter
  via    : Option Nat
  arrived : Bool := false
  done   : Bool := false
  deriving DecidableEq, Repr

/-- A restore in progress (R214, R339). -/
structure RestReq where
  target : Nat
  asid   : Nat
  va     : Nat
  /-- the fragment that RESTORE holds, and the core through whose TLB the image is read, none for the host -/
  who    : Option Waiter
  via    : Option Nat
  /-- a release of the core's held state by the host -/
  host   : Bool
  /-- the image is of courses that still stand stopped where it was taken (R342) -/
  held   : Bool := false
  status : Option Nat := none
  deriving DecidableEq, Repr

/-- The sections of an image whose layout is the revision's own (R336): what a core of the revision reads back. -/
structure Snap where
  num     : Nat
  core    : Core
  teams   : List (Nat × Team)
  grids   : List (Nat × Grid) := []
  clock   : Nat
  /-- the operations of its tile queue, its waiting XCHG and WAITADDR with theirs -/
  ops     : List Op := []
  xwaits  : List XWait := []
  watches : List Watch := []
  /-- what the port of the core had kept when its teams were killed, with the answers of pool operations among it (R343) -/
  parked  : List Parked := []
  pool    : List PoolOp := []
  deriving DecidableEq, Repr

/-- The management page and the firmware's state (R373 to R376). -/
structure Mgmt where
  state     : Nat := 0
  fwVersion : W32 := 0
  fwMin     : W32 := 0
  temp      : W64 := 0
  power     : W32 := 0
  throttle  : Bool := false
  cntSel    : W32 := 0
  attStatus : Nat := 0
  nonce     : BitVec 256 := 0
  /-- the nonce and the clock taken when ATTCMD was written -/
  attNonce  : BitVec 256 := 0
  attClock  : Nat := 0
  report    : BitVec 2048 := 0
  railsUp   : Bool := true
  /-- the fuse map: the rows and lanes that spares have replaced; the links that have more failed lanes than spares; and the
  corrections logged by row or lane since the last boot (R372) -/
  fuses     : List Config.Fuse := []
  dead      : List Nat := []
  logged    : List (Config.Fuse × Nat) := []
  /-- the image in the firmware slot: whether its signature verifies, and its version (R373) -/
  slot      : Bool × W32 := (true, 0)
  stalled   : Bool := false
  deriving DecidableEq, Repr

/-- The fragment whose instruction `exec` runs. -/
structure Issuer where
  core  : Nat := 0
  slot  : Nat := 0
  entry : Nat := 0
  deriving DecidableEq, Repr

/-- The device. -/
structure State where
  clock    : Nat := 0
  mem      : Cells 8 := []
  /-- poisoned lines, by line number (R367) -/
  poison   : List Nat := []
  lmax     : List (Nat × Nat) := []
  /-- the latest lease of a window-cache entry whose descriptor lies in a line (R265) -/
  wmax     : List (Nat × Nat) := []
  cores    : List (Nat × Core) := []
  ctxs     : List (Nat × Ctx) := []
  teams    : List (Nat × Team) := []
  grids    : List (Nat × Grid) := []
  sectorTlb : List (Nat × TlbEntry) := []
  ops      : List Op := []
  /-- writes that wait for the leases of a line: operation and line (R242) -/
  leaseWait : List (Nat × Nat) := []
  pool     : List PoolOp := []
  pairs    : List (Nat × Nat) := []
  xwaits   : List XWait := []
  watches  : List Watch := []
  jobs     : List Job := []
  zbuf     : List ZEntry := []
  /-- lines that the slices of their homes hold -/
  l2       : List (Nat × Mesi) := []
  /-- the copies that dies have of lines of other homes: 4 × line + die -/
  copies   : List (Nat × Mesi) := []
  /-- superblocks in the order of their last use, the least recent first: 4 × superblock + die; and the lines that POLICY `.keep`
  brought, 4 × line + die (R245) -/
  uses     : List Nat := []
  kept     : List Nat := []
  directory : List (Nat × BitVec 10) := []
  victims  : List Victim := []
  combines : List Combine := []
  absorbs  : List Absorb := []
  recalls  : List (Nat × Nat) := []
  /-- lines that map to a shared copy, the copies, and the tables by die, tier and hash (R251) -/
  dedup    : List (Nat × Nat) := []
  shared   : List (Nat × Shared) := []
  hashes   : List (Nat × Nat) := []
  softErrors : List SoftError := []
  /-- earlier values of 4-byte words that were written while grids run: the word's address / 4, the stamp that stood at the write,
  the value before it (R283) -/
  oldCode  : List (Nat × Nat × W32) := []
  /-- lines in the instruction caches: cluster and line (R3) -/
  icache   : List (Nat × Nat) := []
  counters : List (Nat × W64) := []
  links    : List Nat := []
  apertures : List (Nat × Nat × Nat) := []
  fatal    : List Nat := []
  pcie     : List Nat := []
  captures : List CapReq := []
  restores : List RestReq := []
  snaps    : List (Nat × Snap) := []
  /-- clock of the last TLBINV performed, by context (R339) -/
  tlbinvAt : List (Nat × Nat) := []
  mgmt     : Mgmt := {}
  /-- DESIGN CHOICE (log 1): what the environment's timing puts next: an event, or, for none, one issue opportunity or the end of the cycle with
  no event of the device between -/
  agenda   : List (Option Instr) := []
  /-- 4 × core + quadrant whose opportunity comes next in this cycle, 8,192 once all have passed -/
  turn     : Nat := 0
  issuer   : Issuer := {}
  /-- the model's own (log 8): the counter to which the free values are applied -/
  free     : Nat := 0
  /-- the next stamp of a course, team, grid, operation or job -/
  stamp    : Nat := 1
  deriving DecidableEq, Repr

/-- The device right after reset (R27, R28, R318, R328, R348, R371, R375): no context is live, no core holds a course,
memory lists nothing, and every register holds the value of its row. DESIGN CHOICE where no row gives one (log 2 to 8). -/
def State.reset : State := {}

end Sys2Proof.Machine
end

