-- ==== Sys2Proof/Machine/Access.lean ====
section
/-! DEFINITION. Reading and writing the parts of the state: cores, courses, contexts, registers, memory, and the
translation of virtual addresses. -/

namespace Sys2Proof.Machine

/-! ### Cores, contexts, courses -/

def State.core (s : State) (k : Nat) : Core := get {} s.cores k
def State.setCore (s : State) (k : Nat) (c : Core) : State := { s with cores := assign s.cores k c }
def State.mapCore (s : State) (k : Nat) (f : Core → Core) : State := s.setCore k (f (s.core k))

/-- Whether a core's clock runs. -/
def State.runs (s : State) (core : Nat) : Bool := (s.core core).run == .running

/-- Flits of 32 bytes in which something arrives at a port. -/
def ParkItem.flits : ParkItem → Nat
  | .data _ _ bs => (bs.length + 31) / 32
  | .count .. => 0
  | _ => 1

/-- A stopped core's port keeps what arrives, its flits numbered in the order of arrival (R341). -/
def Core.park (c : Core) (x : ParkItem) : Core :=
  { c with parked := c.parked ++ [{ seq := c.parkSeq + 1, item := x }], parkSeq := c.parkSeq + x.flits }

/-- ECAP of a core (R316): 16 while firmware throttles (R376). -/
def State.ecap (s : State) (k : Nat) : Nat := if s.mgmt.throttle then min 16 (s.core k).ecapBoot else (s.core k).ecapBoot

def State.ctx (s : State) (a : Nat) : Ctx := get {} s.ctxs a
def State.setCtx (s : State) (a : Nat) (c : Ctx) : State := { s with ctxs := assign s.ctxs a c }
def State.mapCtx (s : State) (a : Nat) (f : Ctx → Ctx) : State := s.setCtx a (f (s.ctx a))

def State.grid (s : State) (g : Nat) : Grid := get {} s.grids g
def State.setGrid (s : State) (g : Nat) (x : Grid) : State := { s with grids := assign s.grids g x }
def State.mapGrid (s : State) (g : Nat) (f : Grid → Grid) : State := { s with grids := adjust s.grids g f }

def State.team (s : State) (t : Nat) : Team := get {} s.teams t
def State.mapTeam (s : State) (t : Nat) (f : Team → Team) : State := { s with teams := adjust s.teams t f }

/-- The course in a slot of a core. -/
def State.course? (s : State) (core slot : Nat) : Option Course := lookup? (s.core core).courses slot

/-- The course in a slot, if it is still the one with this stamp. -/
def State.courseOf (s : State) (core slot stamp : Nat) : Option Course :=
  match s.course? core slot with
  | some c => if c.stamp = stamp then some c else none
  | none => none

def State.mapCourse (s : State) (core slot : Nat) (f : Course → Course) : State :=
  s.mapCore core (fun c => { c with courses := adjust c.courses slot f })

/-- A change to the course with this stamp, none if it has ended. -/
def State.mapCourseOf (s : State) (core slot stamp : Nat) (f : Course → Course) : State :=
  match s.courseOf core slot stamp with
  | some _ => s.mapCourse core slot f
  | none => s

/-- The die, the sector of the device and the sector in the die of a core (R35). -/
def dieOf (core : Nat) : Nat := core / 512
def sectorOf (core : Nat) : Nat := core / 64
def quadrantOf (slot : Nat) : Nat := slot / 4

/-- Whether a context is granted a core (R328). -/
def Ctx.granted (c : Ctx) (core : Nat) : Bool := (get 0 c.grants (core / 64)).getLsbD (core % 64)

/-- Whether a context is granted a core that is not fenced off: a fenced core is never granted (R372). -/
def State.grants (s : State) (asid core : Nat) : Bool := (s.ctx asid).granted core && !(s.core core).fenced

/-- The lanes of a mask, ascending. -/
def lanesOf (m : Mask) : List Nat := (List.range 32).filter (fun L => m.getLsbD L)

/-- The mask of one lane. -/
def laneBit (L : Nat) : Mask := (1#32) <<< L

/-- The lowest lane of a mask. -/
def lowest (m : Mask) : Nat := ((List.range 32).find? (fun L => m.getLsbD L)).getD 0

/-- The number of lanes of a mask. -/
def laneCount (m : Mask) : Nat := (lanesOf m).length

/-! ### Registers (R30, R31, R36) -/

def Course.readV (c : Course) (n L : Nat) : W32 := get 0 c.v (n * 32 + L)
def Course.writeV (c : Course) (n L : Nat) (x : W32) : Course := { c with v := assign c.v (n * 32 + L) x }
def Course.readY (c : Course) (n L : Nat) : W32 := get 0 c.y (n * 32 + L)
def Course.writeY (c : Course) (n L : Nat) (x : W32) : Course := { c with y := assign c.y (n * 32 + L) x }
def Course.readS (c : Course) (n : Nat) : W32 := get 0 c.s n
def Course.writeS (c : Course) (n : Nat) (x : W32) : Course := { c with s := assign c.s n x }

/-- p0 reads true in every lane (R30). -/
def Course.readP (c : Course) (n : Nat) : Mask := if n = 0 then BitVec.allOnes 32 else get 0 c.p n

/-- A write of a predicate in the lanes of a mask; a write to p0 is ignored (R30). -/
def Course.writeP (c : Course) (n : Nat) (lanes value : Mask) : Course :=
  if n = 0 then c else { c with p := assign c.p n ((c.readP n &&& ~~~lanes) ||| (value &&& lanes)) }

def Course.readFlags (c : Course) (L : Nat) : BitVec 8 := get 0 c.flags L

/-- The sticky flags of a lane raised: hardware only sets them (R36). -/
def Course.raise (c : Course) (L : Nat) (f : BitVec 8) : Course :=
  if f = 0 then c else { c with flags := assign c.flags L (c.readFlags L ||| f) }

/-- Flags raised in every lane of a mask. -/
def Course.raiseIn (c : Course) (m : Mask) (f : BitVec 8) : Course :=
  (lanesOf m).foldl (fun c L => c.raise L f) c

/-- The low half, and both halves, of a 64-bit value. -/
def low32 (x : W64) : W32 := x.setWidth 32
def high32 (x : W64) : W32 := (x >>> 32).setWidth 32
def pair (hi lo : W32) : W64 := hi ++ lo

/-- A result in a strand register, a pair when `wide` (R30). -/
def Course.writeVal (c : Course) (n L : Nat) (wide : Bool) (x : W64) : Course :=
  if wide then (c.writeV n L (low32 x)).writeV (n + 1) L (high32 x) else c.writeV n L (low32 x)

/-- A result in the shadow of v(n), with its bits of the proposal mask (R205). -/
def Course.writeShadow (c : Course) (n L : Nat) (wide : Bool) (x : W64) : Course :=
  let k := n - 96
  let bits : BitVec 16 := (if wide then 3#16 else 1#16) <<< k
  let c := if wide then (c.writeY k L (low32 x)).writeY (k + 1) L (high32 x) else c.writeY k L (low32 x)
  { c with propMask := assign c.propMask L (get 0 c.propMask L ||| bits) }

/-- A result in a uniform register, a pair when `wide`. -/
def Course.writeSVal (c : Course) (n : Nat) (wide : Bool) (x : W64) : Course :=
  if wide then (c.writeS n (low32 x)).writeS (n + 1) (high32 x) else c.writeS n (low32 x)

def Course.readVal (c : Course) (n L : Nat) (wide : Bool) : W64 :=
  if wide then pair (c.readV (n + 1) L) (c.readV n L) else (c.readV n L).setWidth 64

def Course.readSVal (c : Course) (n : Nat) (wide : Bool) : W64 :=
  if wide then pair (c.readS (n + 1)) (c.readS n) else (c.readS n).setWidth 64

/-- A result delivered to a register file: v and s as they are, y as the shadow of v(n). -/
def Course.deliver (c : Course) (f : File) (n L : Nat) (wide : Bool) (x : W64) : Course :=
  match f with
  | .v => c.writeVal n L wide x
  | .s => c.writeSVal n wide x
  | .y => c.writeShadow n L wide x

/-! ### Counters (R38) -/

def Counts.read (k : Counts) : Nat → Nat
  | 1 => k.load | 2 => k.store | 3 => k.copy | 4 => k.tile | 5 => k.queue | _ => 0

def Counts.write (k : Counts) (cls n : Nat) : Counts :=
  match cls with
  | 1 => { k with load := n } | 2 => { k with store := n } | 3 => { k with copy := n }
  | 4 => { k with tile := n } | 5 => { k with queue := n } | _ => k

/-- %pending (R38). -/
def Counts.word (k : Counts) : W32 :=
  BitVec.ofNat 32 (k.load + 64 * k.store + 4096 * k.copy + 262144 * k.tile + 16777216 * k.queue)

/-- The counters of R371, keyed by KIND × 2048 + UNIT; PAIRS counts modulo 2³². -/
def State.count (s : State) (kind unit n : Nat) : State :=
  let k := kind * 2048 + unit
  let x := get 0 s.counters k + BitVec.ofNat 64 n
  { s with counters := assign s.counters k (if kind = 6 then x &&& 0xFFFFFFFF#64 else x) }

/-- %poison_count stops at 2³² − 1 (R35). -/
def State.poisonRead (s : State) (asid n : Nat) : State :=
  s.mapCtx asid (fun c => { c with poisonCount := BitVec.ofNat 32 (min (c.poisonCount.toNat + n) (2 ^ 32 - 1)) })

/-! ### Physical memory -/

/-- What a byte of memory that nothing has written reads as: DESIGN CHOICE (log 2). -/
def emptyByte : Byte := 0

/-- The canonical form of memory. -/
abbrev Memory.wf (m : Cells 8) : Prop := Canonical emptyByte m

def State.readByte (s : State) (pa : Nat) : Byte := get emptyByte s.mem pa
def State.writeByte (s : State) (pa : Nat) (x : Byte) : State := { s with mem := put emptyByte s.mem pa x }

/-- Bytes as one little-endian number. -/
def leNat : List Byte → Nat
  | [] => 0
  | b :: t => b.toNat + 256 * leNat t

/-- A number as `n` little-endian bytes. -/
def leBytes (n : Nat) (x : Nat) : List Byte := (List.range n).map (fun k => BitVec.ofNat 8 (x >>> (8 * k)))

def State.readBytes (s : State) (pa n : Nat) : List Byte := getAll emptyByte s.mem pa n
def State.readNat (s : State) (pa n : Nat) : Nat := leNat (s.readBytes pa n)
def lineOf (pa : Nat) : Nat := pa / 128

/-- The lines that `n` bytes from `pa` touch. -/
def linesOf (pa n : Nat) : List Nat := (List.range (lineOf (pa + (n - 1)) + 1 - lineOf pa)).map (· + lineOf pa)

/-- Before a write while grids run, what its words hold is noted: a running grid may fetch either (R283). -/
def State.noteCode (s : State) (pa n : Nat) : State :=
  if !s.grids.isEmpty && n != 0 then
    let ws := (List.range ((pa + n - 1) / 4 + 1 - pa / 4)).map (· + pa / 4)
    { s with oldCode := s.oldCode ++ ws.map (fun w => (w, s.stamp, BitVec.ofNat 32 (s.readNat (4 * w) 4))) }
  else s

/-- Bytes written to memory. -/
def State.writeBytes (s : State) (pa : Nat) (bs : List Byte) : State :=
  { s.noteCode pa bs.length with mem := putAll emptyByte s.mem pa bs }

def State.poisoned (s : State) (pa : Nat) : Bool := s.poison.contains (lineOf pa)
def State.anyPoisoned (s : State) (pa n : Nat) : Bool := (linesOf pa n).any s.poison.contains

/-- Where an address has its home (R236, R347). What is fitted of the far tier of a die is a constant of Config (DESIGN CHOICE,
log 88): an address beyond it is not present. -/
inductive Home where
  | near (die : Nat) | far (die : Nat) | host | peer (link : Nat) | nowhere
  deriving DecidableEq, Repr

def homeOf (pa : Nat) : Home :=
  if pa < 0x1000000000 then .near (pa / 0x400000000)
  else if pa < 0x10000000000 then .nowhere
  else if pa < 0x20000000000 then
    let die := (pa - 0x10000000000) / 0x4000000000
    if (pa - 0x10000000000) % 0x4000000000 < Config.farFitted die then .far die else .nowhere
  else if pa < 0x40000000000 then .host
  else if pa < 0x280000000000 then .peer ((pa - 0x40000000000) / 0x20000000000)
  else .nowhere

def Home.package : Home → Bool
  | .near _ | .far _ => true
  | _ => false

/-- The die whose slice orders the accesses of a line: its home die, the caching die of a host line (R347), the die of
the link for a peer line (R354). -/
def homeDie (pa : Nat) : Nat :=
  match homeOf pa with
  | .near d | .far d => d
  | .host => pa / 4096 % 4
  | .peer l => l % 4
  | .nowhere => 0

/-- Whether the device caches a line: not a peer's (R354), and not the host's through a port in PCIe mode (R346). -/
def State.cached (s : State) (pa : Nat) : Bool :=
  match homeOf pa with
  | .near _ | .far _ => true
  | .host => !s.pcie.contains (homeDie pa)
  | _ => false

/-- The home slice (R237). -/
def sliceOf (pa : Nat) : Nat :=
  ((pa / 2 ^ 9) % 64) ^^^ ((pa / 2 ^ 15) % 64) ^^^ ((pa / 2 ^ 21) % 64) ^^^ ((pa / 2 ^ 27) % 64)

/-- A line is marked poisoned: every byte zero, the directory entry cleared (R367). -/
def State.poisonLine (s : State) (line : Nat) : State :=
  if s.poison.contains line then s
  else { s with mem := eraseRange s.mem (line * 128) (line * 128 + 128), poison := line :: s.poison,
                directory := erase s.directory line,
                copies := s.copies.filter (fun p => p.1 / 4 ≠ line),
                victims := s.victims.filter (fun v => v.line ≠ line) }.count 4 (homeDie (line * 128)) 1

def State.clearPoison (s : State) (line : Nat) : State := { s with poison := s.poison.filter (· ≠ line) }

/-- A write to bytes of lines at their homes: on a poisoned line a write that does not cover the line is dropped, and a
whole-line write clears the mark (R368). `whole` lists the lines that the operation covers. -/
def State.applyWrite (s : State) (pa : Nat) (bs : List Byte) (whole : List Nat) : State :=
  if s.poison.contains (lineOf pa) then
    if whole.contains (lineOf pa) then (s.clearPoison (lineOf pa)).writeBytes pa bs else s
  else s.writeBytes pa bs

/-! ### Copies and the directory (R349 to R352) -/

/-- The place of a die's bit in DIES. -/
def dieBit (home die : Nat) : Nat := (die + 3 - home) % 4

/-- OWN of a directory entry. -/
def ownOf (e : BitVec 10) : Nat := e.toNat / 256

/-- An entry with another OWN. -/
def withOwn (e : BitVec 10) (own : Nat) : BitVec 10 := BitVec.ofNat 10 (e.toNat % 256 + own * 256)

def State.setEntry (s : State) (line : Nat) (e : BitVec 10) : State :=
  { s with directory := if e = 0 then erase s.directory line else assign s.directory line e }

/-- Every copy of a line recalled: a victim buffer that holds it has answered. -/
def State.dropCopies (s : State) (line : Nat) : State :=
  { s with copies := s.copies.filter (fun p => p.1 / 4 ≠ line), directory := erase s.directory line,
           victims := s.victims.map (fun (v : Victim) => if v.line = line then { v with taken := true } else v) }

/-- No recall of a line is outstanding. -/
def State.recallFree (s : State) (line : Nat) : Bool := !s.recalls.any (fun p => p.1 == line)

/-! ### Leases (R241, R242) -/

/-- No lease on the line is live, so a pool operation may write it (R242, R265). -/
def State.linesFree (s : State) (line : Nat) : Bool := get 0 s.lmax line ≤ s.clock

/-- A read of the line waits in an open combining entry, so that a write to it waits (R247). -/
def State.fetching (s : State) (line : Nat) : Bool := s.combines.any (fun c => c.line == line)

/-- No lease on the line, nor of a window cache on a descriptor in it, is live, and no fetch of it is under way, so a write to it
may be performed (R242, R247). -/
def State.leaseOver (s : State) (line : Nat) : Bool :=
  s.linesFree line && get 0 s.wmax line ≤ s.clock && !s.fetching line

/-- A write to the line waits at its authority, so that fills of it take no lease (R242): a write that has arrived, a recall,
or, under 0, the write-back of a block. -/
def State.writeWaits (s : State) (line : Nat) : Bool :=
  s.leaseWait.any (fun x => x.2 == line) || s.recalls.any (fun p => p.1 == line)

/-- A line's waiting write, noted under the stamp of what writes it. -/
def State.awaitLease (s : State) (id : Nat) (lines : List Nat) : State :=
  { s with leaseWait := s.leaseWait ++ (lines.filter (fun l => !s.leaseWait.contains (id, l))).map (fun l => (id, l)) }

/-- The waiting writes of `id` are no more. -/
def State.endWait (s : State) (id : Nat) : State := { s with leaseWait := s.leaseWait.filter (fun x => x.1 != id) }

/-! ### Translation (R329 to R331) -/

/-- A page as a walk finds it. -/
structure Page where
  pa    : Nat
  bits  : Nat
  read  : Bool
  write : Bool
  exec  : Bool
  cow   : Bool
  dedup : Bool
  deriving DecidableEq, Repr

/-- How a walk ends. -/
inductive Walk where
  | page (p : Page)
  | absent
  | poisoned
  deriving DecidableEq, Repr

/-- What an entry of a page table says: nothing present, the next table, or a leaf with the page's first byte as its address. -/
inductive TableEntry where
  | none
  | table (base : Nat)
  | leaf (p : Page)
  deriving DecidableEq, Repr

/-- The entry at an address in a table with `k` levels below it (R329, R330). -/
def State.tableEntry (s : State) (k at_ : Nat) : TableEntry :=
  let shift := 12 + 9 * k
  let e : W64 := BitVec.ofNat 64 (s.readNat at_ 8)
  let frame := e.toNat / 4096 % 2 ^ 40 * 4096
  let reserved := e.extractLsb' 60 4 ≠ 0 ∨ e.extractLsb' 52 7 ≠ 0 ∨ e.extractLsb' 1 6 ≠ 0
  if e.getLsbD 0 = false ∨ reserved then .none
  else if e.getLsbD 7 then
    if 2 < k ∨ frame % 2 ^ shift ≠ 0 then .none
    else .leaf { pa := frame, bits := shift, read := e.getLsbD 8, write := e.getLsbD 9 && !e.getLsbD 11, exec := e.getLsbD 10,
                 cow := e.getLsbD 11, dedup := e.getLsbD 59 }
  else if k = 0 ∨ (homeOf frame).package = false then .none
  else .table frame

/-- A page's address as a walk ends: an address in no row of R236 is not present. -/
def Page.walk (p : Page) : Walk := if homeOf p.pa = .nowhere then .absent else .page p

/-- One level of the walk: `k` levels are left below this one (R329, R330). -/
def State.walkFrom (s : State) (va : Nat) : (left : Nat) → (base : Nat) → Walk
  | 0, _ => .absent
  | k + 1, base =>
    let shift := 12 + 9 * k
    let at_ := base + 8 * (va / 2 ^ shift % 512)
    if s.poisoned at_ then .poisoned
    else match s.tableEntry k at_ with
      | .none => .absent
      | .leaf p => ({ p with pa := p.pa + va % 2 ^ shift } : Page).walk
      | .table b => s.walkFrom va k b

/-- The five-level walk from PTROOT of a context. -/
def State.walk (s : State) (asid va : Nat) : Walk :=
  let root := (s.ctx asid).ptroot.toNat
  if (homeOf root).package then s.walkFrom va 5 root else .absent

def TlbEntry.covers (e : TlbEntry) (asid va : Nat) : Bool :=
  e.asid == asid && e.va / 2 ^ e.bits == va / 2 ^ e.bits

def TlbEntry.page (e : TlbEntry) (va : Nat) : Page :=
  { pa := e.frame + va % 2 ^ e.bits, bits := e.bits, read := e.read, write := e.write, exec := e.exec, cow := e.cow,
    dedup := e.dedup }

def Page.entry (p : Page) (asid va : Nat) : TlbEntry :=
  { asid, va := va / 2 ^ p.bits * 2 ^ p.bits, bits := p.bits, frame := p.pa / 2 ^ p.bits * 2 ^ p.bits, read := p.read,
    write := p.write, exec := p.exec, cow := p.cow, dedup := p.dedup }

/-- A translation through the sector's TLB, then the walkers (R331). -/
def State.translateIn (s : State) (sector asid va : Nat) : Walk :=
  match s.sectorTlb.find? (fun p => p.1 == sector && p.2.covers asid va) with
  | some p => (p.2.page va).walk
  | none => s.walk asid va

/-- A translation for a core: its TLB, its sector's TLB, the walkers (R331). -/
def State.translate (s : State) (core asid va : Nat) : Walk :=
  match (s.core core).tlb.find? (fun e => e.covers asid va) with
  | some e => (e.page va).walk
  | none => s.translateIn (sectorOf core) asid va

/-- Whether a link is up, so that its neighbour is inside .h6 (R269, R356). -/
def State.linkUp (s : State) (l : Nat) : Bool := s.links.contains l

/-- Whether a home lies inside a scope (R131, R269). -/
def Home.inScope (h : Home) (scope : Nat) : Bool :=
  match h with
  | .near _ | .far _ => true
  | .host => scope == 5
  | .peer _ => 4 ≤ scope
  | .nowhere => false

/-! ### Scratchpad -/

def Core.readScratch (c : Core) (o n : Nat) : List Byte := getAll 0 c.scratch o n
def Core.writeScratch (c : Core) (o : Nat) (bs : List Byte) : Core := { c with scratch := putAll 0 c.scratch o bs }

def State.spadNat (s : State) (core o n : Nat) : Nat := leNat ((s.core core).readScratch o n)
def State.spadWrite (s : State) (core o : Nat) (bs : List Byte) : State := s.mapCore core (·.writeScratch o bs)

/-! ### Free values -/

/-- A value of the free counter, and the state with the next one. -/
def State.draw (s : State) : Nat × State := (s.free, { s with free := s.free + 1 })

/-- A stamp, and the state with the next one. -/
def State.fresh (s : State) : Nat × State := (s.stamp, { s with stamp := s.stamp + 1 })

end Sys2Proof.Machine
end

