-- ==== Sys2Proof/Machine/Slices.lean ====
section
/-! DEFINITION. What the L2 slices hold: the lines of a set, their room and their replacement (R237, R242, R244, R245, R262), the
copies that dies have of each other's lines (R349 to R352), the leases that fills take (R241, R242), the write that is performed
at a home, and the deduplication of a line that is written back (R251). -/

namespace Sys2Proof.Machine

/-! ### Deduplication (R251) -/

/-- The words of some bytes. -/
def bytesWords : List Byte → List Nat
  | a :: b :: c :: d :: t => leNat [a, b, c, d] :: bytesWords t
  | _ => []

/-- The hash of a line's 32 words. -/
def hashLine (bs : List Byte) : W32 := (bytesWords bs).foldl (fun h w => rng h (BitVec.ofNat 32 w)) 0

/-- Die × 2 + tier of a line. -/
def tierOf (line : Nat) : Nat :=
  match homeOf (line * 128) with
  | .near d => 2 * d
  | .far d => 2 * d + 1
  | _ => 0

/-- The count at which a shared copy is frozen. -/
def frozen : Nat := 65535

/-- A line's shared copy released: freed with its last line unless it is frozen. -/
def State.releaseCopy (s : State) (line : Nat) : State :=
  match lookup? s.dedup line with
  | none => s
  | some k => match lookup? s.shared k with
    | none => { s with dedup := erase s.dedup line }
    | some c =>
      let s := { s with dedup := erase s.dedup line }
      if c.count < frozen then
        if c.count ≤ 1 then
          { s with shared := erase s.shared k, hashes := s.hashes.filter (fun p => p.2 != k) }
        else { s with shared := assign s.shared k { c with count := c.count - 1 } }
      else s

/-- A line stored as a fresh copy, entered under its hash. -/
def State.freshCopy (s : State) (line key asid : Nat) (data : List Byte) : State :=
  { s with shared := assign s.shared s.stamp { data, count := 1, asid }, dedup := assign s.dedup line s.stamp,
           hashes := assign s.hashes key s.stamp, stamp := s.stamp + 1 }

/-- A line of a DEDUP page is deduplicated. -/
def State.deduplicate (s : State) (line asid : Nat) : State :=
  let data := s.readBytes (line * 128) 128
  let key := tierOf line * 2 ^ 32 + (hashLine data).toNat
  let s := s.releaseCopy line
  match (lookup? s.hashes key).bind (fun k => (lookup? s.shared k).map (fun c => (k, c))) with
  | none => s.freshCopy line key asid data
  | some (k, c) =>
    if c.data = data then
      if c.count < frozen then
        { s with shared := assign s.shared k { c with count := c.count + 1 }, dedup := assign s.dedup line k }
      else s.freshCopy line key asid data
    else s.count 5 (tierOf line) 1

/-- Whether a leaf below a table with `left` levels maps a line with DEDUP (R329, R330). -/
def State.mapsDedup (s : State) (line : Nat) : (left : Nat) → (base : Nat) → Bool
  | 0, _ => false
  | k + 1, base => (List.range 512).any (fun i =>
      !s.poisoned (base + 8 * i) && match s.tableEntry k (base + 8 * i) with
      | .leaf p => p.dedup && p.pa ≤ line * 128 && line * 128 < p.pa + 2 ^ p.bits
      | .table b => s.mapsDedup line k b
      | .none => false)

/-- The context for which a line lies on a DEDUP page: a live one whose tables map it so when the line is written back (DESIGN
CHOICE, log 28). -/
def State.dedupFor (s : State) (line : Nat) : Option Nat :=
  (s.ctxs.find? (fun p => p.2.state != 0 && (homeOf p.2.ptroot.toNat).package &&
    s.mapsDedup line 5 p.2.ptroot.toNat)).map (·.1)

/-- A line is written back to DRAM (R251); an error that lay there is written over. -/
def State.toDram (s : State) (line : Nat) : State :=
  let s := { s with softErrors := s.softErrors.filter (fun e => match e.spot.site with
    | .line pa false => lineOf pa != line
    | _ => true) }
  match s.dedupFor line with
  | some asid => s.deduplicate line asid
  | none => s

/-! ### The segments of a line (R244) -/

/-- Whether the signed distance of every word of `size` bytes from the first fits `width` bytes. -/
def deltasFit (bs : List Byte) (size width : Nat) : Bool :=
  let ws := (List.range (128 / size)).map (fun k => leNat ((bs.drop (k * size)).take size))
  ws.all (fun w =>
    let d := (w + 2 ^ (8 * size) - ws.headD 0) % 2 ^ (8 * size)
    d < 2 ^ (8 * width - 1) || 2 ^ (8 * size) - 2 ^ (8 * width - 1) ≤ d)

/-- The segments that a line takes in the form with the fewest. -/
def segmentsOf (bs : List Byte) : Nat :=
  if deltasFit bs 8 1 then 1
  else if deltasFit bs 4 1 || deltasFit bs 8 2 then 2
  else if deltasFit bs 4 2 || deltasFit bs 8 4 then 3
  else 4

/-- The slice of a line, over the package. -/
def sliceNo (line : Nat) : Nat := 64 * homeDie (line * 128) + sliceOf (line * 128)

/-- Superblock tags and segments of a set. -/
def setTags : Nat := 6
def setSegments : Nat := 48

/-! ### Decoded blocks (R252, R262) -/

def ZShape.count (z : ZShape) : Nat := 4 ^ z.dim
def ZShape.size (z : ZShape) : Nat := if z.wide then 8 else 4

/-- The bytes that a decoded block takes. -/
def ZShape.room (z : ZShape) : Nat := z.count * z.size

/-- The set of a superblock in its slice, a constant of Config (DESIGN CHOICE, log 29). -/
def setOf (block : Nat) : Nat := Config.l2Set block % 1024

/-- The sets over which a decoded block is spread: a way's 128 bytes at most in each of the sets from that of its first byte on
(DESIGN CHOICE, log 29); and the bytes that it takes in set `i` of its slice. -/
def ZEntry.setAt (e : ZEntry) (k : Nat) : Nat := (setOf (e.pa / 512) + k) % 1024

def ZEntry.bytesIn (e : ZEntry) (i : Nat) : Nat :=
  ((List.range 4).map (fun k => if e.setAt k = i then min 128 (e.shape.room - 128 * k) else 0)).sum

/-- The bytes that some decoded blocks take in a set, and the bytes of the 3 ways that a set may give them. -/
def blockBytes (es : List ZEntry) (i : Nat) : Nat := (es.map (·.bytesIn i)).sum
def blockRoom : Nat := 384

/-- The decoded blocks of a die's slice. -/
def State.sliceBlocks (s : State) (die slice : Nat) : List ZEntry :=
  s.zbuf.filter (fun e => homeDie e.pa == die && sliceOf e.pa == slice)

/-! ### The sets of a slice (R244, R245) -/

/-- The lines that a die's slices hold: those whose home they are, and the die's copies of others. -/
def State.diesLines (s : State) (die : Nat) : List Nat :=
  (s.l2.filter (fun p => homeDie (p.1 * 128) == die)).map (·.1) ++
    (s.copies.filter (fun p => p.1 % 4 == die)).map (fun p => p.1 / 4)

/-- The lines of one slice of a die. -/
def State.sliceLines (s : State) (die slice : Nat) : List Nat := (s.diesLines die).filter (fun l => sliceOf (l * 128) == slice)

/-- The lines of set `i` of a slice. -/
def State.setLines (s : State) (die slice i : Nat) : List Nat := (s.sliceLines die slice).filter (fun l => setOf (l / 4) == i)

/-- Whether set `i` of a slice holds lines, by their superblocks and their segments, beside the ways that decoded blocks take. -/
def State.setHolds (s : State) (die slice i : Nat) (lines : List Nat) : Bool :=
  ((lines.map (· / 4)).eraseDups).length ≤ setTags &&
    ((lines.map (fun l => segmentsOf (s.readBytes (l * 128) 128))).sum) +
      4 * ((blockBytes (s.sliceBlocks die slice) i + 127) / 128) ≤ setSegments

/-- The key of a line that a die's slice holds, and of its superblock. -/
def heldKey (die line : Nat) : Nat := line * 4 + die
def useKey (die line : Nat) : Nat := line / 4 * 4 + die

/-- A line used in a die's slice: its superblock is the most recently used one, with `.strm` the least (R245). -/
def State.used (s : State) (die line policy : Nat) : State :=
  let rest := s.uses.filter (· != useKey die line)
  { s with uses := if policy = 1 then useKey die line :: rest else rest ++ [useKey die line],
           kept := if policy = 3 && !s.kept.contains (heldKey die line) then heldKey die line :: s.kept else s.kept }

/-- Entries of a slice's victim buffer (R352). -/
def victimRoom : Nat := 32

/-- The victim buffer of a line's slice on a die has room. -/
def State.victimFree (s : State) (die line : Nat) : Bool :=
  (s.victims.filter (fun v => v.die == die && sliceOf (v.line * 128) == sliceOf (line * 128))).length < victimRoom

/-- L2 holds a line dirty. -/
def State.l2Dirty (s : State) (line : Nat) : Bool := lookup? s.l2 line == some .m

/-- A dirty line of another home, which leaves its set through the victim buffer: a copy in M, or a line of the host (R352). -/
def State.writesAway (s : State) (die line : Nat) : Bool :=
  if homeDie (line * 128) = die then homeOf (line * 128) == .host && s.l2Dirty line
  else lookup? s.copies (line * 4 + die) == some .m

/-- A line may leave a die's slice: no lease on it is live (R242), no read of it is combining, at its home no other copy stands
(R351), and a dirty line of another home finds room in the victim buffer (R352). -/
def State.evictable (s : State) (die line : Nat) : Bool :=
  s.leaseOver line && (homeDie (line * 128) != die || get 0 s.directory line == 0) &&
    (!s.writesAway die line || s.victimFree die line)

/-- A line leaves a die's slice: to the victim buffer where its home is elsewhere and it is dirty, to DRAM where it is dirty; a
clean copy leaves the directory. -/
def State.evictLine (s : State) (die line : Nat) : State :=
  let s := { s with kept := s.kept.filter (· != heldKey die line) }
  let away (s : State) : State :=
    if s.writesAway die line then { s with victims := s.victims ++ [{ die, line, taken := false }] } else s
  if homeDie (line * 128) = die then
    let s := away s
    let s := if (homeOf (line * 128)).package && s.l2Dirty line then s.toDram line else s
    { s with l2 := erase s.l2 line }
  else if lookup? s.copies (line * 4 + die) = some .m then
    { away s with copies := erase s.copies (line * 4 + die) }
  else
    let e := get 0 s.directory line &&& ~~~ (BitVec.ofNat 10 (2 ^ dieBit (homeDie (line * 128)) die))
    { s with copies := erase s.copies (line * 4 + die) }.setEntry line (withOwn e 0)

/-- The lines of a superblock that leave a set together: none while one of them may not leave, and a line that `.keep` holds
only where the set holds no other line (R245). -/
def State.leaving (s : State) (die block : Nat) (set : List Nat) : Option (List Nat) :=
  let plain (l : Nat) : Bool := !s.kept.contains (heldKey die l)
  let mine := set.filter (fun l => l / 4 == block)
  let out := if set.all (fun l => !plain l) then mine else mine.filter plain
  if !out.isEmpty && out.all (s.evictable die) then some out else none

/-- What leaves a set first: of the least recently used superblock of which something may leave. -/
def State.leaver (s : State) (die : Nat) (set : List Nat) : Option (List Nat) :=
  (((s.uses.filter (fun k => k % 4 == die)).map (· / 4) ++ set.map (· / 4)).eraseDups).findSome?
    (fun b => s.leaving die b set)

/-- Room in set `i` of a die's slice for some lines beside those that it holds: superblocks leave until all fit; none where nothing
may leave. A slice with few lines has room. -/
def State.roomInSet (die slice i : Nat) (new : List Nat) : (fuel : Nat) → State → Option State
  | 0, _ => none
  | k + 1, s =>
    if ((s.sliceLines die slice).filter (fun l => !new.contains l)).length < setTags then some s
    else
      let set := (s.setLines die slice i).filter (fun l => !new.contains l)
      if s.setHolds die slice i (new ++ set) then some s
      else match s.leaver die (set.filter (fun l => !new.any (fun n => l / 4 == n / 4))) with
        | some ls => State.roomInSet die slice i new k (ls.foldl (fun (s : State) l => s.evictLine die l) s)
        | none => none

/-- Room for a line among at most 24 lines of its set. -/
def State.roomForLine (s : State) (die line : Nat) : Option State :=
  State.roomInSet die (sliceOf (line * 128)) (setOf (line / 4)) [line] 25 s

/-- A line comes to L2, or changes there, in a state. Where its set has no room and nothing may leave, it is not kept there: what
is dirty goes to DRAM (DESIGN CHOICE, log 29). -/
def State.l2Put (s : State) (line : Nat) (st : Mesi) (policy : Nat) : State :=
  let die := homeDie (line * 128)
  match s.roomForLine die line with
  | some s => { s with l2 := assign s.l2 line st }.used die line policy
  | none =>
    let s := if (homeOf (line * 128)).package && st == .m then s.toDram line else s
    { s with l2 := if st == .m then erase s.l2 line else s.l2 }

/-- A line that L2 holds counts as used. -/
def State.l2Use (s : State) (line policy : Nat) : State :=
  if (lookup? s.l2 line).isSome then s.used (homeDie (line * 128)) line policy else s

/-- A read of a line goes to DRAM, which the counter L2MISS of its die counts (R371). -/
def State.countMiss (s : State) (line : Nat) : State :=
  if (homeOf (line * 128)).package then s.count 0x13 (homeDie (line * 128)) 1 else s

/-- A line comes to L2 clean; one of the host's window in E or S as the host grants it (R345; DESIGN CHOICE, log 92). -/
def State.l2Fill (s : State) (line policy : Nat) : State :=
  if homeOf (line * 128) = .host then
    { s with free := s.free + 1 }.l2Put line (if Config.hostGrantsAlone s.free then .e else .s) policy
  else s.l2Put line .s policy

/-- A read of a line at its slice: it is used there, or comes from DRAM. -/
def State.l2Read (s : State) (line policy : Nat) : State :=
  if (lookup? s.l2 line).isSome then s.l2Use line policy else (s.countMiss line).l2Fill line policy

/-- Reads at their slices of the lines that the device caches. -/
def State.l2Reads (s : State) (lines : List Nat) : State :=
  lines.foldl (fun (s : State) l => if s.cached (l * 128) then s.l2Read l 0 else s) s

/-- A line of L2 becomes clean. -/
def State.l2Clean (s : State) (line : Nat) : State :=
  { s with l2 := s.l2.map (fun p => if p.1 = line then (p.1, Mesi.s) else p) }

/-! ### Copies and the directory (R349 to R352) -/

/-- Another die's M copy of a line, or one in its victim buffer, gives its data: the home holds the line dirty toward DRAM, and
the buffer has answered. -/
def State.takeCopy (s : State) (line : Nat) : State :=
  let dirty := s.copies.any (fun p => p.1 / 4 == line && p.2 == .m) ||
    s.victims.any (fun v => v.line == line && !v.taken && (homeOf (line * 128)).package)
  { s with copies := s.copies.map (fun p => if p.1 / 4 = line then (p.1, Mesi.s) else p),
           victims := s.victims.map (fun (v : Victim) => if v.line = line && (homeOf (line * 128)).package then { v with taken := true } else v),
           l2 := if dirty then s.l2.map (fun p => if p.1 = line then (p.1, Mesi.m) else p) else s.l2 }

/-- A read of a line by a die: a copy in E or M elsewhere gives its data and becomes clean, and another die gains S, or E when no
other copy stands, where the home's L2 holds the line and the die's set has room. -/
def State.readCopy (s : State) (die line : Nat) : State :=
  let home := homeDie (line * 128)
  let e := get 0 s.directory line
  if die = home then
    if ownOf e = 0 then s else (s.takeCopy line).setEntry line (withOwn e 0)
  else if (lookup? s.copies (line * 4 + die)).isSome then s.used die line 0
  else
    let s := (s.takeCopy line).setEntry line (withOwn e 0)
    if (lookup? s.l2 line).isNone then s
    else match s.roomForLine die line with
      | none => s
      | some s =>
        let bit : BitVec 10 := BitVec.ofNat 10 (2 ^ dieBit home die)
        let alone := e == 0
        ({ s with copies := assign s.copies (line * 4 + die) (if alone then Mesi.e else .s) }.setEntry line
          (withOwn (get 0 s.directory line ||| bit) (if alone then 1 else 0))).used die line 0

/-- Every WAITADDR that watches a line repeats its loop (R165). -/
def State.wakeLine (s : State) (l : Nat) : State :=
  { s with watches := s.watches.map (fun (x : Watch) =>
      if x.lanes.any (fun k => lineOf k.pa == l) then { x with woken := true } else x) }

/-- The writes of the device and of the host that waited for a line's leases need to wait no more: they note themselves again
where they still do (R242). -/
def State.endNote (s : State) (line : Nat) : State :=
  { s with leaseWait := s.leaseWait.filter (fun x => x != (0, line)) }

/-- A write to a line under a POLICY has been performed at its home, every copy recalled: L2 holds it dirty, and the WAITADDR
that watch it repeat their loop (R165, R350). -/
def State.writtenWith (s : State) (pa policy : Nat) : State :=
  let l := lineOf pa
  ((if s.cached pa then (s.dropCopies l).l2Put l .m policy else s).wakeLine l).endNote l

def State.written (s : State) (pa : Nat) : State := s.writtenWith pa 0

/-- A write performed at a die's own copy of another die's line: every other copy is recalled, and the die's is M; where L2 of the
home or the die's set has no room for the line, it is performed at the home. -/
def State.writeCopy (s : State) (die pa policy : Nat) : State :=
  let line := lineOf pa
  let home := homeDie pa
  let t := (s.l2Read line policy).dropCopies line
  match (if (lookup? t.l2 line).isSome then t.roomForLine die line else none) with
  | none => s.writtenWith pa policy
  | some t =>
    ((({ t with copies := assign t.copies (line * 4 + die) Mesi.m }.setEntry line
      (withOwn (BitVec.ofNat 10 (2 ^ dieBit home die)) 1)).used die line policy).wakeLine line).endNote line

/-! ### Leases (R241, R242) -/

/-- The authority of a core for a line holds it: the home's slice on the core's own die, and for a line of the host, else the copy
of the core's die (R241, R347). -/
def State.authorityHolds (s : State) (core line : Nat) : Bool :=
  if homeDie (line * 128) = dieOf core || !(homeOf (line * 128)).package then (lookup? s.l2 line).isSome
  else (lookup? s.copies (line * 4 + dieOf core)).isSome

/-- Lines of L1: what the scratchpad leaves of 512 KiB (R4, R238). -/
def Core.l1Room (c : Core) : Nat := (512 - c.split) * 8

/-- The lines of L1 under a live lease but one. -/
def Core.liveLines (c : Core) (clock line : Nat) : List (Nat × Nat) := c.l1.filter (fun p => clock < p.2 && p.1 != line)

/-- Room in L1 for a line under a lease: expired lines leave, then one that a free value names (DESIGN CHOICE, log 39); none
where dirty private lines fill it. -/
def State.leaseRoom (s : State) (core line : Nat) : Option State :=
  let c := s.core core
  let live := c.liveLines s.clock line
  if c.privs.length + live.length < c.l1Room then some (s.setCore core { c with l1 := live })
  else match live[Config.privVictim s.free % live.length]? with
    | some x => some ({ s with free := s.free + 1 }.setCore core { c with l1 := live.filter (· != x) })
    | none => none

/-- A fill of a line for a core under a lease of its context, where the authority holds the line and L1 has room; what is parked
for a stopped core has not reached L1. -/
def State.grantLease (s : State) (core line len : Nat) : State :=
  let t := s.clock + len
  if !s.authorityHolds core line then s
  else
    let noted (s : State) : State := { s with lmax := assign s.lmax line (max (get 0 s.lmax line) t) }
    if !s.runs core then noted s
    else match s.leaseRoom core line with
      | some s => (noted s).mapCore core (fun c => { c with l1 := assign c.l1 line t })
      | none => s

end Sys2Proof.Machine
end

