-- ==== Sys2Proof/Machine/Teams.lean ====
section
/-! DEFINITION. Fault records, the commit token, and the end of courses, teams and grids (R229, R234, R235, R320, R333). -/

namespace Sys2Proof.Machine

/-- The pieces of `n` bytes from an address that lie in one line each: their start and length. -/
def pieces (va n : Nat) : List (Nat × Nat) :=
  if n = 0 then []
  else (linesOf va n).map (fun l =>
    let lo := max va (l * 128)
    (lo, min (va + n) (l * 128 + 128) - lo))

/-- The physical pieces of a range under a translation, none where a page is absent or does not grant the access. -/
def physical (xl : Nat → Walk) (grants : Page → Bool) (va n : Nat) : Option (List (Nat × Nat)) :=
  (pieces va n).mapM (fun p => match xl p.1 with
    | .page q => if grants q && p.1 < 2 ^ 57 then some (q.pa, p.2) else none
    | _ => none)

/-- The bytes of physical pieces, in order. -/
def State.gather (s : State) (ps : List (Nat × Nat)) : List Byte := ps.flatMap (fun p => s.readBytes p.1 p.2)

/-- Bytes written by the device itself to physical pieces, in order. -/
def State.spread (s : State) : List (Nat × Nat) → List Byte → State
  | [], _ => s
  | p :: ps, bs =>
    ((s.applyWrite p.1 (bs.take p.2) (if p.2 = 128 then [lineOf p.1] else [])).written p.1).spread ps (bs.drop p.2)

/-- What an access of the device itself to a context's memory leaves beside its result: a walk that ends on a poisoned line counts in
%poison_count (R330); of a read that is made, every line is read at its slice, and a poisoned one counts (R132, R371). -/
def State.touch (s : State) (asid va n : Nat) (read : Bool) : State :=
  match ((pieces va n).map (fun p => s.walk asid p.1)).find? (fun x => match x with | .page _ => false | _ => true) with
  | some .poisoned => s.poisonRead asid 1
  | some _ => s
  | none =>
    if !read then s
    else match physical (s.walk asid) (·.read) va n with
      | none => s
      | some ps =>
        let t := s.l2Reads ((ps.map (fun p => lineOf p.1)).eraseDups)
        let bad := ((ps.map (fun p => lineOf p.1)).eraseDups.filter s.poison.contains).length
        if bad = 0 then t else t.poisonRead asid bad

/-- A read of a context's memory by the device itself: none where a page is absent or not readable. -/
def State.readVia (s : State) (asid va n : Nat) : Option (List Byte) :=
  (physical (s.walk asid) (·.read) va n).map s.gather

/-- A write of a context's memory by the device itself: none where a page is absent or not writable. -/
def State.writeVia (s : State) (asid va : Nat) (bs : List Byte) : Option State :=
  (physical (s.walk asid) (·.write) va bs.length).map (fun ps => s.spread ps bs)

/-- The code of a cause (R231). -/
def Cause.code : Cause → BitVec 8
  | .illegalOpcode => 0x01 | .reservedField => 0x02 | .illegalOperand => 0x03 | .illegalConvergence => 0x04
  | .staleHandle => 0x05 | .notProducer => 0x06 | .illegalChain => 0x07 | .barrierExpectOverflow => 0x08
  | .barrierMisuse => 0x09 | .queueMisuse => 0x0A | .nestingLimit => 0x0B | .misaligned => 0x0C | .pageFault => 0x10
  | .permission => 0x11 | .poison => 0x12 | .scopeUnreachable => 0x13 | .proposalMisuse => 0x18 | .software => 0x20
  | .breakpoint => 0x21

/-- The fields of a fault record (R333). -/
structure Report where
  kind   : Nat
  code   : Nat := 0
  va     : Nat := 0
  grid   : W32 := 0
  core   : Nat := 0
  team   : Nat := 0
  recoff : Nat := 0

def Report.bytes (r : Report) : List Byte :=
  leBytes 8 (r.kind % 256 + r.code % 256 * 256) ++
  leBytes 4 (r.recoff % 32768) ++ leBytes 4 r.team ++ leBytes 4 (r.core % 2048) ++ leBytes 4 r.grid.toNat ++
  leBytes 8 r.va

/-- A fault record dropped (R333): FQLOST stops at 2³² − 1. -/
def Ctx.lose (c : Ctx) : Ctx := { c with fqLost := BitVec.ofNat 32 (min (c.fqLost.toNat + 1) (2 ^ 32 - 1)) }

/-- A fault record written to the ring of its context, or dropped (R333). -/
def State.report (s : State) (asid : Nat) (r : Report) : State :=
  let c := s.ctx asid
  if c.fqSize = 0 ∨ (c.fqTail - c.fqHead).toNat = c.fqSize.toNat then s.mapCtx asid Ctx.lose
  else
    let slot := c.fqBase.toNat + 32 * (c.fqTail.toNat % c.fqSize.toNat)
    match physical (s.walk asid) (·.write) slot 32 with
    | none => (s.touch asid slot 32 false).mapCtx asid Ctx.lose
    | some ps =>
      if ps.any (fun p => s.anyPoisoned p.1 p.2) then s.mapCtx asid Ctx.lose
      else
        let tail := c.fqTail + 1
        let s := (s.spread ps r.bytes).mapCtx asid (fun c => { c with fqTail := tail })
        if c.fqCount = 0 then s
        else (s.writeVia asid c.fqCount.toNat (leBytes 4 tail.toNat)).getD (s.touch asid c.fqCount.toNat 4 false)

/-- The %grid of a course's grid. -/
def State.gridId (s : State) (g : Nat) : W32 := (s.grid g).gid

/-! ### The extents and teams of a grid -/

/-- Bits `lo` up of a record, `n` of them. -/
def field {w : Nat} (r : BitVec w) (lo n : Nat) : Nat := r.toNat / 2 ^ lo % 2 ^ n

def Grid.gx (g : Grid) : Nat := field g.packet 96 32
def Grid.gy (g : Grid) : Nat := field g.packet 128 32
def Grid.gz (g : Grid) : Nat := field g.packet 160 32
def Grid.teams (g : Grid) : Nat := g.gx * g.gy * g.gz
def Grid.courses (g : Grid) : Nat := field g.krec 96 5
def Grid.scratch (g : Grid) : Nat := field g.krec 128 32
def Grid.usesTiles (g : Grid) : Bool := field g.krec 108 1 == 1
def Grid.psize (g : Grid) : Nat := 4 * field g.packet 71 15
def Grid.cores (g : Grid) : Bool := field g.packet 89 1 == 1
def Grid.entryPc (g : Grid) : Nat := (g.code + field g.krec 32 32) % 2 ^ 57

/-! ### The commit token (R320) -/

/-- The next logical identifier of a grid after `id`, wrapping to 0. -/
def Grid.succId (g : Grid) (id : Nat) : Nat :=
  let n := if id % 16 + 1 < g.courses then id + 1 else (id / 16 + 1) * 16
  if n / 16 < g.teams then n else 0

/-- The first identifier from `id` on, in the ring, of a course that has not ended; none when all have. -/
def Grid.seekId (g : Grid) : Nat → Nat → Option Nat
  | 0, _ => none
  | n + 1, id => if g.endedIds.contains id then g.seekId n (g.succId id) else some id

/-- The core and slot of a resident course by its logical identifier. -/
def State.findCourse (s : State) (grid id : Nat) : Option (Nat × Nat) :=
  match s.teams.find? (fun p => p.2.grid == grid && p.2.linear == id / 16) with
  | none => none
  | some (_, t) =>
    (t.slots.find? (fun k => match s.course? t.core k with | some c => c.index == id % 16 | none => false)).map
      (fun k => (t.core, k))

/-- TOKEN of the course with an identifier, on a core that runs: a stopped core's courses show it when its clock starts (R334). -/
def State.showToken (s : State) (grid id : Nat) (has : Bool) : State :=
  match s.findCourse grid id with
  | some (k, l) => if s.runs k then s.mapCourse k l (fun c => { c with token := has }) else s
  | none => s

/-- The token handed on from the holder (R98, R320). -/
def State.passToken (s : State) (grid : Nat) : State :=
  let g := s.grid grid
  match g.token with
  | none => s
  | some h =>
    let s := s.showToken grid h false
    let next := g.seekId (g.endedIds.length + 1) (g.succId h)
    let s := s.mapGrid grid (fun g => { g with token := next })
    match next with
    | none => s
    | some id => s.showToken grid id true

/-- A course of a deterministic grid has ended: it is skipped from then on, and passes the token if it holds it. -/
def State.endId (s : State) (grid id : Nat) : State :=
  let s := s.mapGrid grid (fun g => { g with endedIds := id :: g.endedIds })
  if (s.grid grid).token = some id then s.passToken grid else s

/-! ### The end of courses and teams -/

/-- The tiles and side vectors as at team start (R33). -/
def Core.clearTiles (c : Core) : Core := { c with acc := [], rowMax := [], rowSum := [] }

/-- A team leaves its core (R234): its registers, barriers, queues and allocation go with it. Tiles whose operations still
run are cleared at the next team that takes them. -/
def State.releaseTeam (s : State) (t : Nat) : State :=
  match lookup? s.teams t with
  | none => s
  | some tm =>
    let c := s.core tm.core
    let c := if tm.tiles && c.tileQ.isEmpty then c.clearTiles else c
    let gone := (c.courses.filter (fun p => tm.slots.contains p.1)).map (fun p => p.2.stamp)
    let s := s.setCore tm.core { c with courses := c.courses.filter (fun p => !tm.slots.contains p.1),
                                        privs := c.privs.filter (fun x => !gone.contains x.stamp),
                                        starved := c.starved.filter (fun p => !tm.slots.contains p.1) }
    { s with teams := erase s.teams t }

/-- A course ends (R93): its slot is free, the token passes on, and the team exits with its last course. -/
def State.endCourse (s : State) (core slot : Nat) : State :=
  match s.course? core slot with
  | none => s
  | some c =>
    let g := s.grid c.grid
    let id := (s.team c.team).linear * 16 + c.index
    let s := if g.det then s.endId c.grid id else s
    let s := s.mapCore core (fun k => { k with courses := erase k.courses slot,
                                               privs := k.privs.filter (fun x => x.stamp != c.stamp),
                                               starved := k.starved.filter (fun p => p.1 != slot) })
    let s := s.mapTeam c.team (fun t => { t with slots := t.slots.filter (· != slot) })
    if (s.team c.team).slots.isEmpty then s.releaseTeam c.team else s

/-- The lines that a store's accesses cover whole (R368). -/
def wholeLines (accs : List Access) : List Nat :=
  let lines := (accs.map (fun a => lineOf a.pa)).eraseDups
  lines.filter (fun l => (List.range 128).all (fun k =>
    accs.any (fun a => a.pa ≤ l * 128 + k && l * 128 + k < a.pa + a.size)))

/-- The accesses of a killed team that are still performed: each is chosen on its own, by free values from `n` (R235). -/
def keep {α : Type} (n : Nat) (xs : List α) : List α :=
  (xs.zipIdx.filter (fun p => Config.killPerforms (n + p.2))).map (·.1)

/-- An operation with the accesses that are still performed, none where there is none. -/
def Op.with {α : Type} (o : Op) (k : List α → OpKind) (xs : List α) : Option Op :=
  if xs.isEmpty then none else some { o with kind := k xs }

/-- What remains of an operation in flight when its team is killed (R235): loads are discarded, copies run on as jobs,
and each other access is performed whole or not at all, one that has been observed in the core's store path always. -/
def Op.afterKill (o : Op) (n : Nat) : Option Op :=
  match o.kind with
  | .store sp ord accs _ => if o.inCore then some o else
      if sp = .global then o.with (fun xs => .store sp ord xs (wholeLines xs)) (keep n accs) else none
  | .rmw sp f code ty rnd ret ord accs vals =>
      if sp = .global then o.with (fun xs => .rmw sp f code ty rnd ret ord xs vals) (keep n accs) else none
  | .zstore accs => o.with .zstore (keep n accs)
  | .zflush rs => o.with .zflush (keep n rs)
  | .pool _ => some o
  | .hint | .load .. | .zload .. | .reply .. | .qpop .. | .copy _ | .tile | .launch _ => none

/-- The choices that a kill makes for an operation. -/
def OpKind.choices : OpKind → Nat
  | .store _ _ accs _ => accs.length
  | .rmw _ _ _ _ _ _ _ accs _ => accs.length
  | .zstore accs => accs.length
  | .zflush rs => rs.length
  | _ => 0

/-- Operations in flight when a team is killed, with the free values from `n` on. -/
def killOps (team : Nat) : Nat → List Op → List Op
  | _, [] => []
  | n, o :: os =>
    if o.team = team then
      match o.afterKill n with
      | some o' => o' :: killOps team (n + o.kind.choices) os
      | none => killOps team (n + o.kind.choices) os
    else o :: killOps team n os

/-- A team is killed (R235): its courses stop at once, its tile operations are dropped (R185), and of its operations in flight
those of its ended courses too what is not performed is dropped. -/
def State.killTeam (s : State) (t : Nat) : State :=
  match lookup? s.teams t with
  | none => s
  | some tm =>
    let cs := tm.slots.filterMap (fun k => s.course? tm.core k)
    let stamps := cs.map (·.stamp)
    let mine (w : Option Waiter) : Bool := match w with | some k => stamps.contains k.stamp | none => false
    let n := s.free + (s.ops.map (fun o => o.kind.choices)).sum
    let dropped (p : PoolOp × Nat) : Bool := p.1.team == t && p.1.stage != 1 && p.1.stage != 3 &&
      !Config.killPerforms (n + p.2)
    let pool : List PoolOp := (s.pool.zipIdx.filter (fun p => !dropped p)).map (fun p => p.1)
    let ops := killOps t s.free s.ops
    let tiles := ((s.core tm.core).tileQ.filter (fun o => o.team == t)).map (fun o => o.op)
    let gone (i : Nat) : Bool := stamps.contains i || tiles.contains i ||
      s.watches.any (fun x => x.id == i && stamps.contains x.stamp) ||
      (s.ops.any (fun o => o.id == i) && !ops.any (fun o => o.id == i)) ||
      (s.pool.any (fun p => p.id == i) && !pool.any (fun p => p.id == i))
    let s := { s with ops := ops, free := n + s.pool.length, pool := pool,
                      leaseWait := s.leaseWait.filter (fun x => !gone x.1),
                      captures := (s.captures.filter (fun (r : CapReq) => !(mine r.who && r.done))).map (fun (r : CapReq) =>
                        if mine r.who then { r with who := none } else r),
                      restores := (s.restores.filter (fun (r : RestReq) => !(mine r.who && r.status.isSome))).map
                        (fun (r : RestReq) => if mine r.who then { r with who := none } else r),
                      absorbs := (s.absorbs.filter (fun (a : Absorb) => !gone a.op)).map (fun (a : Absorb) =>
                        { a with joined := a.joined.filter (fun i => !gone i) }),
                      combines := s.combines.map (fun (c : Combine) => { c with ops := c.ops.filter (fun i => !gone i) }),
                      xwaits := s.xwaits.filter (fun x => !stamps.contains x.stamp),
                      watches := s.watches.filter (fun x => !stamps.contains x.stamp) }
    let s := s.mapCore tm.core (fun c => { c with tileQ := c.tileQ.filter (fun o => o.team != t) })
    let s := if (s.grid tm.grid).det then
        cs.foldl (fun (s : State) (c : Course) => s.endId tm.grid (tm.linear * 16 + c.index)) s else s
    s.releaseTeam t

/-- The grids below a grid, to the nesting limit of ten levels (R229). -/
def State.family (s : State) : Nat → List Nat → List Nat
  | 0, gs => gs
  | n + 1, gs => gs ++ s.family n ((s.grids.filter (fun p => match p.2.parent with
      | some q => gs.contains q | none => false)).map (·.1))

/-- A grid is killed with every descendant (R229): resident teams are killed and no other team starts. -/
def State.killGrid (s : State) (g : Nat) : State :=
  let gs := s.family 10 [g]
  let ts := (s.teams.filter (fun p => gs.contains p.2.grid)).map (·.1)
  let s := ts.foldl State.killTeam s
  gs.foldl (fun (s : State) g => s.mapGrid g (fun x => { x with killed := true })) s

end Sys2Proof.Machine
end

