-- ==== Sys2Proof/Machine/Ops.lean ====
section
/-! DEFINITION. What every instruction word shares: the issuing fragment, the gates of issue, the operations in flight and
their counters, the issue of a word, and taking a trap and returning from one. -/

namespace Sys2Proof.Machine

open Sys2Proof.Encoding

/-! ### Operations in flight (R38, R134) -/

/-- Copies and tile operations, which go on past handler entry and are covered by WAIT alone (R37, R230). -/
def OpKind.detached : OpKind → Bool
  | .copy _ | .tile => true
  | _ => false

/-- The operations of a course without those that have completed in issue order within their class, and the operations taken
out. -/
def retireOps (stamp : Nat) : List Nat → List Op → List Op × List Op
  | _, [] => ([], [])
  | blocked, o :: os =>
    if o.stamp = stamp then
      if o.done ∧ blocked.contains o.cls = false then
        let r := retireOps stamp blocked os
        (r.1, o :: r.2)
      else
        let r := retireOps stamp (if o.cls = 0 then blocked else o.cls :: blocked) os
        (o :: r.1, r.2)
    else
      let r := retireOps stamp blocked os
      (o :: r.1, r.2)

/-- A completed operation lowers its counter and raises its flags (R37, R38). -/
def Course.lower (c : Course) (o : Op) : Course :=
  o.flags.foldl (fun c x => c.raiseIn x.1 x.2) { c with counts := c.counts.write o.cls (c.counts.read o.cls - 1) }

/-- Whether a course's completions show only in the next cycle: it has read %pending in this one (R38). -/
def State.showsLater (s : State) (core slot stamp : Nat) : Bool :=
  match s.courseOf core slot stamp with
  | some c => c.pendingAt == some s.clock
  | none => false

/-- Completed operations of a course lower their counters, in issue order within each class (R38); at a stopped core the
completions wait at its port (R341). -/
def State.retire (s : State) (core slot stamp : Nat) : State :=
  let r := if s.runs core && !s.showsLater core slot stamp then retireOps stamp [] s.ops else (s.ops, [])
  { s with ops := r.1 }.mapCourseOf core slot stamp (fun c => r.2.foldl Course.lower c)

/-- A change to an operation in flight. -/
def State.mapOp (s : State) (id : Nat) (g : Op → Op) : State :=
  { s with ops := s.ops.map (fun p => if p.id = id then g p else p) }

/-- Flags that an operation raises when it completes (R37). -/
def State.noteFlags (s : State) (id : Nat) (who : Mask) (fl : BitVec 8) : State :=
  s.mapOp id (fun p => { p with flags := p.flags ++ [(who, fl)] })

/-- An operation has completed (R134). -/
def State.complete (s : State) (id : Nat) : State :=
  match s.ops.find? (fun o => o.id == id) with
  | none => s
  | some o => (s.mapOp id (fun p => { p with done := true })).retire o.core o.slot o.stamp

/-- Earlier work of a course that a handler entry, and a read of %status, wait for (R37, R230). -/
def State.outstanding (s : State) (stamp : Nat) : Bool :=
  s.ops.any (fun o => o.stamp == stamp && !o.done && !o.kind.detached)

/-! ### The issuing fragment (R86) -/

/-- The fragment that issues, with its lanes. -/
structure Frag where
  core  : Nat
  slot  : Nat
  entry : Nat
  c     : Course
  pc    : W64
  /-- active(F) -/
  active : Mask
  /-- the executing lanes -/
  exec  : Mask
  asid  : Nat
  /-- the stamp of the instruction's operation -/
  op    : Nat
  /-- the course holds the commit token, or starts with it at this issue (R320) -/
  token : Bool := false

/-- The mask of the lanes whose guard is true (R77). -/
def Course.guard (c : Course) (w : Fields) : Mask :=
  if w.gneg then ~~~ (c.readP w.guard.val) else c.readP w.guard.val

/-- Identifier 0 of a deterministic grid holds the token and has not issued: TOKEN becomes 1 at its first issue (R320). -/
def State.tokenStarts (s : State) (c : Course) : Bool :=
  c.det && !c.token && c.index == 0 && (s.team c.team).linear == 0 && (s.grid c.grid).token == some 0

/-- The fragment that the state names as issuing, if it is live. -/
def State.frag (s : State) (w : Fields) : Option Frag :=
  match s.course? s.issuer.core s.issuer.slot with
  | none => none
  | some c =>
    let e := get {} c.entries s.issuer.entry
    if e.valid then
      some { core := s.issuer.core, slot := s.issuer.slot, entry := s.issuer.entry, c, pc := e.pc,
             active := e.mask, exec := e.mask &&& e.began.getD (c.guard w), asid := (s.grid c.grid).asid, op := s.stamp,
             token := c.token || s.tokenStarts c }
    else none

/-- The lowest executing lane. -/
def Frag.low (f : Frag) : Nat := lowest f.exec

/-- The issuing course changed. -/
def State.course (s : State) (f : Frag) (g : Course → Course) : State := s.mapCourse f.core f.slot g

def Course.mapEntry (c : Course) (n : Nat) (g : Entry → Entry) : Course := { c with entries := adjust c.entries n g }

/-! ### Gates of issue (R37, R79, R96, R132) -/

/-- Issue cost of an ENERGY class (R316). -/
def energyCost : Nat → Nat
  | 0 => 1 | 1 => 2 | 2 => 4 | _ => 16

/-- EON of a context (R318). -/
def Ctx.eon (c : Ctx) : Bool := c.mode.getLsbD 1

def readsStatus (w : Fields) : Bool := w.a == .special .status || w.b == .special .status
def readsPending (w : Fields) : Bool := w.a == .special .pending || w.b == .special .pending

/-- A load of a STRICT course has not returned, so that nothing of the course issues (R132). -/
def State.strictHeld (s : State) (stamp : Nat) : Bool := s.ops.any (fun o => o.stamp == stamp && o.strict && !o.done)

/-- The context's energy budget is empty (R79 point 5), or its step for this cycle has been made, after which nothing of the context
issues in the cycle (R317). -/
def Ctx.empty (c : Ctx) : Bool := c.eon && (c.budget == 0 || c.ticked)

/-- The fragment's XCHG or WAITADDR has issued and is not done (R129, R165). -/
def State.blocked (s : State) (stamp entry : Nat) : Bool :=
  s.xwaits.any (fun x => x.stamp == stamp && x.entry == entry) || s.watches.any (fun x => x.stamp == stamp && x.entry == entry)

/-- A core that may issue: its clock and its supply stand, and nothing of the device is stalled (R319, R334, R376). -/
def State.mayIssue (s : State) (core : Nat) : Bool :=
  s.mgmt.railsUp && !s.mgmt.stalled && (s.core core).run == .running && (s.core core).change.isNone

/-- The counter of a BUMP class stands at 63 (R79 point 4). -/
def Course.full (c : Course) (cls : Nat) : Bool := cls != 0 && 63 ≤ c.counts.read cls

/-- The word is held at issue: it has issued and waits, a full counter, an empty budget, a STRICT load that has not returned, or a
read of %status before earlier work has completed. -/
def State.gated (s : State) (f : Frag) (w : Fields) : Bool :=
  s.blocked f.c.stamp f.entry || f.c.full w.hints.bump.val || (s.ctx f.asid).empty || (f.c.strict && s.strictHeld f.c.stamp) ||
  (readsStatus w && s.outstanding f.c.stamp)

/-- The fragment is held by its instruction: nothing else changes (R79, R230). -/
def State.hold (s : State) (f : Frag) : State :=
  s.course f (·.mapEntry f.entry (fun e => { e with held := true }))

/-- An address of code plus a distance, in 57 bits (R39). -/
def addPc (pc d : W64) : W64 := (pc + d) &&& 0x1FFFFFFFFFFFFFF

/-! ### Traps (R230 to R233) -/

/-- Whether TRAPVA and TRAPINFO report a cause (R328). -/
def Cause.reported : Cause → Bool
  | .misaligned | .pageFault | .permission | .poison | .scopeUnreachable => true
  | _ => false

/-- TRAPINFO of an access (R328). -/
def FaultAt.info (a : FaultAt) : W32 :=
  BitVec.ofNat 32 (a.lane % 32 + 32 * a.fetch.toNat + 64 * a.write.toNat + 128 * a.cow.toNat)

/-- A handler is entered (R232): the cause and the pc are written, SUPER set, the fragment saved, and the fragment goes on
at the context's handler with its mask. -/
def State.enterHandler (s : State) (core slot entry : Nat) (t : Trap) : State :=
  match s.course? core slot with
  | none => s
  | some c =>
    let e := get {} c.entries entry
    let g := s.grid c.grid
    let rep := t.cause.reported
    let va := match t.site with | some a => BitVec.ofNat 64 a.va | none => Config.openVa s.free
    let info := match t.site with | some a => a.info | none => (Config.openInfo s.free).setWidth 32
    let s := if rep && t.site.isNone then { s with free := s.free + 1 } else s
    s.mapCourse core slot (fun c => { c with
      trapCause := t.cause.code
      trapPc := e.pc
      super := true
      saved := some { entry, mask := e.mask, pc := e.pc, frames := (c.frames.filter (fun r => r.entry == entry)).length }
      trapWait := none
      trapVa := if rep then va else c.trapVa
      trapInfo := if rep then info else c.trapInfo
      entries := adjust c.entries entry (fun e => { e with pc := addPc (s.ctx g.asid).handler 0, held := false }) })

/-- Instructions that hold other fragments of a trapping course are given up: they execute afresh (R230). -/
def State.dropHeld (s : State) (c : Course) : State :=
  let mine (w : Option Waiter) : Bool := match w with | some k => k.stamp == c.stamp | none => false
  let ids := (s.xwaits.filter (fun x => x.stamp == c.stamp)).map (fun x => x.id) ++
    (s.watches.filter (fun x => x.stamp == c.stamp)).map (fun x => x.id)
  let s := { s with cores := s.cores.map (fun (k : Nat × Core) => (k.1, { k.2 with courses := k.2.courses.map (fun (q : Nat × Course) =>
      if q.2.stamp = c.stamp then (q.1, { q.2 with entries := q.2.entries.map (fun (e : Nat × Entry) =>
        (e.1, { e.2 with began := none })) }) else q) })) }
  let s := ids.foldl State.complete s
  { s with xwaits := s.xwaits.filter (fun x => x.stamp != c.stamp),
           watches := s.watches.filter (fun x => x.stamp != c.stamp),
           leaseWait := s.leaseWait.filter (fun x => x.1 != c.stamp),
           captures := s.captures.map (fun (r : CapReq) => if mine r.who && !r.done then { r with who := none } else r),
           restores := s.restores.map (fun (r : RestReq) => if mine r.who && r.status.isNone then { r with who := none } else r) }.mapTeam c.team
    (fun t => { t with qwaits := t.qwaits.filter (fun q => q.stamp != c.stamp),
                       bwaits := t.bwaits.filter (fun q => q.stamp != c.stamp) })

/-- A trap is taken (R230 to R233): in supervisor state, or where the context has no handler, the team is killed and the
supervisor told; else the handler is entered, after every earlier operation of the course but copies and tile
operations. -/
def State.takeTrap (s : State) (core slot entry : Nat) (t : Trap) : State :=
  match s.course? core slot with
  | none => s
  | some c =>
    let g := s.grid c.grid
    let s := if t.walkPoison then s.poisonRead g.asid 1 else s
    let e := get {} c.entries entry
    if c.super ∨ (s.ctx g.asid).handler = 0 then
      (s.report g.asid { kind := 4, code := t.cause.code.toNat, va := e.pc.toNat, grid := g.gid, core := core,
                         team := (s.team c.team).linear }).killTeam c.team
    else
      let s := s.dropHeld c
      if s.outstanding c.stamp then
        s.mapCourse core slot (fun c => { c with trapWait := some { entry, trap := t } })
      else s.enterHandler core slot entry t

/-- Where a course resumes after its handler (R92). A %trap_pc that SWRITE has left off a multiple of 4 is taken as it is: R92 lists no
check of it, and R69 leaves the check to the instruction's entry (DEDUCED, log 103). -/
def resumePc (c : Course) : W64 :=
  if c.trapCause = Cause.software.code ∨ c.trapCause = Cause.breakpoint.code then addPc c.trapPc 12 else addPc c.trapPc 0

/-! ### Issuing a word (R77 to R83) -/

/-- Why a word does not complete at issue. -/
inductive Stop where
  | trap (t : Trap)
  | hold
  /-- a trap after effects that stand (R96) -/
  | late (s : State) (t : Trap)
  /-- held, with a request that the state keeps -/
  | wait (s : State)
  /-- issued, and held until an event ends what it waits for (R129, R165) -/
  | issued (s : State)

/-- What a word's meaning leaves: the state, the operation it starts, where its fragment goes on. -/
structure Effect where
  s     : State
  kind  : OpKind := .hint
  /-- the next pc; 12 on from here where none is given -/
  pc    : Option W64 := none
  /-- the meaning has placed the fragment's lanes itself -/
  moved : Bool := false
  /-- an arithmetic result, which a late transition may replay (R64) -/
  arith : Bool := false
  yield : Bool := false
  /-- a load-class instruction, whose return a STRICT course waits for (R132) -/
  loads : Bool := false
  /-- it names a shared-deterministic region (R98) -/
  shared : Bool := false

/-- A trap after reads at issue that met poison, whose flag and count stand (R132, R368). -/
def Stop.afterRead (bad : Bool) (s : State) : Stop → Stop
  | .trap t => if bad then .late s t else .trap t
  | x => x

/-- A read at issue that met a poisoned line: POISONED in its lane, and one more in %poison_count (R132, R368). -/
def State.flagIssue (s : State) (f : Frag) (lane : Nat) : State :=
  (s.poisonRead f.asid 1).course f (fun c => c.raiseIn (laneBit lane) Flags.poisoned)

def trapOf (c : Cause) : Except Stop α := .error (.trap { cause := c })
def trapAt (c : Cause) (a : FaultAt) : Except Stop α := .error (.trap { cause := c, site := some a })

/-- A check of an entry: the trap where it fails. -/
def require (ok : Bool) (c : Cause) : Except Stop Unit := if ok then .ok () else trapOf c

/-- The messages of the fabric (R246). -/
inductive Message where
  | engineAccess | dramFill | dramWriteBack
  | weakAccess | prefetch | fetch | coded | drain
  | recall | grant | victimWriteBack | directory
  | ordered | atomic | pool | waitaddr | wake | xchg | poisonclr | captureRequest
  deriving DecidableEq, Repr

/-- The traffic class of a message (R246). Each has buffers of its own, so that what is on its way in one class waits for none of
another. -/
def Message.cls : Message → Nat
  | .engineAccess | .dramFill | .dramWriteBack => 0
  | .weakAccess | .prefetch | .fetch | .coded | .drain => 1
  | .recall | .grant | .victimWriteBack | .directory => 2
  | .ordered | .atomic | .pool | .waitaddr | .wake | .xchg | .poisonclr | .captureRequest => 3

/-- The message of an operation (R246), none for one that stays in its core. -/
def OpKind.traffic : OpKind → Option Message
  | .load .global _ _ ord _ => some (if ord.class3 then .ordered else .weakAccess)
  | .store .global ord _ _ => some (if ord.class3 then .ordered else .weakAccess)
  | .rmw .global .. => some .atomic
  | .pool _ => some .pool
  | .zload .. | .zstore .. | .zflush .. => some .coded
  | _ => none

/-- The send credits that a core holds in a class: 8 when it has sent nothing (R341). No issue waits for one (DESIGN CHOICE, log 4). -/
def Core.credit (c : Core) (cls : Nat) : Nat := get 8 c.credits cls

/-- A message leaves a core and takes a send credit of its class (R246, R341). Those of the caches, the homes and the engines take none
of a core's port. -/
def State.sendClass (s : State) (core : Nat) (m : Message) : State :=
  s.mapCore core (fun c => { c with credits := assign c.credits m.cls (c.credit m.cls - 1) })

/-- The messages of an operation leave a core. -/
def State.send (s : State) (core : Nat) (k : OpKind) : State :=
  match k.traffic with
  | some m => s.sendClass core m
  | none => s

/-- The operation of the word enters the list of operations in flight and raises the counter of its BUMP class. A word that
leaves nothing on its way has completed: its counter falls at once, unless an earlier operation of its class stands (R38). -/
def State.start (s : State) (f : Frag) (w : Fields) (e : Effect) : State :=
  let cls := w.hints.bump.val
  if e.kind = .hint ∧ (cls = 0 ∨ s.ops.all (fun o => o.stamp != f.c.stamp || o.cls != cls) = true) then s
  else
    let o : Op := { id := f.op, core := f.core, slot := f.slot, stamp := f.c.stamp, entry := f.entry, team := f.c.team, grid := f.c.grid, asid := f.asid,
                    strict := f.c.strict && e.loads, sym := w.hints.sym, cls, kind := e.kind, done := e.kind = .hint, shared := e.shared, at_ := s.clock }
    { s.send f.core e.kind with ops := s.ops ++ [o] }.mapCourseOf f.core f.slot f.c.stamp (fun c =>
      { c with counts := c.counts.write cls (c.counts.read cls + 1) })

/-- Whether this issue replays after a late transition under over-scaled voltage (R64). -/
def State.replay (s : State) (f : Frag) (arith : Bool) : State :=
  if arith ∧ (s.core f.core).mv < 650 then
    let r := Config.lateTransition s.free
    { s with free := s.free + 1 }.mapCourseOf f.core f.slot f.c.stamp (fun c =>
      { c with replays := c.replays + (if r then 1 else 0) })
  else s

/-- What every issued word does besides its own effect: STALL and YIELD, the energy debit, the count of ISSUED, the end
of the fragment's wait in the scheduler, and the pc. -/
def State.issued (s : State) (f : Frag) (w : Fields) (e : Effect) : State :=
  let s := s.count 0x10 f.core 1
  let s := if (s.ctx f.asid).eon then
      s.mapCtx f.asid (fun c => { c with debit := c.debit + energyCost w.hints.energy.val }) else s
  let s := s.mapCore f.core (fun k => { k with starved := k.starved.filter (fun p => p != (f.slot, f.entry)) })
  s.mapCourseOf f.core f.slot f.c.stamp (fun c =>
    { c with
      nextIssue := s.clock + max w.hints.stall.val 1
      yieldAt := if w.hints.yield || e.yield then some s.clock else none
      pendingAt := if readsPending w then some s.clock else none
      token := c.token || s.tokenStarts c
      entries := if e.moved then adjust c.entries f.entry (fun x => { x with passed := 0, began := none })
        else adjust c.entries f.entry (fun x =>
          { x with pc := e.pc.getD (addPc f.pc 12), passed := 0, held := false, began := none }) })

/-- The instruction has issued (R38, R79): its effect stands, its operation is in flight. -/
def State.finish (s : State) (f : Frag) (w : Fields) (e : Effect) : State :=
  ((s.issued f w e).start f w e).replay f e.arith

/-- A word that waits has begun: its executing lanes are kept, and its fragment is held. -/
def State.wait (s : State) (f : Frag) : State :=
  s.course f (·.mapEntry f.entry (fun e => { e with held := true, began := some f.exec }))

/-- A word has issued and its fragment stands at it until an event ends it (R129, R165); the counter that BUMP names stays raised
until then (R78). -/
def State.block (s : State) (f : Frag) (w : Fields) : State :=
  let cls := w.hints.bump.val
  let t := (s.issued f w { s, moved := true }).course f (·.mapEntry f.entry (fun e => { e with began := some f.exec }))
  if cls = 0 then t
  else
    let o : Op := { id := f.op, core := f.core, slot := f.slot, stamp := f.c.stamp, entry := f.entry, team := f.c.team, grid := f.c.grid, asid := f.asid,
                    strict := false, sym := false, cls, kind := .hint, at_ := s.clock }
    { t with ops := t.ops ++ [o] }.course f (fun c => { c with counts := c.counts.write cls (c.counts.read cls + 1) })

/-- A word issues: gates, the check of SYM, its own step-4 checks and effect in `body`, then what every issue does. With
no executing lane nothing of `body` is done (R77). -/
def issueWord (w : Fields) (s : State) (body : Frag → State → Except Stop Effect) : Host.Outcome State Fault Refusal :=
  match s.frag w with
  | none => .fault .noFragment
  | some f =>
    if s.gated f w then .next (s.hold f)
    else
      let s1 := { s with stamp := s.stamp + 1 }
      if f.exec = 0 then .next (s1.finish f w { s := s1 })
      else if w.hints.sym ∧ f.exec &&& ~~~ f.c.propOpen ≠ 0 then
        .next (s.takeTrap f.core f.slot f.entry { cause := .proposalMisuse })
      else match body f s1 with
        | .ok e => .next (e.s.finish f w e)
        | .error (.trap t) => .next (s.takeTrap f.core f.slot f.entry t)
        | .error (.late s' t) => .next (s'.takeTrap f.core f.slot f.entry t)
        | .error .hold => .next (s.hold f)
        | .error (.wait s') => .next (s'.wait f)
        | .error (.issued s') => .next (s'.block f w)

/-- An event of the device that is not enabled changes nothing. -/
def event (s : State) (next : Option State) : Host.Outcome State Fault Refusal := .next (next.getD s)

end Sys2Proof.Machine
end

