-- ==== Sys2Proof/Machine/Operands.lean ====
section
/-! DEFINITION. What each operand form reads and writes (R35 to R39, R70 to R77, R80 to R82). -/

namespace Sys2Proof.Machine

/-- %status of a lane (R36). -/
def Course.status (c : Course) (L : Nat) : W32 :=
  let b (x : Bool) (n : Nat) : Nat := if x then 2 ^ n else 0
  BitVec.ofNat 32 ((c.readFlags L).toNat + b (c.propOpen.getLsbD L) 8 + b c.exact 9 + b c.strict 10 + b c.det 11 +
    b c.token 12 + b c.super 13)

/-- The valid entries of the split table. -/
def Course.live (c : Course) : List (Nat × Entry) := c.entries.filter (fun p => p.2.valid)

/-- %fragment of the issuing fragment (R39). -/
def Frag.word (f : Frag) : W32 :=
  BitVec.ofNat 32 (f.entry + 16 * f.c.live.length + (if f.c.frames.any (fun r => r.entry == f.entry) then 256 else 0))

/-- %energy_left (R317). -/
def Ctx.energyLeft (c : Ctx) : W32 := if c.eon then c.budget else 0xFFFFFFFF

/-- A special register as a lane of the fragment reads it, zero-extended (R35). -/
def State.special (s : State) (f : Frag) (L : Nat) (r : Special) : W64 :=
  let t := s.team f.c.team
  let g := s.grid f.c.grid
  let n (x : Nat) : W64 := BitVec.ofNat 64 (x % 2 ^ 32)
  match r with
  | .lane => n L
  | .strand => n (f.c.index * 32 + L)
  | .course => n f.c.index
  | .team => n t.linear
  | .teamx => n (t.linear % g.gx)
  | .teamy => n (t.linear / g.gx % g.gy)
  | .teamz => n (t.linear / g.gx / g.gy)
  | .gridx => n g.gx
  | .gridy => n g.gy
  | .gridz => n g.gz
  | .grid => g.gid.setWidth 64
  | .core => n f.core
  | .sector => n (sectorOf f.core % 8)
  | .die => n (dieOf f.core)
  | .clock => BitVec.ofNat 64 s.clock
  | .depth => n g.depth
  | .phase => f.c.phase.setWidth 64
  | .trapCause => f.c.trapCause.setWidth 64
  | .trapPc => f.c.trapPc
  | .status => ({ f.c with token := f.token }.status L).setWidth 64
  | .accepts => (get 0 f.c.accepts L).setWidth 64
  | .proposals => (get 0 f.c.proposals L).setWidth 64
  | .replays => f.c.replays.setWidth 64
  | .energyLeft => (s.ctx f.asid).energyLeft.setWidth 64
  | .poisonCount => (s.ctx f.asid).poisonCount.setWidth 64
  | .mask => f.active.setWidth 64
  | .fragment => f.word.setWidth 64
  | .pending => f.c.counts.word.setWidth 64
  | .quadrant => n (quadrantOf f.slot)
  | .ragged => (s.ctx f.asid).ragged.setWidth 64

/-- A source operand in a lane, read in a type: raw bits, the low 32 of a narrow type, both halves of a pair. -/
def State.src (s : State) (f : Frag) (w : Fields) (t : Ty) (L : Nat) (o : Operand) : W64 :=
  match o with
  | .v n => f.c.readVal n.val L (tyWide t)
  | .s n => f.c.readSVal n.val (tyWide t)
  | .special r => if tyWide t then s.special f L r else (low32 (s.special f L r)).setWidth 64
  | .imm => immValue t w.round w.imm
  | .pred inv n => if (f.c.readP n.val).getLsbD L != inv then 1 else 0
  | .none | .zero | .tile _ | .code _ => 0

/-- Operands A and B of a lane in the instruction's type. -/
def State.a (s : State) (f : Frag) (w : Fields) (L : Nat) : W64 := s.src f w w.ty L w.a
def State.b (s : State) (f : Frag) (w : Fields) (L : Nat) : W64 := s.src f w w.ty L w.b

/-- Operands A and B of a lane read as n32 (R87). -/
def State.aWord (s : State) (f : Frag) (w : Fields) (L : Nat) : Nat := (s.src f w .n32 L w.a).toNat
def State.bWord (s : State) (f : Frag) (w : Fields) (L : Nat) : Nat := (s.src f w .n32 L w.b).toNat

/-- The old value of D in a lane, in a type. -/
def Frag.old (f : Frag) (w : Fields) (t : Ty) (L : Nat) : W64 :=
  match w.d with
  | .v n => f.c.readVal n.val L (tyWide t)
  | .s n => f.c.readSVal n.val (tyWide t)
  | _ => 0

/-- The lanes in which an instruction computes: the executing lanes, the lowest standing for the uniform pipe (R86). -/
def Frag.lanes (f : Frag) (w : Fields) : List Nat := if w.hints.uniform then [f.low] else lanesOf f.exec

/-- A result of width `wide` in D for one lane: v, its shadow under SYM (R205), or the uniform register. -/
def Course.result (c : Course) (w : Fields) (wide : Bool) (L : Nat) (x : W64) : Course :=
  match w.d with
  | .v n => if w.hints.sym then c.writeShadow n.val L wide x else c.writeVal n.val L wide x
  | .s n => c.writeSVal n.val wide x
  | _ => c

/-- The lanes in which flags are raised: every active strand for a uniform instruction (R37). -/
def Frag.flagLanes (f : Frag) (w : Fields) (L : Nat) : Mask := if w.hints.uniform then f.active else laneBit L

/-- Results and flags of every computing lane written to the course. -/
def Frag.results (f : Frag) (w : Fields) (wide : Bool) (fn : Nat → W64 × Flags) (c : Course) : Course :=
  (f.lanes w).foldl (fun c L => (c.result w wide L (fn L).1).raiseIn (f.flagLanes w L) (fn L).2) c

/-- An arithmetic instruction: `fn` gives the result and flags of a lane, D has width `wide`. -/
def lanewise (w : Fields) (wide : Bool) (fn : Frag → State → Nat → W64 × Flags) (f : Frag) (s : State) :
    Except Stop Effect :=
  .ok { s := s.course f (f.results w wide (fn f s)), arith := true }

/-- The mask of the executing lanes in which a condition holds; a uniform instruction computes it once (R81). -/
def Frag.condition (f : Frag) (w : Fields) (fn : Nat → Bool) : Mask :=
  if w.hints.uniform then (if fn f.low then f.exec else 0)
  else (lanesOf f.exec).foldl (fun m L => if fn L then m ||| laneBit L else m) 0

/-- The predicate that D names. -/
def predD (w : Fields) : Nat := match w.d with | .pred _ n => n.val | _ => 0

/-- An instruction that writes a predicate: a condition and flags per lane. -/
def predwise (w : Fields) (fn : Frag → State → Nat → Bool × Flags) (f : Frag) (s : State) : Except Stop Effect :=
  .ok { s := s.course f (fun c =>
          let c := (f.lanes w).foldl (fun c L => c.raiseIn (f.flagLanes w L) (fn f s L).2) c
          c.writeP (predD w) f.exec (f.condition w (fun L => (fn f s L).1))), arith := true }

/-- A scalar operand of an instruction that acts once, from the lowest executing lane (R148). -/
def State.scalarA (s : State) (f : Frag) (w : Fields) (t : Ty) : W64 := s.src f w t f.low w.a
def State.scalarB (s : State) (f : Frag) (w : Fields) (t : Ty) : W64 := s.src f w t f.low w.b

/-- One value in D of every executing lane. -/
def Frag.same (f : Frag) (w : Fields) (wide : Bool) (x : W64) (c : Course) : Course :=
  f.results w wide (fun _ => (x, Flags.none)) c

end Sys2Proof.Machine
end

