-- ==== Sys2Proof/Machine/Integer.lean ====
section
/-! DEFINITION. Integer and address instructions, 0x020 to 0x03D (R99 to R107). -/

namespace Sys2Proof.Machine

/-! ### The functions -/

/-- An exact function of two integers, brought into range (R100). -/
def intBin (t : Ty) (sat : Bool) (fn : Int → Int → Int) (a b : W64) : W64 := fitInt t sat (fn (intOf t a) (intOf t b))

/-- An exact function of one integer, brought into range (R100). -/
def intUn (t : Ty) (sat : Bool) (fn : Int → Int) (a : W64) : W64 := fitInt t sat (fn (intOf t a))

/-- DIV of R101. -/
def intDiv (t : Ty) (sat : Bool) (a b : W64) : W64 :=
  let x := intOf t a
  let y := intOf t b
  if y = 0 then regOfInt t (if x < 0 then tyLo t else tyHi t) else fitInt t sat (x.tdiv y)

/-- REM of R101. -/
def intRem (t : Ty) (a b : W64) : W64 :=
  let x := intOf t a
  let y := intOf t b
  if y = 0 then regOfInt t x else regOfInt t (x - y * x.tdiv y)

/-- The high half of the exact product (R100). -/
def intMulHi (t : Ty) (a b : W64) : W64 := regOfInt t ((intOf t a * intOf t b) / 2 ^ tyBits t)

/-- A function of the low bits as a number, of the type's width. -/
def bitUn (t : Ty) (fn : Nat → Nat → Nat) (a : W64) : W64 :=
  let w := tyBits t
  BitVec.ofNat 64 (fn w (a.toNat % 2 ^ w) % 2 ^ w)

def shlNat (k w a : Nat) : Nat := if w ≤ k then 0 else a <<< k
def shrNat (k w a : Nat) : Nat := if w ≤ k then 0 else a >>> k
def rotNat (k w a : Nat) : Nat := (a <<< (k % w)) ||| (a >>> (w - k % w))

/-- SAR of R102. -/
def sarInt (t : Ty) (k : Nat) (a : W64) : W64 := regOfInt t (intOf t a / 2 ^ min k (tyBits t - 1))

def clzNat (w a : Nat) : Nat := if a = 0 then w else w - 1 - Nat.log2 a
def popcNat (w a : Nat) : Nat := ((List.range w).filter (fun i => a.testBit i)).length
def brevNat (w a : Nat) : Nat :=
  (List.range w).foldl (fun r i => if a.testBit i then r + 2 ^ (w - 1 - i) else r) 0

/-- Position and length of a bit field (R103). -/
def fieldOf (w b : Nat) : Nat × Nat := (b % 256, min (b / 256 % 256) w)

/-- BFX of R103: bits at or above the width are copies of the sign for signed types, zero for the others. -/
def bfx (t : Ty) (a : W64) (b : Nat) : W64 :=
  let p := fieldOf (tyBits t) b
  let n : Nat := ((intOf t a / 2 ^ p.1) % 2 ^ p.2).toNat
  let x : Int := if tySigned t && p.2 != 0 && n.testBit (p.2 - 1) then (n : Int) - 2 ^ p.2 else n
  regOfInt t x

/-- BFI of R103. -/
def bfi (t : Ty) (d a : W64) (b : Nat) : W64 :=
  let w := tyBits t
  let p := fieldOf w b
  let m := ((2 ^ p.2 - 1) <<< p.1) % 2 ^ w
  let x := d.toNat % 2 ^ w
  BitVec.ofNat 64 ((x - (x &&& m)) + (((a.toNat % 2 ^ p.2) <<< p.1) &&& m))

/-- LEA of R104. -/
def lea (zx : Bool) (shift : Nat) (a : W64) (b : W32) : W64 :=
  a + ((if zx then b.setWidth 64 else b.signExtend 64) <<< shift)

/-- The test of a condition code (R106). -/
def intTest (c : Nat) (x y : Int) : Bool :=
  match c with
  | 0 => x == y | 1 => x != y | 2 => x < y | 3 => x ≤ y | 4 => y < x | _ => y ≤ x

/-- The condition code of CMP and FCMP. -/
def condCode (w : Fields) : Nat := (if w.modx then 4 else 0) + Encoding.rndCode w.round

/-- ADDMIN of R107. -/
def intAddMin (t : Ty) (d a b : W64) : W64 :=
  regOfInt t (min (intOf t d) (intOf t (intBin t true (· + ·) a b)))

/-! ### The instructions -/

/-- A result of two sources in D of the type's width. -/
def binary (w : Fields) (fn : W64 → W64 → W64) (s : State) : Host.Outcome State Fault Refusal :=
  issueWord w s (lanewise w (tyWide w.ty) (fun f s L => (fn (s.a f w L) (s.b f w L), Flags.none)))

/-- A result of one source in D of the type's width. -/
def unary (w : Fields) (fn : W64 → W64) (s : State) : Host.Outcome State Fault Refusal :=
  issueWord w s (lanewise w (tyWide w.ty) (fun f s L => (fn (s.a f w L), Flags.none)))

/-- A result of A and of B read as n32. -/
def shifty (w : Fields) (fn : W64 → Nat → W64) (s : State) : Host.Outcome State Fault Refusal :=
  issueWord w s (lanewise w (tyWide w.ty) (fun f s L => (fn (s.a f w L) (s.bWord f w L), Flags.none)))

/-- A result of D, A and B. -/
def ternary (w : Fields) (fn : W64 → W64 → W64 → W64) (s : State) : Host.Outcome State Fault Refusal :=
  issueWord w s (lanewise w (tyWide w.ty) (fun f s L =>
    (fn (f.old w w.ty L) (s.a f w L) (s.b f w L), Flags.none)))

def execAdd (w : Fields) (s : State) := binary w (intBin w.ty w.sat (· + ·)) s
def execSub (w : Fields) (s : State) := binary w (intBin w.ty w.sat (· - ·)) s
def execMul (w : Fields) (s : State) := binary w (intBin w.ty w.sat (· * ·)) s
def execMulhi (w : Fields) (s : State) := binary w (intMulHi w.ty) s
def execMad (w : Fields) (s : State) :=
  ternary w (fun d a b => fitInt w.ty w.sat (intOf w.ty a * intOf w.ty b + intOf w.ty d)) s
def execDiv (w : Fields) (s : State) := binary w (intDiv w.ty w.sat) s
def execRem (w : Fields) (s : State) := binary w (intRem w.ty) s
def execMin (w : Fields) (s : State) := binary w (intBin w.ty false min) s
def execMax (w : Fields) (s : State) := binary w (intBin w.ty false max) s
def execAbs (w : Fields) (s : State) := unary w (intUn w.ty w.sat (fun x => (x.natAbs : Int))) s
def execNeg (w : Fields) (s : State) := unary w (intUn w.ty w.sat (fun x => -x)) s
def execAnd (w : Fields) (s : State) := binary w (fun a b => a &&& b) s
def execOr (w : Fields) (s : State) := binary w (fun a b => a ||| b) s
def execXor (w : Fields) (s : State) := binary w (fun a b => a ^^^ b) s
def execNot (w : Fields) (s : State) := unary w (fun a => ~~~ a) s
def execShl (w : Fields) (s : State) := shifty w (fun a k => bitUn w.ty (shlNat k) a) s
def execShr (w : Fields) (s : State) := shifty w (fun a k => bitUn w.ty (shrNat k) a) s
def execSar (w : Fields) (s : State) := shifty w (fun a k => sarInt w.ty k a) s
def execRot (w : Fields) (s : State) := shifty w (fun a k => bitUn w.ty (rotNat k) a) s
def execBrev (w : Fields) (s : State) := unary w (bitUn w.ty brevNat) s
def execBfx (w : Fields) (s : State) := shifty w (bfx w.ty) s

/-- CLZ writes one register whatever TYPE holds (R102). -/
def execClz (w : Fields) (s : State) :=
  issueWord w s (lanewise w false (fun f s L => (bitUn w.ty clzNat (s.a f w L), Flags.none)))

/-- POPC writes one register whatever TYPE holds (R102). -/
def execPopc (w : Fields) (s : State) :=
  issueWord w s (lanewise w false (fun f s L => (bitUn w.ty popcNat (s.a f w L), Flags.none)))

def execBfi (w : Fields) (s : State) :=
  issueWord w s (lanewise w (tyWide w.ty) (fun f s L =>
    (bfi w.ty (f.old w w.ty L) (s.a f w L) (s.bWord f w L), Flags.none)))

def execLea (w : Fields) (s : State) :=
  issueWord w s (lanewise w true (fun f s L =>
    (lea w.modx (w.imm.toNat % 8) (s.a f w L) (BitVec.ofNat 32 (s.bWord f w L)), Flags.none)))

/-- SEL chooses by the predicate of IMM32[4:0] in the lane, and writes the value as TYPE reads and writes it (R41, R72,
R105). -/
def execSel (w : Fields) (s : State) :=
  issueWord w s (lanewise w (tyWide w.ty) (fun f s L =>
    (extend w.ty (if (f.c.readP (w.imm.toNat % 32)).getLsbD L then s.a f w L else s.b f w L), Flags.none)))

def execCmp (w : Fields) (s : State) :=
  issueWord w s (predwise w (fun f s L =>
    (intTest (condCode w) (intOf w.ty (s.a f w L)) (intOf w.ty (s.b f w L)), Flags.none)))

def execMov (w : Fields) (s : State) := unary w (fun a => a) s

def execAddmin (w : Fields) (s : State) := ternary w (intAddMin w.ty) s

end Sys2Proof.Machine
end

