-- ==== Sys2Proof/Machine/Floating.lean ====
section
/-! DEFINITION. Floating-point instructions, 0x060 to 0x06F (R108 to R115). -/

namespace Sys2Proof.Machine

/-- An operand decoded, under flush-to-zero where the word sets it (R45). -/
def fin (w : Fields) (ftz : Bool) (x : W64) : Fp := (fmtOf w.ty).flushIn ftz ((fmtOf w.ty).decode x)

/-- A result under flush-to-zero where the word sets it (R45). -/
def fout (w : Fields) (ftz : Bool) (r : W64 × Flags) : W64 × Flags := (fmtOf w.ty).flushOut ftz r

def faddVal (w : Fields) (a b : W64) : W64 × Flags :=
  fout w w.modx ((fmtOf w.ty).add w.round w.sat (fin w w.modx a) (fin w w.modx b))

def fsubVal (w : Fields) (a b : W64) : W64 × Flags :=
  fout w w.modx ((fmtOf w.ty).add w.round w.sat (fin w w.modx a) (fin w w.modx b).neg)

def fmulVal (w : Fields) (a b : W64) : W64 × Flags :=
  fout w w.modx ((fmtOf w.ty).mul w.round w.sat (fin w w.modx a) (fin w w.modx b))

def ffmaVal (w : Fields) (d a b : W64) : W64 × Flags :=
  fout w w.modx ((fmtOf w.ty).fma w.round false (fin w w.modx a) (fin w w.modx b) (fin w w.modx d))

def fdivVal (w : Fields) (a b : W64) : W64 × Flags :=
  fout w w.modx ((fmtOf w.ty).div w.round w.sat (fin w w.modx a) (fin w w.modx b))

def fsqrtVal (w : Fields) (a : W64) : W64 × Flags :=
  fout w w.modx ((fmtOf w.ty).sqrt w.round (fin w w.modx a))

/-- The order of FMIN and FMAX, in which −0 lies below +0 (R110). -/
def Fp.below (x y : Fp) : Bool :=
  x.lt y || (match x, y with
    | .fin true 0 _, .fin false 0 _ => true
    | _, _ => false)

/-- FMIN and FMAX (R110): `least` chooses which. The result keeps one operand's bits. -/
def fminmax (f : Fmt) (least : Bool) (a b : W64) : W64 × Flags :=
  let x := f.decode a
  let y := f.decode b
  let flag := Flags.when (x.isSnan || y.isSnan) Flags.invalid
  let bits (v : W64) : W64 := BitVec.ofNat 64 (v.toNat % 2 ^ (1 + f.ebits + f.fbits))
  if x.isNan && y.isNan then (f.canonNan, flag)
  else if x.isNan then (bits b, flag)
  else if y.isNan then (bits a, flag)
  else if least then (if y.below x then bits b else bits a, flag)
  else (if x.below y then bits b else bits a, flag)

/-- FABS and FNEG (R111): the sign cleared or inverted, a NaN made canonical. -/
def fsign (f : Fmt) (invert : Bool) (a : W64) : W64 :=
  if (f.decode a).isNan then f.canonNan
  else
    let m := a.toNat % 2 ^ (f.ebits + f.fbits)
    let neg := a.toNat / 2 ^ (f.ebits + f.fbits) % 2 == 1
    BitVec.ofNat 64 (m + f.signBit (invert && !neg))

/-- FCLASS (R111): the place of the one bit set. -/
def fclass (f : Fmt) (x : Fp) : Nat :=
  match x with
  | .nan true => 8
  | .nan false => 9
  | .inf neg => if neg then 0 else 7
  | .fin neg m _ =>
    if m = 0 then (if neg then 3 else 4)
    else if m < 2 ^ f.fbits then (if neg then 2 else 5)
    else (if neg then 1 else 6)

/-- FCMP (R112): the test and its INVALID. -/
def fcmp (c : Nat) (x y : Fp) : Bool × Flags :=
  let nan := x.isNan || y.isNan
  let snan := x.isSnan || y.isSnan
  let ordered := c = 2 ∨ c = 3 ∨ c = 4 ∨ c = 5
  let t := match c with
    | 0 => x.eq y
    | 1 => !x.eq y
    | 2 => !nan && x.lt y
    | 3 => !nan && !y.lt x
    | 4 => !nan && y.lt x
    | 5 => !nan && !x.lt y
    | 6 => nan
    | _ => !nan
  (t, Flags.when (if ordered then nan else snan) Flags.invalid)

/-- FRND (R113): an integral value, never inexact. -/
def frnd (f : Fmt) (mode : Rnd) (x : Fp) : W64 × Flags :=
  match x with
  | .nan s => f.nanResult s
  | .inf neg => (f.infinity neg, Flags.none)
  | .fin neg m e =>
    if 0 ≤ e then ((f.round .rne false neg m e).1, Flags.none)
    else ((f.round .rne false neg (scaleTo mode neg m e 0).1 0).1, Flags.none)

/-- FSCALE (R113). Powers beyond ±8192 lie outside every format and round as ±8192 do (DEDUCED, log 18). -/
def fscale (f : Fmt) (mode : Rnd) (sat : Bool) (x : Fp) (k : Int) : W64 × Flags :=
  match x with
  | .nan s => f.nanResult s
  | .inf neg => (f.infinity neg, Flags.none)
  | .fin neg m e => f.round mode sat neg m (e + max (-8192) (min k 8192))

/-- A product formed exactly, a NaN marked signalling where it is invalid (R54, R115). -/
def product (x y : Fp) : Fp :=
  match x, y with
  | .nan a, y => .nan (a || y.isSnan)
  | x, .nan b => .nan (x.isSnan || b)
  | .inf a, .inf b => .inf (a != b)
  | .inf a, .fin b m _ => if m = 0 then .nan true else .inf (a != b)
  | .fin b m _, .inf a => if m = 0 then .nan true else .inf (a != b)
  | .fin n₁ m₁ e₁, .fin n₂ m₂ e₂ => .fin (n₁ != n₂) (m₁ * m₂) (e₁ + e₂)

/-- FDOT4 (R115): element i of a source. -/
def dotElem (t : Ty) (x : W64) (i : Nat) : Fp :=
  (fmtOf t).decode (BitVec.ofNat 64 (x.toNat / 2 ^ (tyBits t * i) % 2 ^ tyBits t))

/-- FDOT4 (R115): four products in the tree of R52, then added to d. -/
def fdot4 (t : Ty) (mode : Rnd) (d a b : W64) : W64 × Flags :=
  let f := fmtOf .f32
  let p (i : Nat) : Fp := product (dotElem t a i) (dotElem t b i)
  let l := f.add mode false (p 0) (p 1)
  let r := f.add mode false (p 2) (p 3)
  let s := f.add mode false (f.decode l.1) (f.decode r.1)
  let x := f.add mode false (f.decode d) (f.decode s.1)
  (x.1, l.2 ||| r.2 ||| s.2 ||| x.2)

/-! ### The instructions -/

/-- A floating-point result of two sources. -/
def fbinary (w : Fields) (fn : W64 → W64 → W64 × Flags) (s : State) : Host.Outcome State Fault Refusal :=
  issueWord w s (lanewise w (tyWide w.ty) (fun f s L => fn (s.a f w L) (s.b f w L)))

/-- A floating-point result of one source. -/
def funary (w : Fields) (fn : W64 → W64 × Flags) (s : State) : Host.Outcome State Fault Refusal :=
  issueWord w s (lanewise w (tyWide w.ty) (fun f s L => fn (s.a f w L)))

def execFadd (w : Fields) (s : State) := fbinary w (faddVal w) s
def execFsub (w : Fields) (s : State) := fbinary w (fsubVal w) s
def execFmul (w : Fields) (s : State) := fbinary w (fmulVal w) s
def execFdiv (w : Fields) (s : State) := fbinary w (fdivVal w) s
def execFsqrt (w : Fields) (s : State) := funary w (fsqrtVal w) s
def execFmin (w : Fields) (s : State) := fbinary w (fminmax (fmtOf w.ty) true) s
def execFmax (w : Fields) (s : State) := fbinary w (fminmax (fmtOf w.ty) false) s
def execFabs (w : Fields) (s : State) := funary w (fun a => (fsign (fmtOf w.ty) false a, Flags.none)) s
def execFneg (w : Fields) (s : State) := funary w (fun a => (fsign (fmtOf w.ty) true a, Flags.none)) s

def execFfma (w : Fields) (s : State) :=
  issueWord w s (lanewise w (tyWide w.ty) (fun f s L => ffmaVal w (f.old w w.ty L) (s.a f w L) (s.b f w L)))

def execFcmp (w : Fields) (s : State) :=
  issueWord w s (predwise w (fun f s L =>
    fcmp (condCode w) ((fmtOf w.ty).decode (s.a f w L)) ((fmtOf w.ty).decode (s.b f w L))))

/-- FCLASS writes one register whatever TYPE holds (R108). -/
def execFclass (w : Fields) (s : State) :=
  issueWord w s (lanewise w false (fun f s L =>
    (BitVec.ofNat 64 (2 ^ fclass (fmtOf w.ty) ((fmtOf w.ty).decode (s.a f w L))), Flags.none)))

def execFrnd (w : Fields) (s : State) := funary w (fun a => frnd (fmtOf w.ty) w.round ((fmtOf w.ty).decode a)) s

def execFscale (w : Fields) (s : State) :=
  issueWord w s (lanewise w (tyWide w.ty) (fun f s L =>
    fscale (fmtOf w.ty) w.round w.sat ((fmtOf w.ty).decode (s.a f w L)) (intOf .i32 (s.src f w .i32 L w.b))))

/-- FADDMIN: the sum with its flags, then FMIN with D (R114). -/
def execFaddmin (w : Fields) (s : State) :=
  issueWord w s (lanewise w (tyWide w.ty) (fun f s L =>
    let t := faddVal { w with sat := false, modx := false } (s.a f w L) (s.b f w L)
    let r := fminmax (fmtOf w.ty) true (f.old w w.ty L) t.1
    (r.1, t.2 ||| r.2)))

/-- FDOT4's sources are pairs for the 16-bit formats, one register for the 8-bit ones (R115). DESIGN CHOICE (log 90): a source
of 0xE0 supplies IMM32 as R75 converts it to one element of TYPE, which is element 0, and zeros in elements 1 to 3. -/
def execFdot4 (w : Fields) (s : State) :=
  let t := if tyBits w.ty = 16 then Ty.n64 else Ty.n32
  let read (f : Frag) (s : State) (L : Nat) (o : Operand) : W64 :=
    match o with
    | .imm => immValue w.ty w.round w.imm
    | o => s.src f w t L o
  issueWord w s (lanewise w false (fun f s L =>
    fdot4 w.ty w.round (f.old w .n32 L) (read f s L w.a) (read f s L w.b)))

end Sys2Proof.Machine
end

