-- ==== Sys2Proof/Machine/Transcendental.lean ====
section
/-! DEFINITION. Transcendental instructions, 0x0A0 to 0x0B5 (R61 to R63, R116). A value of the exact function is held as
an enclosure: a rational number of given precision whose distance from the value is below `slack` units, or the value
itself where it is a binary fraction. -/

namespace Sys2Proof.Machine

/-- The functions, numbered as their opcodes are. -/
inductive TFn where
  | rcp | rsq | exp2 | log2 | sin | cos
  deriving DecidableEq, Repr

def TFn.code : TFn → Nat
  | .rcp => 0 | .rsq => 1 | .exp2 => 2 | .log2 => 3 | .sin => 4 | .cos => 5

/-- ±m × 2^e: the value itself when `exact`, else a number less than `slack` units from it, which is no binary fraction. -/
structure Enclosure where
  neg   : Bool
  m     : Nat
  e     : Int
  exact : Bool

/-- The units by which an enclosure may be off. -/
def slack : Nat := 65536

/-- Sum of the terms of a series at `p` binary places: each term is the one before times `num k / den k`. -/
def series (step : Nat → Nat → Nat) : (n k term acc : Nat) → Nat
  | 0, _, _, acc => acc
  | n + 1, k, t, acc => if t = 0 then acc else series step n (k + 1) (step k t) (acc + t)

/-- 2^p × artanh(a / b): the odd powers over their exponents. -/
def artanh (p a b : Nat) : Nat → Nat → Nat → Nat
  | 0, _, acc => acc
  | n + 1, t, acc => if t = 0 then acc
    else artanh p a b n (t * a * a / (b * b)) (acc + t / (2 * (p - n) - 1))

/-- 2^p × arctan(1 / b), for the alternating series: the positive and the negative terms. -/
def arctanInv (b : Nat) : (n k t pos neg : Nat) → Nat
  | 0, _, _, pos, neg => pos - neg
  | n + 1, k, t, pos, neg =>
    if t = 0 then pos - neg
    else if k % 2 = 0 then arctanInv b n (k + 1) (t / (b * b)) (pos + t / (2 * k + 1)) neg
    else arctanInv b n (k + 1) (t / (b * b)) pos (neg + t / (2 * k + 1))

/-- 2^p × π by Machin's formula. -/
def piAt (p : Nat) : Nat :=
  let q := p + 16
  let one := 2 ^ q
  (16 * arctanInv 5 q 0 (one / 5) 0 0 - 4 * arctanInv 239 q 0 (one / 239) 0 0) / 2 ^ 16

/-- 2^p × ln 2. -/
def ln2At (p : Nat) : Nat := 2 * artanh p 1 3 p (2 ^ p / 3) 0

/-- 2^p × e^(y / 2^p) for y below 2^p. -/
def expAt (p y : Nat) : Nat := series (fun k t => t * y / 2 ^ p / (k + 1)) p 0 (2 ^ p) 0

/-- 2^p × sin and cos of r / 2^p, r below 2 × 2^p: positive terms less negative ones. -/
def sinAt (p r : Nat) : Nat :=
  let sq := r * r / 2 ^ p
  let step2 (k t : Nat) : Nat :=
    let a := t * sq / 2 ^ p / ((4 * k + 2) * (4 * k + 3))
    a * sq / 2 ^ p / ((4 * k + 4) * (4 * k + 5))
  let pos := series step2 p 0 r 0
  let first := r * sq / 2 ^ p / 6
  let neg := series (fun k t =>
    let a := t * sq / 2 ^ p / ((4 * k + 4) * (4 * k + 5))
    a * sq / 2 ^ p / ((4 * k + 6) * (4 * k + 7))) p 0 first 0
  pos - neg

def cosAt (p r : Nat) : Nat :=
  let sq := r * r / 2 ^ p
  let pos := series (fun k t =>
    let a := t * sq / 2 ^ p / ((4 * k + 1) * (4 * k + 2))
    a * sq / 2 ^ p / ((4 * k + 3) * (4 * k + 4))) p 0 (2 ^ p) 0
  let neg := series (fun k t =>
    let a := t * sq / 2 ^ p / ((4 * k + 3) * (4 * k + 4))
    a * sq / 2 ^ p / ((4 * k + 5) * (4 * k + 6))) p 0 (sq / 2) 0
  pos - neg

/-- m × 2^e at `p` binary places, cut. -/
def fixAt (p m : Nat) (e : Int) : Nat :=
  if 0 ≤ e + p then m * 2 ^ (e + p).toNat else m / 2 ^ (-(e + p)).toNat

/-- 1 + tiny or 1 − tiny: a value that differs from 1 by less than any rounding of the format sees. -/
def nearOne (above : Bool) : Enclosure :=
  { neg := false, m := if above then 2 ^ 80 + slack else 2 ^ 80 - slack, e := -80, exact := false }

/-- Reduction of m × 2^e by multiples of π/2: the quadrant and the rest at `p` places. -/
def reduceAt (p m : Nat) (e : Int) : Nat × Nat :=
  let k := (bitLen m + e).toNat + 8
  let half := piAt (p + k) / 2
  let x := fixAt (p + k) m e
  (x / half, x % half / 2 ^ k)

/-- The value of a function at ±m × 2^e, m not zero, at precision `p`; the cases of R63 are decided before. -/
def TFn.enclose (fn : TFn) (w p : Nat) (neg : Bool) (m : Nat) (e : Int) : Enclosure :=
  let size : Int := bitLen m + e
  match fn with
  | .rcp =>
    let t := quotient (p + 8) 1 m
    { neg, m := t.1 * (if t.1 % 2 = 0 then 1 else slack), e := -e - t.2 - (if t.1 % 2 = 0 then 0 else 16),
      exact := t.1 % 2 = 0 }
  | .rsq =>
    -- the root of 2^(2k) / m, with e made even
    let m' := if e % 2 = 0 then m else 2 * m
    let e' := if e % 2 = 0 then e else e - 1
    let k := p + bitLen m'
    let q := 2 ^ (2 * k) / m'
    let r := isqrt q (bitLen q / 2 + 1) 0
    if r * r * m' = 2 ^ (2 * k) then { neg := false, m := r, e := -(e' / 2) - k, exact := true }
    else { neg := false, m := r * slack + slack / 2, e := -(e' / 2) - k - 16, exact := false }
  | .exp2 =>
    if 13 ≤ size then { neg := false, m := 1, e := if neg then -8192 else 8192, exact := false }
    else if size < -((w : Int) + 10) then nearOne (!neg)
    else
      let x := fixAt (p + 1200) m e
      let one := 2 ^ (p + 1200)
      if x % one = 0 then { neg := false, m := 1, e := if neg then -((x / one : Nat) : Int) else (x / one : Nat), exact := true }
      else
        let n : Int := if neg then -((x / one : Nat) : Int) - 1 else (x / one : Nat)
        let frac := if neg then one - x % one else x % one
        let y := (frac / 2 ^ 1200) * ln2At p / 2 ^ p
        { neg := false, m := expAt p y, e := n - p, exact := false }
  | .log2 =>
    let n : Int := size - 1
    if m = 2 ^ (bitLen m - 1) then { neg := n < 0, m := n.natAbs, e := 0, exact := true }
    else
      let one := 2 ^ (bitLen m - 1)
      let t := 2 ^ p * (m - one) / (m + one)
      let f := 2 * artanh p (m - one) (m + one) p t 0 * 2 ^ p / ln2At p
      let v : Int := n * 2 ^ p + f
      { neg := v < 0, m := v.natAbs, e := -(p : Int), exact := false }
  | .sin =>
    if size < -(w : Int) then
      { neg, m := m * 2 ^ 20 - slack, e := e - 20, exact := false }
    else
      let r := reduceAt p m e
      let v := if r.1 % 2 = 0 then sinAt p r.2 else cosAt p r.2
      { neg := neg != (2 ≤ r.1 % 4), m := v, e := -(p : Int), exact := false }
  | .cos =>
    if size < -(w : Int) then nearOne false
    else
      let r := reduceAt p m e
      let v := if r.1 % 2 = 0 then cosAt p r.2 else sinAt p r.2
      { neg := r.1 % 4 = 1 || r.1 % 4 = 2, m := v, e := -(p : Int), exact := false }

/-- The two roundings between which the value lies, equal once the precision suffices. -/
def Enclosure.rounds (x : Enclosure) (f : Fmt) (mode : Rnd) : (W64 × Flags) × (W64 × Flags) :=
  if x.exact then
    let r := f.round mode false x.neg x.m x.e
    (r, r)
  else
    (f.round mode false x.neg (2 * (x.m - slack) + 1) (x.e - 1),
     f.round mode false x.neg (2 * (x.m + slack) - 1) (x.e - 1))

/-- The enclosure at the first precision at which both ends round alike. -/
def TFn.settle (fn : TFn) (f : Fmt) (mode : Rnd) (neg : Bool) (m : Nat) (e : Int) : List Nat → Enclosure
  | [] => fn.enclose f.w 2048 neg m e
  | p :: ps =>
    let x := fn.enclose f.w p neg m e
    let r := x.rounds f mode
    if r.1 = r.2 then x else fn.settle f mode neg m e ps

def precisions : List Nat := [192, 512, 2048]

/-- The correctly rounded result of a finite nonzero input (R61). -/
def TFn.correct (fn : TFn) (f : Fmt) (mode : Rnd) (neg : Bool) (m : Nat) (e : Int) : W64 × Flags :=
  ((fn.settle f mode neg m e precisions).rounds f mode).1

/-- Whether the finite value of a pattern lies within 2 ulp of the enclosed value, the ulp at its magnitude (R61). -/
def Enclosure.within (x : Enclosure) (f : Fmt) (y : W64) : Bool :=
  match f.decode y with
  | .fin neg m e =>
    let ulp : Int := max ((bitLen x.m : Int) + x.e - f.w) f.qmin
    let q := min (min e x.e) ulp
    let v := signedAt x.neg x.m x.e q
    let d := (signedAt neg m e q - v).natAbs
    let near := if x.exact then 0 else slack * 2 ^ (x.e - q).toNat
    d + near ≤ 2 * 2 ^ (ulp - q).toNat
  | _ => false

/-- The place of a pattern of a format on the line of its numbers, zero for both zeros, and the patterns of a place. -/
def Fmt.place (f : Fmt) (y : W64) : Int :=
  let mag : Nat := y.toNat % 2 ^ (f.ebits + f.fbits)
  if y.getLsbD (f.ebits + f.fbits) then -(mag : Int) else mag
def Fmt.atPlace (f : Fmt) (k : Int) : List W64 :=
  if k = 0 then [f.zero false, f.zero true]
  else [BitVec.ofNat 64 (k.natAbs + if k < 0 then 2 ^ (f.ebits + f.fbits) else 0)]

/-- The fast result: the correctly rounded one or any number within 2 ulp of the value, of either sign, by a free value of the
function, the type and the input (R46, R61, R63; log 9). Below a power of two the numbers lie twice as close, so that up to five
places on a side are within the bound. -/
def TFn.fast (fn : TFn) (f : Fmt) (wide : Bool) (bits : W64) (neg : Bool) (m : Nat) (e : Int) : W64 × Flags :=
  let x := fn.settle f .rne neg m e precisions
  let r := (x.rounds f .rne).1
  match f.decode r.1 with
  | .nan _ => r
  | _ =>
    let cands := ([-5, -4, -3, -2, -1, 0, 1, 2, 3, 4, 5] : List Int).flatMap (fun (d : Int) =>
      (f.atPlace (f.place r.1 + d)).filter (fun y => y == r.1 || x.within f y))
    let y := cands.getD (Config.fastPick fn.code wide bits % max cands.length 1) r.1
    let differs := if x.exact then y != r.1 || r.2 &&& Flags.inexact != 0 else true
    (y, (r.2 &&& (Flags.overflow ||| Flags.underflow)) ||| Flags.when differs Flags.inexact)

/-- Which path an instruction names (R61). -/
inductive Path where
  | auto | fast | exact
  deriving DecidableEq, Repr

/-- Whether |x| lies below the threshold of `.auto` (R62): T is 2^k. -/
def TFn.belowT (fn : TFn) (wide : Bool) (m : Nat) (e : Int) : Bool :=
  let k : Int := match fn, wide with
    | .rcp, false | .rsq, false => 126
    | .rcp, true | .rsq, true => 1022
    | .exp2, false => 6
    | .exp2, true => 9
    | .log2, false => 32
    | .log2, true => 256
    | .sin, false | .cos, false => 10
    | .sin, true | .cos, true => 20
  (bitLen m : Int) + e ≤ k

/-- A transcendental function of one lane (R61 to R63). -/
def TFn.apply (fn : TFn) (path : Path) (exactMode : Bool) (t : Ty) (mode : Rnd) (bits : W64) : W64 × Flags :=
  let f := fmtOf t
  let one : W64 := (f.round .rne false false 1 0).1
  match f.decode bits with
  | .nan s => f.nanResult s
  | .inf neg =>
    match fn with
    | .rcp => (f.zero neg, Flags.none)
    | .rsq => if neg then f.nanResult true else (f.zero false, Flags.none)
    | .exp2 => (if neg then f.zero false else f.infinity false, Flags.none)
    | .log2 => if neg then f.nanResult true else (f.infinity false, Flags.none)
    | .sin | .cos => f.nanResult true
  | .fin neg m e =>
    if m = 0 then
      match fn with
      | .rcp | .rsq => (f.infinity neg, Flags.divzero)
      | .exp2 | .cos => (one, Flags.none)
      | .log2 => (f.infinity true, Flags.divzero)
      | .sin => (f.zero neg, Flags.none)
    else if neg ∧ (fn = .rsq ∨ fn = .log2) then f.nanResult true
    else if fn = .log2 ∧ f.decode bits = f.decode one then (f.zero false, Flags.none)
    else
      let quick := match path with
        | .fast => true
        | .exact => false
        | .auto => !exactMode && fn.belowT (tyWide t) m e
      if quick then fn.fast f (tyWide t) bits neg m e else fn.correct f mode neg m e

/-- A transcendental instruction. -/
def transcendental (fn : TFn) (path : Path) (w : Fields) (s : State) : Host.Outcome State Fault Refusal :=
  issueWord w s (lanewise w (tyWide w.ty) (fun f s L => fn.apply path f.c.exact w.ty w.round (s.a f w L)))

def execFrcpAuto (w : Fields) (s : State) := transcendental .rcp .auto w s
def execFrsqAuto (w : Fields) (s : State) := transcendental .rsq .auto w s
def execFexp2Auto (w : Fields) (s : State) := transcendental .exp2 .auto w s
def execFlog2Auto (w : Fields) (s : State) := transcendental .log2 .auto w s
def execFsinAuto (w : Fields) (s : State) := transcendental .sin .auto w s
def execFcosAuto (w : Fields) (s : State) := transcendental .cos .auto w s
def execFrcpFast (w : Fields) (s : State) := transcendental .rcp .fast w s
def execFrsqFast (w : Fields) (s : State) := transcendental .rsq .fast w s
def execFexp2Fast (w : Fields) (s : State) := transcendental .exp2 .fast w s
def execFlog2Fast (w : Fields) (s : State) := transcendental .log2 .fast w s
def execFsinFast (w : Fields) (s : State) := transcendental .sin .fast w s
def execFcosFast (w : Fields) (s : State) := transcendental .cos .fast w s
def execFrcpExact (w : Fields) (s : State) := transcendental .rcp .exact w s
def execFrsqExact (w : Fields) (s : State) := transcendental .rsq .exact w s
def execFexp2Exact (w : Fields) (s : State) := transcendental .exp2 .exact w s
def execFlog2Exact (w : Fields) (s : State) := transcendental .log2 .exact w s
def execFsinExact (w : Fields) (s : State) := transcendental .sin .exact w s
def execFcosExact (w : Fields) (s : State) := transcendental .cos .exact w s

end Sys2Proof.Machine
end

