-- ==== Sys2Proof/Machine/Convert.lean ====
section
/-! DEFINITION. Conversions (R117 to R119) and the generator (R210). -/

namespace Sys2Proof.Machine

/-- The type of a code of R73; 15 stands for none and is refused before this is used. -/
def tyAt (c : Nat) : Ty := (Encoding.tyOfCode c).getD .b32

/-- A value of one type converted to another (R49 to R51, R117). -/
def convert (dst src : Ty) (mode : Rnd) (sat : Bool) (x : W64) : W64 × Flags :=
  match tyFloat src, tyFloat dst with
  | true, true => (fmtOf dst).convert mode sat ((fmtOf src).decode x)
  | true, false => toInt dst mode ((fmtOf src).decode x)
  | false, true => (fmtOf dst).ofInt mode sat (intOf src x)
  | false, false => (fitInt dst sat (intOf src x), Flags.none)

def execCvt (w : Fields) (s : State) :=
  let src := tyAt (w.imm.toNat % 16)
  issueWord w s (lanewise w (tyWide w.ty) (fun f s L => convert w.ty src w.round w.sat (s.src f w src L w.a)))

/-- The type in which PACK reads its sources (R118). -/
def packSrc (t : Ty) : Ty := if tyFloat t then .f32 else .i32

/-- PACK (R118): the two converted values placed over the old value. -/
def packVal (t : Ty) (hi : Bool) (d a b : W64) : W64 :=
  let w := tyBits t
  let lo := a.toNat % 2 ^ w
  let up := b.toNat % 2 ^ w
  let old := d.toNat
  BitVec.ofNat 64 (if w = 16 then up * 65536 + lo
    else if hi then old % 65536 + (up * 256 + lo) * 65536
    else old % 2 ^ 32 / 65536 * 65536 + (up * 256 + lo))

def execPack (w : Fields) (s : State) :=
  let t := packSrc w.ty
  issueWord w s (lanewise w false (fun f s L =>
    let x := convert w.ty t w.round w.sat (s.src f w t L w.a)
    let y := convert w.ty t w.round w.sat (s.src f w t L w.b)
    (packVal w.ty w.modx (f.old w .n32 L) x.1 y.1, x.2 ||| y.2)))

/-- UNPACK (R119): one element widened. -/
def unpackVal (t : Ty) (i : Nat) (a : W64) : W64 × Flags :=
  let x : W64 := BitVec.ofNat 64 (a.toNat / 2 ^ (tyBits t * i) % 2 ^ tyBits t)
  if tyFloat t then (fmtOf .f32).convert .rne false ((fmtOf t).decode x) else (extend t x, Flags.none)

def execUnpack (w : Fields) (s : State) :=
  issueWord w s (lanewise w false (fun f s L => unpackVal w.ty (w.imm.toNat % 4) (s.src f w .n32 L w.a)))

/-- RNG (R210): A is the key and B the index. -/
def execRng (w : Fields) (s : State) :=
  issueWord w s (lanewise w false (fun f s L =>
    ((rng (BitVec.ofNat 32 (s.aWord f w L)) (BitVec.ofNat 32 (s.bWord f w L))).setWidth 64, Flags.none)))

/-- RNGF (R67, R210). -/
def execRngf (w : Fields) (s : State) :=
  issueWord w s (lanewise w false (fun f s L =>
    (rngf (rng (BitVec.ofNat 32 (s.aWord f w L)) (BitVec.ofNat 32 (s.bWord f w L))), Flags.none)))

end Sys2Proof.Machine
end

