-- ==== Sys2Proof/Machine/Lanes.lean ====
section
/-! DEFINITION. Predicates and lanes, 0x0C0 to 0x0CE (R120 to R129). -/

namespace Sys2Proof.Machine

/-- A predicate source as a mask over the lanes (R120). -/
def Frag.predSrc (f : Frag) (o : Operand) : Mask :=
  match o with
  | .pred inv n => if inv then ~~~ (f.c.readP n.val) else f.c.readP n.val
  | _ => 0

/-- A predicate result for every executing lane at once. -/
def predOp (w : Fields) (s : State) (fn : Frag → Mask) : Host.Outcome State Fault Refusal :=
  issueWord w s (fun f s => .ok { s := s.course f (fun c => c.writeP (predD w) f.exec (fn f)), arith := true })

def execPand (w : Fields) (s : State) := predOp w s (fun f => f.predSrc w.a &&& f.predSrc w.b)
def execPor (w : Fields) (s : State) := predOp w s (fun f => f.predSrc w.a ||| f.predSrc w.b)
def execPxor (w : Fields) (s : State) := predOp w s (fun f => f.predSrc w.a ^^^ f.predSrc w.b)
def execPnot (w : Fields) (s : State) := predOp w s (fun f => ~~~ (f.predSrc w.a))
def execPmov (w : Fields) (s : State) := predOp w s (fun f => f.predSrc w.a)

/-- PCOUNT counts the executing lanes whose predicate is true (R122). -/
def execPcount (w : Fields) (s : State) :=
  issueWord w s (lanewise w false (fun f _ _ =>
    (BitVec.ofNat 64 (laneCount (f.exec &&& f.predSrc w.a)), Flags.none)))

/-- Lane L's value from lane `src L`, or `other L` where that lane is not in the fragment (R123, R124). -/
def fromLane (w : Fields) (src : Frag → State → Nat → Option Nat) (other : Frag → State → Nat → W64) (s : State) :
    Host.Outcome State Fault Refusal :=
  issueWord w s (lanewise w (tyWide w.ty) (fun f s L =>
    match src f s L with
    | some k => if f.active.getLsbD k then (s.a f w k, Flags.none) else (other f s L, Flags.none)
    | none => (other f s L, Flags.none)))

def execLshup (w : Fields) (s : State) :=
  let k := w.imm.toNat % 32
  fromLane w (fun _ _ L => if k ≤ L then some (L - k) else none) (fun f s L => s.b f w L) s

def execLshdn (w : Fields) (s : State) :=
  let k := w.imm.toNat % 32
  fromLane w (fun _ _ L => if L + k ≤ 31 then some (L + k) else none) (fun f s L => s.b f w L) s

/-- SHFL: the source lane is b mod 32, or L XOR it under `.xor` (R124). -/
def execShfl (w : Fields) (s : State) :=
  fromLane w (fun f s L => some (if w.modx then L ^^^ (s.bWord f w L % 32) else s.bWord f w L % 32))
    (fun f s L => s.a f w L) s

/-- VOTE (R125). -/
def execVote (w : Fields) (s : State) :=
  issueWord w s (fun f s =>
    let t := f.predSrc w.a &&& f.exec
    let mode := w.imm.toNat % 4
    if mode = 3 then .ok { s := s.course f (f.same w false (t.setWidth 64)), arith := true }
    else
      let yes := if mode = 0 then t == f.exec else if mode = 1 then t != 0 else t == f.exec || t == 0
      .ok { s := s.course f (fun c => c.writeP (predD w) f.exec (if yes then f.exec else 0)), arith := true })

/-- ELECT (R126). -/
def execElect (w : Fields) (s : State) := predOp w s (fun f => laneBit f.low)

/-- Add of REDUX at a node (R127): the value and the flags so far. -/
def reduxAdd (w : Fields) (op : Nat) (x y : W64 × Flags) : W64 × Flags :=
  let f := fmtOf w.ty
  let r : W64 × Flags :=
    match op, tyFloat w.ty with
    | 0, true => f.add w.round false (f.decode x.1) (f.decode y.1)
    | 0, false => (intBin w.ty w.sat (· + ·) x.1 y.1, Flags.none)
    | 1, true => fminmax f true x.1 y.1
    | 1, false => (intBin w.ty false min x.1 y.1, Flags.none)
    | 2, true => fminmax f false x.1 y.1
    | 2, false => (intBin w.ty false max x.1 y.1, Flags.none)
    | 3, _ => (x.1 &&& y.1, Flags.none)
    | 4, _ => (x.1 ||| y.1, Flags.none)
    | _, _ => (x.1 ^^^ y.1, Flags.none)
  (r.1, x.2 ||| y.2 ||| r.2)

/-- The value of REDUX over the executing lanes, absent lanes passed through (R52, R127). With one executing lane nothing is added: its
value passes unchanged and raises no flag, a NaN too, though R44 makes every NaN result canonical (DEDUCED from R52, log 101). -/
def State.reduxVal (s : State) (f : Frag) (w : Fields) : W64 × Flags :=
  let xs := (List.range 32).map (fun L => if f.exec.getLsbD L then some (s.a f w L, Flags.none) else none)
  (treeSum (reduxAdd w (w.imm.toNat % 8)) 5 xs).getD (0, Flags.none)

def execRedux (w : Fields) (s : State) :=
  issueWord w s (fun f s =>
    let r := s.reduxVal f w
    .ok { s := s.course f (f.results w (tyWide w.ty) (fun _ => r)), arith := true })

/-! ### XCHG (R128, R129) -/

/-- TAG of XCHG. -/
def xTag (w : Fields) : Nat := w.imm.toNat % 256

/-- XCHG's timeout in cycles of its core (R129). -/
def xchgLimit : Nat := 2 ^ 20

/-- An instruction that has issued and waited is done: its effect stands, its counter falls, and its fragment goes on (R129, R165,
R230). -/
def State.release (s : State) (core slot entry stamp id : Nat) (w : Fields) (body : Frag → State → State) : State :=
  match { s with issuer := { core, slot, entry } }.frag w with
  | none => s
  | some f =>
    if f.c.stamp = stamp then
      (((body f s).course f (·.mapEntry entry (fun e => { e with pc := addPc f.pc 12, held := false, began := none }))).complete id)
    else s

/-- XCHG waits from its issue until it is paired or its time has passed. -/
def execXchg (w : Fields) (s : State) :=
  issueWord w s (fun f s =>
    let t := (s.scalarB f w .n32).toNat
    if t = f.core ∨ sectorOf t ≠ sectorOf f.core then trapOf .illegalOperand
    else
      let x : XWait :=
        { id := f.op, core := f.core, slot := f.slot, stamp := f.c.stamp, entry := f.entry, target := t,
          mask := f.exec, vals := (lanesOf f.exec).map (fun L => (L, s.a f w L)), left := xchgLimit, word := w }
      .error (.issued { s.sendClass f.core .xchg with xwaits := s.xwaits ++ [x] }))

/-- One side of a paired or unpaired XCHG completes: the partner's values where it executed the lane (R129). DESIGN CHOICE (log
44): where the two instructions have different TYPEs, a b32 value arrives zero-extended in a pair, and an n64 value by its low
half in one register. -/
def State.xchgDone (s : State) (x : XWait) (partner : Option (List (Nat × W64))) : State :=
  let s := { s with xwaits := s.xwaits.filter (fun y => y.id != x.id) }
  s.release x.core x.slot x.entry x.stamp x.id x.word (fun f s =>
    let val (L : Nat) : W64 :=
      match partner with
      | some ys => (lookup? ys L).getD (get 0 x.vals L)
      | none => get 0 x.vals L
    let u := x.word.imm.toNat / 256 % 32
    s.course f (fun c =>
      (x.vals.foldl (fun (c : Course) p => c.result x.word (tyWide x.word.ty) p.1 (val p.1)) c).writeP u x.mask
        (if partner.isSome then 0 else x.mask)))

/-- Whether two waiting XCHG name each other with one tag. -/
def XWait.matches (x y : XWait) : Bool :=
  x.target == y.core && y.target == x.core && xTag x.word == xTag y.word

/-- The partner's values leave for one side of a pair: they reach its fragment, or are on their way to the port of its core, which
stands still (R341). -/
def State.xchgReply (s : State) (x : XWait) (vals : List (Nat × W64)) : State :=
  if s.runs x.core then s.xchgDone x (some vals)
  else { s with xwaits := s.xwaits.map (fun (y : XWait) => if y.id = x.id then { y with ans := some vals } else y) }

/-- An XCHG still waits for its partner: its time is not over. -/
def XWait.waits (x : XWait) : Bool := 0 < x.left && x.ans.isNone

/-- Two waiting XCHG pair, their time not over: each is the earliest waiting on its key (R129). -/
def execXchgPairing (i j : Nat) (s : State) : Host.Outcome State Fault Refusal :=
  event s (match s.xwaits.find? (fun x => x.id == i), s.xwaits.find? (fun x => x.id == j) with
    | some x, some y =>
      let first (a b : XWait) : Bool := match s.xwaits.find? (fun z => z.core == a.core && z.matches b && z.waits) with
        | some z => z.id == a.id
        | none => false
      if i != j && x.matches y && x.waits && y.waits && first x y && first y x then
        some ((s.xchgReply x y.vals).xchgReply y x.vals)
      else none
    | _, _ => none)

/-- An XCHG whose time has passed completes unpaired (R129). -/
def execXchgTimeout (i : Nat) (s : State) : Host.Outcome State Fault Refusal :=
  event s (match s.xwaits.find? (fun x => x.id == i) with
    | some x => if x.left = 0 ∧ x.ans.isNone ∧ s.runs x.core then some (s.xchgDone x none) else none
    | none => none)

end Sys2Proof.Machine
end

