-- ==== Sys2Proof/Machine/Control.lean ====
section
/-! DEFINITION. Control instructions, 0x000 to 0x00B (R88 to R98), with the split table and the serial store that they
change (R221 to R224). -/

namespace Sys2Proof.Machine

/-! ### Fragments -/

/-- The entries of a split table that hold no fragment, lowest first. -/
def Course.freeEntries (c : Course) : List Nat := (List.range 8).filter (fun n => !(get {} c.entries n).valid)

def Course.setEntries (c : Course) (es : List (Nat × Entry)) : Course := { c with entries := es }
def Course.setFrames (c : Course) (fs : List Frame) : Course := { c with frames := fs }

/-- Whether entry `q` lies inside entry `n`: its mask within the other's, the younger one where EXIT has left both the same
lanes (R221, R223). -/
def Course.inside (c : Course) (n : Nat) (q : Nat × Entry) : Bool :=
  let e := get {} c.entries n
  q.1 != n && q.2.mask &&& e.mask == q.2.mask && (q.2.mask != e.mask || e.age < q.2.age)

/-- Whether a valid entry is a join: another lies inside it (R221). -/
def Course.isJoin (c : Course) (n : Nat) : Bool := c.live.any (c.inside n)

/-- The frames of a fragment, oldest first. -/
def Course.framesOf (c : Course) (n : Nat) : List Frame := c.frames.filter (fun r => r.entry == n)

/-- A fragment that waits at its reconvergence address (R222, R224). -/
def Course.isWaiting (c : Course) (n : Nat) : Bool :=
  let e := get {} c.entries n
  e.valid && !c.isJoin n && e.rpc != 0 && e.pc == e.rpc && (c.framesOf n).isEmpty

/-- AGE renumbered over the valid entries in their creation order (R221). -/
def Course.renumber (c : Course) : Course :=
  c.setEntries (c.entries.map (fun p =>
    (p.1, { p.2 with age := (c.live.filter (fun q => q.2.age < p.2.age)).length })))

/-- The lanes of a course that live. -/
def Course.liveLanes (c : Course) : Mask :=
  let m := c.live.foldl (fun m p => m ||| p.2.mask) 0
  c.frames.foldl (fun m r => m ||| r.held ||| r.pending.foldl (fun m g => m ||| g.mask) 0) m

/-- Groups placed in free entries, in order, each with the next AGE (R221). -/
def Course.place (c : Course) (x : W64) : List Group → List Nat → Nat → Course
  | g :: gs, n :: ns, age =>
    (c.setEntries (assign c.entries n { mask := g.mask, valid := true, pc := g.pc, rpc := x, age := age })).place
      x gs ns (age + 1)
  | _, _, _ => c

/-- A fragment splits into groups that meet again at `x` (R221), or runs them one after another when the table is too
full or it already does (R224). -/
def Course.split (c : Course) (n : Nat) (x : W64) (groups : List Group) : Course :=
  if (c.framesOf n).isEmpty && groups.length ≤ c.freeEntries.length then
    let free := c.freeEntries
    let age := c.live.length
    (c.mapEntry n (fun e => { e with pc := x, passed := 0, held := false })).place x groups free age
  else
    match groups with
    | [] => c
    | g :: gs =>
      (c.setFrames (c.frames ++ [{ entry := n, rpc := x, pending := gs, held := 0 }])).mapEntry n
        (fun e => { e with mask := g.mask, pc := g.pc, passed := 0, held := false })

/-- The last frame of a fragment changed, or taken out. -/
def setTop (n : Nat) (g : Frame → Option Frame) : List Frame → List Frame
  | [] => []
  | r :: rs =>
    if r.entry = n ∧ rs.all (fun q => q.entry != n) then
      match g r with
      | some r' => r' :: rs
      | none => rs
    else r :: setTop n g rs

/-- A fragment takes up the next pending group of its top frame, or every lane held there (R224). -/
def Course.takeNext (c : Course) (n : Nat) (r : Frame) : Course :=
  match r.pending with
  | g :: gs =>
    (c.setFrames (setTop n (fun _ => some { r with pending := gs }) c.frames)).mapEntry n
      (fun e => { e with mask := g.mask, pc := g.pc, held := false })
  | [] =>
    (c.setFrames (setTop n (fun _ => none) c.frames)).mapEntry n
      (fun e => { e with mask := r.held, pc := r.rpc, held := false })

/-- A serialised fragment at the address of its top frame (R224). -/
def Course.serialAdvance (c : Course) (n : Nat) : Option Course :=
  let e := get {} c.entries n
  match (c.framesOf n).getLast? with
  | some r => if e.valid && e.pc == r.rpc then some (c.takeNext n { r with held := r.held ||| e.mask }) else none
  | none => none

/-- A join whose other entries all wait at its address takes their lanes back; a join inside it fuses first (R222). -/
def Course.fuse (c : Course) (n : Nat) : Option Course :=
  let j := get {} c.entries n
  let inside := c.live.filter (c.inside n)
  if j.valid && !inside.isEmpty && inside.all (fun p => c.isWaiting p.1 && p.2.pc == j.pc) then
    some (c.setEntries (c.entries.map (fun p =>
      if inside.any (fun q => q.1 == p.1) then (p.1, ({} : Entry)) else p))).renumber
  else none

/-- A frame without the lanes of a mask. -/
def Frame.cut (r : Frame) (m : Mask) : Frame :=
  { r with held := r.held &&& ~~~ m,
           pending := (r.pending.map (fun g => { g with mask := g.mask &&& ~~~ m })).filter (fun g => g.mask != 0) }

/-- An entry whose lanes have all ended takes up the lanes that its frames hold, the top frame first; frames whose lanes are
all gone are discarded, and an entry without lanes and frames is freed (R223, R224). -/
def Course.settle (n : Nat) : (fuel : Nat) → Course → Course
  | 0, c => c
  | k + 1, c =>
    if (get {} c.entries n).mask = 0 then
      match (c.framesOf n).getLast? with
      | some r => Course.settle n k (c.takeNext n r)
      | none => c.setEntries (assign c.entries n {})
    else c

/-- Lanes that end leave every entry, every frame and their open proposals (R209, R223). -/
def Course.removeLanes (c : Course) (m : Mask) : Course :=
  let live := c.live
  let c := (c.setEntries (c.entries.map (fun p => (p.1, { p.2 with mask := p.2.mask &&& ~~~ m })))).setFrames
    (c.frames.map (fun r => r.cut m))
  let c := { c with propOpen := c.propOpen &&& ~~~ m }
  (live.foldl (fun (c : Course) p => c.settle p.1 (c.frames.length + 1)) c).renumber

/-- The return from a handler (R92, R233): SUPER is cleared, and the saved fragment goes on at the resume address with its
lanes that still live. What splits of the handler have left of other entries and frames is taken back. -/
def Course.returnFromTrap (c : Course) (entry : Nat) : Course :=
  let v := c.saved.getD { entry, mask := (get {} c.entries entry).mask, pc := 0, frames := (c.framesOf entry).length }
  let inside := (c.live.filter (c.inside v.entry)).map (fun q => q.1)
  let lanes := v.mask &&& c.liveLanes
  let gone := (c.framesOf v.entry).drop v.frames
  let c := { c with super := false, saved := none,
                    frames := c.frames.filter (fun r => !(inside.contains r.entry || gone.contains r)) }
  (c.setEntries (c.entries.map (fun p =>
    if p.1 = v.entry then (p.1, { p.2 with mask := lanes, pc := resumePc c, passed := 0, held := false })
    else if inside.contains p.1 then (p.1, ({} : Entry)) else p))).renumber

/-- Entries that are free leave the starved queue (R220). -/
def State.pruneStarved (s : State) (core slot : Nat) : State :=
  match s.course? core slot with
  | some c => s.mapCore core (fun k =>
      { k with starved := k.starved.filter (fun p => p.1 != slot || (get {} c.entries p.2).valid) })
  | none => s

/-! ### The instructions -/

def execNop (w : Fields) (s : State) := issueWord w s (fun _ s => .ok { s })

/-- YIELD counts as carrying the YIELD hint, whatever its bit holds (R95). -/
def execYield (w : Fields) (s : State) :=
  issueWord { w with hints := { w.hints with yield := true } } s (fun _ s => .ok { s })

/-- A signed count of 4 bytes in 16 bits of IMM32. -/
def off16 (imm : W32) (lo : Nat) : W64 := ((imm.extractLsb' lo 16).signExtend 64) <<< 2

/-- The groups of active lanes by the address at which each goes on, ascending by lowest lane (R90). -/
def groupBy (lanes : List Nat) (addr : Nat → W64) : List Group :=
  lanes.foldl (fun gs L =>
    if gs.any (fun g => g.pc == addr L) then
      gs.map (fun g => if g.pc == addr L then { g with mask := g.mask ||| laneBit L } else g)
    else gs ++ [{ mask := laneBit L, pc := addr L }]) []

/-- The fragment goes on at one address, or splits by address; without a reconvergence address it may not (R89, R90). -/
def branch (f : Frag) (w : Fields) (s : State) (addr : Nat → W64) : Except Stop Effect :=
  match groupBy (lanesOf f.active) addr with
  | [g] => .ok { s, pc := some g.pc }
  | gs =>
    let roff := off16 w.imm 16
    if roff = 0 then trapOf .illegalConvergence
    else .ok { s := s.course f (fun c => c.split f.entry (addPc f.pc roff) gs), moved := true }

/-- BRA (R89). -/
def execBra (w : Fields) (s : State) :=
  issueWord w s (fun f s =>
    let target := addPc f.pc (off16 w.imm 0)
    branch f w s (fun L => if f.exec.getLsbD L then target else addPc f.pc 12))

/-- The target checks of R90 over the executing lanes. -/
def targetsOk (f : Frag) (addr : Nat → W64) : Except Stop Unit :=
  match (lanesOf f.exec).find? (fun L => (addr L) >>> 57 != 0) with
  | some _ => trapOf .illegalOperand
  | none =>
    match (lanesOf f.exec).find? (fun L => (addr L) &&& 3 != 0) with
    | some L => trapAt .misaligned { va := (addr L).toNat, lane := L }
    | none => .ok ()

/-- BRX (R90). -/
def execBrx (w : Fields) (s : State) :=
  issueWord w s (fun f s => do
    let addr (L : Nat) : W64 := s.src f w .n64 L w.a
    targetsOk f addr
    branch f w s (fun L => if f.exec.getLsbD L then addr L else addPc f.pc 12))

/-- Every active lane executes (R91, R97). -/
def wholeFragment (f : Frag) : Except Stop Unit := require (f.exec == f.active) .illegalConvergence

/-- A jump of the whole fragment to one address read from A (R91, R92). -/
def jumpTo (f : Frag) (w : Fields) (s : State) : Except Stop W64 := do
  wholeFragment f
  let addr (L : Nat) : W64 := s.src f w .n64 L w.a
  targetsOk f addr
  require ((lanesOf f.exec).all (fun L => addr L == addr f.low)) .illegalConvergence
  .ok (addr f.low)

/-- The return address in D of every executing lane. -/
def State.linkTo (s : State) (f : Frag) (w : Fields) : State := s.course f (f.same w true (addPc f.pc 12))

/-- CALL (R91). -/
def execCall (w : Fields) (s : State) :=
  issueWord w s (fun f s => do
    wholeFragment f
    .ok { s := s.linkTo f w, pc := some (addPc f.pc ((w.imm.signExtend 64) <<< 2)) })

/-- CALL `.ind` (R91). -/
def execCallInd (w : Fields) (s : State) :=
  issueWord w s (fun f s => do
    let t ← jumpTo f w s
    .ok { s := s.linkTo f w, pc := some t })

/-- RET (R92). -/
def execRet (w : Fields) (s : State) :=
  issueWord w s (fun f s => do
    let t ← jumpTo f w s
    .ok { s, pc := some t })

/-- RET `.trap` (R92, R233): no lane saved at handler entry that still lives is split from the fragment. -/
def execRetTrap (w : Fields) (s : State) :=
  issueWord w s (fun f s => do
    require f.c.super .permission
    let saved := match f.c.saved with | some v => v.mask &&& f.c.liveLanes | none => f.active
    require (saved &&& ~~~ f.active == 0) .illegalConvergence
    .ok { s := (s.course f (fun c => c.returnFromTrap f.entry)).pruneStarved f.core f.slot, moved := true })

/-! ### What a course still has on its way -/

/-- Loads, stores and atomics. -/
def OpKind.memory : OpKind → Bool
  | .load .. | .store .. | .rmw .. | .zload .. | .zstore .. | .zflush .. => true
  | _ => false

/-- The accesses of an operation that have not been performed. -/
def OpKind.parts : OpKind → Space × List Access
  | .load sp _ _ _ accs => (sp, accs.filter (fun x => !x.got))
  | .store sp _ accs _ => (sp, accs)
  | .rmw sp _ _ _ _ _ _ accs _ => (sp, accs)
  | _ => (.global, [])

def OpKind.isLoad : OpKind → Bool
  | .load .. => true
  | _ => false

/-- Lanes of a GPUSH or GPOP that have no answer yet. -/
def State.poolOpen (s : State) (op : Nat) : Bool := s.pool.any (fun q => q.op == op && q.stage != 6)

/-- A load, store, atomic or pool operation is performed at a scope: at .h0 in its core's store path (R150, R270). -/
def State.performed (s : State) (o : Op) (scope : Nat) : Bool :=
  o.done || (match o.kind with
    | .pool _ => !s.poolOpen o.id
    | k => !k.memory || (scope == 0 && o.inCore) || (k.isLoad && k.parts.2.isEmpty))

/-- Every earlier access of a course is performed at a scope; beyond .h0 what its core's store path holds is too, so that
a release there is cumulative (R272). -/
def State.releasable (s : State) (core stamp scope : Nat) : Bool :=
  s.ops.all (fun o => (o.stamp != stamp || s.performed o scope) && (scope == 0 || o.core != core || !o.inCore || o.done))

/-- A write of the course to a shared-deterministic region that has not been performed at its home (R98, R284). -/
def State.sharedPending (s : State) (stamp : Nat) : Bool :=
  s.ops.any (fun o => o.stamp == stamp && o.shared && (if o.kind.detached then !o.done else !s.performed o 5))

/-- EXIT ends the executing lanes, and the course with its last lane (R93, R223); a holder of the commit token first waits as
TOKPASS does. -/
def execExit (w : Fields) (s : State) :=
  issueWord w s (fun f s =>
    if f.c.det && f.token && f.c.liveLanes &&& ~~~ f.exec == 0 && s.sharedPending f.c.stamp then .error .hold
    else
    let s := (s.course f (fun c => c.removeLanes f.exec)).pruneStarved f.core f.slot
    match s.course? f.core f.slot with
    | some c =>
      if c.liveLanes = 0 then .ok { s := s.endCourse f.core f.slot, moved := true }
      else
        -- the lanes that stay in the fragment go on after the word
        let stays := (f.active &&& ~~~ f.exec) != 0
        .ok { s := if stays then s.course f (·.mapEntry f.entry (fun e =>
                { e with pc := addPc f.pc 12, passed := 0, held := false })) else s, moved := true }
    | none => .ok { s, moved := true })

/-- TRAP and BKPT (R94). -/
def execTrap (w : Fields) (s : State) := issueWord w s (fun _ _ => trapOf .software)
def execBkpt (w : Fields) (s : State) := issueWord w s (fun _ _ => trapOf .breakpoint)

/-- The room of a child queue (R309). -/
def childRoom : Nat := 64

/-- LAUNCH from a lane on: each lane reads its packet at its address and submits it; a full queue holds the lanes from there
(R96, R309). -/
def launchLanes (f : Frag) (w : Fields) (addr : Nat → W64) (group : Nat) : List Nat → State → Except Stop State
  | [], s => .ok s
  | L :: Ls, s =>
    if (match s.course? f.core f.slot with | some c => (get ({} : Entry) c.entries f.entry).launched.getLsbD L | none => true) then
      launchLanes f w addr group Ls s
    else
      let va := (addr L).toNat
      let site : FaultAt := { va, lane := L }
      let reset (s : State) : State := s.course f (·.mapEntry f.entry (fun e => { e with launched := 0 }))
      if 2 ^ 57 ≤ va then .error (.late (reset s) { cause := .pageFault, site := some site })
      else match s.translate f.core f.asid va with
        | .absent => .error (.late (reset s) { cause := .pageFault, site := some site })
        | .poisoned => .error (.late (reset s) { cause := .pageFault, site := some site, walkPoison := true })
        | .page p =>
          if !p.read then .error (.late (reset s) { cause := .permission, site := some { site with cow := p.cow } })
          -- R354: LAUNCH may not reach a peer window
          else if !(homeOf p.pa).inScope 3 && homeOf p.pa != .host then
            .error (.late (reset s) { cause := .scopeUnreachable, site := some site })
          else
            let packet : BitVec 512 := BitVec.ofNat 512 (s.readNat p.pa 64)
            let q := field packet 86 3
            if childRoom ≤ ((s.ctx f.asid).children.filter (fun k => k.queue == q && k.status.isNone)).length then .error (.wait s)
            else
              let k : Child := { queue := q, packet, parent := f.c.grid, op := group, core := f.core, slot := f.slot,
                                 stamp := f.c.stamp, lane := L, reg := (match w.d with | .v n => n.val | _ => 0),
                                 file := if w.hints.sym then .y else .v }
              let s := s.mapCtx f.asid (fun c => { c with children := c.children ++ [k] })
              let s := if s.anyPoisoned p.pa 64 then s.flagIssue f L else s
              launchLanes f w addr group Ls (s.course f (·.mapEntry f.entry (fun e => { e with launched := e.launched ||| laneBit L })))

/-- LAUNCH (R96). -/
def execLaunch (w : Fields) (s : State) :=
  issueWord w s (fun f s => do
    require ((s.grid f.c.grid).depth < 10) .nestingLimit
    let addr (L : Nat) : W64 := s.src f w .n64 L w.a
    match (lanesOf f.exec).find? (fun L => addr L &&& 63 != 0) with
    | some L => trapAt .misaligned { va := (addr L).toNat, lane := L }
    | none =>
      if !s.releasable f.core f.c.stamp 3 then .error .hold
      else
        let e := get {} f.c.entries f.entry
        let group := if e.launched = 0 then f.op else e.launchOp
        let s := s.course f (·.mapEntry f.entry (fun e => { e with launchOp := group }))
        let s ← launchLanes f w addr group (lanesOf f.exec) s
        let open_ := (s.ctx f.asid).children.any (fun k => k.op == group)
        .ok { s := s.course f (·.mapEntry f.entry (fun e => { e with launched := 0 })), kind := if open_ then .launch group else .hint })

/-- The variants of a launch: class and entry offset (R307). -/
def Grid.variants (g : Grid) : List (Nat × Nat) :=
  match g.ext with
  | none => []
  | some e => (List.range (min (field e 512 4) 8)).map (fun i => (field e (64 * i) 32, field e (64 * i + 32) 32))

/-- The variant that PHASE selects for a size (R97). -/
def selectVariant (vs : List (Nat × Nat)) (size : Nat) : Nat :=
  let ix := vs.zipIdx
  let fit := ix.filter (fun p => size ≤ p.1.1)
  let best (better : Nat → Nat → Bool) (xs : List ((Nat × Nat) × Nat)) : Nat :=
    match xs with
    | [] => 0
    | x :: xs => (xs.foldl (fun b p => if better p.1.1 b.1.1 then p else b) x).2
  if fit.isEmpty then best (fun a b => b < a) ix else best (fun a b => a < b) fit

/-- PHASE (R97). -/
def execPhase (w : Fields) (s : State) :=
  issueWord w s (fun f s => do
    wholeFragment f
    let size := (lanesOf f.exec).foldl (fun m L => max m (s.aWord f w L)) 0
    let g := s.grid f.c.grid
    match g.variants with
    | [] => .ok { s := s.course f (fun c => { c with phase := 0 }) }
    | vs =>
      let i := selectVariant vs size
      .ok { s := s.course f (fun c => { c with phase := BitVec.ofNat 32 i }),
            pc := some (addPc (BitVec.ofNat 64 g.entryPc) (BitVec.ofNat 64 (vs.getD i (0, 0)).2)) })

/-- TOKPASS (R98, R320). -/
def execTokpass (w : Fields) (s : State) :=
  issueWord w s (fun f s =>
    if f.c.det && f.token then
      if s.sharedPending f.c.stamp then .error .hold else .ok { s := s.passToken f.c.grid }
    else .ok { s })

/-! ### Events of the split table -/

/-- A join takes its lanes back (R222). -/
def execFragmentFusion (core slot entry : Nat) (s : State) : Host.Outcome State Fault Refusal :=
  event s (match s.course? core slot with
    | some c => if s.strictHeld c.stamp then none else (c.fuse entry).map (fun c' => (s.mapCourse core slot (fun _ => c')).pruneStarved core slot)
    | none => none)

/-- A serialised fragment at its frame's address takes up the next group (R224). -/
def execSerialFrameAdvance (core slot entry : Nat) (s : State) : Host.Outcome State Fault Refusal :=
  event s (match s.course? core slot with
    | some c => if s.strictHeld c.stamp then none else (c.serialAdvance entry).map (fun c' => s.mapCourse core slot (fun _ => c'))
    | none => none)

/-- The handler of a course whose earlier work has completed is entered (R230, R232). -/
def execHandlerEntry (core slot : Nat) (s : State) : Host.Outcome State Fault Refusal :=
  event s (match s.course? core slot with
    | some c => match c.trapWait with
      | some t => if s.outstanding c.stamp then none else some (s.enterHandler core slot t.entry t.trap)
      | none => none
    | none => none)

/-- A team of a core is killed (R235), or, as the supervisor or the host kills it, its grid with all below it (R229, R234). -/
def execTeamKill (core : Nat) (what : Kill) (s : State) : Host.Outcome State Fault Refusal :=
  event s (match what with
    | .one team => if (lookup? s.teams team).isSome ∧ (s.team team).core = core then some (s.killTeam team) else none
    | .gridOf team =>
      if (lookup? s.teams team).isSome ∧ (s.team team).core = core then some (s.killGrid (s.team team).grid) else none)

end Sys2Proof.Machine
end

