-- ==== Sys2Proof/Machine/Checks.lean ====
section
/-! DEFINITION. The checks of an access (R130, R131, R136), the extensions of memory instructions (R76, R133, R137, R143),
and the order in which operations in flight are performed (R133, R270, R273). -/

namespace Sys2Proof.Machine

/-! ### Fields of IMM32 -/

def scopeOf (imm : W32) : Nat := imm.toNat % 8
def semOf (imm : W32) : Nat := imm.toNat / 8 % 4
def policyOf (imm : W32) : Nat := imm.toNat / 32 % 4
/-- The elements of a vector access (R137). -/
def countOf (imm : W32) : Nat := 2 ^ (imm.toNat / 128 % 4)

/-! ### Addresses -/

/-- The address of a lane. -/
structure Probe where
  lane : Nat
  va   : W64
  deriving DecidableEq, Repr

/-- The lanes that access memory: the lowest for the uniform pipe (R86, R138). -/
def Frag.probes (s : State) (f : Frag) (w : Fields) (t : Ty) : List Probe :=
  (f.lanes w).map (fun L => { lane := L, va := s.src f w t L w.a })

/-- The first access of a list to which a check applies. -/
def firstBad {α : Type} (xs : List α) (bad : α → Bool) (trap : α → Trap) : Except Stop Unit :=
  match xs.find? bad with
  | some x => .error (.trap (trap x))
  | none => .ok ()

/-- What an access asks: its bytes, what its page grants, the scope that must hold its home, and whether it may name a
peer window (R354). -/
structure Ask where
  size  : Nat
  read  : Bool
  write : Bool
  scope : Option Nat := none
  peers : Bool := true

def Ask.site (q : Ask) (p : Probe) (cow : Bool := false) : FaultAt := { va := p.va.toNat, lane := p.lane, write := q.write, cow }

def Walk.found : Walk → Bool
  | .page _ => true
  | _ => false

def Walk.get : Walk → Page
  | .page p => p
  | _ => { pa := 0, bits := 12, read := false, write := false, exec := false, cow := false, dedup := false }

def Page.grants (p : Page) (q : Ask) : Bool := (!q.read || p.read) && (!q.write || p.write)

/-- Checks 3 to 5 of R131 over pages that are found for the lanes. -/
def State.checkPages (s : State) (q : Ask) (xs : List (Probe × Walk)) : Except Stop Unit := do
  firstBad xs (fun x => !x.2.found)
    (fun x => { cause := .pageFault, site := some (q.site x.1), walkPoison := x.2 == .poisoned })
  firstBad xs (fun x => !x.2.get.grants q)
    (fun x => { cause := .permission, site := some (q.site x.1 x.2.get.cow) })
  firstBad xs (fun x =>
      match homeOf x.2.get.pa with
      | .peer l => !q.peers || !s.linkUp l || (match q.scope with | some c => !(Home.peer l).inScope c | none => false)
      | h => match q.scope with | some c => !h.inScope c | none => false)
    (fun x => { cause := .scopeUnreachable, site := some (q.site x.1) })

/-- The checks of R131 for global addresses, one check after another over all lanes; the page of each lane. -/
def State.checkGlobal (s : State) (core asid : Nat) (q : Ask) (ps : List Probe) : Except Stop (List Page) := do
  firstBad ps (fun p => p.va >>> 57 != 0) (fun _ => { cause := .illegalOperand })
  firstBad ps (fun p => p.va.toNat % q.size != 0) (fun p => { cause := .misaligned, site := some (q.site p) })
  let xs := ps.map (fun p => (p, s.translate core asid p.va.toNat))
  s.checkPages q xs
  .ok (xs.map (fun x => x.2.get))

/-- The checks of R131 for offsets in an area of `limit` bytes. -/
def checkOffsets (q : Ask) (limit : Nat) (ps : List Probe) : Except Stop Unit := do
  firstBad ps (fun p => p.va.toNat % q.size != 0) (fun p => { cause := .misaligned, site := some (q.site p) })
  firstBad ps (fun p => limit < p.va.toNat + q.size) (fun p => { cause := .permission, site := some (q.site p) })

/-- Whether accesses of a deterministic grid name a shared-deterministic region (R136). -/
def State.inRegion (s : State) (f : Frag) (size : Nat) (ps : List Probe) : Bool :=
  f.c.det && ps.any (fun p => (s.grid f.c.grid).regions.any (fun r => p.va.toNat < r.1 + r.2 && r.1 < p.va.toNat + size))

/-- Whether such accesses are held until the course has the commit token (R136). -/
def State.tokenHeld (s : State) (f : Frag) (size : Nat) (ps : List Probe) : Bool := !f.token && s.inRegion f size ps

/-- The file that a destination names, and its first register (R205). -/
def destOf (w : Fields) : File × Nat :=
  match w.d with
  | .v n => (if w.hints.sym then .y else .v, n.val)
  | .s n => (.s, n.val)
  | _ => (.v, 0)

/-- `n` registers from an operand exist: to v127, to s63, and to v111 under SYM (R138, R139, R205). -/
def fits (w : Fields) (o : Operand) (dest : Bool) (n : Nat) : Bool :=
  match o with
  | .v k => k.val + n ≤ (if dest && w.hints.sym then 112 else 128)
  | .s k => k.val + n ≤ 64
  | _ => true

/-! ### Order of performance -/

def Access.overlaps (x y : Access) : Bool := x.pa < y.pa + y.size && y.pa < x.pa + x.size

def Space.meets (a b : Space) : Bool := (a == .scratch) == (b == .scratch)

def OpKind.isStore : OpKind → Bool
  | .store .. => true
  | _ => false

/-- An acquire whose read has not been performed. -/
def State.acquiring (s : State) (p : Op) : Bool :=
  match p.kind with
  | .load _ _ _ ord _ => ord.acquire && !p.kind.parts.2.isEmpty
  | .rmw _ _ _ _ _ _ ord accs _ => ord.acquire && !accs.isEmpty
  | .pool pop => pop && s.poolOpen p.id
  | _ => false

def OpKind.order : OpKind → Order
  | .load _ _ _ ord _ => ord
  | .store _ ord _ _ => ord
  | .rmw _ _ _ _ _ _ ord _ _ => ord
  | .reply _ _ ord _ => ord
  | _ => {}

/-- Whether what an operation has still to perform meets some accesses: its own accesses, or the descriptors of its lanes'
pool operations. -/
def State.touches (s : State) (o : Op) (sp : Space) (xs : List Access) : Bool :=
  match o.kind with
  | .pool _ => sp != .scratch && s.pool.any (fun q => q.op == o.id && q.stage != 6 &&
      xs.any (fun x => x.pa < q.pa + 64 && q.pa < x.pa + x.size))
  | k => k.parts.1.meets sp && k.parts.2.any (fun x => xs.any x.overlaps)

/-- Whether another operation `p` lets the accesses `xs` of operation `o` be performed. Of the same course, an earlier one's
accesses to the same bytes keep their order, a load reading its course's own pending stores (R133, R243); an acquire holds
back what follows it; a release waits for what precedes it (R139, R272); stores of the scratchpad keep their order (R281). What
the core's store path holds of other courses comes first where it meets the same bytes, and before a release beyond .h0. -/
def State.lets (s : State) (p o : Op) (sp : Space) (xs : List Access) (reads : Bool) : Bool :=
  p.done ||
  (if p.stamp = o.stamp then
    o.id ≤ p.id ||
    (!s.acquiring p &&
     !(s.touches p sp xs && !(reads && p.kind.isStore)) &&
     !(o.kind.order.release && !s.performed p o.kind.order.scope) &&
     !(sp == .scratch && !reads && p.kind.isStore && p.kind.parts.1 == .scratch))
  else if p.core = o.core && p.inCore then
    !(s.touches p sp xs && !reads && !(o.inCore && o.seq < p.seq)) && !(o.kind.order.release && o.kind.order.scope != 0)
  else true)

/-- The operations issued before one. -/
def State.before (s : State) (o : Op) : List Op := s.ops.filter (fun p => p.id < o.id)

/-- A promoted acquire, which waits until other cores' store paths have reached the authorities (R138, R273). -/
def State.promotable (s : State) (core : Nat) (ord : Order) : Bool :=
  !ord.promoted || !s.ops.any (fun p => p.core != core && p.inCore && !p.done)

/-- Whether an access leaves for a neighbour over a link (R354). -/
def Access.abroad (x : Access) : Bool :=
  match homeOf x.pa with
  | .peer _ => true
  | _ => false

/-- Accesses of global memory as they leave their core: whether the aperture of a neighbour refuses one is a free value (R355;
DESIGN CHOICE, log 6). -/
def State.sendOut (s : State) (xs : List Access) : State × List Access :=
  if xs.any Access.abroad then
    ({ s with free := s.free + xs.length }, xs.zipIdx.map (fun p =>
      if p.1.abroad then { p.1 with lost := Config.peerRefuses (s.free + p.2) } else p.1))
  else (s, xs)

/-- Whether accesses of an operation may be performed now. -/
def State.mayPerform (s : State) (o : Op) (xs : List Access) (reads : Bool) : Bool :=
  s.ops.all (fun p => s.lets p o o.kind.parts.1 xs reads) && s.promotable o.core o.kind.order &&
    (o.kind.parts.1 == .scratch || xs.all (fun x => s.recallFree (lineOf x.pa)))

end Sys2Proof.Machine
end

