-- ==== Sys2Proof/Machine/Memory.lean ====
section
/-! DEFINITION. Loads, stores, atomics and fences, 0x0E0 to 0x0E7 and 0x120 to 0x122 (R130 to R146), and the events that
perform them (R134, R242, R270). -/

namespace Sys2Proof.Machine

/-! ### Issue -/

/-- SEM 2 of a load, with its scope (R138). -/
def loadOrder (w : Fields) : Order :=
  { acquire := semOf w.imm == 2, scope := scopeOf w.imm, promoted := w.modx, policy := policyOf w.imm,
    class3 := semOf w.imm != 0 }

/-- SEM 2 of a store, with its scope (R139). -/
def storeOrder (w : Fields) : Order :=
  { release := semOf w.imm == 2, scope := scopeOf w.imm, policy := policyOf w.imm, class3 := semOf w.imm != 0 }

/-- The scope that R131 checks: none for a weak access. -/
def semScope (w : Fields) : Option Nat := if semOf w.imm = 0 then none else some (scopeOf w.imm)

/-- The registers that one element takes. -/
def regsPer (t : Ty) : Nat := if tyWide t then 2 else 1

/-- The element accesses of a lane, `n` elements from a virtual and a physical address. -/
def elements (t : Ty) (n : Nat) (reg : Nat) (who : Mask) (val : Nat → W64) (lane va pa : Nat) : List Access :=
  (List.range n).map (fun i =>
    { lane, va := va + i * tyBytes t, pa := pa + i * tyBytes t, size := tyBytes t, val := val i,
      reg := reg + i * regsPer t, who })

/-- Element `i` of a value operand in a lane: the register or pair i elements on. -/
def State.element (s : State) (f : Frag) (w : Fields) (L : Nat) (o : Operand) (i : Nat) : W64 :=
  let k := i * regsPer w.ty
  match o with
  | .v n => f.c.readVal (n.val + k) L (tyWide w.ty)
  | .s n => f.c.readSVal (n.val + k) (tyWide w.ty)
  | o => s.src f w w.ty L o

/-- LD and LDU (R138). -/
def loadGlobal (w : Fields) (s : State) : Host.Outcome State Fault Refusal :=
  issueWord w s (fun f s => do
    let n := countOf w.imm
    require (fits w w.d true (n * regsPer w.ty)) .illegalOperand
    let ps := f.probes s w .n64
    let pages ← s.checkGlobal f.core f.asid { size := n * tyBytes w.ty, read := true, write := false, scope := semScope w } ps
    let (file, reg) := destOf w
    let accs := (ps.zip pages).flatMap (fun x =>
      elements w.ty n reg (f.flagLanes w x.1.lane) (fun _ => 0) x.1.lane x.1.va.toNat x.2.pa)
    let (s, accs) := s.sendOut accs
    .ok { s, kind := .load .global file w.ty (loadOrder w) accs, loads := true })

def execLd (w : Fields) (s : State) := loadGlobal w s
def execLdu (w : Fields) (s : State) := loadGlobal w s

/-- ST (R139). -/
def execSt (w : Fields) (s : State) :=
  issueWord w s (fun f s => do
    let n := countOf w.imm
    require (fits w w.b false (n * regsPer w.ty)) .illegalOperand
    let ps := f.probes s w .n64
    if s.tokenHeld f (n * tyBytes w.ty) ps then .error .hold
    else
      let pages ← s.checkGlobal f.core f.asid { size := n * tyBytes w.ty, read := false, write := true, scope := semScope w } ps
      let accs := (ps.zip pages).flatMap (fun x =>
        elements w.ty n 0 (laneBit x.1.lane) (s.element f w x.1.lane w.b) x.1.lane x.1.va.toNat x.2.pa)
      let (s, accs) := s.sendOut accs
      .ok { s, kind := .store .global (storeOrder w) accs (wholeLines accs), shared := s.inRegion f (n * tyBytes w.ty) ps })

/-- The team of the issuing fragment. -/
def State.teamOf (s : State) (f : Frag) : Team := s.team f.c.team

/-- LDS (R140). -/
def execLds (w : Fields) (s : State) :=
  issueWord w s (fun f s => do
    let n := countOf w.imm
    require (fits w w.d true (n * regsPer w.ty)) .illegalOperand
    let ps := f.probes s w .n32
    let t := s.teamOf f
    checkOffsets { size := n * tyBytes w.ty, read := true, write := false } t.size ps
    let (file, reg) := destOf w
    let accs := ps.flatMap (fun p =>
      elements w.ty n reg (laneBit p.lane) (fun _ => 0) p.lane p.va.toNat (t.base + p.va.toNat))
    .ok { s, kind := .load .scratch file w.ty { acquire := semOf w.imm == 2 } accs, loads := true })

/-- STS (R140). -/
def execSts (w : Fields) (s : State) :=
  issueWord w s (fun f s => do
    let n := countOf w.imm
    require (fits w w.b false (n * regsPer w.ty)) .illegalOperand
    let ps := f.probes s w .n32
    let t := s.teamOf f
    checkOffsets { size := n * tyBytes w.ty, read := false, write := true } t.size ps
    let accs := ps.flatMap (fun p =>
      elements w.ty n 0 (laneBit p.lane) (s.element f w p.lane w.b) p.lane p.va.toNat (t.base + p.va.toNat))
    .ok { s, kind := .store .scratch { release := semOf w.imm == 2 } accs [] })

/-- The global address of byte `o` of a lane's private area (R240). -/
def Course.privateVa (c : Course) (L o : Nat) : Nat := c.cbase + (o / 4 * 32 + L) * 4 + o % 4

/-- Private accesses by words: an element of 8 bytes is two words, as the areas interleave (R240). -/
def wordTy (t : Ty) : Ty := if tyWide t then .b32 else t
def wordCount (t : Ty) (n : Nat) : Nat := n * regsPer t

/-- The words of private accesses with their global addresses. -/
def privateProbes (f : Frag) (t : Ty) (n : Nat) (ps : List Probe) : List (Probe × Nat) :=
  ps.flatMap (fun p => (List.range (wordCount t n)).map (fun i =>
    ({ lane := p.lane, va := BitVec.ofNat 64 (f.c.privateVa p.lane (p.va.toNat + i * tyBytes (wordTy t))) }, i)))

/-- The accesses of LDP or STP: the checks of R131, then each word at its own place. -/
def State.privateAccesses (s : State) (f : Frag) (w : Fields) (q : Ask) (n reg : Nat) (val : Nat → Nat → W64) :
    Except Stop (List Access) := do
  let ps := f.probes s w .n32
  checkOffsets q f.c.psize ps
  let xs := (privateProbes f w.ty n ps).map (fun x => (x, s.translate f.core f.asid x.1.va.toNat))
  s.checkPages q (xs.map (fun x => (x.1.1, x.2)))
  .ok (xs.map (fun x =>
    { lane := x.1.1.lane, va := x.1.1.va.toNat, pa := x.2.get.pa, size := tyBytes (wordTy w.ty),
      val := val x.1.1.lane x.1.2, reg := reg + x.1.2, who := laneBit x.1.1.lane }))

/-- Word `i` of a value operand. -/
def State.valueWord (s : State) (f : Frag) (w : Fields) (L i : Nat) : W64 :=
  if tyWide w.ty then
    let x := s.element f w L w.b (i / 2)
    if i % 2 = 0 then (low32 x).setWidth 64 else (high32 x).setWidth 64
  else s.element f w L w.b i

/-- LDP (R141). -/
def execLdp (w : Fields) (s : State) :=
  issueWord w s (fun f s => do
    let n := countOf w.imm
    require (fits w w.d true (n * regsPer w.ty)) .illegalOperand
    let (file, reg) := destOf w
    let accs ← s.privateAccesses f w { size := n * tyBytes w.ty, read := true, write := false } n reg (fun _ _ => 0)
    let (s, accs) := s.sendOut accs
    .ok { s, kind := .load .priv file (wordTy w.ty) {} accs, loads := true })

/-- STP (R141). -/
def execStp (w : Fields) (s : State) :=
  issueWord w s (fun f s => do
    let n := countOf w.imm
    require (fits w w.b false (n * regsPer w.ty)) .illegalOperand
    let accs ← s.privateAccesses f w { size := n * tyBytes w.ty, read := false, write := true } n 0 (s.valueWord f w)
    let (s, accs) := s.sendOut accs
    .ok { s, kind := .store .priv {} accs [] })

/-! ### Fills and misses (R241, R242, R247) -/

/-- Whether a core's L1 holds a line under a live lease (R242). -/
def State.l1Hit (s : State) (core line : Nat) : Bool := s.clock < get 0 (s.core core).l1 line

/-- Whether a read of a line by a core is answered without a fetch: the device does not cache it, or L1 or the core's authority
holds it (R241, R247). -/
def State.present (s : State) (core line : Nat) : Bool :=
  !s.cached (line * 128) || s.l1Hit core line || s.authorityHolds core line

/-- The die whose slice answers a core's reads of a line (R241, R347). -/
def authorityDie (core line : Nat) : Nat := if (homeOf (line * 128)).package then dieOf core else homeDie (line * 128)

/-- A read of a line by a core reaches its authority, none on a hit in L1: L2 holds it, the die gains its copy, and L1 takes it under
the lease that is asked unless a write waits (R241, R242, R350). -/
def State.fill (s : State) (core line policy : Nat) (lease : Option Nat) : State :=
  if !s.cached (line * 128) || s.l1Hit core line then s
  else
    let s := s.l2Use line policy
    let s := if (homeOf (line * 128)).package then s.readCopy (dieOf core) line else s
    match lease with
    | some len => if s.writeWaits line then s else s.grantLease core line len
    | none => s

/-- A read of a line misses in a die's slice, which opens a combining entry and fetches the line; at its home the fetch goes to DRAM
(R247, R371). -/
def State.openMiss (s : State) (die line : Nat) (ops : List Nat) (fills : List (Nat × Option Nat)) : State :=
  let t := { s with combines := s.combines ++ [{ die, line, since := s.clock, ops, fills }] }
  if homeDie (line * 128) = die then t.countMiss line else t

/-- The open combining entry of a line in a die's slice. -/
def State.combineAt (s : State) (die line : Nat) : Option Combine := s.combines.find? (fun c => c.die == die && c.line == line)

/-- A prefetch of a line for a core, which asks a lease for L1 or none: a fill where the line is present, else it joins the line's
fetch or opens one. -/
def State.prefetch (s : State) (core line : Nat) (lease : Option Nat) : State :=
  let die := authorityDie core line
  if s.present core line then s.fill core line 0 lease
  else match s.combineAt die line with
    | some c => { s with combines := s.combines.map (fun (x : Combine) => if x = c then { x with fills := x.fills ++ [(core, lease)] } else x) }
    | none => s.openMiss die line [] [(core, lease)]

/-- The lines that PREF names: dropped where a lane's page is absent or not readable or its line is poisoned (R142). -/
def State.prefLines (s : State) (f : Frag) (w : Fields) : List Nat :=
  (f.probes s w .n64).filterMap (fun (p : Probe) =>
    if p.va >>> 57 != 0 then none
    else match s.translate f.core f.asid p.va.toNat with
      | .page q =>
        if q.read && !s.poisoned q.pa && s.cached q.pa then some (lineOf q.pa) else none
      | _ => none)

/-- PREF (R142): L2 takes the line, and L1 under a lease for LEVEL 0. -/
def execPref (w : Fields) (s : State) :=
  issueWord w s (fun f s =>
    let len := (s.ctx f.asid).lease.toNat
    .ok { s := (s.prefLines f w).foldl (fun (s : State) l =>
            (s.sendClass f.core .prefetch).prefetch f.core l (if w.imm.toNat % 4 = 0 then some len else none)) s })

/-- The order of an atomic or RED (R143, R145). -/
def atomOrder (w : Fields) : Order :=
  let sem := semOf w.imm
  { acquire := sem % 2 == 1, release := 2 ≤ sem, scope := scopeOf w.imm, promoted := w.modx }

/-- ATOM and RED (R144). -/
def atomic (w : Fields) (s : State) (ret : Bool) : Host.Outcome State Fault Refusal :=
  issueWord w s (fun f s => do
    let size := tyBytes w.ty
    let op := w.imm.toNat / 32 % 16
    let (file, reg) := destOf w
    let spad := w.imm.getLsbD 9
    let ps := f.probes s w (if spad then .n32 else .n64)
    let acc (p : Probe) (pa : Nat) : Access :=
      { lane := p.lane, va := p.va.toNat, pa, size, val := s.b f w p.lane, cmp := f.old w w.ty p.lane, reg,
        who := laneBit p.lane }
    if spad then
      let t := s.teamOf f
      checkOffsets { size, read := true, write := true } t.size ps
      .ok { s, kind := .rmw .scratch file op w.ty w.round ret (atomOrder w)
              (ps.map (fun p => acc p (t.base + p.va.toNat))) [], loads := ret }
    else if s.tokenHeld f size ps then .error .hold
    else
      let pages ← s.checkGlobal f.core f.asid { size, read := true, write := true, scope := some (scopeOf w.imm) } ps
      let (t, accs) := s.sendOut ((ps.zip pages).map (fun x => acc x.1 x.2.pa))
      .ok { s := t, kind := .rmw .global file op w.ty w.round ret (atomOrder w) accs [], loads := ret,
            shared := s.inRegion f size ps })

def execAtom (w : Fields) (s : State) := atomic w s true
def execRed (w : Fields) (s : State) := atomic w s false

/-- FENCE (R146): held until what it orders has completed; a promoted one also until the other cores' store paths have
reached the authorities. -/
def execFence (w : Fields) (s : State) :=
  issueWord w s (fun f s =>
    let kind := semOf w.imm
    let mine (o : Op) : Bool := o.stamp == f.c.stamp && !o.done
    let read (o : Op) : Bool := match o.kind with
      | .load .. | .rmw .. | .reply .. | .zload .. => true
      | _ => false
    let path (o : Op) : Bool := o.core == f.core && o.inCore && !o.done
    let held := s.ops.any (fun o => mine o && (if kind = 1 then read o else read o || o.kind.memory || s.poolOpen o.id)) ||
      (kind != 1 && scopeOf w.imm != 0 && s.ops.any path) || !s.promotable f.core { promoted := w.modx }
    if held then .error .hold else .ok { s })

/-! ### Performance -/

/-- The bytes of private memory as a core's L1 holds them, over those of memory (R240). -/
def State.privBytes (s : State) (core pa n : Nat) : List Byte :=
  match (s.core core).privs.find? (fun x => x.line == lineOf pa) with
  | some x => (s.readBytes pa n).zipIdx.map (fun b => (lookup? x.bytes (pa + b.2)).getD b.1)
  | none => s.readBytes pa n

/-- The bytes of an access as its space holds them, zeros from a poisoned line (R132). -/
def State.bytesAt (s : State) (core : Nat) (sp : Space) (x : Access) : List Byte :=
  if sp = .scratch then (s.core core).readScratch x.pa x.size
  else if sp = .priv && (s.core core).privs.any (fun p => p.line == lineOf x.pa) then s.privBytes core x.pa x.size
  else if s.poisoned x.pa then List.replicate x.size 0
  else s.readBytes x.pa x.size

/-- The bytes of an access with those of a store's access laid over them. -/
def overlay (x : Access) (bs : List Byte) (y : Access) : List Byte :=
  if x.overlaps y then
    bs.zipIdx.map (fun p =>
      if y.pa ≤ x.pa + p.2 ∧ x.pa + p.2 < y.pa + y.size then
        BitVec.ofNat 8 (y.val.toNat >>> (8 * (x.pa + p.2 - y.pa))) else p.1)
  else bs

/-- An operation placed by its place in the store path of its core. -/
def insertSeq (p : Op) : List Op → List Op
  | [] => [p]
  | q :: qs => if p.seq < q.seq then p :: q :: qs else q :: insertSeq p qs

/-- The stores that a load of an operation sees before they are performed: those in its core's store path in their order there,
then its course's own earlier ones that are still before it (R243, R270). -/
def State.forwarding (s : State) (o : Op) (sp : Space) : List Op :=
  let xs := s.ops.filter (fun p => p.kind.isStore && !p.done && p.kind.parts.1.meets sp)
  (xs.filter (fun p => p.core == o.core && p.inCore && (p.stamp != o.stamp || p.id < o.id))).foldl (fun ps p => insertSeq p ps) [] ++
    xs.filter (fun p => p.stamp == o.stamp && p.id < o.id && !p.inCore)

def State.forwarded (s : State) (o : Op) (sp : Space) : List Access :=
  (s.forwarding o sp).flatMap (fun p => p.kind.parts.2)

/-- Whether an access meets poison: a poisoned line, or a refused access (R132, R355, R368). -/
def State.meetsPoison (s : State) (sp : Space) (x : Access) : Bool := sp != .scratch && (s.poisoned x.pa || x.lost)

/-- Whether a core's L1 holds a dirty private line (R240). -/
def State.holdsPriv (s : State) (core pa : Nat) : Bool := (s.core core).privs.any (fun x => x.line == lineOf pa)

/-- Whether a core's L1 holds every byte that an access reads in a dirty private line (R240). -/
def State.privCovers (s : State) (core : Nat) (x : Access) : Bool :=
  (s.core core).privs.any (fun p => p.line == lineOf x.pa && (List.range x.size).all (fun k => (lookup? p.bytes (x.pa + k)).isSome))

/-- Whether a load's access meets poison: a store that it sees and that covers the whole line comes first, and so do bytes that L1
holds (R240, R368). -/
def State.loadPoison (s : State) (o : Op) (sp : Space) (x : Access) : Bool :=
  s.meetsPoison sp x && !(sp == .priv && s.privCovers o.core x) &&
    !(s.forwarding o sp).any (fun p => match p.kind with
      | .store _ _ _ whole => whole.contains (lineOf x.pa)
      | _ => false)

/-- POISONED in the access's lanes and one more in %poison_count (R132, R368). -/
def State.flagPoison (s : State) (o : Op) (who : Mask) : State :=
  (s.poisonRead o.asid 1).mapCourseOf o.core o.slot o.stamp (fun c => c.raiseIn who Flags.poisoned)

/-- What a load's access returns, raw. -/
def State.loadValue (s : State) (o : Op) (sp : Space) (x : Access) : W64 :=
  if s.loadPoison o sp x then 0
  else BitVec.ofNat 64 (leNat ((s.forwarded o sp).foldl (overlay x) (s.bytesAt o.core sp x)))

/-- A STRICT course's load that met poison traps precisely: its operation is gone, its destination not written, and its
fragment stands at the load again (R132). -/
def State.strictPoison (s : State) (o : Op) (va lane : Nat) (write : Bool) : State :=
  let s := s.mapCourseOf o.core o.slot o.stamp (fun c =>
    { c with entries := adjust c.entries o.entry (fun e => { e with pc := addPc e.pc (-12) }) })
  let s := s.complete o.id
  match s.courseOf o.core o.slot o.stamp with
  | some _ => s.takeTrap o.core o.slot o.entry { cause := .poison, site := some { va, lane, write } }
  | none => s

/-- A load's access is performed: its value and whether it met poison stay with it until they reach the register (R134). -/
def State.readAccess (s : State) (o : Op) (sp : Space) (x : Access) : Access :=
  if x.got then x else { x with val := s.loadValue o sp x, bad := s.loadPoison o sp x, got := true }

/-- The accesses of a load with those performed that may be now: of an acquire, in lane order, none after one that may not (R271,
R276). -/
def readSome (inOrder : Bool) (may : Access → Bool) (read : Access → Access) : List Access → List Access
  | [] => []
  | x :: xs =>
    if x.got || may x then read x :: readSome inOrder may read xs
    else if inOrder then x :: xs else x :: readSome inOrder may read xs

/-- The lines that a load's accesses have still to read: of an acquire, that of the first one (R276). -/
def Op.missing (o : Op) : List Nat :=
  match o.kind with
  | .load .global _ _ ord xs =>
    let ls := ((xs.filter (fun x => !x.got)).map (fun x => lineOf x.pa)).eraseDups
    if ord.acquire then ls.take 1 else ls
  | _ => []

/-- The accesses of a load, or of a WAITADDR, after a read. -/
def State.putReads (s : State) (id : Nat) (xs : List Access) : State :=
  { s.mapOp id (fun p => match p.kind with
      | .load sp file ty ord _ => { p with kind := .load sp file ty ord xs }
      | _ => p) with
    watches := s.watches.map (fun (x : Watch) => if x.id = id then { x with lanes := xs } else x) }

/-- The reads of a load that may be performed are, with the fills of their lines. -/
def State.readWhere (s : State) (o : Op) (may : Access → Bool) : State :=
  match o.kind with
  | .load sp _ _ ord xs =>
    let xs' := readSome ord.acquire may (s.readAccess o sp) xs
    let lines := if sp = .global then
        (((xs.zip xs').filter (fun p => !p.1.got && p.2.got)).map (fun p => lineOf p.1.pa)).eraseDups else []
    let lease := if ord.policy = 2 then none else some (s.ctx o.asid).lease.toNat
    (lines.foldl (fun (s : State) l => s.fill o.core l ord.policy lease) s).putReads o.id xs'
  | _ => s

/-- The reads of a load are performed on the lines that `on` admits. -/
def State.readOn (s : State) (o : Op) (on : Nat → Bool) : State :=
  s.readWhere o (fun x => o.kind.parts.1 != .global || on (lineOf x.pa))

/-- Whether the operation waits in an open combining entry (R247). -/
def State.combining (s : State) (op : Nat) : Bool := s.combines.any (fun c => c.ops.contains op)

/-- Every element of a load delivered to its register, and POISONED where it met poison. -/
def State.deliverAll (s : State) (o : Op) (file : File) (ty : Ty) (xs : List Access) : State :=
  (xs.foldl (fun (s : State) x =>
    let s := s.mapCourseOf o.core o.slot o.stamp (fun c => c.deliver file x.reg x.lane (tyWide ty) (extend ty x.val))
    if x.bad then s.flagPoison o x.who else s) s).complete o.id

/-- A load whose reads are all performed returns its data (R132, R134, R138). -/
def State.returnLoad (s : State) (o : Op) (file : File) (ty : Ty) (xs : List Access) : State :=
  match (if o.strict then xs.find? (·.bad) else none) with
  | some x => s.strictPoison o x.va x.lane false
  | none => s.deliverAll o file ty xs

/-- An atomic's old values, or the items of a QPOP, return to their lanes (R144, R157). -/
def State.returnAtom (s : State) (o : Op) (file : File) (wide : Bool) (vals : List Reply) : State :=
  let bad := if o.strict then vals.find? (·.poisoned) else none
  match bad with
  | some r => s.strictPoison o r.va r.lane (r.who == 0)
  | none =>
    (vals.foldl (fun (s : State) r =>
      let s := s.mapCourseOf o.core o.slot o.stamp (fun c =>
        (c.deliver file r.reg r.lane wide r.val).raise r.lane r.flags)
      if r.poisoned then s.flagPoison o (if r.who = 0 then laneBit r.lane else r.who) else s) s).complete o.id

/-- Whether a read has been absorbed and waits for another's reply (R248). -/
def State.absorbed (s : State) (op : Nat) : Bool := s.absorbs.any (fun a => a.joined.contains op)

/-- Entries of absorb tables that the reply of a read of a line frees (R248). -/
def State.freeAbsorb (s : State) (op : Nat) (on : Nat → Bool) : State :=
  { s with absorbs := s.absorbs.filter (fun a => !(a.op == op && on a.line)) }

/-- An operation in flight by its stamp. -/
def State.opAt (s : State) (op : Nat) : Option Op :=
  match s.ops.find? (fun o => o.id == op) with
  | some o => if o.done then none else some o
  | none => none

/-- A load whose reads are all performed, or an atomic that is, returns its data; at a stopped core it waits (R341). -/
def State.deliverNow (s : State) (o : Op) : Option State :=
  if !s.runs o.core then none
  else match o.kind with
    | .load _ file ty _ xs => if xs.all (·.got) then some (s.returnLoad o file ty xs) else none
    | .reply file wide _ vals => some (s.returnAtom o file wide vals)
    | _ => none

/-- Whether the reads that a load has still to make may be performed now, each on a line that is present. -/
def State.mayRead (s : State) (o : Op) : Bool :=
  s.mayPerform o o.kind.parts.2 true && !s.combining o.id && !s.absorbed o.id && o.missing.all (s.present o.core)

/-- The new value of an atomic and its flags (R144): none when a cas makes no write. -/
def rmwValue (code : Nat) (ty : Ty) (rnd : Rnd) (old : W64) (x : Access) : Option W64 × Flags :=
  let f := fmtOf ty
  match code, tyFloat ty with
  | 0, true => let r := f.add rnd false (f.decode old) (f.decode x.val); (some r.1, r.2)
  | 0, false => (some (intBin ty false (· + ·) old x.val), Flags.none)
  | 1, true => let r := fminmax f true old x.val; (some r.1, r.2)
  | 1, false => (some (intBin ty false min old x.val), Flags.none)
  | 2, true => let r := fminmax f false old x.val; (some r.1, r.2)
  | 2, false => (some (intBin ty false max old x.val), Flags.none)
  | 3, _ => (some (old &&& x.val), Flags.none)
  | 4, _ => (some (old ||| x.val), Flags.none)
  | 5, _ => (some (old ^^^ x.val), Flags.none)
  | 6, _ => (some x.val, Flags.none)
  | _, _ => (if old = x.cmp then some x.val else none, Flags.none)

/-- Bytes written where the access's space holds them. -/
def State.putBytes (s : State) (core : Nat) (sp : Space) (pa : Nat) (bs : List Byte) (whole : List Nat) : State :=
  if sp = .scratch then s.spadWrite core pa bs else s.applyWrite pa bs whole

/-- A store of .h0, .h1 or .h3 to a line of another die is performed at its die's copy, one of a wider scope at the home (R270,
R350). -/
def State.stored (s : State) (o : Op) (x : Access) : State :=
  let ord := o.kind.order
  if ord.scope ≤ 2 ∧ (homeOf x.pa).package ∧ dieOf o.core ≠ homeDie x.pa then s.writeCopy (dieOf o.core) x.pa ord.policy
  else s.writtenWith x.pa ord.policy

/-- A dirty private line leaves L1 for its global address (R240). -/
def State.spillPriv (s : State) (core : Nat) (x : PrivLine) : State :=
  let s := (x.bytes.foldl (fun (s : State) b => s.applyWrite b.1 [b.2] []) s).written (x.line * 128)
  s.mapCore core (fun c => { c with privs := c.privs.filter (fun y => y.line != x.line) })

/-- Room in L1 for a private line: expired lines leave, then one that a free value names (DESIGN CHOICE, log 39). -/
def State.privRoom (s : State) (core : Nat) : State :=
  let c := s.core core
  let live := c.l1.filter (fun p => s.clock < p.2)
  if c.privs.length + live.length < c.l1Room then s.setCore core { c with l1 := live }
  else
    let n := Config.privVictim s.free % (c.privs.length + live.length)
    let s := { s with free := s.free + 1 }.setCore core { c with l1 := live }
    match c.privs[n]? with
    | some x => s.spillPriv core x
    | none => s.mapCore core (fun c => { c with l1 := live.eraseIdx (n - c.privs.length) })

/-- Bytes of private memory written in L1 (R240). -/
def State.privWrite (s : State) (o : Op) (pa : Nat) (bs : List Byte) : State :=
  let put (old : List (Nat × Byte)) : List (Nat × Byte) := bs.zipIdx.foldl (fun m b => assign m (pa + b.2) b.1) old
  if s.holdsPriv o.core pa then
    s.mapCore o.core (fun c => { c with privs := c.privs.map (fun (x : PrivLine) =>
      if x.line = lineOf pa then { x with bytes := put x.bytes } else x) })
  else (s.privRoom o.core).mapCore o.core (fun c =>
    { c with privs := c.privs ++ [{ line := lineOf pa, stamp := o.stamp, bytes := put [] }] })

/-- A store's access is dropped at poison: POISONED when the operation completes, and one more in %poison_count (R37, R368). -/
def State.dropStore (s : State) (o : Op) (x : Access) : State := (s.poisonRead o.asid 1).noteFlags o.id x.who Flags.poisoned

/-- One access of a store is performed. -/
def State.storeOne (s : State) (o : Op) (sp : Space) (whole : List Nat) (x : Access) : State :=
  let bs := leBytes x.size x.val.toNat
  match sp with
  | .scratch => s.spadWrite o.core x.pa bs
  | .priv =>
    if x.lost then s
    else if !s.holdsPriv o.core x.pa && s.poisoned x.pa then s.dropStore o x
    -- no L1 holds a line that the device does not cache (R346, R354)
    else if !s.cached x.pa then (s.applyWrite x.pa bs []).written x.pa
    else s.privWrite o x.pa bs
  | .global =>
    -- a neighbour that refuses a write drops it (R355)
    if x.lost then s
    else if s.poisoned x.pa && !whole.contains (lineOf x.pa) then s.dropStore o x
    else (s.applyWrite x.pa bs whole).stored o x

/-- The home recalls every copy of the line of an RMW, an M copy giving its data, and has the line in L2 (R270, R350). -/
def State.atHome (s : State) (pa : Nat) : State :=
  if s.cached pa then ((s.l2Read (lineOf pa) 0).takeCopy (lineOf pa)).dropCopies (lineOf pa) else s

/-- One read-modify-write is performed: the old value, and the state after it. -/
def State.rmwOne (s : State) (o : Op) (sp : Space) (code : Nat) (ty : Ty) (rnd : Rnd) (x : Access) : Reply × State :=
  if s.meetsPoison sp x then
    ({ lane := x.lane, reg := x.reg, va := x.va, val := 0, poisoned := true, flags := 0, lost := x.lost }, s)
  else
    let old := extend ty (BitVec.ofNat 64 (leNat (s.bytesAt o.core sp x)))
    let r := rmwValue code ty rnd old x
    let s := if sp = .global then s.atHome x.pa else s
    let s := match r.1 with
      | some v =>
        let s := s.putBytes o.core sp x.pa (leBytes x.size v.toNat) []
        if sp = .global then s.written x.pa else s
      | none => s
    ({ lane := x.lane, reg := x.reg, va := x.va, val := old, poisoned := false, flags := r.2 }, s)

/-- Read-modify-writes in ascending lane order (R133, R144). -/
def State.rmwAll (s : State) (o : Op) (sp : Space) (code : Nat) (ty : Ty) (rnd : Rnd) : List Access → List Reply × State
  | [] => ([], s)
  | x :: xs =>
    let r := s.rmwOne o sp code ty rnd x
    let q := r.2.rmwAll o sp code ty rnd xs
    (r.1 :: q.1, q.2)

/-- A RED has been performed whole: it raises the flags of its lanes when it completes, and POISONED where it was dropped at poison;
one that a neighbour refused raises nothing (R37, R144, R355, R368). -/
def State.redDone (s : State) (o : Op) (vals : List Reply) : State :=
  (vals.foldl (fun (s : State) r =>
    if r.lost then s
    else if r.poisoned then (s.poisonRead o.asid 1).noteFlags o.id (laneBit r.lane) Flags.poisoned
    else if r.flags = 0 then s else s.noteFlags o.id (laneBit r.lane) r.flags) s).complete o.id

/-- The accesses of a list on some lines, with those that stand before one of them, and the rest. -/
def closeGroup : (fuel : Nat) → List Nat → List Access → List Access × List Access
  | 0, _, xs => (xs, [])
  | n + 1, lines, xs =>
    let rest := xs.reverse.takeWhile (fun x => !lines.contains (lineOf x.pa))
    let first := xs.take (xs.length - rest.length)
    let more := ((first.map (fun x => lineOf x.pa)).eraseDups).filter (fun l => !lines.contains l)
    if more.isEmpty then (first, rest.reverse) else closeGroup n (lines ++ more) xs

/-- The accesses that are performed together: of a scratchpad or private operation `many`, those on the first line of a global one
(R369). The lanes of a release or an acquire keep their order (R271, R272), so that lines between which lanes alternate are
performed at one moment. -/
def together (sp : Space) (ord : Order) (many : Nat) (xs : List Access) : List Access × List Access :=
  match sp, xs with
  | .global, x :: _ =>
    if ord.release || ord.acquire then closeGroup 32 [lineOf x.pa] xs
    else xs.partition (fun y => lineOf y.pa == lineOf x.pa)
  | _, xs => (xs.take (max 1 many), xs.drop (max 1 many))

/-- The lines of a store that it covers whole, of those that accesses name. -/
def wholeOf (whole : List Nat) (xs : List Access) : List Nat := whole.filter (fun l => xs.any (fun x => lineOf x.pa == l))

/-- The operation's next accesses performed at their home, in their scratchpad bank or in L1 (R134, R144, R270). -/
def State.performNow (s : State) (o : Op) (many : Nat) : State :=
  match o.kind with
  | .store sp ord xs whole =>
    let p := together sp ord many xs
    let live := match sp with
      | .global => true
      | .scratch => (lookup? s.teams o.team).isSome
      | .priv => (s.courseOf o.core o.slot o.stamp).isSome
    let s := if live then p.1.foldl (fun (s : State) x => s.storeOne o sp whole x) s else s
    if p.2.isEmpty then s.complete o.id
    else s.mapOp o.id (fun q => { q with kind := .store sp ord p.2 (wholeOf whole p.2) })
  | .rmw sp file code ty rnd ret ord xs vals =>
    let p := together sp ord many xs
    let live := sp != .scratch || (lookup? s.teams o.team).isSome
    let r := if live then s.rmwAll o sp code ty rnd p.1 else ([], s)
    let vals := vals ++ r.1
    if p.2.isEmpty then
      if ret then r.2.mapOp o.id (fun q => { q with kind := .reply file (tyWide ty) ord vals })
      else r.2.redDone o vals
    else r.2.mapOp o.id (fun q => { q with kind := .rmw sp file code ty rnd ret ord p.2 vals })
  | _ => s

/-- The accesses that an operation performs next. -/
def Op.next (o : Op) (many : Nat) : List Access := (together o.kind.parts.1 o.kind.order many o.kind.parts.2).1

/-- The lines of the operation's next accesses, where leases may hold them. -/
def Op.nextLines (o : Op) : List Nat :=
  if o.kind.parts.1 = .global then (((o.next 128).filter (fun x => !x.abroad)).map (fun x => lineOf x.pa)).eraseDups else []

/-- A store, RED or atomic is performed, or begins to wait for the leases of its lines (R242); `atCore` performs a store of
the package in its core's store path only (R270). -/
def State.performStore (s : State) (o : Op) (how : Performing) : Option State :=
  let xs := o.next how.many
  let isWrite : Bool := match o.kind with
    | .store .. => true
    | .rmw _ _ _ _ _ _ _ (_ :: _) _ => true
    | _ => false
  let inside := o.kind.parts.1 != .global || o.inCore || how.atCore
  if !isWrite || (inside && !s.runs o.core) || s.leaseWait.any (fun x => x.1 == o.id) then none
  else if how.atCore then
    if o.kind.isStore && o.kind.parts.1 == .global && !o.inCore &&
      o.kind.parts.2.all (fun x => (homeOf x.pa).package) && (o.kind.order.scope == 0) &&
      s.ops.all (fun p => s.lets p o .global o.kind.parts.2 false)
    then some ({ s with stamp := s.stamp + 1 }.mapOp o.id (fun q => { q with inCore := true, seq := s.stamp }))
    else none
  else if !s.mayPerform o xs false then none
  else
    let busy := o.nextLines.filter (fun l => !s.leaseOver l)
    if busy.isEmpty then some (s.performNow o how.many) else some (s.awaitLease o.id o.nextLines)

end Sys2Proof.Machine
end

