-- ==== Sys2Proof/Machine/Barriers.lean ====
section
/-! DEFINITION. Barriers, 0x140 to 0x144 (R147 to R154). -/

namespace Sys2Proof.Machine

def Team.barrier (t : Team) (b : Nat) : Barrier := get {} t.barriers b

/-- The phase completes when no arrival and no byte is awaited (R154). A barrier with EXPECTED 0, which no BINIT has set up, completes
none: so an engine's bytes and arrival at one leave PHASE as it is (DESIGN CHOICE, log 104). -/
def Barrier.settle (b : Barrier) : Barrier :=
  if b.expected ≠ 0 ∧ b.pending = 0 ∧ b.bytes = 0 then
    { b with phase := !b.phase, pending := b.expected, phases := b.phases + 1 }
  else b

/-- An action on a barrier, with the phase-completion rule after it: every fragment held on the old phase is released
(R148, R154). -/
def Team.act (t : Team) (n : Nat) (g : Barrier → Barrier) : Team :=
  let b := (g (t.barrier n)).settle
  let t := { t with barriers := assign t.barriers n b }
  { t with bwaits := t.bwaits.map (fun w => if w.bar = n ∧ w.phase ≠ b.phase then { w with ended := true } else w) }

def State.actBarrier (s : State) (team n : Nat) (g : Barrier → Barrier) : State := s.mapTeam team (·.act n g)

/-- The barrier that a word names. -/
def barOf (w : Fields) : Nat := w.imm.toNat % 16

/-- BINIT (R149). -/
def execBinit (w : Fields) (s : State) :=
  issueWord w s (fun f s => do
    let a := (s.scalarA f w .n32).toNat
    let p := (s.scalarB f w .n32).toNat
    require (1 ≤ a && a ≤ 63 && p < 2 ^ 19) .illegalOperand
    let b := (s.teamOf f).barrier (barOf w)
    require (b.expected == 0 || (b.pending == b.expected && b.bytes == 0)) .barrierMisuse
    .ok { s := s.actBarrier f.c.team (barOf w) (fun b =>
            { b with expected := BitVec.ofNat 6 a, pending := BitVec.ofNat 6 a, bytes := 0, flags := 0,
                     progress := BitVec.ofNat 19 p }) })

/-- The arrival of a course or of the engine (R150, R154). -/
def Barrier.arrive (flags : BitVec 8) (b : Barrier) : Barrier :=
  { b with flags := b.flags ||| flags, pending := b.pending - 1 }

/-- Bits [7:0] of %status of every executing lane, as R150 gives them; R37 speaks of every active strand (DEDUCED, log 89). -/
def Frag.statusFlags (f : Frag) : BitVec 8 := (lanesOf f.exec).foldl (fun x L => x ||| f.c.readFlags L) 0

/-- BARRIVE (R150). -/
def execBarrive (w : Fields) (s : State) :=
  issueWord w s (fun f s => do
    let b := (s.teamOf f).barrier (barOf w)
    require (b.expected != 0 && b.pending != 0) .barrierMisuse
    if s.releasable f.core f.c.stamp 0 then
      let s := s.course f (f.same w false (if b.phase then 1 else 0))
      .ok { s := s.actBarrier f.c.team (barOf w) (·.arrive f.statusFlags) }
    else .error .hold)

/-- BWAIT (R151): a fragment held on a phase is released by that phase's completion. -/
def execBwait (w : Fields) (s : State) :=
  issueWord w s (fun f s => do
    let t := s.teamOf f
    let b := t.barrier (barOf w)
    require (b.expected != 0) .barrierMisuse
    let phase := (s.scalarA f w .n32).getLsbD 0
    let mine (x : BWait) : Bool := x.stamp == f.c.stamp && x.entry == f.entry && x.bar == barOf w
    let drop (s : State) : State := s.mapTeam f.c.team (fun t => { t with bwaits := t.bwaits.filter (fun x => !mine x) })
    match t.bwaits.find? mine with
    | some x => if x.ended || b.phase != phase then .ok { s := drop s } else .error .hold
    | none =>
      if b.phase != phase then .ok { s }
      else
        let x : BWait := { bar := barOf w, phase, stamp := f.c.stamp, entry := f.entry, ended := false }
        .error (.wait (s.mapTeam f.c.team (fun t => { t with bwaits := t.bwaits ++ [x] }))))

/-- BEXPECT (R152). -/
def execBexpect (w : Fields) (s : State) :=
  issueWord w s (fun f s => do
    let b := (s.teamOf f).barrier (barOf w)
    require (b.expected != 0) .barrierMisuse
    let a := (s.scalarA f w .n32).toNat
    require (b.bytes.toNat + a < 2 ^ 24) .barrierExpectOverflow
    .ok { s := s.actBarrier f.c.team (barOf w) (fun b => { b with bytes := b.bytes + BitVec.ofNat 24 a }) })

/-- BFLAGS (R153). -/
def execBflags (w : Fields) (s : State) :=
  issueWord w s (fun f s => do
    let b := (s.teamOf f).barrier (barOf w)
    require (b.expected != 0) .barrierMisuse
    let s := s.course f (f.same w false (b.flags.setWidth 64))
    .ok { s := if w.modx then s.actBarrier f.c.team (barOf w) (fun b => { b with flags := 0 }) else s })

/-! ### The engine at a barrier (R154) -/

/-- Bytes performed at their destination are counted down, stopping at 0. -/
def Barrier.countDown (n : Nat) (b : Barrier) : Barrier := { b with bytes := BitVec.ofNat 24 (b.bytes.toNat - n) }

/-- The engine's arrival. One on a barrier whose PENDING is 0 is in excess and changes nothing (DESIGN CHOICE, log 93). -/
def Barrier.engineArrive (b : Barrier) : Barrier := if b.pending = 0 then b else b.arrive 0

end Sys2Proof.Machine
end

