-- ==== Sys2Proof/Machine/Queues.lean ====
section
/-! DEFINITION. Local queues, 0x148 and 0x149 (R155 to R157). -/

namespace Sys2Proof.Machine

/-- A queue's record (R155). -/
structure QRec where
  base  : Nat
  cap   : Nat
  isz   : Nat
  head  : Nat
  tail  : Nat
  allow : Nat

def QRec.ofBits (r : BitVec 128) : QRec :=
  { base := field r 0 19, cap := field r 32 16, isz := field r 48 1, head := field r 64 16, tail := field r 80 16,
    allow := field r 96 16 }

/-- The items that the queue holds. -/
def QRec.count (q : QRec) : Nat := (q.tail + 65536 - q.head) % 65536

def QRec.bytes (q : QRec) : Nat := if q.isz = 1 then 8 else 4

/-- The offset of item `k` of the ring. -/
def QRec.at_ (q : QRec) (k : Nat) : Nat := q.base + q.bytes * (k % 65536 % q.cap)

def State.queue (s : State) (t : Team) (n : Nat) : QRec := .ofBits (BitVec.ofNat 128 (s.spadNat t.core (t.base + 16 * n) 16))

/-- HEAD, TAIL and ALLOW written back to the record. -/
def State.putQueue (s : State) (t : Team) (n head tail allow : Nat) : State :=
  s.spadWrite t.core (t.base + 16 * n + 8) (leBytes 2 head ++ leBytes 2 tail ++ leBytes 2 allow)

def queueOf (w : Fields) : Nat := w.imm.toNat % 16

/-- The checks of R156 with `n` executing lanes. -/
def queueOk (w : Fields) (t : Team) (q : QRec) (n : Nat) : Bool :=
  256 ≤ t.size && q.cap != 0 && (q.isz == 1) == tyWide w.ty && q.base % q.bytes == 0 && 256 ≤ q.base &&
    q.base + q.bytes * q.cap ≤ t.size && n ≤ q.cap

/-- Every earlier STS and scratchpad atomic of the course is performed (R140, R157). -/
def State.scratchSettled (s : State) (stamp : Nat) : Bool :=
  s.ops.all (fun o => o.stamp != stamp || o.done || o.kind.parts.1 != .scratch || o.kind.parts.2.isEmpty)

/-- Whether an operation may be served now: one that waits, when it waits first on its queue; a new one, when no other of its
kind waits, which it would overtake (R157). -/
def Team.qFirst (t : Team) (n : Nat) (push : Bool) (stamp entry : Nat) : Bool :=
  let line := t.qwaits.filter (fun x => x.queue == n)
  let mine (x : QWait) : Bool := x.stamp == stamp && x.entry == entry
  if line.any mine then (match line.head? with | some x => mine x | none => true) else line.all (fun x => x.push != push)

/-- QPUSH when it is served. -/
def State.pushLanes (s : State) (f : Frag) (w : Fields) (t : Team) (q : QRec) : List Nat → Nat → State
  | [], _ => s
  | L :: Ls, tail =>
    (s.spadWrite t.core (t.base + q.at_ tail) (leBytes q.bytes (s.a f w L).toNat)).pushLanes f w t q Ls (tail + 1)

/-- The items that a QPOP takes when it is served, on their way to D (R80). -/
def State.popLanes (s : State) (w : Fields) (t : Team) (q : QRec) : List Nat → Nat → List Reply
  | [], _ => []
  | L :: Ls, head =>
    { lane := L, reg := (destOf w).2, val := BitVec.ofNat 64 (s.spadNat t.core (t.base + q.at_ head) q.bytes), poisoned := false,
      flags := 0 } :: s.popLanes w t q Ls (head + 1)

/-- QPUSH and QPOP: a push waits until what its course has written is seen in its core (R272); then the checks, then held in the
order of waiting until they can be served. -/
def queueBody (w : Fields) (push : Bool) (f : Frag) (s : State) : Except Stop Effect := do
  if s.scratchSettled f.c.stamp = false || (push && !s.releasable f.core f.c.stamp 0) then .error .hold
  else
    let t := s.teamOf f
    let k := queueOf w
    let q := s.queue t k
    let n := laneCount f.exec
    require (queueOk w t q n) .queueMisuse
    let ready := t.qFirst k push f.c.stamp f.entry && (if push then n ≤ q.allow else n ≤ q.count)
    if !ready then
      if t.qwaits.any (fun x => x.stamp == f.c.stamp && x.entry == f.entry) then .error .hold
      else
        let x : QWait := { queue := k, push, slot := f.slot, stamp := f.c.stamp, entry := f.entry, word := w }
        .error (.wait (s.mapTeam f.c.team (fun t => { t with qwaits := t.qwaits ++ [x] })))
    else
      require (!push || q.count + n ≤ q.cap) .queueMisuse
      let s := s.mapTeam f.c.team (fun t =>
        { t with qwaits := t.qwaits.filter (fun x => !(x.stamp == f.c.stamp && x.entry == f.entry)) })
      let ls := lanesOf f.exec
      if push then
        let s := s.pushLanes f w t q ls q.tail
        .ok { s := s.putQueue t k q.head (q.tail + n) (q.allow - n) }
      else
        .ok { s := s.putQueue t k (q.head + n) q.tail (q.allow + n),
              kind := .qpop (destOf w).1 (tyWide w.ty) (s.popLanes w t q ls q.head), loads := true }

def execQpush (w : Fields) (s : State) := issueWord w s (queueBody w true)
def execQpop (w : Fields) (s : State) := issueWord w s (queueBody w false)

/-- A held instruction tried again where it is held: none while it stays held. -/
def State.retry (s : State) (core slot entry stamp : Nat) (w : Fields) (body : Frag → State → Except Stop Effect) :
    Option State :=
  let s := { s with issuer := { core, slot, entry } }
  match s.frag w with
  | none => none
  | some f =>
    if f.c.stamp ≠ stamp ∨ s.gated f w then none
    else match body f { s with stamp := s.stamp + 1 } with
      | .ok e => some (e.s.finish f w e)
      | .error (.trap t) => some (s.takeTrap core slot entry t)
      | _ => none

/-- A waiting operation is served: the first in the line of its queue, once it can be (R157). -/
def execQueueHeldOperationServed (core team q : Nat) (s : State) : Host.Outcome State Fault Refusal :=
  event s (match lookup? s.teams team with
    | none => none
    | some t => (t.qwaits.filter (fun x => x.queue == q)).findSome? (fun x =>
        if t.core = core ∧ s.mayIssue core then s.retry core x.slot x.entry x.stamp x.word (queueBody x.word x.push)
        else none))

end Sys2Proof.Machine
end

