-- ==== Sys2Proof/Machine/Pools.lean ====
section
/-! DEFINITION. Global pools, 0x14A and 0x14B, and their way through the switches to the descriptor's home (R158 to R162,
R265 to R267, R380). -/

namespace Sys2Proof.Machine

/-- The status predicate of GPUSH and GPOP. -/
def poolPred (w : Fields) : Nat := w.imm.toNat / 8 % 32

/-- The window that an operation carries (R265): the cached one under a live entry of a pool, outside deterministic
grids and peer windows (R355); and the cache with that entry used. -/
def State.windowOf (s : State) (f : Frag) (pa : Nat) : Nat :=
  match (s.core f.core).windows.find? (fun e => e.pa == pa && s.clock < e.expiry) with
  | some e => if e.mode || f.c.det then 0 else match homeOf pa with | .peer _ => 0 | _ => e.window
  | none => 0

def Core.useWindow (c : Core) (pa clock : Nat) : Core :=
  { c with windows := c.windows.map (fun e => if e.pa = pa then { e with lastUse := clock } else e) }

/-- GPUSH and GPOP: the checks, then one operation per lane on its way (R159). -/
def poolIssue (w : Fields) (push : Bool) (s : State) : Host.Outcome State Fault Refusal :=
  issueWord w s (fun f s => do
    let addr := w.a
    let ps := (lanesOf f.exec).map (fun L => ({ lane := L, va := s.src f w .n64 L addr } : Probe))
    if s.tokenHeld f 64 ps then .error .hold
    else
      let pages ← s.checkGlobal f.core f.asid { size := 64, read := true, write := true, scope := some (scopeOf w.imm) } ps
      let (file, reg) := destOf w
      let xs := (ps.zip pages).zipIdx
      let ops : List PoolOp := xs.map (fun x =>
        let pa := x.1.2.pa
        { id := s.stamp + x.2, op := f.op, core := f.core, slot := f.slot, stamp := f.c.stamp, asid := f.asid,
          grid := f.c.grid, gid := s.gridId f.c.grid, team := f.c.team, linear := (s.teamOf f).linear, lane := x.1.1.lane, push, va := x.1.1.va.toNat, pa,
          item := if push then s.src f w w.ty x.1.1.lane w.b else 0, wide := tyWide w.ty, file, reg, pred := poolPred w,
          window := s.windowOf f pa, marked := f.c.det, strict := f.c.strict && !push, entry := f.entry, stage := 0,
          until_ := 0, scope := scopeOf w.imm, ans := 0, ok := false, poisoned := false, info := none })
      let out := s.sendOut (ps.zip pages |>.map (fun x => { lane := x.1.lane, va := x.1.va.toNat, pa := x.2.pa, size := 64 }))
      let ops : List PoolOp := (ops.zip out.2).map (fun x => { x.1 with lost := x.2.lost })
      let s := { out.1 with pool := s.pool ++ ops, stamp := s.stamp + ops.length }
      let s := s.mapCore f.core (fun c => ops.foldl (fun (c : Core) p => c.useWindow p.pa s.clock) c)
      .ok { s, kind := .pool (!push), loads := !push, shared := s.inRegion f 64 ps })

def execGpush (w : Fields) (s : State) := poolIssue w true s
def execGpop (w : Fields) (s : State) := poolIssue w false s

/-! ### The switches (R266, R267) -/

def State.poolOp (s : State) (p : Nat) : Option PoolOp := s.pool.find? (fun q => q.id == p)

/-- A change to a pool operation in place. -/
def State.mapPool (s : State) (p : Nat) (g : PoolOp → PoolOp) : State :=
  { s with pool := s.pool.map (fun q => if q.id = p then g q else q) }

/-- A pool operation held at a switch stands behind those that the switch already holds. -/
def State.holdPool (s : State) (q : PoolOp) (stage end_ : Nat) : State :=
  { s with pool := s.pool.filter (fun x => x.id != q.id) ++ [{ q with stage, until_ := end_ }] }

/-- A pool operation may leave its core: the lanes go in ascending order (R159); no earlier acquire is still to read, and what
the course has under way on the descriptor's bytes is performed; a push, a release, has everything before it performed. Its
pairing synchronises with any core (R275), so that its core's store path does not suffice (R162, R272). -/
def State.poolMayGo (s : State) (q : PoolOp) : Bool :=
  !s.pool.any (fun x => x.op == q.op && x.core == q.core && x.stage == 0 && x.id < q.id) &&
  match s.ops.find? (fun o => o.id == q.op) with
  | none => true
  | some o =>
    let o' : Op := { o with kind := .store .global { release := q.push, scope := max 1 q.scope } [] [] }
    s.ops.all (fun p => s.lets p o' .global [{ lane := q.lane, va := q.va, pa := q.pa, size := 64 }] false)

/-- Operations at a switch of one table: the sector crossbar of a sector, or the central crossbar of a die. An operation whose
hold is over has fallen through (R266). -/
def heldAt (stage : Nat) (here : PoolOp → Bool) (s : State) : List PoolOp :=
  s.pool.filter (fun q => q.stage == stage && here q && s.clock < q.until_)

/-- The longest-held entry that pairs with an arrival, its hold not over. -/
def PoolOp.partner (q : PoolOp) (clock : Nat) (held : List PoolOp) : Option PoolOp :=
  if q.marked || (match homeOf q.pa with | .peer _ => true | _ => false) then none
  else held.find? (fun x => x.push != q.push && x.pa == q.pa && x.asid == q.asid && clock < x.until_)

/-- What stands for the core of an operation that came over a link. -/
def peerCore : Nat := 2048

/-- An answered operation of a neighbour leaves over its link (R355). -/
def State.replyToPeer (s : State) : State :=
  { s with pool := s.pool.filter (fun q => !(q.core == peerCore && q.stage == 6)) }

/-- The lanes of an instruction before an operation's have been linearised on its descriptor, so that its own moment keeps program
order (R271, R280). -/
def State.poolTurn (s : State) (q : PoolOp) : Bool :=
  !s.pool.any (fun x => x.op == q.op && x.core == q.core && x.pa == q.pa && x.id < q.id && x.stage != 6)

/-- Two operations paired in a switch: both answered, the pop with the push's item (R161, R267). -/
def State.pairPool (s : State) (unit : Nat) (q x : PoolOp) : State :=
  let item := if q.push then q.item else x.item
  let done (p : PoolOp) : PoolOp := { p with stage := 6, ok := true, ans := if p.push then 0 else item }
  (((s.mapPool q.id done).mapPool x.id done).replyToPeer).count 6 unit 1

/-- An arrival and the entry that it meets pair, each in the turn of its lane. -/
def State.meet (s : State) (unit : Nat) (q x : PoolOp) : Option State :=
  if s.poolTurn q && s.poolTurn x then some (s.pairPool unit q x) else none

/-- Where an operation goes that its die's central crossbar does not hold, or no longer. -/
def PoolOp.onward (q : PoolOp) : Nat :=
  match homeOf q.pa with
  | .peer _ => 5
  | _ => if homeDie q.pa = dieOf q.core then 5 else 4

/-- A pool operation reaches its next switch: it is paired, held, or passed on. -/
def State.poolArrive (s : State) (q : PoolOp) : Option State :=
  let first := (q.window + 1) / 2
  match q.stage with
  | 0 =>
    if !s.poolMayGo q || !s.runs q.core then none
    else
      let held := heldAt 1 (fun x => sectorOf x.core == sectorOf q.core) s
      match q.partner s.clock held with
      | some x => s.meet (dieOf q.core * 9 + sectorOf q.core % 8) q x
      | none =>
        if 0 < q.window ∧ held.length < 32 then some (s.holdPool q 1 (s.clock + first))
        else some (s.mapPool q.id (fun q => { q with stage := 2 }))
  | 2 =>
    let held := heldAt 3 (fun x => dieOf x.core == dieOf q.core) s
    match q.partner s.clock held with
    | some x => s.meet (dieOf q.core * 9 + 8) q x
    | none =>
      if first < q.window ∧ held.length < 32 then some (s.holdPool q 3 (s.clock + (q.window - first)))
      else some (s.mapPool q.id (fun q => { q with stage := q.onward }))
  | 4 =>
    let d := homeDie q.pa
    match q.partner s.clock (heldAt 3 (fun x => dieOf x.core == d) s) with
    | some x => s.meet (d * 9 + 8) q x
    | none => some (s.mapPool q.id (fun q => { q with stage := 5 }))
  | _ => none

def execPoolSwitchArrival (p : Nat) (s : State) : Host.Outcome State Fault Refusal :=
  event s ((s.poolOp p).bind s.poolArrive)

/-- A hold ends unpaired (R266). -/
def State.poolExpire (s : State) (q : PoolOp) : Option State :=
  if s.clock < q.until_ then none
  else if q.stage = 1 then some (s.mapPool q.id (fun q => { q with stage := 2 }))
  else if q.stage = 3 then some (s.mapPool q.id (fun q => { q with stage := q.onward }))
  else none

def execFretWindowExpiry (p : Nat) (s : State) : Host.Outcome State Fault Refusal :=
  event s ((s.poolOp p).bind s.poolExpire)

/-! ### The home (R158, R160, R380) -/

/-- A descriptor (R158). -/
structure PoolDesc where
  mode   : Bool
  window : Nat
  base   : Nat
  cap    : Nat
  head   : Nat
  tail   : Nat
  count  : Nat
  pushes : Nat
  pops   : Nat
  reserved : Bool

def PoolDesc.ofBits (r : BitVec 512) : PoolDesc :=
  { mode := r.getLsbD 0, window := field r 56 8, base := field r 71 57, cap := field r 128 32, head := field r 160 32,
    tail := field r 192 32, count := field r 224 32, pushes := field r 256 64, pops := field r 320 64,
    reserved := field r 1 55 != 0 || field r 64 7 != 0 || field r 384 128 != 0 }

/-- The fields that an operation changes, HEAD to POPS, as bytes 20 to 47 of the descriptor. -/
def PoolDesc.bytes (d : PoolDesc) : List Byte :=
  leBytes 4 d.head ++ leBytes 4 d.tail ++ leBytes 4 d.count ++ leBytes 8 d.pushes ++ leBytes 8 d.pops

def State.poolDesc (s : State) (pa : Nat) : PoolDesc := .ofBits (BitVec.ofNat 512 (s.readNat pa 64))

/-- A malformed descriptor (R160). -/
def PoolDesc.bad (d : PoolDesc) : Bool :=
  d.cap == 0 || d.cap < d.count || (d.mode && (d.cap ≤ d.head || d.cap ≤ d.tail)) || d.reserved || d.base % 8 != 0

/-- The slot that an operation fills or empties. -/
def PoolDesc.slot (d : PoolDesc) (push : Bool) : Nat :=
  if push then (if d.mode then d.tail else d.count) else (if d.mode then d.head else d.count - 1)

/-- The descriptor with the operation counted. -/
def PoolDesc.counted (d : PoolDesc) (push : Bool) : PoolDesc :=
  if push then { d with pushes := d.pushes + 1 } else { d with pops := d.pops + 1 }

/-- The descriptor after a push, or a pop, that took a slot. -/
def PoolDesc.moved (d : PoolDesc) (push : Bool) : PoolDesc :=
  if push then { d with count := d.count + 1, tail := if d.mode then (d.tail + 1) % d.cap else d.tail }
  else { d with count := d.count - 1, head := if d.mode then (d.head + 1) % d.cap else d.head }

/-- Whether an operation finds no room, or no item. -/
def PoolDesc.turnsAway (d : PoolDesc) (push : Bool) : Bool := if push then d.count == d.cap else d.count == 0

/-- The answer of an operation. One that carries MODE and WINDOW to a core is under a lease from now on, unless a write of the
line waits (R241, R265). -/
def State.answer (s : State) (q : PoolOp) (ok : Bool) (ans : W64) (poisoned : Bool) (info : Option (Bool × Nat)) : State :=
  let waits := info.isNone || q.core == peerCore || !s.cached q.pa || s.writeWaits (lineOf q.pa)
  let lease := if waits then s.clock else s.clock + (s.ctx q.asid).lease.toNat
  let s := if waits then s else { s with wmax := assign s.wmax (lineOf q.pa) (max (get 0 s.wmax (lineOf q.pa)) lease) }
  (s.mapPool q.id (fun q => { q with stage := 6, ok, ans, poisoned, info, lease })).replyToPeer

/-- A fault at a pool's home (R160, R333): a record of KIND 3. -/
def State.poolFault (s : State) (q : PoolOp) (c : Cause) : State :=
  s.report q.asid { kind := 3, code := c.code.toNat, va := q.va, grid := q.gid, core := q.core, team := q.linear }

/-- The item's slot in memory: the home's access to it, or how it faults. -/
def State.itemSlot (s : State) (q : PoolOp) (d : PoolDesc) : Except Cause Nat :=
  let va := d.base + 8 * d.slot q.push
  if 2 ^ 57 ≤ va then .error .pageFault
  else match s.walk q.asid va with
    | .page p => if if q.push then p.write else p.read then .ok p.pa else .error .permission
    | _ => .error .pageFault

/-- The lines that an operation at its home writes, where leases may hold them. -/
def State.poolLines (s : State) (q : PoolOp) : List Nat :=
  let d := s.poolDesc q.pa
  let item := if q.push && !d.bad && !d.turnsAway true then
      match s.itemSlot q d with | .ok pa => [lineOf pa] | _ => []
    else []
  lineOf q.pa :: item

/-- Whether an item's slot lies behind a link that is down, so that the access to it is refused (R355). -/
def State.linkDown (s : State) (pa : Nat) : Bool :=
  match homeOf pa with
  | .peer l => !s.linkUp l
  | _ => false

/-- A pool operation performed at its home (R160, R380); one that a neighbour refuses is dropped, a pop with POISONED (R355). -/
def State.poolAtHome (s : State) (q : PoolOp) : State :=
  if q.lost then s.answer q false 0 (!q.push) none
  else if s.poisoned q.pa then s.answer q false 0 true none
  else
    let d := s.poolDesc q.pa
    let info := some (d.mode, d.window)
    let s := s.atHome q.pa
    let save (s : State) (d : PoolDesc) : State := (s.writeBytes (q.pa + 20) d.bytes).written q.pa
    let n := d.counted q.push
    if d.bad then ((save s n).answer q false 0 false info).poolFault q .illegalOperand
    else if d.turnsAway q.push then (save s n).answer q false 0 false info
    else match s.itemSlot q d with
      | .error c =>
        let s := if c = .pageFault ∧ s.walk q.asid (d.base + 8 * d.slot q.push) = .poisoned then s.poisonRead q.asid 1 else s
        ((save s n).answer q false 0 false info).poolFault q c
      | .ok pa =>
        if q.push then
          if s.poisoned pa || s.linkDown pa then (save s n).answer q false 0 true info
          else (save ((s.writeBytes pa (leBytes 8 q.item.toNat)).written pa) (n.moved true)).answer q true 0 false info
        else if s.poisoned pa || s.linkDown pa then (save s (n.moved false)).answer q true 0 true info
        else
          let x := BitVec.ofNat 64 (s.readNat pa (if q.wide then 8 else 4))
          (save (s.l2Reads [lineOf pa]) (n.moved false)).answer q true x false info

/-- An operation at its home is performed once the leases of the lines that it writes are over (R242). -/
def State.poolHome (s : State) (q : PoolOp) : Option State :=
  if q.stage ≠ 5 || !s.poolTurn q then none
  else
    let busy := (s.poolLines q).filter (fun l => !s.linesFree l || s.fetching l)
    if busy.isEmpty then some ((s.endWait q.id).poolAtHome q)
    else if busy.all (fun l => s.leaseWait.contains (q.id, l)) then none
    else some (s.awaitLease q.id busy)

def execPoolOpAtHome (p : Nat) (s : State) : Host.Outcome State Fault Refusal :=
  event s ((s.poolOp p).bind s.poolHome)

/-! ### The reply (R134, R265) -/

/-- A window cache with the entry of a reply: in place of the same descriptor's, of an expired entry, or of the least
recently used (R265). -/
def fillWindow (ws : List WindowEntry) (clock : Nat) (e : WindowEntry) : List WindowEntry :=
  let ws := ws.filter (fun x => x.pa != e.pa)
  if ws.length < 16 then ws ++ [e]
  else
    let out := match ws.find? (fun x => x.expiry ≤ clock) with
      | some x => x.pa
      | none => (ws.foldl (fun (b : WindowEntry) x => if x.lastUse < b.lastUse then x else b) (ws.headD e)).pa
    ws.filter (fun x => x.pa != out) ++ [e]

/-- One lane's reply: its destinations, its flag, its core's window cache. -/
def State.poolReply (s : State) (o : Op) (q : PoolOp) : State :=
  let s := match q.info with
    | some (mode, window) =>
      if q.lease ≤ s.clock then s
      else s.mapCore q.core (fun c =>
        { c with windows := fillWindow c.windows s.clock { pa := q.pa, mode, window, expiry := q.lease, lastUse := s.clock } })
    | none => s
  let s := s.mapCourseOf q.core q.slot q.stamp (fun c =>
    let c := if q.push then c else c.deliver q.file q.reg q.lane q.wide q.ans
    c.writeP q.pred (laneBit q.lane) (if q.ok then laneBit q.lane else 0))
  if q.poisoned then s.flagPoison o (laneBit q.lane) else s

/-- Every lane of a GPUSH or GPOP has its answer: the replies reach the core (R134). -/
def State.poolDone (s : State) (o : Op) : Option State :=
  let qs := s.pool.filter (fun q => q.op == o.id)
  if qs.any (fun q => q.stage != 6) || !s.runs o.core then none
  else
    let s := { s with pool := s.pool.filter (fun q => q.op != o.id) }
    let bad := if o.strict then qs.find? (·.poisoned) else none
    match bad with
    | some q => some (s.strictPoison o q.va q.lane true)
    | none => some ((qs.foldl (fun (s : State) q => s.poolReply o q) s).complete o.id)

/-- The reply of a pool operation, or the items of a QPOP, reach the core. -/
def execQueueOperationComplete (op : Nat) (s : State) : Host.Outcome State Fault Refusal :=
  event s ((s.opAt op).bind (fun o => match o.kind with
    | .qpop file wide vals => if s.runs o.core then some (s.returnAtom o file wide vals) else none
    | .pool _ => s.poolDone o
    | _ => none))

end Sys2Proof.Machine
end

