-- ==== Sys2Proof/Machine/Waits.lean ====
section
/-! DEFINITION. Waits, 0x150 to 0x153 (R163 to R166). -/

namespace Sys2Proof.Machine

/-- WAIT (R163): held until the four counters are at or below their thresholds. -/
def execWait (w : Fields) (s : State) :=
  issueWord w s (fun f s =>
    let k := f.c.counts
    let th (lo : Nat) : Nat := (w.imm.extractLsb' lo 6).toNat
    if k.load ≤ th 0 ∧ k.store ≤ th 6 ∧ k.copy ≤ th 12 ∧ k.tile ≤ th 18 then .ok { s } else .error .hold)

/-- WAITR (R164). -/
def execWaitr (w : Fields) (s : State) :=
  issueWord w s (fun f s =>
    let th := min (s.scalarA f w .n32).toNat 63
    if f.c.counts.read (w.imm.toNat % 8) ≤ th then .ok { s } else .error .hold)

/-! ### WAITADDR and WAKE -/

/-- The pass of a watch as a load that stands in its course where the instruction does: an acquire reads its lanes in their order
(R165, R276). -/
def Watch.asOp (x : Watch) : Op :=
  { id := x.id, core := x.core, slot := x.slot, stamp := x.stamp, entry := x.entry, team := 0, grid := 0, asid := x.asid,
    strict := false, sym := false, cls := 0, at_ := x.at_,
    kind := .load .global .v .n64 { acquire := x.word.imm.getLsbD 3, scope := scopeOf x.word.imm, promoted := x.word.modx,
                                    class3 := true } x.lanes }

/-- Whether every lane's value differs from its comparand. -/
def Watch.changed (x : Watch) : Bool := x.lanes.all (fun k => k.val != k.cmp)

/-- D holds the values last read. -/
def Watch.deliver (x : Watch) (c : Course) : Course :=
  x.lanes.foldl (fun (c : Course) k => c.result x.word (tyWide x.word.ty) k.lane k.val) c

/-- POISONED and %poison_count for the reads that met poison. -/
def State.watchPoison (s : State) (x : Watch) : State :=
  (x.lanes.filter (·.bad)).foldl (fun (s : State) a => s.flagPoison x.asOp a.who) s

def State.watch (s : State) (i : Nat) : Option Watch := s.watches.find? (fun x => x.id == i)

def State.mapWatch (s : State) (i : Nat) (g : Watch → Watch) : State :=
  { s with watches := s.watches.map (fun (x : Watch) => if x.id = i then g x else x) }

/-- A pass of the loop begins: its message leaves the core, and its reads are still to be made (R165, R246). -/
def State.beginPass (s : State) (x : Watch) : State :=
  (s.sendClass x.core .waitaddr).mapWatch x.id (fun x =>
    { x with reading := true, woken := false, at_ := s.clock, lanes := x.lanes.map (fun k => { k with got := false, bad := false }) })

/-- A pass whose reads are made ends: the WAITADDR is done where every value has changed or its timeout has passed, and else held
until it is woken. -/
def State.endPass (s : State) (i : Nat) : Option State :=
  match s.watch i with
  | none => none
  | some x =>
    if !x.reading || !x.lanes.all (·.got) || !s.runs x.core then none
    else
      let strict := match s.courseOf x.core x.slot x.stamp with | some c => c.strict | none => false
      let drop (s : State) : State := { s with watches := s.watches.filter (fun y => y.id != i) }
      match (if strict then x.lanes.find? (·.bad) else none) with
      | some a => some ((drop s).takeTrap x.core x.slot x.entry { cause := .poison, site := some { va := a.va, lane := a.lane } })
      | none =>
        let s := s.watchPoison x
        if x.changed || x.left = some 0 then
          some ((drop s).release x.core x.slot x.entry x.stamp i x.word (fun f s => s.course f x.deliver))
        else some (s.mapWatch i (fun x => { x with reading := false }))

/-- WAITADDR (R165): words that the core's L1 holds under a live lease are read at issue; else the pass goes on as an event, and
the fragment is held until a pass ends it. -/
def execWaitaddr (w : Fields) (s : State) :=
  issueWord w s (fun f s => do
    let ps := f.probes s w .n64
    let pages ← s.checkGlobal f.core f.asid
      { size := tyBytes w.ty, read := true, write := false, scope := some (scopeOf w.imm) } ps
    let te := w.imm.toNat / 16 % 32
    let (s, lanes) := s.sendOut ((ps.zip pages).map (fun y =>
      { lane := y.1.lane, va := y.1.va.toNat, pa := y.2.pa, size := tyBytes w.ty, cmp := s.b f w y.1.lane, who := laneBit y.1.lane }))
    let x : Watch :=
      { id := f.op, core := f.core, slot := f.slot, stamp := f.c.stamp, entry := f.entry, asid := f.asid, lanes,
        left := if te = 0 then none else some (2 ^ te), woken := false, reading := true, at_ := s.clock, word := w }
    if lanes.all (fun k => s.l1Hit f.core (lineOf k.pa)) && s.mayPerform x.asOp lanes true then
      let x := { x with lanes := lanes.map (s.readAccess x.asOp .global), reading := false }
      match (if f.c.strict then x.lanes.find? (·.bad) else none) with
      | some a => trapAt .poison { va := a.va, lane := a.lane }
      | none =>
        let s := s.watchPoison x
        if x.changed then .ok { s := s.course f x.deliver } else .error (.issued { s with watches := s.watches ++ [x] })
    else .error (.issued { s.sendClass f.core .waitaddr with watches := s.watches ++ [x] }))

/-! ### Reads absorbed in switches (R248) -/

/-- The reads that wait behind those of `id` on some lines, with their line, those behind them included. -/
def State.joinedTo (s : State) : Nat → Nat → (Nat → Bool) → List (Nat × Nat)
  | 0, _, _ => []
  | n + 1, id, on =>
    let js := (s.absorbs.filter (fun a => a.op == id && on a.line)).flatMap (fun a => a.joined.map (fun j => (j, a.line)))
    js ++ js.flatMap (fun j => s.joinedTo n j.1 (fun l => l == j.2))

/-- The pass of a WAITADDR, or a load in flight, by its stamp. A WAITADDR's own operation only keeps its counter raised. -/
def State.reader (s : State) (id : Nat) : Option Op :=
  ((s.watch id).bind (fun x => if x.reading then some x.asOp else none)).or (s.opAt id)

/-- The reads of a load, or of the pass of a WAITADDR, on some lines are performed, and their entries in absorb tables freed. -/
def State.readBy (s : State) (id : Nat) (on : Nat → Bool) : State :=
  (match s.reader id with
    | some o => s.readOn o on
    | none => s).freeAbsorb id on

/-- Forked replies reach absorbed reads, which are performed with the read that they wait for. -/
def State.joinedRead (s : State) (js : List (Nat × Nat)) : State :=
  js.foldl (fun (s : State) j => s.readBy j.1 (fun l => l == j.2)) s

/-- The reads of `id` on some lines with every read absorbed behind them. -/
def State.readAll (s : State) (id : Nat) (on : Nat → Bool) : State :=
  (s.readBy id on).joinedRead (s.joinedTo 32 id on)

/-- A load or a pass that has all its data returns it. -/
def State.readDone (s : State) (id : Nat) : Option State := ((s.opAt id).bind s.deliverNow).or (s.endPass id)

/-- The context, the core, the cycle of issue and the lines still to read of a class-3 read: a load with SEM 1 or 2, or a pass of a
WAITADDR. -/
def State.class3Lines (s : State) (id : Nat) : Option (Nat × Nat × Nat × List Nat) :=
  match s.reader id with
  | some o => if o.kind.order.class3 && o.kind.isLoad then some (o.asid, o.core, o.at_, o.missing) else none
  | none => none

/-- A pass of a WAITADDR goes on: its reads are performed on the lines that are present, and with all of them made it ends. -/
def State.goOn (s : State) (i : Nat) : Option State :=
  (s.endPass i).or ((s.reader i).bind (fun o =>
    if s.mayRead o then
      let s := s.readAll i (s.present o.core)
      some ((s.endPass i).getD s)
    else none))

/-- A woken WAITADDR repeats its loop, or a pass goes on. -/
def execWaitaddrReread (i : Nat) (s : State) : Host.Outcome State Fault Refusal :=
  event s ((s.watch i).bind (fun x =>
    if x.reading then s.goOn i
    else if x.woken && s.runs x.core then
      let s := s.beginPass x
      some ((s.goOn i).getD s)
    else none))

/-- A WAITADDR whose timeout has passed reads once more and is done. -/
def execWaitaddrTimeout (i : Nat) (s : State) : Host.Outcome State Fault Refusal :=
  event s ((s.watch i).bind (fun x =>
    if x.left ≠ some 0 || !s.runs x.core then none
    else if x.reading then s.goOn i
    else
      let s := s.beginPass x
      some ((s.goOn i).getD s)))

/-- Whether a core lies in the instance of a scope that contains another (R269). -/
def inScopeOf (scope core other : Nat) : Bool :=
  match scope with
  | 0 => core == other
  | 1 => sectorOf core == sectorOf other
  | 2 => dieOf core == dieOf other
  | _ => true

/-- WAKE (R166). -/
def execWake (w : Fields) (s : State) :=
  issueWord w s (fun f s => do
    let ps := f.probes s w .n64
    let pages ← s.checkGlobal f.core f.asid { size := 1, read := true, write := false, scope := some (scopeOf w.imm) } ps
    let lines := pages.map (fun p => lineOf p.pa)
    .ok { s := { s.sendClass f.core .wake with watches := s.watches.map (fun x =>
            if x.asid = f.asid ∧ inScopeOf (scopeOf w.imm) f.core x.core ∧ x.lanes.any (fun k => lines.contains (lineOf k.pa))
            then { x with woken := true } else x) } })

end Sys2Proof.Machine
end

