-- ==== Sys2Proof/Machine/Codec.lean ====
section
/-! DEFINITION. The codec of compressed arrays (R252 to R261) and the decoded block buffers (R262 to R264). -/

namespace Sys2Proof.Machine

/-! ### Shapes -/

def ZShape.bytes (z : ZShape) : Nat := z.rate * z.count / 8
def ZShape.fmt (z : ZShape) : Fmt := fmtOf (if z.wide then .f64 else .f32)
/-- H, P and W of R254 and R255. -/
def ZShape.head (z : ZShape) : Nat := if z.wide then 12 else 9
def ZShape.point (z : ZShape) : Int := if z.wide then 58 - z.dim else 29 - z.dim
def ZShape.width (z : ZShape) : Nat := if z.wide then 60 else 31

/-! ### The transform (R256) -/

/-- Four integers to S, D, d0, d1. -/
def forward4 (x0 x1 x2 x3 : Int) : List Int :=
  let d0 := x0 - x1
  let s0 := x1 + d0 / 2
  let d1 := x2 - x3
  let s1 := x3 + d1 / 2
  let d := s0 - s1
  [s1 + d / 2, d, d0, d1]

/-- S, D, d0, d1 back to the four integers. -/
def inverse4 (s d d0 d1 : Int) : List Int :=
  let s1 := s - d / 2
  let s0 := s1 + d
  let x3 := s1 - d1 / 2
  let x1 := s0 - d0 / 2
  [x1 + d0, x1, x3 + d1, x3]

/-- A function of four applied to every group of positions `st` apart. -/
def along (fn : Int → Int → Int → Int → List Int) (st : Nat) (xs : List Int) : List Int :=
  (List.range xs.length).map (fun i =>
    let u := i / st % 4
    let b := i - u * st
    (fn (xs.getD b 0) (xs.getD (b + st) 0) (xs.getD (b + 2 * st) 0) (xs.getD (b + 3 * st) 0)).getD u 0)

/-- Strides of the dimensions, x first. -/
def ZShape.strides (z : ZShape) : List Nat := (List.range z.dim).map (fun k => 4 ^ k)

def ZShape.forward (z : ZShape) (xs : List Int) : List Int := z.strides.foldl (fun xs st => along forward4 st xs) xs
def ZShape.inverse (z : ZShape) (xs : List Int) : List Int :=
  z.strides.reverse.foldl (fun xs st => along inverse4 st xs) xs

/-! ### Coefficients (R257, R258) -/

/-- The level of a position along a dimension. -/
def level (u : Nat) : Nat := if u ≤ 1 then u else 2

/-- The level sum of coefficient i. -/
def levelSum (i : Nat) : Nat := level (i % 4) + level (i / 4 % 4) + level (i / 16 % 4)

/-- The coefficients in priority order. -/
def ZShape.order (z : ZShape) : List Nat :=
  (List.range 7).flatMap (fun l => (List.range z.count).filter (fun i => levelSum i == l))

/-- k_j for the coefficients in priority order. -/
def ZShape.bitsFor (z : ZShape) : List Nat :=
  let n := z.count
  let b := z.rate * n - z.head
  (List.range n).map (fun j => if n * z.width ≤ b then z.width else b / n + (if j < b % n then 1 else 0))

/-! ### Encoding (R254, R255, R259) -/

/-- An integer divided by 2^sh, to nearest and even. -/
def rneShift (x : Int) (sh : Nat) : Int :=
  let r := (roundShift .rne (x < 0) x.natAbs sh).1
  if x < 0 then -(r : Int) else r

/-- A coefficient as stored in k bits. -/
def storeCoef (w k : Nat) (c : Int) : Int := max (-(2 ^ (k - 1) : Int)) (min (rneShift c (w - k)) (2 ^ (k - 1) - 1))

/-- Fields of k bits laid out from bit `at_`. -/
def layCoefs : Nat → List (Nat × Int) → Nat
  | _, [] => 0
  | at_, (k, c) :: cs => (c % 2 ^ k).toNat * 2 ^ at_ + layCoefs (at_ + k) cs

/-- Whether an element is a NaN or an infinity. -/
def ZShape.nonfinite (z : ZShape) (x : W64) : Bool :=
  match z.fmt.decode x with
  | .fin .. => false
  | _ => true

/-- floor(log2) of the largest magnitude of a block, none for an all-zero block. -/
def ZShape.topExp (z : ZShape) (xs : List W64) : Option Int :=
  xs.foldl (fun (b : Option Int) x => match z.fmt.decode x with
    | .fin _ m e => if m = 0 then b else
        let t : Int := (bitLen m : Int) - 1 + e
        some (match b with | some b => max b t | none => t)
    | _ => b) none

/-- The coded bits of a block. -/
def ZShape.encode (z : ZShape) (xs : List W64) : Nat :=
  if xs.any z.nonfinite then 1
  else match z.topExp xs with
    | none => 0
    | some t =>
      let e := max t z.fmt.emin
      let q := xs.map (fun x => match z.fmt.decode x with
        | .fin neg m ex => let r : Int := (scaleTo .rne neg m ex (e - z.point)).1; if neg then -r else r
        | _ => 0)
      let c := z.forward q
      let ks := z.bitsFor
      2 * (e + z.fmt.bias).toNat +
        layCoefs z.head ((z.order.zip ks).map (fun p => (p.2, storeCoef z.width p.2 (c.getD p.1 0))))

/-! ### Decoding (R254, R259) -/

/-- Signed fields of k bits read from bit `at_`, scaled to W bits. -/
def readCoefs (w : Nat) (bits : Nat) : Nat → List Nat → List Int
  | _, [] => []
  | at_, k :: ks =>
    let v := bits / 2 ^ at_ % 2 ^ k
    let c : Int := if 2 ^ (k - 1) ≤ v then (v : Int) - 2 ^ k else v
    (c * 2 ^ (w - k)) :: readCoefs w bits (at_ + k) ks

/-- The elements of coded bits. -/
def ZShape.decode (z : ZShape) (bits : Nat) : List W64 :=
  let n := z.count
  if bits % 2 = 1 then List.replicate n z.fmt.canonNan
  else
    let ex := bits / 2 % 2 ^ (z.head - 1)
    if ex = 0 then List.replicate n 0
    else
      let e : Int := (ex : Int) - z.fmt.bias
      let cs := readCoefs z.width bits z.head z.bitsFor
      let at_ := z.order.zip cs
      let c := (List.range n).map (fun i => (at_.find? (fun p => p.1 == i)).elim 0 (·.2))
      (z.inverse c).map (fun q => (z.fmt.round .rne false (q < 0) q.natAbs (e - z.point)).1)

/-! ### Blocks in memory (R253) -/

/-- The physical pieces of a block whose first byte is at `pa`, and whose second page, if it has one, at `pa2`. -/
def ZShape.pieces (z : ZShape) (pa pa2 : Nat) : List (Nat × Nat) :=
  let room := 4096 - pa % 4096
  if z.bytes ≤ room then [(pa, z.bytes)] else [(pa, room), (pa2, z.bytes - room)]

/-- The lines that a block touches. -/
def ZShape.lines (z : ZShape) (pa pa2 : Nat) : List Nat :=
  ((z.pieces pa pa2).flatMap (fun p => linesOf p.1 p.2)).eraseDups

def State.codedBits (s : State) (z : ZShape) (pa pa2 : Nat) : Nat := leNat (s.gather (z.pieces pa pa2))

/-- The lines whose every byte a block's bytes cover (R368). -/
def ZShape.covered (z : ZShape) (pa pa2 : Nat) : List Nat :=
  (z.lines pa pa2).filter (fun l => (List.range 128).all (fun k =>
    (z.pieces pa pa2).any (fun p => p.1 ≤ l * 128 + k && l * 128 + k < p.1 + p.2)))

/-- Bytes of a line piece written: a poisoned line takes only a write that covers it (R368). -/
def State.codedPieces (s : State) (whole : List Nat) : List (Nat × Nat) → List Byte → State
  | [], _ => s
  | p :: ps, bs =>
    ((s.applyWrite p.1 (bs.take p.2) whole).written p.1).codedPieces whole ps (bs.drop p.2)

/-- The coded bits of a block written, line by line. -/
def State.writeCoded (s : State) (z : ZShape) (pa pa2 : Nat) (bits : Nat) : State :=
  let ps := (z.pieces pa pa2).flatMap (fun p => pieces p.1 p.2)
  s.codedPieces (z.covered pa pa2) ps (leBytes z.bytes bits)

/-! ### The decoded block buffers (R262 to R264) -/

/-- The live entry of a block. -/
def State.zentry (s : State) (pa : Nat) : Option ZEntry := s.zbuf.find? (fun e => e.pa == pa)

def State.setZ (s : State) (e : ZEntry) : State := { s with zbuf := e :: s.zbuf.filter (fun x => x.pa != e.pa) }
def State.dropZ (s : State) (pa : Nat) : State := { s with zbuf := s.zbuf.filter (fun x => x.pa != pa) }

/-- Whether an entry finds room in its sets beside others. -/
def ZEntry.fits (e : ZEntry) (es : List ZEntry) : Bool :=
  (List.range 4).all (fun k => blockBytes (e :: es) (e.setAt k) ≤ blockRoom)

/-- The entries that leave, of a list with the least recently used first, until an entry fits beside those that stay. -/
def ZEntry.makes (e : ZEntry) : (stay : List ZEntry) → List ZEntry → List ZEntry
  | _, [] => []
  | stay, x :: xs =>
    if e.fits (stay ++ x :: xs) then []
    else if (List.range 4).any (fun k => e.bytesIn (e.setAt k) != 0 && x.bytesIn (e.setAt k) != 0) then x :: e.makes stay xs
    else e.makes (x :: stay) xs

/-- The least recently used entries that leave when a block of a shape needs their room (R262, R263): its sets have 3 ways for
decoded blocks. The buffer lists its entries by their last use, the latest first. -/
def State.zvictims (s : State) (z : ZShape) (pa : Nat) : List ZEntry :=
  let kin := (s.sliceBlocks (homeDie pa) (sliceOf pa)).filter (fun e => e.pa != pa)
  if (kin.map (fun e => e.shape.room)).sum + z.room ≤ blockRoom then []
  else ({ pa, pa2 := 0, asid := 0, shape := z, elems := [], dirty := 0 } : ZEntry).makes [] kin.reverse

/-- Whether the encode of an entry writes anything: not for a clean one, nor where the stored bits already decode to its
elements (R261). -/
def State.zwrites (s : State) (e : ZEntry) : Bool :=
  e.dirty != 0 && e.shape.decode (s.codedBits e.shape e.pa e.pa2) != e.elems

/-- The lines whose leases a write-back of an entry waits for (R191, R242). -/
def State.zbusy (s : State) (e : ZEntry) : List Nat :=
  if s.zwrites e then (e.shape.lines e.pa e.pa2).filter (fun l => !s.leaseOver l) else []

/-- The device's writes of some lines need to wait no more (R242). -/
def State.endNotes (s : State) (lines : List Nat) : State :=
  { s with leaseWait := s.leaseWait.filter (fun x => !(x.1 == 0 && lines.contains x.2)) }

/-- An entry re-encoded: its coded bits written, its dirty bits cleared. Reads then see what those bits decode to (R192). -/
def State.zclean (s : State) (e : ZEntry) : State :=
  if s.zwrites e then
    let bits := e.shape.encode e.elems
    (s.writeCoded e.shape e.pa e.pa2 bits).setZ { e with elems := e.shape.decode bits, dirty := 0 }
  else (s.setZ { e with dirty := 0 }).endNotes (e.shape.lines e.pa e.pa2)

/-- An entry evicted (R263). -/
def State.zevict (s : State) (e : ZEntry) : State := (s.zclean e).dropZ e.pa

/-- The entries that an access of a block first evicts: one of another shape, and those whose room the block takes. -/
def State.zout (s : State) (z : ZShape) (pa : Nat) : List ZEntry :=
  match s.zentry pa with
  | some e => if e.shape = z then [] else e :: s.zvictims z pa
  | none => s.zvictims z pa

/-- The lines of L2 leave the ways that an entry takes; none where they may not. -/
def State.zroom (s : State) (e : ZEntry) : Option State :=
  (List.range 4).foldlM (fun (s : State) k =>
    if e.shape.room ≤ 128 * k then some s else State.roomInSet (homeDie e.pa) (sliceOf e.pa) (e.setAt k) [] 25 s) s

/-- The entry of a block for an access: the live one, or one decoded from the coded bits after an entry of another shape and
those whose room it takes have been evicted (R190, R262, R263); the third part says that the decode met poison. None where a
write-back must wait for leases or the sets have no room. -/
def State.zopen (s : State) (z : ZShape) (asid pa pa2 : Nat) : Option (State × ZEntry × Bool) :=
  match s.zentry pa with
  | some e => if e.shape = z then some (s.setZ e, e, false) else fresh
  | none => fresh
where
  fresh : Option (State × ZEntry × Bool) :=
    let out := s.zout z pa
    if out.any (fun e => !(s.zbusy e).isEmpty) then none
    else
      let s := out.foldl State.zevict s
      let s := s.l2Reads (z.lines pa pa2)
      let e : ZEntry := { pa, pa2, asid, shape := z, elems := z.decode (s.codedBits z pa pa2), dirty := 0 }
      ((s.setZ e).zroom e).map (fun s => (s, e, (z.lines pa pa2).any s.poison.contains))

/-- Whether an access of a block decodes it from a poisoned line (R368). -/
def State.zpoisoned (s : State) (z : ZShape) (pa pa2 : Nat) : Bool :=
  (match s.zentry pa with | some e => e.shape != z | none => true) && (z.lines pa pa2).any s.poison.contains

/-- The write-backs that an access of a block waits for wait for the leases of their lines themselves, and fills take none (R242);
none where they have been noted. -/
def State.zwait (s : State) (z : ZShape) (pa : Nat) : Option State :=
  let ls := (s.zout z pa).flatMap s.zbusy
  if ls.all (fun l => s.leaseWait.contains (0, l)) then none else some (s.awaitLease 0 ls)

/-- The accesses of an operation on arrays, one after another; none where one of them must wait. -/
def State.zEach (step : State → ZAccess → Option State) : List ZAccess → State → Option State
  | [], s => some s
  | a :: as, s => (step s a).bind (State.zEach step as)

end Sys2Proof.Machine
end

