-- ==== Sys2Proof/Machine/Arrays.lean ====
section
/-! DEFINITION. Handles and the compressed-array instructions, 0x160 to 0x164 (R186, R188 to R192), and the eviction of a
decoded block (R263). -/

namespace Sys2Proof.Machine

/-! ### Handles and descriptors (R186, R252) -/

/-- Bytes of the context's memory that an instruction reads at issue, within one page, and whether they meet poison: zeros then,
or, in a STRICT course, a trap (R132, R368). -/
def State.issueRead (s : State) (f : Frag) (lane va n : Nat) : Except Stop (Nat × Bool) :=
  let site : FaultAt := { va, lane }
  if 2 ^ 57 ≤ va then trapAt .pageFault site
  else match s.translate f.core f.asid va with
    | .page p =>
      if !p.read then trapAt .permission { site with cow := p.cow }
      else if s.poisoned p.pa then
        if f.c.strict then .error (.late (s.flagIssue f lane) { cause := .poison, site := some site }) else .ok (0, true)
      else .ok (s.readNat p.pa n, false)
    | .absent => trapAt .pageFault site
    | .poisoned => .error (.trap { cause := .pageFault, site := some site, walkPoison := true })

/-- The descriptor that a handle names, of a kind (R186), and whether it was read from a poisoned line. -/
def State.handle (s : State) (f : Frag) (lane : Nat) (kind : Nat) (h : W32) : Except Stop (BitVec 512 × Bool) := do
  let c := s.ctx f.asid
  let slot := h.toNat % 2 ^ 20
  require (slot < c.zdtCount.toNat) .staleHandle
  let x ← s.issueRead f lane (c.zdtBase.toNat + 16 * slot) 16
  let e : BitVec 128 := BitVec.ofNat 128 x.1
  (require (e.getLsbD 76 && field e 64 12 == h.toNat / 2 ^ 20) .staleHandle).mapError (Stop.afterRead x.2 (s.flagIssue f lane))
  let va := field e 0 64
  require (field e 80 4 == kind && va % 64 == 0) .illegalOperand
  let d ← s.issueRead f lane va 64
  .ok (BitVec.ofNat 512 d.1, d.2)

/-- A compressed array (R252, R253). -/
structure ZArray where
  base  : Nat
  shape : ZShape
  ext   : List Nat

def ZArray.ext_ (z : ZArray) (k : Nat) : Nat := z.ext.getD k 1
def ZArray.nb (z : ZArray) (k : Nat) : Nat := (z.ext_ k + 3) / 4
def ZArray.blocks (z : ZArray) : Nat := z.nb 0 * z.nb 1 * z.nb 2
def ZArray.blockVa (z : ZArray) (k : Nat) : Nat := z.base + k * z.shape.bytes

/-- The array of a descriptor, none where it breaks a limit of R252. -/
def ZArray.ofBits (r : BitVec 512) : Option ZArray :=
  let dim := field r 66 2
  let ty := field r 68 4
  let rate := field r 72 8
  let e (k : Nat) : Nat := field r (128 + 32 * k) 32
  let base := field r 0 64
  let ok := field r 224 288 == 0 && field r 80 48 == 0 && field r 64 2 == 0 && 1 ≤ dim &&
    1 ≤ e 0 && 1 ≤ e 1 && 1 ≤ e 2 && (3 ≤ dim || e 2 == 1) && (2 ≤ dim || e 1 == 1) &&
    (ty == 8 || ty == 9) && 4 ≤ rate && rate ≤ (if ty = 9 then 64 else 32) && (dim != 1 || rate % 2 == 0) &&
    base % 128 == 0 && base < 2 ^ 57
  if ok then some { base, shape := { dim, wide := ty == 9, rate }, ext := [e 0, e 1, e 2] } else none

/-- The array of a lane's handle: the checks of R186 and R252. -/
def State.arrayOf (s : State) (f : Frag) (lane : Nat) (h : W32) : Except Stop ZArray := do
  let d ← s.handle f lane 1 h
  match ZArray.ofBits d.1 with
  | some z => .ok z
  | none => (trapOf .illegalOperand).mapError (Stop.afterRead d.2 (s.flagIssue f lane))

/-! ### Where a lane's element or block lies -/

/-- A lane's array and the block, position and scratchpad offset that it names. -/
structure ZLane where
  lane  : Nat
  z     : ZArray
  block : Nat
  elem  : Nat
  spad  : Nat := 0

/-- Coordinate `k` of a lane, from the register that many past A (R188). -/
def State.coord (s : State) (f : Frag) (w : Fields) (L k : Nat) : Nat :=
  match w.a with
  | .v n => (f.c.readV (n.val + k) L).toNat
  | .s n => (f.c.readS (n.val + k)).toNat
  | o => (s.src f w .n32 L o).toNat

/-- The coordinate registers exist. -/
def coordsFit (w : Fields) (d : Nat) : Bool :=
  match w.a with
  | .v n => n.val + d ≤ 128
  | .s n => n.val + d ≤ 64
  | .zero => true
  | .special _ => d == 1
  | _ => false

/-- The handle of a lane. -/
def State.handleOf (s : State) (f : Frag) (w : Fields) (L : Nat) : W32 := low32 (s.src f w .n32 L w.b)

/-- Check 1 of R189 over the executing lanes. -/
def State.arrays (s : State) (f : Frag) (w : Fields) : Except Stop (List (Nat × ZArray)) :=
  (lanesOf f.exec).mapM (fun L => do .ok (L, ← s.arrayOf f L (s.handleOf f w L)))

/-- Checks 1 and 2 for an element. -/
def State.zElement (s : State) (f : Frag) (w : Fields) : Except Stop (List ZLane) := do
  let zs ← s.arrays f w
  zs.mapM (fun (L, z) => do
    let d := z.shape.dim
    require (z.shape.wide == tyWide w.ty && coordsFit w d) .illegalOperand
    let c (k : Nat) : Nat := if k < d then s.coord f w L k else 0
    require ((List.range d).all (fun k => c k < z.ext_ k)) .illegalOperand
    .ok { lane := L, z, block := c 0 / 4 + z.nb 0 * (c 1 / 4 + z.nb 1 * (c 2 / 4)),
          elem := c 0 % 4 + 4 * (c 1 % 4) + 16 * (c 2 % 4) })

/-- Checks 1 and 2 for a block index. -/
def State.zBlock (s : State) (f : Frag) (w : Fields) (typed : Bool) : Except Stop (List ZLane) := do
  let zs ← s.arrays f w
  zs.mapM (fun (L, z) => do
    let k := (s.src f w .n64 L w.a).toNat
    require ((!typed || z.shape.wide == tyWide w.ty) && w.a != .imm && k < z.blocks) .illegalOperand
    .ok { lane := L, z, block := k, elem := 0 })

/-- Checks 3 and 4: the scratchpad range of each lane's block. -/
def State.zScratch (s : State) (f : Frag) (w : Fields) (write : Bool) (ls : List ZLane) : Except Stop (List ZLane) := do
  let off (x : ZLane) : Nat := (f.old w .n32 x.lane).toNat
  let t := s.teamOf f
  let site (x : ZLane) : FaultAt := { va := off x, lane := x.lane, write }
  firstBad ls (fun x => off x % 16 != 0) (fun x => { cause := .misaligned, site := some (site x) })
  firstBad ls (fun x => t.size < off x + x.z.shape.count * x.z.shape.size)
    (fun x => { cause := .permission, site := some (site x) })
  .ok (ls.map (fun x => { x with spad := off x }))

/-- Check 5: the pages of coded bytes, in the package alone (R189, R354). -/
def State.zPages (s : State) (f : Frag) (write : Bool) (ps : List Probe) : Except Stop (List Page) := do
  let q : Ask := { size := 1, read := true, write, scope := some 3, peers := false }
  s.checkGlobal f.core f.asid q ps

/-- The physical places of each lane's block. -/
def State.zPlaces (s : State) (f : Frag) (write : Bool) (ls : List ZLane) : Except Stop (List (ZLane × Nat × Nat)) := do
  let start (x : ZLane) : Nat := x.z.blockVa x.block
  let last (x : ZLane) : Nat := (start x + x.z.shape.bytes - 1) / 4096 * 4096
  let second (x : ZLane) : Nat := if last x ≤ start x then start x else last x
  let ps := ls.flatMap (fun x =>
    [{ lane := x.lane, va := BitVec.ofNat 64 (start x) }, { lane := x.lane, va := BitVec.ofNat 64 (second x) }])
  let pages ← s.zPages f write ps
  .ok (ls.zipIdx.map (fun p =>
    let q (k : Nat) : Nat := (pages.getD k { pa := 0, bits := 12, read := false, write := false, exec := false, cow := false,
                                             dedup := false }).pa
    (p.1, q (2 * p.2), if last p.1 ≤ start p.1 then 0 else q (2 * p.2 + 1))))

/-! ### Issue -/

/-- The access of a lane's element, or of element `i` of its block. -/
def ZLane.access (x : ZLane × Nat × Nat) (i reg : Nat) (val : W64) : ZAccess :=
  { lane := x.1.lane, shape := x.1.z.shape, va := x.1.z.blockVa x.1.block, pa := x.2.1, pa2 := x.2.2, elem := i, val, reg,
    spad := x.1.spad + i * x.1.z.shape.size }

/-- ZLD (R190). -/
def execZld (w : Fields) (s : State) :=
  issueWord w s (fun f s => do
    let xs ← s.zPlaces f false (← s.zElement f w)
    let (file, reg) := destOf w
    .ok { s, kind := .zload file false (xs.map (fun x => ZLane.access x x.1.elem reg 0)), loads := true })

/-- ZST (R190). -/
def execZst (w : Fields) (s : State) :=
  issueWord w s (fun f s => do
    let xs ← s.zPlaces f true (← s.zElement f w)
    .ok { s, kind := .zstore (xs.map (fun x => ZLane.access x x.1.elem 0 (f.old w w.ty x.1.lane))) })

/-- Every element of a lane's block as an access of its own (R192). -/
def blockAccesses (val : ZLane → Nat → W64) (xs : List (ZLane × Nat × Nat)) : List ZAccess :=
  xs.flatMap (fun x => (List.range x.1.z.shape.count).map (fun i => ZLane.access x i 0 (val x.1 i)))

/-- ZLDB (R190). -/
def execZldb (w : Fields) (s : State) :=
  issueWord w s (fun f s => do
    let ls ← s.zScratch f w true (← s.zBlock f w true)
    let xs ← s.zPlaces f false ls
    .ok { s, kind := .zload .v true (blockAccesses (fun _ _ => 0) xs), loads := true })

/-- ZSTB (R190): the scratchpad values are read at issue, after the course's earlier STS. -/
def execZstb (w : Fields) (s : State) :=
  issueWord w s (fun f s => do
    if s.scratchSettled f.c.stamp = false then .error .hold
    else
      let ls ← s.zScratch f w false (← s.zBlock f w true)
      let xs ← s.zPlaces f true ls
      let t := s.teamOf f
      let val (x : ZLane) (i : Nat) : W64 :=
        BitVec.ofNat 64 (s.spadNat f.core (t.base + x.spad + i * x.z.shape.size) x.z.shape.size)
      .ok { s, kind := .zstore (blockAccesses val xs) })

/-- ZFLUSH of the blocks that the lanes name (R190). -/
def execZflush (w : Fields) (s : State) :=
  issueWord w s (fun f s => do
    let xs ← s.zPlaces f true (← s.zBlock f w false)
    .ok { s, kind := .zflush (xs.map (fun x => { shape := x.1.z.shape, lo := x.2.1, len := 1, pa2 := x.2.2, opens := true })) })

/-- The pages of an array's coded bytes, by the address in each of its first byte. -/
def ZArray.pages (z : ZArray) : List (Nat × Nat) :=
  let total := z.blocks * z.shape.bytes
  (List.range ((z.base + total - 1) / 4096 + 1 - z.base / 4096)).map (fun k =>
    let lo := max z.base ((z.base / 4096 + k) * 4096)
    (lo, min (z.base + total) ((lo / 4096 + 1) * 4096) - lo))

/-- ZFLUSH `.all` (R190). -/
def execZflushAll (w : Fields) (s : State) :=
  issueWord w s (fun f s => do
    let zs ← s.arrays f w
    require (w.a == .zero) .illegalOperand
    let ps := zs.flatMap (fun x => x.2.pages.map (fun p => (x, p)))
    let pages ← s.zPages f true (ps.map (fun p => { lane := p.1.1, va := BitVec.ofNat 64 p.2.1 }))
    .ok { s, kind := .zflush ((ps.zip pages).map (fun p => { shape := p.1.1.2.shape, lo := p.2.pa, len := p.1.2.2 })) })

/-! ### Performance at the home slices -/

/-- The blocks of an operation. -/
def OpKind.zblocks : OpKind → List ZRange
  | .zload _ _ accs => accs.map (fun a => { shape := a.shape, lo := a.pa, len := 1 })
  | .zstore accs => accs.map (fun a => { shape := a.shape, lo := a.pa, len := 1 })
  | .zflush rs => rs
  | _ => []

def ZRange.meets (a b : ZRange) : Bool := a.lo < b.lo + b.len && b.lo < a.lo + a.len

/-- Whether an operation on arrays may be performed: one course's operations on a block keep their order (R133, R192). -/
def State.mayPerformZ (s : State) (o : Op) : Bool :=
  s.ops.all (fun p => s.lets p o .global [] false) && (s.before o).all (fun p =>
    !(p.stamp == o.stamp && !p.done && p.kind.zblocks.any (fun a => o.kind.zblocks.any a.meets)))

/-- One element read through the buffer, with its value and whether its decode met poison (R190); none where it must wait. -/
def State.zread (s : State) (o : Op) (a : ZAccess) : Option (State × ZAccess) :=
  if a.got then some (s, a)
  else (s.zopen a.shape o.asid a.pa a.pa2).map (fun r =>
    (r.1, { a with val := r.2.1.elems.getD a.elem 0, bad := r.2.2, got := true }))

/-- The elements of a load read one after another. -/
def State.zreadAll (o : Op) : List ZAccess → State → Option (State × List ZAccess)
  | [], s => some (s, [])
  | a :: as, s => (s.zread o a).bind (fun r => (State.zreadAll o as r.1).map (fun q => (q.1, r.2 :: q.2)))

/-- The first of some accesses that must wait, in the state that those before it leave. -/
def State.zstuck (step : State → ZAccess → Option State) : List ZAccess → State → Option State
  | [], _ => none
  | a :: as, s => match step s a with
    | some t => State.zstuck step as t
    | none => s.zwait a.shape a.pa

/-- One element read delivered: to its register, or to scratchpad for a block move (R190). -/
def State.zloadOne (s : State) (o : Op) (file : File) (block : Bool) (a : ZAccess) : State :=
  let s := if a.bad then s.flagPoison o (laneBit a.lane) else s
  if block then
    match lookup? s.teams o.team with
    | some t => s.spadWrite t.core (t.base + a.spad) (leBytes a.shape.size a.val.toNat)
    | none => s
  else s.mapCourseOf o.core o.slot o.stamp (fun c => c.deliver file a.reg a.lane a.shape.wide a.val)

/-- NONFINITE in every strand of a course when the operation completes (R37, R190). -/
def State.flagNonfinite (s : State) (o : Op) : State := s.noteFlags o.id (BitVec.allOnes 32) Flags.nonfinite

/-- One element written in its block's entry; none where it must wait. -/
def State.zstoreOne (s : State) (o : Op) (a : ZAccess) : Option State :=
  (s.zopen a.shape o.asid a.pa a.pa2).map (fun r =>
    r.1.setZ { r.2.1 with elems := r.2.1.elems.set a.elem a.val, dirty := r.2.1.dirty ||| ((1#64) <<< a.elem) })

/-- The notes of write-backs that a state has and another lacks (R242). -/
def State.takeNotes (s : State) (t : Option State) : Option State :=
  t.map (fun t => { s with leaseWait := t.leaseWait })

/-- The reads of ZLD and ZLDB are performed at their homes. In a STRICT course a decode of a poisoned line leaves no entry
(R132, R368). -/
def State.zPerformRead (s : State) (o : Op) : Option State :=
  match o.kind with
  | .zload file block accs =>
    let keep (s : State) (xs : List ZAccess) : State := s.mapOp o.id (fun p => { p with kind := .zload file block xs })
    if accs.all (·.got) then some s
    else if !s.mayPerformZ o then none
    else if o.strict && accs.any (fun a => s.zpoisoned a.shape a.pa a.pa2) then
      some (keep s (accs.map (fun a => { a with got := true, bad := s.zpoisoned a.shape a.pa a.pa2 })))
    else match State.zreadAll o accs s with
      | some r => some (keep r.1 r.2)
      | none => s.takeNotes (State.zstuck (fun s a => (s.zread o a).map (·.1)) accs s)
  | _ => none

/-- ZLD and ZLDB return what their homes answered; in a STRICT course that met poison they trap instead. -/
def State.zDeliver (s : State) (o : Op) : State :=
  match o.kind with
  | .zload file block accs =>
    match (if o.strict then accs.find? (·.bad) else none) with
    | some a => s.strictPoison o a.va a.lane false
    | none => (accs.foldl (fun (s : State) a => s.zloadOne o file block a) s).complete o.id
  | _ => s

/-- ZLD and ZLDB are performed and return. -/
def State.zReturn (s : State) (o : Op) : Option State :=
  if !s.runs o.core then none
  else (s.zPerformRead o).bind (fun s => (s.opAt o.id).map (fun p => match p.kind with
    | .zload _ _ accs => if accs.all (·.got) then s.zDeliver p else s
    | _ => s))

/-- The dirty entries that a flush still has to clean. -/
def State.zDirty (s : State) (rs : List ZRange) : List ZEntry :=
  s.zbuf.filter (fun e => e.dirty != 0 && rs.any (fun r => r.shape == e.shape && r.lo ≤ e.pa && e.pa < r.lo + r.len))

/-- A flush cleans one entry, or ends. -/
def State.zFlushOne (s : State) (o : Op) (rs : List ZRange) : State :=
  match s.zDirty rs with
  | [] => s.complete o.id
  | e :: _ =>
    let s' := if e.elems.any e.shape.nonfinite then s.flagNonfinite o else s
    s'.zclean e

/-- ZST and ZSTB are performed in their entries; a flush cleans its next entry, or waits for the leases of its lines. -/
def State.zPerform (s : State) (o : Op) : Option State :=
  match o.kind with
  | .zstore accs =>
    if !s.mayPerformZ o then none
    else match State.zEach (fun s a => s.zstoreOne o a) accs s with
      | some s => some ((if accs.any (fun a => a.shape.nonfinite a.val) then s.flagNonfinite o else s).complete o.id)
      | none => s.takeNotes (State.zstuck (fun s a => s.zstoreOne o a) accs s)
  | .zflush rs =>
    if !s.mayPerformZ o || s.leaseWait.any (fun x => x.1 == o.id) then none
    else match rs.find? (·.opens) with
      -- a block that has no entry is decoded into a clean one first (R190)
      | some r => match s.zopen r.shape o.asid r.lo r.pa2 with
        | some q => some (q.1.mapOp o.id (fun p => { p with kind := .zflush (rs.map (fun x => if x = r then { x with opens := false } else x)) }))
        | none => s.zwait r.shape r.lo
      | none => match s.zDirty rs with
        | [] => some (s.complete o.id)
        | e :: _ =>
          if (s.zbusy e).isEmpty then some (s.zFlushOne o rs) else some (s.awaitLease o.id (s.zbusy e))
  | _ => none

/-! ### The events -/

/-- A load's or an atomic's data arrives (R134, R191): the reads of some lanes are performed where they may be, on the lines
that are present, and with all of them made the load returns its data. -/
def execLoadDataReturn (r : Reading) (s : State) : Host.Outcome State Fault Refusal :=
  event s ((s.opAt r.op).bind (fun o => match o.kind with
    | .zload .. => s.zReturn o
    | .load _ _ _ _ xs =>
      if xs.all (·.got) then s.deliverNow o
      else if s.runs o.core && s.mayRead o then
        if xs.all (fun x => x.got || r.lanes.getLsbD x.lane) then
          let s := s.readAll r.op (s.present o.core)
          some (((s.opAt r.op).bind s.deliverNow).getD s)
        else some (s.readWhere o (fun x => r.lanes.getLsbD x.lane && (o.kind.parts.1 != .global || s.present o.core (lineOf x.pa))))
      else none
    | _ => s.deliverNow o))

/-- A store, RED or atomic is performed (R134, R191, R270). -/
def execStorePerformed (op : Nat) (how : Performing) (s : State) : Host.Outcome State Fault Refusal :=
  event s ((s.opAt op).bind (fun o => match o.kind with
    | .zstore .. | .zflush .. => s.zPerform o
    | _ => s.performStore o how))

/-- A write that waits for the leases of its lines is performed once they are over, the earliest waiting first (R242). -/
def State.endLeaseWait (s : State) (o : Op) : Option State :=
  let mine := s.leaseWait.filter (fun x => x.1 == o.id)
  let first (x : Nat × Nat) : Bool := s.leaseWait.find? (fun y => y.1 != 0 && y.2 == x.2) == some x
  if !mine.isEmpty && mine.all (fun x => s.leaseOver x.2 && first x) then
    let s := s.endWait o.id
    some (match o.kind with
      | .zflush rs => if (match (s.zDirty rs).head? with | some e => (s.zbusy e).isEmpty | none => true) then s.zFlushOne o rs else s
      | _ => s.performNow o 128)
  else none

def execWriteLeaseWaitEnd (op : Nat) (s : State) : Host.Outcome State Fault Refusal :=
  event s ((s.opAt op).bind s.endLeaseWait)

/-- A decoded block is evicted, a dirty one once the leases of its lines are over (R242, R263): the least recently used one of its
slice's sets may leave at any time (DESIGN CHOICE, log 29). -/
def execBlockBufferEviction (pa : Nat) (s : State) : Host.Outcome State Fault Refusal :=
  event s (match s.zentry pa with
    | some e =>
      if (s.zbusy e).isEmpty then some (s.zevict e)
      else if (s.zbusy e).all (fun l => s.leaseWait.contains (0, l)) then none
      else some (s.awaitLease 0 (s.zbusy e))
    | none => none)

end Sys2Proof.Machine
end

