-- ==== Sys2Proof/Machine/Matrix.lean ====
section
/-! DEFINITION. The matrix engine, 0x180 to 0x188 (R52 to R60, R167 to R185). -/

namespace Sys2Proof.Machine

/-! ### Tiles (R33, R168) -/

def tileKey (n i j : Nat) : Nat := 4096 * n + 64 * i + j

/-- Element (i, j) of a tile, or of the pair from an even tile. -/
def Core.elem (c : Core) (wide : Bool) (n i j : Nat) : W64 :=
  if wide then pair (get 0 c.acc (tileKey (n + 1) i j)) (get 0 c.acc (tileKey n i j))
  else (get 0 c.acc (tileKey n i j)).setWidth 64

def Core.setElem (c : Core) (wide : Bool) (n i j : Nat) (x : W64) : Core :=
  let c := { c with acc := put 0 c.acc (tileKey n i j) (low32 x) }
  if wide then { c with acc := put 0 c.acc (tileKey (n + 1) i j) (high32 x) } else c

/-- −∞ as f32, which a row maximum holds when it is cleared (R175). -/
def negInf : W32 := 0xFF800000

def Core.rowMaxAt (c : Core) (n i : Nat) : W32 := get negInf c.rowMax (64 * n + i)
def Core.rowSumAt (c : Core) (n i : Nat) : W32 := get 0 c.rowSum (64 * n + i)

def Core.setSide (c : Core) (n i : Nat) (m l : W32) : Core :=
  { c with rowMax := put negInf c.rowMax (64 * n + i) m, rowSum := put 0 c.rowSum (64 * n + i) l }

/-- MZERO (R175). -/
def Core.zeroTile (c : Core) (n : Nat) : Core :=
  { c with acc := eraseRange c.acc (4096 * n) (4096 * n + 4096), rowMax := eraseRange c.rowMax (64 * n) (64 * n + 64),
           rowSum := eraseRange c.rowSum (64 * n) (64 * n + 64) }

/-- The 64 × 64 positions, row by row. -/
def positions : List (Nat × Nat) := (List.range 64).flatMap (fun i => (List.range 64).map (fun j => (i, j)))

/-! ### Issue (R169, R170) -/

def tileOf : Operand → Nat
  | .tile n => n.val
  | _ => 0

/-- A pitch of IMM32, in bytes: 64 elements where the field is 0 (R167, R176). -/
def pitchOf (t : Ty) (field16 : Nat) : Nat := if field16 = 0 then 64 * tyBytes t else 16 * field16

/-- Checks 1 and 2 of R169. -/
def tileChecks (s : State) (f : Frag) : Except Stop Unit := do
  require (s.teamOf f).tiles .illegalOperand
  require (f.active == f.c.liveLanes && f.c.live.length == 1) .illegalConvergence

/-- Check 6: the alignment of an offset or address. -/
def aligned (f : Frag) (off n : Nat) : Except Stop Unit :=
  if off % n = 0 then .ok () else trapAt .misaligned { va := off, lane := f.low }

/-- Check 7: the region lies inside the allocation. A region of no bytes is none. -/
def inside (s : State) (f : Frag) (off n : Nat) (write : Bool) : Except Stop Unit :=
  if n = 0 ∨ off + n ≤ (s.teamOf f).size then .ok () else trapAt .permission { va := off, lane := f.low, write }

/-- The operation enters the queue of 16; a full queue, and scratchpad accesses of the course that are not yet performed,
hold it at issue (R170, R171). -/
def enqueue (f : Frag) (w : Fields) (s : State) (kind : TileKind) (x z : Nat) (fa : BitVec 256 := 0)
    (counts : List Nat := []) (frames : List Nat := []) (shared : Bool := false) : Except Stop Effect :=
  let t := s.teamOf f
  if 16 ≤ (s.core f.core).tileQ.length || !s.scratchSettled f.c.stamp then .error .hold
  else
    let o : TileOp :=
      { kind, op := f.op, stamp := f.c.stamp, slot := f.slot, team := f.c.team, asid := f.asid, d := tileOf w.d,
        a := tileOf w.a, ty := w.ty, round := w.round, sat := w.sat, modx := w.modx, imm := w.imm,
        x := if kind = .drain then x else t.base + x, z := t.base + z, base := t.base, fa, counts, frames,
        exact := f.c.exact }
    .ok { s := s.mapCore f.core (fun c => { c with tileQ := c.tileQ ++ [o] }), kind := .tile, shared }

/-- Offsets in A and B. -/
def offA (s : State) (f : Frag) (w : Fields) : Nat := (s.scalarA f w .n32).toNat
def offB (s : State) (f : Frag) (w : Fields) : Nat := (s.scalarB f w .n32).toNat

def sideOf (w : Fields) : Bool := w.imm.getLsbD 12

/-- The checks that MLOAD and MSTORE share, after their own. -/
def layoutChecks (s : State) (f : Frag) (w : Fields) (write : Bool) : Except Stop Unit := do
  let p := pitchOf w.ty (w.imm.toNat % 4096)
  let a := offA s f w
  require (64 * tyBytes w.ty ≤ p) .illegalOperand
  require (!sideOf w || (w.ty == .f32 && w.imm.toNat % 4096 == 0)) .illegalOperand
  require (w.ty != .f64 || tileOf w.d % 2 == 0) .illegalOperand
  aligned f a 16
  inside s f a (if sideOf w then 512 else 63 * p + 64 * tyBytes w.ty) write

def execMzero (w : Fields) (s : State) :=
  issueWord w s (fun f s => do tileChecks s f; enqueue f w s .zero 0 0)

def execMload (w : Fields) (s : State) :=
  issueWord w s (fun f s => do
    tileChecks s f
    layoutChecks s f w false
    enqueue f w s .load (offA s f w) 0)

def execMstore (w : Fields) (s : State) :=
  issueWord w s (fun f s => do
    tileChecks s f
    require (!(sideOf w && (w.modx || w.round != .rne || w.sat))) .illegalOperand
    require (!(w.modx && w.ty == .f64)) .illegalOperand
    layoutChecks s f w true
    enqueue f w s .store (offA s f w) 0)

/-! ### Formats of MMAC, MMACS and MMACG (R172, R173) -/

structure MmacFmt where
  aTy     : Ty
  bTy     : Ty
  wide    : Bool
  aGran   : Nat
  bGran   : Nat
  aPlanes : Nat
  bPlanes : Nat
  alen    : Nat
  blen    : Nat
  aScale  : Nat
  bScale  : Nat
  k       : Nat
  spn     : Nat
  metaOff : Nat
  groff   : Nat
  ng      : Nat
  gstride : Nat

def MmacFmt.ofBits (r : BitVec 256) (exact : Bool) : MmacFmt :=
  { aTy := tyAt (field r 0 4), aGran := field r 4 4, aPlanes := if exact then 0 else field r 8 6, alen := field r 16 16,
    aScale := field r 32 19, bTy := tyAt (field r 64 4), bGran := field r 68 4,
    bPlanes := if exact then 0 else field r 72 6, blen := field r 80 16, bScale := field r 96 19, k := field r 128 16,
    spn := field r 144 2, wide := field r 146 4 == 9, metaOff := field r 160 19, groff := field r 192 19,
    ng := field r 211 5, gstride := field r 224 11 }

/-- Check 4: reserved fields and codes (R172). -/
def formatReserved (r : BitVec 256) (kind : TileKind) : Bool :=
  let ty (c : Nat) : Bool := 8 ≤ c && c ≤ 13
  let acc := field r 146 4
  !(ty (field r 0 4) && ty (field r 64 4) && (acc == 8 || acc == 9) && field r 4 4 ≤ 3 && field r 68 4 ≤ 3 &&
    field r 14 2 == 0 && field r 51 13 == 0 && field r 78 2 == 0 && field r 115 13 == 0 && field r 150 10 == 0 &&
    field r 179 13 == 0 && field r 216 8 == 0 && field r 235 21 == 0 &&
    (kind == .macSparse || (field r 144 2 == 0 && field r 160 19 == 0)) &&
    (kind == .macGrouped || (field r 192 19 == 0 && field r 211 5 == 0 && field r 224 11 == 0)))

/-- The stored values of a group of 16 under N-of-16 form, 0 when dense. -/
def spN (spn : Nat) : Nat := if spn = 0 then 0 else 2 ^ spn

/-- Stored columns of a chunk image (R173). -/
def chunkCols (spn : Nat) : Nat := if spn = 0 then 128 else 8 * spN spn

/-- The head width of a format (R173). -/
def headBytes : Ty → Nat
  | .e4m3 | .e5m2 | .f16 => 1
  | _ => 2

def MmacFmt.eb (m : MmacFmt) : Nat := tyBytes m.bTy
def MmacFmt.pitch (m : MmacFmt) : Nat := if m.blen = 0 then 64 * m.eb else 16 * m.blen
def MmacFmt.chunks (m : MmacFmt) : Nat := (m.k + 127) / 128

/-- Bytes of one chunk image, and the natural stride. -/
def imageBytes (t : Ty) (cols : Nat) : Nat := 64 * cols * headBytes t + 8 * cols * (fmtOf t).w
def imageStride (t : Ty) (cols : Nat) : Nat := (imageBytes t cols + 255) / 256 * 256

def MmacFmt.stride (m : MmacFmt) : Nat := if m.alen = 0 then imageStride m.aTy (chunkCols m.spn) else 256 * m.alen

/-- Check 5 (R172). -/
def MmacFmt.legal (m : MmacFmt) (kind : TileKind) (d : Nat) : Bool :=
  let narrow (t : Ty) : Bool := t == .e4m3 || t == .e5m2
  (m.aTy == m.bTy || (narrow m.aTy && narrow m.bTy)) && m.wide == (m.aTy == .f64) &&
    m.aPlanes ≤ (fmtOf m.aTy).w && m.bPlanes ≤ (fmtOf m.bTy).w && m.k != 0 &&
    (kind != .macSparse || (m.spn != 0 && m.k % 16 == 0)) && (m.blen == 0 || 64 * m.eb ≤ 16 * m.blen) &&
    (!m.wide || d % 2 == 0)

/-- Bytes of the scales of a granularity (R55). -/
def scaleBytes (gran chunks : Nat) : Nat :=
  match gran with
  | 0 => 0 | 1 => 4 | 2 => 256 * chunks | _ => 4 * chunks

/-- The groups that MMACG computes: index, first row and end row (R181); the second part is where the rows end. -/
def groupsOf : Nat → Nat → List Nat → List (Nat × Nat × Nat) × Nat
  | _, start, [] => ([], start)
  | g, start, c :: cs =>
    let r := groupsOf (g + 1) (start + c) cs
    if c = 0 ∨ 64 ≤ start then r else ((g, start, min (start + c) 64) :: r.1, r.2)

/-- The checks of MMAC, MMACS and MMACG. -/
def mmac (kind : TileKind) (w : Fields) (s : State) : Host.Outcome State Fault Refusal :=
  issueWord w s (fun f s => do
    tileChecks s f
    if !s.scratchSettled f.c.stamp then .error .hold
    else
      let t := s.teamOf f
      let fb := 32 * (w.imm.toNat % 2 ^ 14)
      inside s f fb 32 false
      let r : BitVec 256 := BitVec.ofNat 256 (s.spadNat f.core (t.base + fb) 32)
      let m := MmacFmt.ofBits r f.c.exact
      let n := m.ng + 1
      if kind = .macGrouped then inside s f m.groff (2 * n) false
      let counts := if kind = .macGrouped then
          (List.range n).map (fun g => s.spadNat f.core (t.base + m.groff + 2 * g) 2) else []
      require (!formatReserved r kind) .reservedField
      require (m.legal kind (tileOf w.d)) .illegalOperand
      let a := offA s f w
      let b := offB s f w
      aligned f a 256
      aligned f b 16
      aligned f m.aScale 4
      aligned f m.bScale 4
      if kind = .macGrouped then aligned f m.groff 2
      inside s f a ((m.chunks - 1) * m.stride + imageBytes m.aTy (chunkCols m.spn)) false
      let groups := if kind = .macGrouped then (groupsOf 0 0 counts).1.map (fun g => g.1) else [0]
      (groups.forM (fun g => inside s f (b + g * 256 * m.gstride) (m.k * m.pitch) false) : Except Stop Unit)
      inside s f m.aScale (scaleBytes m.aGran m.chunks) false
      (groups.forM (fun g => inside s f (m.bScale + g * 256 * m.gstride) (scaleBytes m.bGran m.chunks) false) :
        Except Stop Unit)
      if kind = .macSparse then inside s f m.metaOff (64 * (m.k / 16) * spN m.spn / 2) false
      enqueue f w s kind a b r counts)

def execMmac (w : Fields) (s : State) := mmac .mac w s
def execMmacs (w : Fields) (s : State) := mmac .macSparse w s
def execMmacg (w : Fields) (s : State) := mmac .macGrouped w s

/-- MSMAX (R182). -/
def execMsmax (w : Fields) (s : State) :=
  issueWord w s (fun f s => do
    tileChecks s f
    require (tileOf w.d != tileOf w.a) .illegalOperand
    require (match (fmtOf .f32).decode (w.imm.setWidth 64) with | .fin neg m _ => !neg && m != 0 | _ => false)
      .illegalOperand
    enqueue f w s .smax 0 0)

/-- PITCH of MDRAIN. -/
def drainPitch (w : Fields) : Nat := w.imm.toNat / 2 % 4096

/-- MDRAIN to scratchpad (R183). -/
def execMdrainSpad (w : Fields) (s : State) :=
  issueWord w s (fun f s => do
    tileChecks s f
    let p := pitchOf w.ty (drainPitch w)
    let a := offA s f w
    require (64 * tyBytes w.ty ≤ p && (w.ty != .f64 || tileOf w.d % 2 == 0)) .illegalOperand
    aligned f a 16
    inside s f a (63 * p + 64 * tyBytes w.ty) true
    enqueue f w s .drainSpad a 0)

/-- MDRAIN to memory (R183): the checks of R131 over its pages, each translated on its own. -/
def execMdrain (w : Fields) (s : State) :=
  issueWord w s (fun f s => do
    tileChecks s f
    require (w.ty != .f64 || tileOf w.d % 2 == 0) .illegalOperand
    let va := s.scalarA f w .n64
    let bytes := 4096 * tyBytes w.ty
    aligned f va.toNat bytes
    if s.tokenHeld f bytes [{ lane := f.low, va }] then .error .hold
    else
      let pages ← s.checkGlobal f.core f.asid { size := 1, read := true, write := true, scope := some 3, peers := false }
        ((List.range (bytes / 4096)).map (fun k => { lane := f.low, va := va + BitVec.ofNat 64 (4096 * k) }))
      enqueue f w (s.sendClass f.core .drain) .drain va.toNat 0 0 []
        (pages.map (·.pa)) (s.inRegion f bytes [{ lane := f.low, va }]))

/-- PLANES (R174). -/
def execPlanes (w : Fields) (s : State) :=
  issueWord w s (fun f s => do
    tileChecks s f
    let cols := w.imm.toNat % 2 ^ 16
    let p := 16 * (w.imm.toNat / 2 ^ 16 % 4096)
    let spn := w.imm.toNat / 2 ^ 28 % 4
    let eb := tyBytes w.ty
    require (cols != 0 && cols * eb ≤ p) .illegalOperand
    require (spn == 0 || cols % spN spn == 0) .illegalOperand
    let a := offA s f w
    let b := offB s f w
    let c := chunkCols spn
    aligned f a eb
    aligned f b 256
    inside s f a (63 * p + cols * eb) false
    inside s f b (((cols + c - 1) / c - 1) * imageStride w.ty c + imageBytes w.ty c) true
    enqueue f w s .planes a b)

/-! ### Operands of a multiply-accumulate (R52 to R59, R173) -/

/-- A significand rounded to declared planes (R59). -/
def roundPlanes (w p m : Nat) : Nat :=
  if p = 0 ∨ w ≤ p then m else (roundShift .rne false m (w - p)).1 * 2 ^ (w - p)

/-- Element (i, k) of a chunk image at a place in scratchpad, its significand rounded (R59, R173). -/
def Core.imageElem (c : Core) (t : Ty) (p cols at_ i k : Nat) : Fp :=
  let f := fmtOf t
  let hb := headBytes t
  let h := leNat (c.readScratch (at_ + hb * (i * cols + k)) hb)
  let neg := h / 2 ^ (8 * hb - 1) % 2 == 1
  let ex := h % (if hb = 1 then 32 else 2048)
  match h / 2 ^ (8 * hb - 3) % 4 with
  | 1 => .inf neg
  | 2 => .nan false
  | 3 => .nan true
  | _ =>
    let m := (List.range f.w).foldl (fun m j =>
      let byte := leNat (c.readScratch (at_ + 64 * cols * hb + j * 8 * cols + i * cols / 8 + k / 8) 1)
      m + byte / 2 ^ (k % 8) % 2 * 2 ^ j) 0
    .fin neg (roundPlanes f.w p m) ((max ex 1 : Int) - f.bias - f.w + 1)

/-- An element of B, its significand rounded (R172). -/
def Core.bElem (c : Core) (t : Ty) (p at_ : Nat) : Fp :=
  match (fmtOf t).decode (BitVec.ofNat 64 (leNat (c.readScratch at_ (tyBytes t)))) with
  | .fin neg m e => .fin neg (roundPlanes (fmtOf t).w p m) e
  | x => x

/-- A scale (R55): 1.0 where none is declared. -/
def Core.scaleAt (c : Core) (gran off chunk index : Nat) : Fp :=
  let word (k : Nat) : Fp := (fmtOf .f32).decode (BitVec.ofNat 64 (leNat (c.readScratch (off + 4 * k) 4)))
  match gran with
  | 0 => .fin false 1 0
  | 1 => word 0
  | 2 => word (chunk * 64 + index)
  | _ => word chunk

/-- How a product enters R54. -/
inductive Product where
  | bad | quiet | inf (neg : Bool) | fin (neg : Bool) (m : Nat) (e : Int)

def Product.of (x y : Fp) : Product :=
  match x, y with
  | .nan a, y => if a || y.isSnan then .bad else .quiet
  | x, .nan b => if b || x.isSnan then .bad else .quiet
  | .inf a, .inf b => .inf (a != b)
  | .inf a, .fin b m _ => if m = 0 then .bad else .inf (a != b)
  | .fin b m _, .inf a => if m = 0 then .bad else .inf (a != b)
  | .fin n₁ m₁ e₁, .fin n₂ m₂ e₂ => .fin (n₁ != n₂) (m₁ * m₂) (e₁ + e₂)

/-- The exact sum of two finite values; the sign of a zero sum follows the rounding direction (R47). -/
def exactAdd (mode : Rnd) (x y : Bool × Nat × Int) : Bool × Nat × Int :=
  let r := addFin x.1 x.2.1 x.2.2 y.1 y.2.1 y.2.2
  if r.1 = 0 then (zeroSign mode x.1 y.1, 0, r.2) else (r.1 < 0, r.1.natAbs, r.2)

/-- The chunk's sum P (R52, R54) of the products at the 128 dense positions, absent ones left out. -/
def chunkSum (mode : Rnd) (xs : List (Option (Fp × Fp))) : Fp × Flags :=
  let ps := xs.map (fun x => x.map (fun p => Product.of p.1 p.2))
  let has (q : Product → Bool) : Bool := ps.any (fun x => match x with | some p => q p | none => false)
  let pos := has (fun p => match p with | .inf neg => !neg | _ => false)
  let neg := has (fun p => match p with | .inf neg => neg | _ => false)
  if has (fun p => match p with | .bad => true | _ => false) || (pos && neg) then (.nan false, Flags.invalid)
  else if has (fun p => match p with | .quiet => true | _ => false) then (.nan false, Flags.none)
  else if pos || neg then (.inf neg, Flags.none)
  else
    let ys := ps.map (fun x => match x with | some (.fin n m e) => some (n, m, e) | _ => none)
    match treeSum (exactAdd mode) 7 ys with
    | some (n, m, e) => (.fin n m e, Flags.none)
    | none => (.fin false 0 0, Flags.none)

/-- Promotion (R53, R54): acc + P × sA × sB rounded once. -/
def promote (f : Fmt) (mode : Rnd) (sat : Bool) (acc p sa sb : Fp) : W64 × Flags :=
  let xs := [p, sa, sb]
  let isInf (x : Fp) : Bool := match x with | .inf _ => true | _ => false
  let isZero (x : Fp) : Bool := match x with | .fin _ m _ => m == 0 | _ => false
  let zeroInf := xs.any isInf && xs.any isZero
  if xs.any Fp.isNan || zeroInf then
    f.nanResult (zeroInf || xs.any Fp.isSnan || acc.isSnan)
  else
    let sign (x : Fp) : Bool := match x with | .inf n | .fin n _ _ => n | _ => false
    let neg := (sign p != sign sa) != sign sb
    if xs.any isInf then f.add mode sat acc (.inf neg)
    else match p, sa, sb with
      | .fin _ m₁ e₁, .fin _ m₂ e₂, .fin _ m₃ e₃ => f.add mode sat acc (.fin neg (m₁ * m₂ * m₃) (e₁ + e₂ + e₃))
      | _, _, _ => f.nanResult false

/-- The stored column that stands at dense position `k` of a row under N-of-16 form, the highest slot that names it
(R57). -/
def Core.sparseCol (c : Core) (m : MmacFmt) (base i k : Nat) : Option Nat :=
  let n := spN m.spn
  let g := k / 16
  let at_ := base + m.metaOff + (i * (m.k / 16) + g) * n / 2
  let slot (q : Nat) : Nat := leNat (c.readScratch (at_ + q / 2) 1) / 16 ^ (q % 2) % 16
  (((List.range n).filter (fun q => slot q == k % 16)).getLast?).map (fun q => g * n + q)

/-- Aval(i, k): none where sparsity leaves the position absent (R178, R180). -/
def Core.aVal (c : Core) (o : TileOp) (m : MmacFmt) (i k : Nat) : Option Fp :=
  if m.spn = 0 then
    some (c.imageElem m.aTy m.aPlanes 128 (o.x + k / 128 * m.stride) i (k % 128))
  else
    let cols := chunkCols m.spn
    (c.sparseCol m o.base i k).map (fun q => c.imageElem m.aTy m.aPlanes cols (o.x + q / cols * m.stride) i (q % cols))

/-- One accumulator element over one chunk of one group. -/
def Core.macElem (c : Core) (o : TileOp) (m : MmacFmt) (g chunk i j : Nat) : W64 × Flags :=
  let lo := 128 * chunk
  let n := min 128 (m.k - lo)
  let xs := (List.range n).map (fun q =>
    (c.aVal o m i (lo + q)).map (fun x =>
      (x, c.bElem m.bTy m.bPlanes (o.z + g * 256 * m.gstride + (lo + q) * m.pitch + j * m.eb))))
  let p := chunkSum o.round xs
  let f := fmtOf (if m.wide then .f64 else .f32)
  let sa := c.scaleAt m.aGran (o.base + m.aScale) chunk i
  let sb := c.scaleAt m.bGran (o.base + m.bScale + g * 256 * m.gstride) chunk j
  let r := promote f o.round o.sat (f.decode (c.elem m.wide o.d i j)) p.1 sa sb
  (r.1, p.2 ||| r.2)

/-- One chunk of one group promoted into its rows (R53, R181). -/
def Core.macChunk (c : Core) (o : TileOp) (m : MmacFmt) (g lo hi chunk : Nat) : Core × Flags :=
  (positions.filter (fun p => lo ≤ p.1 && p.1 < hi)).foldl (fun (r : Core × Flags) p =>
    let x := r.1.macElem o m g chunk p.1 p.2
    (r.1.setElem m.wide o.d p.1 p.2 x.1, r.2 ||| x.2)) (c, Flags.none)

/-- Planes of A that are zero in every element of a group's rows (R60, R181): of a finite element as they stand after R59, of
an infinity or a NaN as they stand in the image (DEDUCED, log 37). -/
def Core.zeroPlanes (c : Core) (o : TileOp) (m : MmacFmt) (lo hi : Nat) : Nat :=
  let w := (fmtOf m.aTy).w
  let cols := chunkCols m.spn
  let stored := if m.spn = 0 then m.k else m.k / 16 * spN m.spn
  let bits (i k : Nat) : Nat :=
    let at_ := o.x + k / cols * m.stride + 64 * cols * headBytes m.aTy
    let raw := (List.range w).foldl (fun x j =>
      x + leNat (c.readScratch (at_ + j * 8 * cols + i * cols / 8 + k % cols / 8) 1) / 2 ^ (k % cols % 8) % 2 * 2 ^ j) 0
    let r := match c.imageElem m.aTy 0 cols (o.x + k / cols * m.stride) i (k % cols) with
      | .fin .. => roundPlanes w m.aPlanes raw
      | _ => raw
    if r = 2 ^ w then 2 ^ (w - 1) else r
  let all := ((List.range 64).filter (fun i => lo ≤ i && i < hi)).foldl (fun x i => (List.range stored).foldl (fun x k => x ||| bits i k) x) 0
  ((List.range w).filter (fun j => all / 2 ^ j % 2 == 0)).length

/-! ### What each operation does -/

/-- Scratchpad bytes written by an operation, dropped once its team is gone. -/
def State.tileWrite (s : State) (k : Nat) (o : TileOp) (at_ : Nat) (bs : List Byte) : State :=
  if (lookup? s.teams o.team).isSome then s.spadWrite k at_ bs else s

/-- An element read for MLOAD (R176). -/
def mloadElem (t : Ty) (x : W64) : W64 × Flags :=
  (fmtOf (if t = .f64 then .f64 else .f32)).convert .rne false ((fmtOf t).decode x)

def runMload (o : TileOp) (c : Core) : Core × Flags :=
  if o.imm.getLsbD 12 then
    ((List.range 64).foldl (fun c i =>
      c.setSide o.d i (BitVec.ofNat 32 (leNat (c.readScratch (o.x + 4 * i) 4)))
        (BitVec.ofNat 32 (leNat (c.readScratch (o.x + 256 + 4 * i) 4)))) c, Flags.none)
  else
    let p := pitchOf o.ty (o.imm.toNat % 4096)
    positions.foldl (fun r q =>
      let x := mloadElem o.ty (BitVec.ofNat 64 (leNat (c.readScratch (o.x + q.1 * p + q.2 * tyBytes o.ty) (tyBytes o.ty))))
      (r.1.setElem (o.ty == .f64) o.d q.1 q.2 x.1, r.2 ||| x.2)) (c, Flags.none)

/-- A quotient of MSTORE `.norm` rounded once into TYPE (R177). -/
def normQuotient (t : Ty) (mode : Rnd) (sat : Bool) (x y : Fp) : W64 × Flags :=
  let f := fmtOf t
  match x, y with
  | .inf a, .fin b _ _ => f.giveInf (a != b) sat
  | .fin a m _, .fin b 0 _ =>
    if m = 0 then f.nanResult true
    else let r := f.giveInf (a != b) sat; (r.1, r.2 ||| Flags.divzero)
  | x, y => f.div mode sat x y

/-- An element as MSTORE writes it (R177). -/
def mstoreElem (o : TileOp) (c : Core) (i j : Nat) : W64 × Flags :=
  let wide := o.ty == .f64
  let src := fmtOf (if wide then .f64 else .f32)
  let x := src.decode (c.elem wide o.d i j)
  if o.modx then normQuotient o.ty o.round o.sat x (src.decode ((c.rowSumAt o.d i).setWidth 64))
  else (fmtOf o.ty).convert o.round o.sat x

def runMstore (k : Nat) (o : TileOp) (s : State) : State × Flags :=
  let c := s.core k
  if o.imm.getLsbD 12 then
    ((List.range 64).foldl (fun (s : State) i =>
      (s.tileWrite k o (o.x + 4 * i) (leBytes 4 (c.rowMaxAt o.d i).toNat)).tileWrite k o (o.x + 256 + 4 * i)
        (leBytes 4 (c.rowSumAt o.d i).toNat)) s, Flags.none)
  else
    let p := pitchOf o.ty (o.imm.toNat % 4096)
    positions.foldl (fun (r : State × Flags) q =>
      let x := mstoreElem o c q.1 q.2
      (r.1.tileWrite k o (o.x + q.1 * p + q.2 * tyBytes o.ty) (leBytes (tyBytes o.ty) x.1.toNat), r.2 ||| x.2))
      (s, Flags.none)

/-- The column of MSMAX's row: t[j], the row maximum, and the flags (R182). -/
def smaxRow (o : TileOp) (c : Core) (i : Nat) : Core × Flags :=
  let f := fmtOf .f32
  let scale := f.decode (o.imm.setWidth 64)
  let ts := (List.range 64).map (fun j => f.mul .rne false (f.decode (c.elem false o.a i j)) scale)
  let fl := ts.foldl (fun x t => x ||| t.2) Flags.none
  let maxTree := treeSum (fun (x y : W64 × Flags) => let r := fminmax f false x.1 y.1; (r.1, x.2 ||| y.2 ||| r.2)) 6
    (ts.map (fun t => some (t.1, Flags.none)))
  let mx := maxTree.getD (0, Flags.none)
  let m := (c.rowMaxAt o.d i).setWidth 64
  let mn := fminmax f false m mx.1
  let fl := fl ||| mx.2 ||| mn.2
  let low := mn.1 = negInf.setWidth 64
  let sub (x : W64) : W64 × Flags := f.add .rne false (f.decode x) (f.decode mn.1).neg
  let ex (x : W64) : W64 × Flags :=
    let d := sub x
    let r := TFn.exp2.apply .exact false .f32 .rne d.1
    (r.1, d.2 ||| r.2)
  let alpha : W64 × Flags := if low then (0x3F800000, Flags.none) else ex m
  let ps := ts.map (fun t => if low then ((0 : W64), Flags.none) else ex t.1)
  let rs := (treeSum (fun (x y : W64 × Flags) =>
    let r := f.add .rne false (f.decode x.1) (f.decode y.1); (r.1, x.2 ||| y.2 ||| r.2)) 6 (ps.map some)).getD (0, Flags.none)
  let la := f.mul .rne false (f.decode ((c.rowSumAt o.d i).setWidth 64)) (f.decode alpha.1)
  let l := f.add .rne false (f.decode la.1) (f.decode rs.1)
  let fl := fl ||| alpha.2 ||| rs.2 ||| la.2 ||| l.2
  let c' := c.setSide o.d i (low32 mn.1) (low32 l.1)
  (List.range 64).foldl (fun r j =>
    let x := f.mul .rne false (f.decode (c.elem false o.d i j)) (f.decode alpha.1)
    ((r.1.setElem false o.d i j x.1).setElem false o.a i j (ps.getD j (0, Flags.none)).1, r.2 ||| x.2)) (c', fl)

def runMsmax (o : TileOp) (c : Core) : Core × Flags :=
  (List.range 64).foldl (fun r i => let x := smaxRow o r.1 i; (x.1, r.2 ||| x.2)) (c, Flags.none)

/-- MDRAIN to scratchpad: the whole tile at once (R183). -/
def runDrainSpad (k : Nat) (o : TileOp) (s : State) : State × Flags :=
  let c := s.core k
  let f := fmtOf o.ty
  let p := pitchOf o.ty (o.imm.toNat / 2 % 4096)
  positions.foldl (fun (r : State × Flags) q =>
    let at_ := o.x + q.1 * p + q.2 * tyBytes o.ty
    let old := BitVec.ofNat 64 (leNat (c.readScratch at_ (tyBytes o.ty)))
    let x := f.add o.round false (f.decode old) (f.decode (c.elem (o.ty == .f64) o.d q.1 q.2))
    (r.1.tileWrite k o at_ (leBytes (tyBytes o.ty) x.1.toNat), r.2 ||| x.2)) (s, Flags.none)

/-- The head, the significand and the class of an element in a plane image (R173, R174). -/
def headOf (t : Ty) (x : W64) : Nat × Nat :=
  let f := fmtOf t
  let hb := headBytes t
  let neg := x.toNat / 2 ^ (f.ebits + f.fbits) % 2
  let ex := x.toNat / 2 ^ f.fbits % 2 ^ f.ebits
  let r : Nat × Nat := match f.decode x with
    | .inf _ => (1, 0)
    | .nan a => (if a then 3 else 2, 0)
    | .fin _ m _ => (0, m)
  (neg * 2 ^ (8 * hb - 1) + r.1 * 2 ^ (8 * hb - 3) + ex, r.2)

/-- One element placed in a plane image at a place in scratchpad: the bytes it changes. -/
def planeBytes (t : Ty) (cols at_ i k : Nat) (x : W64) (old : Nat → Byte) : List (Nat × Byte) :=
  let hb := headBytes t
  let h := headOf t x
  let heads := (leBytes hb h.1).zipIdx.map (fun p => (at_ + hb * (i * cols + k) + p.2, p.1))
  let planes := (List.range (fmtOf t).w).map (fun j =>
    let b := at_ + 64 * cols * hb + j * 8 * cols + i * cols / 8 + k / 8
    let bit : Byte := (1#8) <<< (k % 8)
    (b, if h.2 / 2 ^ j % 2 = 1 then old b ||| bit else old b &&& ~~~ bit))
  heads ++ planes

/-- PLANES (R174). DESIGN CHOICE (log 95): elements that lie in the image's own bytes are read and written one after another, row by
row across all chunks. -/
def runPlanes (k : Nat) (o : TileOp) (s : State) : State :=
  let n := o.imm.toNat % 2 ^ 16
  let p := 16 * (o.imm.toNat / 2 ^ 16 % 4096)
  let cols := chunkCols (o.imm.toNat / 2 ^ 28 % 4)
  (List.range 64).foldl (fun (s : State) i => (List.range n).foldl (fun (s : State) q =>
    let c := s.core k
    let x := BitVec.ofNat 64 (leNat (c.readScratch (o.x + i * p + q * tyBytes o.ty) (tyBytes o.ty)))
    let at_ := o.z + q / cols * imageStride o.ty cols
    (planeBytes o.ty cols at_ i (q % cols) x (fun b => get 0 c.scratch b)).foldl
      (fun (s : State) y => s.tileWrite k o y.1 [y.2]) s) s) s

/-- Flags of a tile operation, in every strand of its course (R170). -/
def State.tileFlags (s : State) (k : Nat) (o : TileOp) (fl : Flags) : State :=
  s.mapCourseOf k o.slot o.stamp (fun c => c.raiseIn (BitVec.allOnes 32) fl)

/-- The groups of a multiply-accumulate, and where its rows end. -/
def TileOp.groups (o : TileOp) : List (Nat × Nat × Nat) × Nat :=
  if o.kind = .macGrouped then groupsOf 0 0 o.counts else ([(0, 0, 64)], 64)

/-- The chunks of a multiply-accumulate in the order of their promotion, each with its group, that are still to come. -/
def TileOp.chunksLeft (o : TileOp) : List ((Nat × Nat × Nat) × Nat) :=
  (o.groups.1.flatMap (fun g => (List.range (MmacFmt.ofBits o.fa o.exact).chunks).map (fun c => (g, c)))).drop o.chunk

/-- Chunks promoted one after another. -/
def Core.promoteChunks (c : Core) (o : TileOp) (xs : List ((Nat × Nat × Nat) × Nat)) : Core × Flags :=
  xs.foldl (fun (r : Core × Flags) x =>
    let y := r.1.macChunk o (MmacFmt.ofBits o.fa o.exact) x.1.1 x.1.2.1 x.1.2.2 x.2
    (y.1, r.2 ||| y.2)) (c, o.flags)

/-- The end of a multiply-accumulate: the chunks that are left, RAGGED, and the planes it skips. -/
def runMac (k : Nat) (o : TileOp) (s : State) : State :=
  let m := MmacFmt.ofBits o.fa o.exact
  let c := s.core k
  let gs := o.groups
  let r := c.promoteChunks o o.chunksLeft
  let s := ((s.setCore k r.1).tileFlags k o r.2).count 0x12 k ((gs.1.map (fun g => c.zeroPlanes o m g.2.1 g.2.2)).sum)
  if 64 < gs.2 then
    (s.tileFlags k o Flags.ragged).mapCtx o.asid (fun c => { c with ragged := c.ragged + 1 })
  else s

/-- `.clr` of a drain (R183). -/
def State.clearAfter (s : State) (k : Nat) (o : TileOp) : State :=
  if o.modx then s.mapCore k (fun c => let c := c.zeroTile o.d; if o.ty = .f64 then c.zeroTile (o.d + 1) else c) else s

/-- The effect of the operation at the head of the queue; a global drain has had its effect at its home. -/
def State.runTile (s : State) (k : Nat) (o : TileOp) : State :=
  match o.kind with
  | .zero => s.mapCore k (fun c => c.zeroTile o.d)
  | .load => let r := runMload o (s.core k); (s.setCore k r.1).tileFlags k o r.2
  | .store => let r := runMstore k o s; r.1.tileFlags k o r.2
  | .mac | .macSparse | .macGrouped => runMac k o s
  | .smax => let r := runMsmax o (s.core k); (s.setCore k r.1).tileFlags k o r.2
  | .drainSpad => let r := runDrainSpad k o s; (r.1.tileFlags k o r.2).clearAfter k o
  | .planes => runPlanes k o s
  | .drain => s

/-! ### The events (R170, R183) -/

/-- The head of a core's tile queue changed. -/
def State.mapHead (s : State) (k : Nat) (g : TileOp → TileOp) : State :=
  s.mapCore k (fun c => { c with tileQ := match c.tileQ with | o :: os => g o :: os | [] => [] })

/-- A multiply-accumulate that runs promotes its next chunk, its last one excepted, which completes it (R53, R178): what its
flags are is told at completion. -/
def State.nextChunk (s : State) (k : Nat) (o : TileOp) : Option State :=
  match o.kind, o.chunksLeft with
  | .mac, x :: _ :: _ | .macSparse, x :: _ :: _ | .macGrouped, x :: _ :: _ =>
    let r := (s.core k).promoteChunks o [x]
    some ((s.setCore k r.1).mapHead k (fun o => { o with chunk := o.chunk + 1, flags := r.2, slow := o.slow || (s.core k).mv < 650 }))
  | _, _ => none

/-- The engine starts the operation at the head of its queue, or takes up its next chunk. -/
def execTileOperationStart (core : Nat) (s : State) : Host.Outcome State Fault Refusal :=
  event s (match (s.core core).tileQ with
    | o :: _ =>
      if !s.runs core then none
      else if o.started then s.nextChunk core o
      else some (s.mapHead core (fun o => { o with started := true, slow := (s.core core).mv < 650 }))
    | [] => none)

/-- Whether an operation of the core, a part of which has run under over-scaled voltage, replays after a late transition (R64). -/
def State.tileReplay (s : State) (k : Nat) (o : TileOp) : State :=
  if o.slow || (s.core k).mv < 650 then
    let r := Config.lateTransition s.free
    { s with free := s.free + 1 }.mapCourseOf k o.slot o.stamp (fun c => { c with replays := c.replays + (if r then 1 else 0) })
  else s

/-- The operation at the head completes and lowers its counter. -/
def execTileOperationComplete (core : Nat) (s : State) : Host.Outcome State Fault Refusal :=
  event s (match (s.core core).tileQ with
    | o :: os =>
      if o.started && s.runs core && (o.kind != .drain || o.drained) then
        let s := (s.runTile core o).tileReplay core o
        some ((s.mapCore core (fun c => { c with tileQ := os })).complete o.op)
      else none
    | [] => none)

/-- The physical address of element (i, j) of a global drain. -/
def TileOp.drainPa (o : TileOp) (i j : Nat) : Nat :=
  let off := (64 * i + j) * tyBytes o.ty
  o.frames.getD (off / 4096) 0 + off % 4096

/-- The lines of a global drain. -/
def TileOp.drainLines (o : TileOp) : List Nat :=
  o.frames.flatMap (fun f => (List.range 32).map (fun k => lineOf f + k))

/-- A global drain at its home, every line held at once: sums onto a poisoned line are dropped (R183). -/
def State.drain (s : State) (k : Nat) (o : TileOp) : State :=
  let c := s.core k
  let f := fmtOf o.ty
  let bad := o.drainLines.filter s.poison.contains
  let s := o.drainLines.foldl (fun (s : State) l => s.atHome (l * 128)) s
  let r := positions.foldl (fun (r : State × Flags) q =>
    let pa := o.drainPa q.1 q.2
    if bad.contains (lineOf pa) then r
    else
      let old := BitVec.ofNat 64 (r.1.readNat pa (tyBytes o.ty))
      let x := f.add o.round false (f.decode old) (f.decode (c.elem (o.ty == .f64) o.d q.1 q.2))
      ((r.1.writeBytes pa (leBytes (tyBytes o.ty) x.1.toNat)).written pa, r.2 ||| x.2)) (s, Flags.none)
  -- its flags are seen when it completes (R37)
  let s := if r.2 = 0 then r.1 else r.1.noteFlags o.op (BitVec.allOnes 32) r.2
  let s := if bad.isEmpty then s else (s.poisonRead o.asid bad.length).noteFlags o.op (BitVec.allOnes 32) Flags.poisoned
  (s.mapHead k (fun o => { o with drained := true })).clearAfter k o

/-- A global drain is performed once the leases of its lines are over (R242). -/
def execGlobalDrainAtHome (core : Nat) (s : State) : Host.Outcome State Fault Refusal :=
  event s (match (s.core core).tileQ with
    | o :: _ =>
      if o.kind = .drain ∧ o.started ∧ !o.drained then
        let busy := o.drainLines.filter (fun l => !s.leaseOver l)
        if busy.isEmpty then some ((s.endWait o.op).drain core o)
        else if busy.all (fun l => s.leaseWait.contains (o.op, l)) then none
        else some (s.awaitLease o.op busy)
      else none
    | [] => none)

end Sys2Proof.Machine
end

