-- ==== Sys2Proof/Machine/Proposal.lean ====
section
/-! DEFINITION. Proposals, 0x1A0 to 0x1A3 (R203 to R209). -/

namespace Sys2Proof.Machine

/-- A lane's bank as at PROP: y96 to y111 take v96 to v111, and the proposal mask is clear (R204). -/
def Course.propose (c : Course) (L : Nat) : Course :=
  let c := (List.range 16).foldl (fun (c : Course) k => c.writeY k L (c.readV (96 + k) L)) c
  { c with propMask := assign c.propMask L 0, propOpen := c.propOpen ||| laneBit L }

/-- The end of a lane's proposal: its mask and PROPOPEN are clear (R207, R208). -/
def Course.closeProposal (c : Course) (L : Nat) : Course :=
  { c with propMask := assign c.propMask L 0, propOpen := c.propOpen &&& ~~~ (laneBit L) }

/-- The shadow registers whose mask bit is set go to v (R207). -/
def Course.commit (c : Course) (L : Nat) : Course :=
  (List.range 16).foldl (fun (c : Course) k =>
    if (get 0 c.propMask L).getLsbD k then c.writeV (96 + k) L (c.readY k L) else c) c

/-- The decision on a lane's proposal carried out (R207): both counters wrap modulo 2³². -/
def Course.decide (c : Course) (L : Nat) (accept : Bool) : Course :=
  let c := if accept then { c.commit L with accepts := assign c.accepts L (get 0 c.accepts L + 1) } else c
  { c with proposals := assign c.proposals L (get 0 c.proposals L + 1) }.closeProposal L

/-- x ≤ 2^(t / 2^n) for x of [1, 2) between lo / 2^p and hi / 2^p, by the binary digits of the exponent: squaring x moves to the next
digit, and the first digit in which the exponent and the logarithm of x differ decides. None where the bounds do not tell. -/
def belowDigits (p : Nat) : (n t lo hi : Nat) → Option Bool
  | 0, _, lo, hi => if 2 ^ p < lo then some false else if hi ≤ 2 ^ p then some true else none
  | n + 1, t, lo, hi =>
    let lo := lo * lo / 2 ^ p
    let hi := (hi * hi + 2 ^ p - 1) / 2 ^ p
    if t / 2 ^ n % 2 = 1 then
      if hi < 2 ^ (p + 1) then some true
      else if 2 ^ (p + 1) ≤ lo then belowDigits p n (t % 2 ^ n) (lo / 2) ((hi + 1) / 2) else none
    else if 2 ^ (p + 1) ≤ lo then some false
    else if hi < 2 ^ (p + 1) then belowDigits p n t lo hi else none

/-- u ≤ 2^lr for u = m × 2^e and lr = −lm × 2^le, neither zero, compared exactly (R207): with u = x × 2^k, 1 ≤ x < 2, and
lr = −up + t / 2^b, it is x × 2^(k + up) ≤ 2^(t / 2^b). Where bounds of x at 512 binary places do not tell, whole powers do. -/
def belowPower (m : Nat) (e : Int) (lm : Nat) (le : Int) : Bool :=
  let b := (-le).toNat
  let l := lm * 2 ^ le.toNat
  let up := (l + 2 ^ b - 1) / 2 ^ b
  let t := up * 2 ^ b - l
  let j := bitLen m - 1
  let k : Int := e + j + up
  if k < 0 then true
  else if 0 < k then false
  else
    let p := 512 + j
    let x := m * 2 ^ (p - j)
    match belowDigits p b t x x with
    | some r => r
    | none => m ^ 2 ^ b ≤ 2 ^ (t + j * 2 ^ b)

/-- The decision of R207: u = 0 or u ≤ 2^lr, compared exactly, for u in [0, 1]. -/
def accepts (lr u : Fp) : Bool :=
  match lr, u with
  | .inf neg, .fin .. => !neg
  | .fin neg lm le, .fin _ m e => m == 0 || !neg || lm == 0 || belowPower m e lm le
  | _, _ => false

/-- u is a NaN or lies in [0, 1], −0 counting as +0 (R207). -/
def inUnit (u : Fp) : Bool :=
  match u with
  | .fin neg m e => m == 0 || (!neg && !Fp.lt (.fin false 1 0) (.fin false m e))
  | .inf _ => false
  | _ => true

/-- An earlier result of the course that goes to a shadow register has not landed (R207). -/
def State.shadowsPending (s : State) (stamp : Nat) : Bool := s.ops.any (fun o => o.stamp == stamp && o.sym && !o.done)

/-- PROP (R204). -/
def execProp (w : Fields) (s : State) :=
  issueWord w s (fun f s => do
    require (f.exec &&& f.c.propOpen == 0) .proposalMisuse
    .ok { s := s.course f (fun c => (lanesOf f.exec).foldl Course.propose c) })

/-- ACCEPT (R207). -/
def execAccept (w : Fields) (s : State) :=
  issueWord w s (fun f s =>
    if s.shadowsPending f.c.stamp then .error .hold
    else do
      let fm := fmtOf w.ty
      let lr (L : Nat) : Fp := fm.decode (s.a f w L)
      let u (L : Nat) : Fp := fm.decode (s.b f w L)
      require (f.exec &&& ~~~ f.c.propOpen == 0) .proposalMisuse
      require ((lanesOf f.exec).all (fun L => inUnit (u L))) .illegalOperand
      let yes := f.condition w (fun L => accepts (lr L) (u L))
      .ok { s := s.course f (fun c =>
              let c := (lanesOf f.exec).foldl (fun (c : Course) L =>
                (c.decide L (yes.getLsbD L)).raise L (Flags.when ((lr L).isNan || (u L).isNan) Flags.invalid)) c
              c.writeP (predD w) f.exec yes) })

/-- PDROP (R208). -/
def execPdrop (w : Fields) (s : State) :=
  issueWord w s (fun f s =>
    if s.shadowsPending f.c.stamp then .error .hold
    else .ok { s := s.course f (fun c => (lanesOf f.exec).foldl Course.closeProposal c) })

/-- The shadow register that PEEK's A field names, if it names one (R203). -/
def shadowOf (w : Fields) : Option Nat :=
  match w.a with
  | .code c => if 0x60 ≤ c.toNat ∧ c.toNat ≤ 0x6F ∧ (tyWide w.ty = true → c.toNat % 2 = 0) then some (c.toNat - 0x60) else none
  | _ => none

/-- PEEK (R206). -/
def execPeek (w : Fields) (s : State) :=
  issueWord w s (fun f s =>
    match shadowOf w with
    | none => trapOf .illegalOperand
    | some k =>
      let y (L : Nat) : W64 := if tyWide w.ty then pair (f.c.readY (k + 1) L) (f.c.readY k L) else (f.c.readY k L).setWidth 64
      .ok { s := s.course f (f.results w (tyWide w.ty) (fun L => (y L, Flags.none))) })

end Sys2Proof.Machine
end

