-- ==== Sys2Proof/Machine/Registers.lean ====
section
/-! DEFINITION. The context control registers (R211, R212, R318, R328, R371), which SREAD `.ctl`, SWRITE `.ctl` and the
host's context pages (R348) reach. -/

namespace Sys2Proof.Machine

/-- Who may write a control register. -/
inductive CtlAccess where
  | sv | ro
  /-- RO to programs, set by the host while the context is free (R348) -/
  | host
  deriving DecidableEq, Repr

/-- Access and width of the registers that are defined: true for 64 bits. -/
def ctlInfo (i : Nat) : Option (CtlAccess × Bool) :=
  if i = 0x000 then some (.sv, true)
  else if i = 0x001 then some (.sv, false)
  else if 0x100 ≤ i ∧ i ≤ 0x107 then some (.sv, true)
  else if i = 0x108 then some (.sv, false)
  else if 0x110 ≤ i ∧ i ≤ 0x117 then some (.ro, false)
  else if 0x118 ≤ i ∧ i ≤ 0x121 then some (.sv, false)
  else if i = 0x122 then some (.ro, false)
  else if i = 0x124 then some (.sv, true)
  else if i = 0x125 ∨ i = 0x126 then some (.sv, false)
  else if i = 0x127 then some (.sv, true)
  else if i = 0x128 then some (.sv, false)
  else if i = 0x200 ∨ i = 0x201 then some (.sv, true)
  else if i = 0x202 then some (.sv, false)
  else if i = 0x203 ∨ i = 0x204 then some (.host, false)
  else if i = 0x208 then some (.sv, true)
  else if i = 0x209 ∨ i = 0x20A then some (.sv, false)
  else if i = 0x20B then some (.ro, false)
  else if i = 0x20C then some (.sv, true)
  else if i = 0x20D then some (.ro, false)
  else if i = 0x210 then some (.ro, true)
  else if i = 0x211 then some (.ro, false)
  else if i = 0x218 then some (.sv, true)
  else if i = 0x219 then some (.sv, false)
  else if 0x220 ≤ i ∧ i ≤ 0x23F then some (.host, true)
  else if i = 0x300 ∨ i = 0x301 then some (.sv, false)
  else if i = 0x302 then some (.ro, true)
  else none

/-- Units of a counter kind (R371), 0 for a kind that is not defined. -/
def counterUnits (kind : Nat) : Nat :=
  match kind with
  | 0x01 | 0x02 | 0x03 | 0x04 | 0x08 | 0x13 => 4
  | 0x05 => 8
  | 0x06 => 36
  | 0x07 => 18
  | 0x10 | 0x11 | 0x12 => 2048
  | _ => 0

/-- Whether CNTSEL may hold a value (R371). -/
def cntselOk (v : Nat) : Bool := v / 2 ^ 19 == 0 && v / 256 % 2048 < counterUnits (v % 256)

/-- The counter that a CNTSEL names. -/
def State.counter (s : State) (sel : W32) : W64 := get 0 s.counters (sel.toNat % 256 * 2048 + sel.toNat / 256 % 2048)

/-- A power of two from 2 to 65,536. -/
def ringSize (v : Nat) : Bool := (List.range 16).any (fun k => v == 2 ^ (k + 1))

/-- The limits that a register's row states (R211 check 4). -/
def ctlOk (i v : Nat) : Bool :=
  if i = 0x001 then v ≤ 2 ^ 20
  else if 0x100 ≤ i ∧ i ≤ 0x107 then v % 64 == 0
  else if i = 0x108 then ringSize v
  else if i = 0x126 then v < 4
  else if i = 0x128 then 560 ≤ v && v ≤ 650 && v % 10 == 0
  else if i = 0x200 ∨ i = 0x20C then v % 4 == 0
  else if i = 0x202 then 32 ≤ v && v ≤ 65535
  else if i = 0x208 then v % 32 == 0
  else if i = 0x209 then v == 0 || ringSize v
  else if i = 0x300 then v < 2
  else if i = 0x301 then cntselOk v
  else if i = 0x000 ∨ i = 0x124 ∨ i = 0x125 ∨ i = 0x127 ∨ i = 0x201 ∨ i = 0x218 ∨ i = 0x219 then v % 4096 == 0
  else true

/-- A register of a context that is its own state, zero-extended. -/
def Ctx.ctl (c : Ctx) (i : Nat) : W64 :=
  let n (x : W32) : W64 := x.setWidth 64
  if i = 0x000 then c.zdtBase
  else if i = 0x001 then n c.zdtCount
  else if 0x100 ≤ i ∧ i ≤ 0x107 then get 0 c.lqBase (i - 0x100)
  else if i = 0x108 then n c.lqSize
  else if 0x110 ≤ i ∧ i ≤ 0x117 then n (get 0 c.lqHead (i - 0x110))
  else if 0x118 ≤ i ∧ i ≤ 0x11F then n (get 0 c.lqTail (i - 0x118))
  else if i = 0x120 then n c.erate
  else if i = 0x121 then n c.emax
  else if i = 0x124 then c.privBase
  else if i = 0x125 then n c.privStride
  else if i = 0x126 then n c.mode
  else if i = 0x127 then c.slotBase
  else if i = 0x128 then n c.vtarget
  else if i = 0x200 then c.handler
  else if i = 0x201 then c.ptroot
  else if i = 0x202 then n c.lease
  else if i = 0x204 then n c.capRight
  else if i = 0x208 then c.fqBase
  else if i = 0x209 then n c.fqSize
  else if i = 0x20A then n c.fqHead
  else if i = 0x20B then n c.fqTail
  else if i = 0x20C then c.fqCount
  else if i = 0x20D then n c.fqLost
  else if i = 0x218 then c.parkBase
  else if i = 0x219 then n c.parkStride
  else if 0x220 ≤ i ∧ i ≤ 0x23F then get 0 c.grants (i - 0x220)
  else if i = 0x300 then n c.errCtl
  else if i = 0x301 then n c.cntSel
  else 0

/-- A read of a control register by a course of a core, or by the host: none where the index is undefined. ASID reports the
context's number (R327). -/
def State.readCtl (s : State) (asid : Nat) (who : Option (Nat × Course)) (i : Nat) : Option W64 :=
  match ctlInfo i with
  | none => none
  | some _ => some (
      if i = 0x203 then BitVec.ofNat 64 asid
      else if i = 0x122 then (match who with | some p => BitVec.ofNat 64 (s.ecap p.1) | none => 64)
      else if i = 0x210 then (match who with | some p => p.2.trapVa | none => 0)
      else if i = 0x211 then (match who with | some p => p.2.trapInfo.setWidth 64 | none => 0)
      else if i = 0x302 then s.counter (s.ctx asid).cntSel
      else (s.ctx asid).ctl i)

/-- A register of a context set, its value within its limits. A write of MODE that turns EON on refills the budget
(R317). -/
def Ctx.setCtl (c : Ctx) (i : Nat) (v : W64) : Ctx :=
  let n : W32 := v.setWidth 32
  if i = 0x000 then { c with zdtBase := v }
  else if i = 0x001 then { c with zdtCount := n }
  else if 0x100 ≤ i ∧ i ≤ 0x107 then { c with lqBase := assign c.lqBase (i - 0x100) v }
  else if i = 0x108 then { c with lqSize := n }
  else if 0x118 ≤ i ∧ i ≤ 0x11F then { c with lqTail := assign c.lqTail (i - 0x118) n }
  else if i = 0x120 then { c with erate := n }
  else if i = 0x121 then { c with emax := n }
  else if i = 0x124 then { c with privBase := v }
  else if i = 0x125 then { c with privStride := n }
  else if i = 0x126 then
    { c with mode := n, budget := if n.getLsbD 1 && !c.eon then c.emax else c.budget,
             debit := if n.getLsbD 1 && !c.eon then 0 else c.debit }
  else if i = 0x127 then { c with slotBase := v }
  else if i = 0x128 then { c with vtarget := n }
  else if i = 0x200 then { c with handler := v }
  else if i = 0x201 then { c with ptroot := v }
  else if i = 0x202 then { c with lease := n }
  else if i = 0x204 then { c with capRight := n }
  else if i = 0x208 then { c with fqBase := v }
  else if i = 0x209 then { c with fqSize := n }
  else if i = 0x20A then { c with fqHead := n }
  else if i = 0x20C then { c with fqCount := v }
  else if i = 0x218 then { c with parkBase := v }
  else if i = 0x219 then { c with parkStride := n }
  else if 0x220 ≤ i ∧ i ≤ 0x23F then { c with grants := assign c.grants (i - 0x220) v }
  else if i = 0x300 then { c with errCtl := n }
  else if i = 0x301 then { c with cntSel := n }
  else c

/-- The tail of a host queue, LQTAIL0 to LQTAIL7 (R318). -/
def isTail (i : Nat) : Bool := 0x118 ≤ i && i ≤ 0x11F

/-- The value that a write leaves in a register of 32 or 64 bits: all of it, or bits [31:0] alone (R211). -/
def ctlValue (wide all : Bool) (old v : W64) : W64 :=
  if wide then (if all then v else pair (high32 old) (low32 v)) else (low32 v).setWidth 64

/-- A write of a control register by a supervisor: none where R211 traps ILLEGAL_OPERAND. The cycle of a tail's write is kept
until its packets are taken (R308). -/
def State.writeCtl (s : State) (asid i : Nat) (all : Bool) (v : W64) : Option State :=
  match ctlInfo i with
  | some (.sv, wide) =>
    let x := ctlValue wide all ((s.ctx asid).ctl i) v
    let note (c : Ctx) : Ctx := if isTail i then { c with tails := c.tails ++ [(i - 0x118, s.clock, low32 x)] } else c
    if ctlOk i x.toNat then some (s.mapCtx asid (fun c => note (c.setCtl i x))) else none
  | _ => none

/-- A write of a control register by the host (R348): ASID, CAPRIGHT and GRANT while the context is free, else as the
supervisor's; what would trap is dropped. -/
def State.hostCtl (s : State) (asid i : Nat) (v : W64) : State :=
  match ctlInfo i with
  | some (.host, wide) =>
    let x := ctlValue wide true 0 v
    let ok : Bool := if i = 0x203 then x.toNat == asid else if i = 0x204 then x.toNat < 2 else true
    if (s.ctx asid).state = 0 && ok then s.mapCtx asid (fun c => c.setCtl i x) else s
  | _ => (s.writeCtl asid i true v).getD s

end Sys2Proof.Machine
end

