-- ==== Sys2Proof/Machine/Image.lean ====
section
/-! DEFINITION. Capo images: their bytes from a core's state, and a core's state from their bytes (R336 to R338). -/

namespace Sys2Proof.Machine

/-- Bytes written and read in an image (R337). -/
def imageLength : Nat := 0xF6000

/-! ### Words -/

/-- Little-endian 32-bit words as bytes. -/
def wordBytes (ws : List Nat) : List Byte := ws.flatMap (leBytes 4)

/-- A number as `n` words. -/
def natWords (n x : Nat) : List Nat := (List.range n).map (fun k => x / 2 ^ (32 * k) % 2 ^ 32)

/-- Words as one number. -/
def wordsNat : List Nat → Nat
  | [] => 0
  | w :: t => w + 2 ^ 32 * wordsNat t

/-- `n` words from a place in a list. -/
def wordsAt (ws : List Nat) (k n : Nat) : List Nat := (ws.drop k).take n

/-- A list filled with zeros up to a length. -/
def padTo (n : Nat) (ws : List Nat) : List Nat := ws.take n ++ List.replicate (n - ws.length) 0

/-! ### A course slot (R338) -/

/-- An entry of the split table (R39). -/
def Entry.word (e : Entry) : Nat :=
  if e.valid then e.mask.toNat + 2 ^ 32 + e.pc.toNat % 2 ^ 57 * 2 ^ 36 + e.rpc.toNat % 2 ^ 57 * 2 ^ 93 + e.age % 8 * 2 ^ 150
  else 0

/-- A frame of the serial store, at a depth in its fragment's stack. -/
def Frame.word (r : Frame) (depth : Nat) : Nat :=
  r.rpc.toNat / 4 % 2 ^ 55 + r.entry % 8 * 2 ^ 55 + depth % 32 * 2 ^ 58 + 2 ^ 63 + r.held.toNat * 2 ^ 64

/-- A pending group of frame `i`. -/
def Group.word (g : Group) (i : Nat) : Nat := g.pc.toNat / 4 % 2 ^ 55 + i % 32 * 2 ^ 55 + 2 ^ 63 + g.mask.toNat * 2 ^ 64

/-- The frames of a course with their depths. -/
def Course.depths (c : Course) : List (Frame × Nat) :=
  c.frames.zipIdx.map (fun p => (p.1, ((c.frames.take p.2).filter (fun r => r.entry == p.1.entry)).length))

/-- The serial store: 31 frames, 31 pending groups, 88 bytes of zeros. -/
def Course.serialWords (c : Course) : List Nat :=
  let groups := c.frames.zipIdx.flatMap (fun p => p.1.pending.map (fun g => g.word p.2))
  padTo 93 (c.depths.flatMap (fun p => natWords 3 (p.1.word p.2))) ++ padTo 93 (groups.flatMap (natWords 3)) ++
    List.replicate 22 0

/-- The predicates of a lane, p0 among them. -/
def Course.predWord (c : Course) (L : Nat) : Nat :=
  ((List.range 32).map (fun n => if (c.readP n).getLsbD L then 2 ^ n else 0)).sum

/-- The last 64 bytes, each value at a multiple of its own size. -/
def Course.tailWords (c : Course) : List Nat :=
  let saved := c.saved.getD { entry := 0, mask := 0, pc := 0 }
  [c.counts.word.toNat, c.phase.toNat, c.trapCause.toNat, 0] ++ natWords 2 c.trapPc.toNat ++ [c.replays.toNat, 0] ++
    natWords 2 c.trapVa.toNat ++ [c.trapInfo.toNat, saved.mask.toNat] ++ natWords 2 saved.pc.toNat ++ natWords 2 c.cbase

/-- The 512 words of a slot. -/
def Course.slotWords (c : Course) : List Nat :=
  let lanes (g : Nat → Nat) : List Nat := (List.range 32).map g
  (getBlock 0 c.s 0 64).map (·.toNat) ++ lanes c.predWord ++ lanes (fun L => (c.status L).toNat) ++
    (getBlock 0 c.accepts 0 32).map (·.toNat) ++ (getBlock 0 c.proposals 0 32).map (·.toNat) ++
    lanes (fun L => (get 0 c.propMask L).toNat + (if c.propOpen.getLsbD L then 65536 else 0)) ++
    (List.range 8).flatMap (fun n => natWords 8 (get {} c.entries n).word) ++ c.serialWords ++ c.tailWords

/-- An entry of the split table read back; `old` gives what the layout does not hold. -/
def Entry.ofWord (old : Entry) (x : Nat) : Entry :=
  { old with mask := BitVec.ofNat 32 x, valid := true, pc := BitVec.ofNat 64 (x / 2 ^ 36 % 2 ^ 57),
             rpc := BitVec.ofNat 64 (x / 2 ^ 93 % 2 ^ 57), age := x / 2 ^ 150 % 8 }

/-- A value placed in a list that rises by a key, after its equals. -/
def insertBy {α : Type} (key : α → Nat) (x : α) : List α → List α
  | [] => [x]
  | y :: ys => if key x < key y then x :: y :: ys else y :: insertBy key x ys

def sortBy {α : Type} (key : α → Nat) (xs : List α) : List α := xs.foldl (fun ys x => insertBy key x ys) []

/-- The serial store read back: frames by depth, pending groups by their lowest lane. -/
def framesOfWords (ws : List Nat) : List Frame :=
  let fs := (List.range 31).map (fun i => wordsNat (wordsAt ws (3 * i) 3))
  let gs := (List.range 31).map (fun i => wordsNat (wordsAt ws (93 + 3 * i) 3))
  let valid (x : Nat) : Bool := x.testBit 63
  let pending (i : Nat) : List Group :=
    sortBy (fun g => lowest g.mask) ((gs.filter (fun x => valid x && x / 2 ^ 55 % 32 == i)).map (fun x =>
      { mask := BitVec.ofNat 32 (x / 2 ^ 64), pc := BitVec.ofNat 64 (x % 2 ^ 55 * 4) }))
  let frames := (fs.zipIdx.filter (fun p => valid p.1)).map (fun p =>
    (p.1 / 2 ^ 58 % 32, ({ entry := p.1 / 2 ^ 55 % 8, rpc := BitVec.ofNat 64 (p.1 % 2 ^ 55 * 4), pending := pending p.2,
                           held := BitVec.ofNat 32 (p.1 / 2 ^ 64) } : Frame)))
  (sortBy (fun p => p.1) frames).map (·.2)

/-- The counters that %pending shows (R38). -/
def Counts.ofWord (x : Nat) : Counts :=
  { load := x % 64, store := x / 64 % 64, copy := x / 4096 % 64, tile := x / 262144 % 64, queue := x / 16777216 % 64 }

/-- The mask of the lanes whose words satisfy a test. -/
def maskOf (ws : List Nat) (test : Nat → Bool) : Mask :=
  ws.zipIdx.foldl (fun m p => if test p.1 then m ||| laneBit p.2 else m) 0

/-- A course read back from the 512 words of its slot; `old` gives what the layout does not hold. -/
def Course.ofSlot (old : Course) (ws : List Nat) : Course :=
  let n32 (x : Nat) : W32 := BitVec.ofNat 32 x
  let preds := wordsAt ws 64 32
  let status := wordsAt ws 96 32
  let prop := wordsAt ws 192 32
  let table := (List.range 8).map (fun n => (n, wordsNat (wordsAt ws (224 + 8 * n) 8)))
  let tail := wordsAt ws 496 16
  let t (k : Nat) : Nat := tail.getD k 0
  let two (k : Nat) : W64 := BitVec.ofNat 64 (wordsNat (wordsAt tail k 2))
  { old with
    s := ofSeq 0 ((wordsAt ws 0 64).map n32)
    p := ((List.range 31).map (fun n => (n + 1, maskOf preds (fun x => x.testBit (n + 1))))).filter (fun p => p.2 ≠ 0)
    flags := ofSeq 0 (status.map (BitVec.ofNat 8))
    accepts := ofSeq 0 ((wordsAt ws 128 32).map n32)
    proposals := ofSeq 0 ((wordsAt ws 160 32).map n32)
    propMask := ofSeq 0 (prop.map (BitVec.ofNat 16))
    propOpen := maskOf prop (fun x => x.testBit 16)
    super := (status.getD 0 0).testBit 13
    strict := (status.getD 0 0).testBit 10
    exact := (status.getD 0 0).testBit 9
    entries := (table.filter (fun p => p.2.testBit 32)).map (fun p => (p.1, (get {} old.entries p.1).ofWord p.2))
    frames := framesOfWords (wordsAt ws 288 186)
    counts := Counts.ofWord (t 0)
    phase := n32 (t 1)
    trapCause := BitVec.ofNat 8 (t 2)
    trapPc := two 4
    replays := n32 (t 6)
    trapVa := two 8
    trapInfo := n32 (t 10)
    saved := if (status.getD 0 0).testBit 13 then old.saved.map (fun v => { v with mask := n32 (t 11), pc := two 12 }) else none
    cbase := (two 14).toNat }

/-! ### The whole image -/

/-- Scratchpad bytes of a core's split. -/
def Core.scratchBytes (c : Core) : Nat := 1024 * max 64 c.split

/-- SPLIT of the header (R337). -/
def Core.splitCode (c : Core) : Nat := (max 64 c.split - 64) / 32

/-- Revision bytes of an image: `token` names what the core keeps of itself. -/
def revBytes (token lo n : Nat) : List Byte := (List.range n).map (fun i => Config.revisionByte token (lo + i))

/-- A section over the 16 course slots, zeros where a slot holds no course. -/
def Core.slots (c : Core) (size : Nat) (words : Course → List Nat) : List Byte :=
  (List.range 16).flatMap (fun k => match lookup? c.courses k with
    | some x => wordBytes (words x)
    | none => List.replicate size 0)

/-- The sections after the header, bytes 0x1000 up (R336). -/
def Core.sections (c : Core) (token : Nat) : List Byte :=
  let nat (x : W32) : Nat := x.toNat
  let split := c.scratchBytes
  getBlock 0 c.scratch 0 split ++ revBytes token (0x1000 + split) (0x80000 - split) ++
  c.slots 16384 (fun x => (getBlock 0 x.v 0 4096).map nat) ++
  wordBytes ((getBlock 0 c.acc 0 32768).map nat) ++
  (List.range 8).flatMap (fun i =>
    wordBytes ((getBlock negInf c.rowMax (64 * i) 64).map nat ++ (getBlock 0 c.rowSum (64 * i) 64).map nat)) ++
  c.slots 2048 (fun x => (getBlock 0 x.y 0 512).map nat) ++
  c.slots 2048 Course.slotWords ++
  revBytes token 0xF2000 0x4000

/-- The core revision of a header, bits [127:64]. -/
def State.revision (s : State) (core : Nat) : Nat :=
  (Config.stepping core).toNat + 2 ^ 16 * (Config.fuseDigest core s.mgmt.fuses).toNat

/-- A header with a CHECK word (R337). -/
def State.header (s : State) (num : Nat) (c : Core) (asid origin capclock check : Nat) : Nat :=
  let resident := ((List.range 16).map (fun k => if (lookup? c.courses k).isSome then 2 ^ k else 0)).sum
  0x4C5A4350 + 4 * 2 ^ 32 + 2 ^ 48 + s.revision num * 2 ^ 64 + resident * 2 ^ 144 + num % 2048 * 2 ^ 160 +
    c.splitCode * 2 ^ 172 + origin % 4 * 2 ^ 176 + asid % 64 * 2 ^ 178 + imageLength * 2 ^ 192 + check * 2 ^ 224 +
    capclock % 2 ^ 64 * 2 ^ 256

/-- CHECK over the words of an image, its own word 7 left out (R337). -/
def checkWord (ws : List Nat) : W32 :=
  (ws.take 7 ++ ws.drop 8).foldl (fun c w => rng c (BitVec.ofNat 32 w)) 0

/-- The context that an image's ASID names: the resident teams', else the one that captured the core. -/
def State.imageAsid (s : State) (c : Core) (by_ : Nat) : Nat :=
  match c.courses with
  | (_, x) :: _ => (s.grid x.grid).asid
  | [] => by_

/-- The image of a stopped core. -/
def State.image (s : State) (num : Nat) (c : Core) (token by_ origin capclock : Nat) : List Byte :=
  let asid := s.imageAsid c by_
  let rest := List.replicate (0x1000 - 64) 0 ++ c.sections token
  let check := checkWord (natWords 16 (s.header num c asid origin capclock 0) ++ bytesWords rest)
  leBytes 64 (s.header num c asid origin capclock check.toNat) ++ rest

/-- The core that an image gives, over the core that its revision sections name. -/
def Core.ofImage (old : Core) (bytes : List Byte) : Core :=
  let at_ (lo n : Nat) : List Byte := (bytes.drop lo).take n
  let hdr := leNat (at_ 0 64)
  let split := 64 + 32 * (hdr / 2 ^ 172 % 16)
  let vals (lo n : Nat) : List W32 := (bytesWords (at_ lo n)).map (BitVec.ofNat 32)
  let slot (k : Nat) (x : Course) : Course :=
    ({ x with v := ofSeq 0 (vals (0x81000 + 16384 * k) 16384), y := ofSeq 0 (vals (0xE2000 + 2048 * k) 2048) } : Course).ofSlot
      (bytesWords (at_ (0xEA000 + 2048 * k) 2048))
  let side := (List.range 8).map (fun i => vals (0xC1000 + 131072 + 512 * i) 512)
  { old with
    courses := (old.courses.filter (fun p => hdr.testBit (144 + p.1))).map (fun p => (p.1, slot p.1 p.2))
    scratch := ofSeq 0 (at_ 0x1000 (1024 * split))
    split := split
    acc := ofSeq 0 (vals 0xC1000 131072)
    rowMax := ofSeq negInf (side.flatMap (·.take 64))
    rowSum := ofSeq 0 (side.flatMap (·.drop 64)) }

/-- The token whose revision sections an image holds, the latest of several (R336). -/
def State.tokenOf (s : State) (bytes : List Byte) : Option (Nat × Snap) :=
  let x := leNat (bytes.take 64)
  let split := 1024 * (64 + 32 * (x / 2 ^ 172 % 16))
  let matching := s.snaps.reverse.filter (fun p =>
    (bytes.drop (0x1000 + split)).take (0x80000 - split) == revBytes p.1 (0x1000 + split) (0x80000 - split) &&
    (bytes.drop 0xF2000).take 0x4000 == revBytes p.1 0xF2000 0x4000)
  (matching.find? (fun p => p.2.num == x / 2 ^ 160 % 2 ^ 11 && p.2.clock == x / 2 ^ 256 % 2 ^ 64)).or matching.head?

/-- The value that a word of an unknown revision section stands for, below a bound. -/
def imageNat (bytes : List Byte) (k bound : Nat) : Nat := (Config.imageWord bytes k).toNat % bound

/-- What a core of the revision reads in the revision sections of an image that no core of this device wrote: the courses'
teams and identities are free values, and their grid is one of its own (DESIGN CHOICE, log 20). -/
def Snap.ofBytes (bytes : List Byte) (grid asid : Nat) : Snap :=
  let hdr := leNat (bytes.take 64)
  let slots := (List.range 16).filter (fun k => hdr.testBit (144 + k))
  let teamOf (k : Nat) : Nat := imageNat bytes k 16
  let ids := (slots.map teamOf).eraseDups
  let course (k : Nat) : Course :=
    { stamp := k, grid, team := teamOf k, index := ((slots.filter (fun j => j < k && teamOf j == teamOf k)).length),
      launch := Config.imageWord bytes (16 + k), psize := 4 * imageNat bytes 32 32768,
      saved := some { entry := imageNat bytes (40 + k) 8, mask := 0, pc := 0 } }
  let bar (n : Nat) : Barrier :=
    { progress := (Config.imageWord bytes (4 * n)).setWidth 19, flags := (Config.imageWord bytes (4 * n + 1)).setWidth 8,
      bytes := (Config.imageWord bytes (4 * n + 2)).setWidth 24, pending := (Config.imageWord bytes (4 * n + 3)).setWidth 6,
      expected := (Config.imageWord bytes (4 * n + 3)).extractLsb' 6 6, phase := (Config.imageWord bytes (4 * n + 3)).getLsbD 12 }
  let team (t : Nat) : Team :=
    let at_ := 64 + 128 * t
    { grid, asid, linear := (Config.imageWord bytes at_).toNat, rot := imageNat bytes (at_ + 1) 4, slots := slots.filter (fun k => teamOf k == t),
      base := 256 * imageNat bytes (at_ + 2) 1536, size := imageNat bytes (at_ + 3) 393217,
      tiles := (Config.imageWord bytes (at_ + 4)).getLsbD 0, producer := imageNat bytes (at_ + 5) 16,
      weight := imageNat bytes (at_ + 6) 65, barriers := (List.range 16).map (fun b => (b, bar (16 * t + b + 1024))) }
  let g : Grid := { asid, gid := Config.imageWord bytes 33, packet := BitVec.ofNat 512 (ids.length * 2 ^ 96 + 2 ^ 128 + 2 ^ 160),
                    nextTeam := ids.length }
  { num := 2048, core := { courses := slots.map (fun k => (k, course k)) }, teams := ids.map (fun t => (t, team t)),
    grids := [(grid, g)], clock := 0 }

/-- What a core of the revision reads in an image's revision sections. -/
def State.snapOf (s : State) (asid : Nat) (bytes : List Byte) : Snap :=
  match s.tokenOf bytes with
  | some p => p.2
  | none => Snap.ofBytes bytes s.stamp asid

/-- Steps 2 and 3 of R339 for an image read from memory, none where a read of it failed: its status if it is refused. -/
def State.refuseImage (s : State) (target asid : Nat) (hdr bytes : Option (List Byte)) : Option Nat :=
  match hdr with
  | none => some 0x52
  | some h =>
    let x := leNat h
    if x / 2 ^ 64 % 2 ^ 64 ≠ s.revision target then some 0x51
    else match bytes with
      | none => some 0x52
      | some b =>
        if x % 2 ^ 64 ≠ 0x4C5A4350 + 4 * 2 ^ 32 + 2 ^ 48 ∨ x / 2 ^ 192 % 2 ^ 32 ≠ imageLength ∨
          x / 2 ^ 176 % 4 = 0 ∨ x / 2 ^ 176 % 4 = 3 ∨ x / 2 ^ 178 % 64 ≠ asid ∨ 10 < x / 2 ^ 172 % 16 ∨
          x / 2 ^ 224 % 2 ^ 32 ≠ (checkWord (bytesWords b)).toNat
        then some 0x52
        else none

end Sys2Proof.Machine
end

