-- ==== Sys2Proof/Machine/Cards.lean ====
section
/-! DEFINITION. Job cards, chains and footprints of the transfer engine (R187, R193 to R200), and COPY and COPYL, 0x168 and
0x169. -/

namespace Sys2Proof.Machine

/-- A job card (R195). -/
structure Card where
  src     : Nat
  srclen  : Nat
  dst     : Nat
  dstlen  : Nat
  mask    : Nat
  shandle : W32
  dhandle : W32
  stages  : List Nat
  nstage  : Nat
  sspace  : Bool
  csrc    : Nat
  cdst    : Nat
  cround  : Rnd
  csat    : Bool
  doneb   : Nat
  done    : Nat
  idx     : Nat
  loop    : Nat
  step    : Nat
  fullb   : Nat
  emptyb  : Nat
  slots   : Nat
  cpl     : Nat
  reserved : Bool

def Card.ofBits (r : BitVec 512) : Card :=
  let n := field r 344 3
  { src := field r 0 64, srclen := field r 64 32, dst := field r 96 64, dstlen := field r 160 32, mask := field r 192 64,
    shandle := BitVec.ofNat 32 (field r 256 32), dhandle := BitVec.ofNat 32 (field r 288 32),
    stages := (List.range (min n 6)).map (fun i => field r (320 + 4 * i) 4), nstage := n,
    sspace := r.getLsbD 347, csrc := field r 352 4, cdst := field r 356 4, cround := Encoding.rndOfCode (field r 360 2),
    csat := r.getLsbD 362, doneb := field r 364 4, done := field r 368 2, idx := field r 384 32, loop := field r 416 16,
    step := field r 448 32, fullb := field r 480 4, emptyb := field r 484 4, slots := field r 488 2 + 1,
    cpl := field r 490 15,
    reserved := field r 505 7 != 0 || field r 432 16 != 0 || field r 370 14 != 0 || r.getLsbD 363 || field r 348 4 != 0 }

def Card.first (c : Card) : Nat := c.stages.headD 12
def Card.last (c : Card) : Nat := c.stages.getLastD 12
def Card.has (c : Card) (s : Nat) : Bool := c.stages.contains s

/-- A coded source: read-linear with a handle. -/
def Card.codedSource (c : Card) : Bool := c.first == 0 && c.shandle != 0

/-- Raw bytes are moved: read-linear feeds write-memory or write-scratch directly (R196). -/
def Card.raw (c : Card) : Bool := c.first == 0 && c.shandle == 0 && c.nstage == 2 && (c.last == 9 || c.last == 8)

/-- The index list's offset and count. -/
def Card.idxOff (c : Card) : Nat := c.idx % 2 ^ 19
def Card.idxCount (c : Card) : Nat := c.idx / 2 ^ 19
def Card.indexed (c : Card) : Bool := c.has 6 || c.has 7
def Card.nsrc (c : Card) : Nat := c.idx % 512
def Card.slot (c : Card) : Nat := c.idx % 256

/-! ### Tensors (R187) -/

structure Tensor where
  base   : Nat
  ty     : Ty
  rank   : Nat
  ext    : List Nat
  stride : List Nat
  box    : List Nat
  ok     : Bool

def Tensor.ofBits (r : BitVec 512) : Tensor :=
  let ty := tyAt (field r 64 4)
  let size := tyBytes ty
  let rank := field r 68 4
  let ext := [field r 96 32, field r 128 32, field r 160 32]
  let stride := [size, field r 192 64, field r 256 64]
  let box := [field r 320 16, field r 336 16, field r 352 16]
  let base := field r 0 64
  { base, ty, rank, ext, stride, box,
    ok := field r 368 144 == 0 && field r 72 24 == 0 && field r 64 4 ≤ 13 && 1 ≤ rank && rank ≤ 3 &&
      ext.all (1 ≤ ·) && box.all (1 ≤ ·) && stride.all (· % size == 0) && (2 ≤ rank || box.getD 1 1 == 1) &&
      (3 ≤ rank || box.getD 2 1 == 1) && base % size == 0 && base < 2 ^ 57 }

def Tensor.at_ (t : Tensor) (k : List Nat) : Nat := t.base + ((t.stride.zip k).map (fun p => p.1 * p.2)).sum
def Tensor.count (t : Tensor) : Nat := t.box.foldl (· * ·) 1

/-! ### Chains (R196, R197) -/

/-- What flows from one stage to the next. -/
inductive Flow where
  | elems (t : Ty)
  | source
  | dest
  | planes
  | ended
  deriving DecidableEq, Repr

/-- The element type of a compressed array's descriptor. -/
def zTy (r : BitVec 512) : Ty := if field r 68 4 = 9 then .f64 else .f32

/-- What the first stage gives. -/
def Card.opening (c : Card) (sdesc : BitVec 512) : Option Flow :=
  match c.first with
  | 0 => some (if c.shandle = 0 then .elems (tyAt c.csrc) else .source)
  | 1 => some (.elems (Tensor.ofBits sdesc).ty)
  | 6 | 11 => some (.elems (tyAt c.csrc))
  | _ => none

/-- What a later stage gives, where it takes what flows to it; `fin` marks the last stage. -/
def Card.stageFlow (c : Card) (sdesc ddesc : BitVec 512) (fin : Bool) (st : Nat) (x : Flow) : Option Flow :=
  match st, x, fin with
  | 2, .source, false => some (.elems (zTy sdesc))
  | 4, .elems t, false => if t = tyAt c.csrc then some (.elems (tyAt c.cdst)) else none
  | 3, .elems t, false => if c.dhandle ≠ 0 ∧ t = zTy ddesc then some .dest else none
  | 5, .elems t, false => if tyFloat t then some .planes else none
  | 7, .elems _, true => some .ended
  | 8, .elems _, true => some .ended
  | 8, .planes, true => some .ended
  | 9, .elems _, true => some .ended
  | 9, .dest, true => some .ended
  | 10, .elems t, true => if t = .f32 ∨ t = .f64 then some .ended else none
  | _, _, _ => none

def Card.flows (c : Card) (sdesc ddesc : BitVec 512) : List Nat → Flow → Bool
  | [], x => x == .ended
  | st :: sts, x =>
    match c.stageFlow sdesc ddesc sts.isEmpty st x with
    | some y => c.flows sdesc ddesc sts y
    | none => false

/-- R197 for a COPY, or a COPYL. -/
def Card.legal (c : Card) (sdesc ddesc : BitVec 512) (loops : Bool) : Bool :=
  2 ≤ c.nstage && c.nstage ≤ 6 && c.stages.eraseDups.length == c.stages.length &&
    (c.raw || (match c.opening sdesc with | some x => c.flows sdesc ddesc c.stages.tail x | none => false)) &&
    (!c.has 11 || c.stages.getD 1 12 == 9) && !(c.indexed && (c.has 11 || c.has 10)) &&
    (!loops || (c.first != 11 && c.last == 8 && c.mask == 0))

/-- The element type that reaches the last stage. -/
def Card.lastTy (c : Card) (sdesc : BitVec 512) : Ty :=
  if c.has 4 then tyAt c.cdst
  else if c.has 2 then zTy sdesc
  else if c.first = 1 then (Tensor.ofBits sdesc).ty
  else tyAt c.csrc

/-- Whether CSRC is used. -/
def Card.usesCsrc (c : Card) : Bool :=
  c.has 4 || c.first == 6 || c.first == 11 || (c.first == 0 && c.shandle == 0 && !c.raw)

/-- STEP as a signed number, and as three signed steps of 10 bits. -/
def signedBits (n x : Nat) : Int := if 2 ^ (n - 1) ≤ x % 2 ^ n then (x % 2 ^ n : Int) - 2 ^ n else (x % 2 ^ n : Int)

def Card.iters (c : Card) : Nat := max c.loop 1

/-- The source of an iteration, in bytes or blocks: SRC + i × STEP. -/
def Card.srcAt (c : Card) (i : Nat) : Int := (c.src : Int) + (if c.loop = 0 then 0 else i * signedBits 32 c.step)

/-- The elements that the first stages of an iteration give (R196). -/
def Card.elements (c : Card) (sdesc : BitVec 512) : Nat :=
  match c.first with
  | 0 => if c.shandle = 0 then c.srclen / tyBytes (tyAt c.csrc)
    else match ZArray.ofBits sdesc with | some z => c.srclen * z.shape.count | none => 0
  | 1 => (Tensor.ofBits sdesc).count
  | 6 => c.idxCount
  | _ => c.srclen / tyBytes (tyAt c.csrc)

/-- The limits of R195, R196 and R198, and the extent of the regions of the issuing team of `size` bytes. -/
def Card.limits (c : Card) (sdesc : BitVec 512) (loops : Bool) (size progress : Nat) : Bool :=
  let last : Int := c.srcAt (c.iters - 1)
  (c.first != 1 || c.srclen == 0) && (!c.has 5 || c.elements sdesc % 64 == 0) &&
    (!(c.first == 0 && c.shandle == 0 && c.sspace) || (0 ≤ last && last + c.srclen ≤ size)) &&
  c.done != 3 && (!c.usesCsrc || c.csrc ≤ 13) && (!c.has 4 || c.cdst ≤ 13) &&
    (!c.has 11 || ((c.csrc == 8 || c.csrc == 9) && 1 ≤ c.nsrc && c.nsrc ≤ 256)) &&
    (!c.indexed || (c.idxOff % 4 == 0 && 1 ≤ c.idxCount && c.idxOff + 4 * c.idxCount ≤ size)) &&
    (!(c.first == 0 && c.shandle == 0 && c.sspace) || c.src + c.srclen ≤ size) &&
    (!(c.last == 8 && c.mask == 0) || c.dst + (if loops then c.slots else 1) * c.dstlen ≤ size) &&
    (c.done != 2 || 16 * c.cpl + 32 ≤ size) && (c.done != 1 || 16 * progress + 32 ≤ size || progress == 0) &&
    (if loops then 1 ≤ c.loop && c.fullb + c.slots ≤ 16 && c.emptyb + c.slots ≤ 16 &&
        (c.fullb + c.slots ≤ c.emptyb || c.emptyb + c.slots ≤ c.fullb) && (c.first != 1 || c.step < 2 ^ 30)
     else c.loop == 0) &&
    (c.first != 1 || (Tensor.ofBits sdesc).ok)

/-! ### Footprints (R198, R200) -/

/-- A region: 0 for the context's memory or 1 + the core whose scratchpad it is, its start and its end. -/
structure Region where
  space : Nat
  lo    : Nat
  hi    : Nat
  deriving DecidableEq, Repr

def Region.meets (a b : Region) : Bool := a.space == b.space && a.lo < b.hi && b.lo < a.hi

/-- The destination of an iteration. -/
def Card.dstAt (c : Card) (i : Nat) : Nat := if c.loop = 0 then c.dst else c.dst + i % c.slots * c.dstlen

/-- A hull of ranges that advance by STEP over the iterations, the gaps between them included (DESIGN CHOICE, log 100). -/
def Card.hull (c : Card) (space : Nat) (n : Nat) (base : Int → Int) : Region :=
  let a := base (c.srcAt 0)
  let b := base (c.srcAt (c.iters - 1))
  { space, lo := (min a b).toNat, hi := (max a b + n).toNat }

/-- The read footprint. -/
def Card.reads (c : Card) (sdesc : BitVec 512) (core base : Nat) : List Region :=
  match c.first with
  | 0 =>
    if c.shandle ≠ 0 then
      match ZArray.ofBits sdesc with
      | some z => [c.hull 0 (c.srclen * z.shape.bytes) (fun x => z.base + x * z.shape.bytes)]
      | none => []
    else if c.sspace then [c.hull (1 + core) c.srclen (fun x => x + base)]
    else [c.hull 0 c.srclen id]
  | 1 =>
    let t := Tensor.ofBits sdesc
    [{ space := 0, lo := t.base, hi := t.at_ (t.ext.map (· - 1)) + tyBytes t.ty }]
  | 6 => [c.hull 0 c.srclen id]
  | 11 => [{ space := 0, lo := c.src, hi := c.src + c.nsrc * c.srclen }, { space := 0, lo := c.dst, hi := c.dst + c.dstlen }]
  | _ => []

/-- The write footprint; `rs` are the scratchpads that a write-scratch stage reaches. -/
def Card.writes (c : Card) (ddesc : BitVec 512) (rs : List (Nat × Nat)) : List Region :=
  match c.last with
  | 8 => rs.map (fun r => { space := 1 + r.1, lo := r.2 + c.dst, hi := r.2 + c.dst + (if c.loop = 0 then 1 else c.slots) * c.dstlen })
  | 10 => [{ space := 0, lo := c.dst + c.slot * c.dstlen, hi := c.dst + (c.slot + 1) * c.dstlen }]
  | 9 =>
    if c.has 3 then
      match ZArray.ofBits ddesc with
      | some z => [{ space := 0, lo := z.blockVa c.dst, hi := z.blockVa (c.dst + c.dstlen) }]
      | none => []
    else [{ space := 0, lo := c.dst, hi := c.dst + c.dstlen }]
  | _ => [{ space := 0, lo := c.dst, hi := c.dst + c.dstlen }]

/-! ### Receivers of write-scratch (R199) -/

/-- The team of a grid with the lowest %team on a core, or on the core to which a binding forwards its traffic (R342). -/
def State.receiver (s : State) (grid core : Nat) : Option (Nat × Team) :=
  let core := (s.core core).binding.getD core
  ((s.teams.filter (fun p => p.2.grid == grid && p.2.core == core)).foldl (fun (b : Option (Nat × Team)) p =>
    match b with
    | some q => if p.2.linear < q.2.linear then some p else some q
    | none => some p) none)

/-- The teams that a job's write-scratch reaches, and whether a named core is skipped. DESIGN CHOICE (log 99): they are found anew at
each chunk and at the arrival. -/
def State.receivers (s : State) (c : Card) (grid team core : Nat) : List (Nat × Team) × Bool :=
  if c.mask = 0 then
    (match lookup? s.teams team with | some t => [(team, t)] | none => [], false)
  else
    let cores := ((List.range 64).filter (fun k => c.mask / 2 ^ k % 2 == 1)).map (fun k => sectorOf core * 64 + k)
    let found := cores.map (fun k => (s.receiver grid k).bind (fun t => if c.dst + c.dstlen ≤ t.2.size then some t else none))
    (found.filterMap id, found.any Option.isNone)

/-! ### COPY and COPYL (R193, R194) -/

/-- A sector's jobs. -/
def State.jobsOf (s : State) (sector : Nat) : List Job := s.jobs.filter (fun j => sectorOf j.core == sector)

/-- The descriptor of a handle that the chain uses, of a kind. -/
def State.cardDesc (s : State) (f : Frag) (use : Bool) (kind : Nat) (h : W32) : Except Stop (BitVec 512 × Bool) :=
  if use then s.handle f f.low kind h else .ok (0, false)

/-- Compressed arrays that a chain names keep the limits of R252. -/
def arrayOk (use : Bool) (r : BitVec 512) : Except Stop Unit := require (!use || (ZArray.ofBits r).isSome) .illegalOperand

/-- The rest of the checks of R194 on a card with its descriptors, then the job enters the sector's table. DESIGN CHOICE (log 96):
the limits of an array descriptor are checked before the chain, those of a tensor descriptor after it. -/
def State.submit (s : State) (f : Frag) (loops : Bool) (bits sdesc ddesc : BitVec 512) : Except Stop Effect := do
  let t := s.teamOf f
  let c := Card.ofBits bits
  arrayOk c.codedSource sdesc
  arrayOk (c.has 3 && c.dhandle != 0) ddesc
  require (c.legal sdesc ddesc loops) .illegalChain
  require (c.limits sdesc loops t.size (t.barrier c.doneb).progress.toNat) .illegalOperand
  let bars := (if c.done = 1 then [c.doneb] else []) ++
    (if loops then (List.range c.slots).flatMap (fun k => [c.fullb + k, c.emptyb + k]) else [])
  require (bars.all (fun b => (t.barrier b).expected != 0)) .barrierMisuse
  let rs := (s.receivers c f.c.grid f.c.team f.core).1.map (fun p => (p.2.core, p.2.base))
  let shared := (c.writes ddesc rs).any (fun r => r.space == 0 &&
    (s.grid f.c.grid).regions.any (fun q => r.lo < q.1 + q.2 && q.1 < r.hi))
  if f.c.det && !f.token && shared && c.last != 10 then .error .hold
  else
    let j : Job :=
      { id := f.op, core := f.core, slot := f.slot, stamp := f.c.stamp, team := f.c.team, linear := t.linear,
        base := t.base, grid := f.c.grid, gid := s.gridId f.c.grid, asid := f.asid, strict := f.c.strict, card := bits,
        sdesc, ddesc, state := .queued,
        indices := if c.indexed then (List.range c.idxCount).map (fun k => s.spadNat f.core (t.base + c.idxOff + 4 * k) 4)
          else [],
        phases := if loops then (List.range c.slots).map (fun k => (t.barrier (c.emptyb + k)).phases) else [] }
    .ok { s := { s with jobs := s.jobs ++ [j] }, kind := .copy f.op, shared := f.c.det && shared && c.last != 10 }

/-- The checks of R194 up to the card's descriptors. -/
def copy (loops : Bool) (w : Fields) (s : State) : Host.Outcome State Fault Refusal :=
  issueWord w s (fun f s => do
    let t := s.teamOf f
    require (t.producer == f.c.index) .notProducer
    let a := (s.scalarA f w .n32).toNat
    if a % 64 ≠ 0 then trapAt .misaligned { va := a, lane := f.low }
    if t.size < a + 64 then trapAt .permission { va := a, lane := f.low }
    if !s.scratchSettled f.c.stamp || 256 ≤ (s.jobsOf (sectorOf f.core)).length then .error .hold
    else
      let bits : BitVec 512 := BitVec.ofNat 512 (s.spadNat f.core (t.base + a) 64)
      let c := Card.ofBits bits
      require (!c.reserved) .reservedField
      let tensor := c.first == 1
      let x ← s.cardDesc f (tensor || c.codedSource) (if tensor then 2 else 1) c.shandle
      let s := if x.2 then s.flagIssue f f.low else s
      let y ← (s.cardDesc f (c.has 3 && c.dhandle != 0) 1 c.dhandle).mapError (Stop.afterRead x.2 s)
      let s := if y.2 then s.flagIssue f f.low else s
      (s.submit f loops bits x.1 y.1).mapError (Stop.afterRead (x.2 || y.2) s))

def execCopy (w : Fields) (s : State) := copy false w s
def execCopyl (w : Fields) (s : State) := copy true w s

end Sys2Proof.Machine
end

