-- ==== Sys2Proof/Machine/Ports.lean ====
section
/-! DEFINITION. What arrives at the port of a core: performed there, or kept, spilled to the context's ring or held back while the
core stands still (R341). -/

namespace Sys2Proof.Machine

/-- Flits that a port keeps of its own. -/
def portRoom : Nat := 512

/-- Spilled flits that a core's ring holds: 32 bytes each. -/
def State.ringRoom (s : State) (asid : Nat) : Nat := (s.ctx asid).parkStride.toNat / 32

/-- A spilled flit written to its place in the core's ring, none where the ring is full, absent or not writable. -/
def State.spill (s : State) (core asid : Nat) (n : Nat) : Option State :=
  let c := s.ctx asid
  if s.ringRoom asid ≤ n then none
  else
    let va := c.parkBase.toNat + core * c.parkStride.toNat + 32 * (n % s.ringRoom asid)
    (s.writeVia asid va ((List.range 32).map (fun k => Config.flitByte (s.free + k)))).map (fun s => { s with free := s.free + 32 })

/-- Flits that a port holds. -/
def State.portFlits (s : State) (core : Nat) : Nat := ((s.core core).parked.map (fun p => p.item.flits)).sum

/-- Whether a core, or its port with the ring of a context, takes `n` flits. -/
def State.portTakes (s : State) (core asid n : Nat) : Bool :=
  s.runs core || s.portFlits core + n ≤ portRoom + s.ringRoom asid

/-- What arrives at a stopped core's port is kept there, or spilled beyond its room; none where it is held back. -/
def State.parkAt (s : State) (core asid : Nat) (x : ParkItem) : Option State :=
  let n := s.portFlits core
  let first := max n portRoom - portRoom
  ((List.range (n + x.flits - max n portRoom)).foldlM (fun (s : State) i => s.spill core asid (first + i)) s).map
    (fun s => s.mapCore core (·.park x))

/-- Data or an engine's act performed at the team that it names, dropped once the team is gone (R202). -/
def State.performItem (s : State) : ParkItem → State
  | .data team at_ bs => match lookup? s.teams team with
    | some t => s.spadWrite t.core at_ bs
    | none => s
  | .count team bar n => s.actBarrier team bar (·.countDown n)
  | .arrive team bar => s.actBarrier team bar Barrier.engineArrive
  | .answer _ | .xchg _ | .wake _ => s

/-- Data or an engine's act reaches the core of a team: performed there, or kept at its port. -/
def State.toPort (s : State) (team asid : Nat) (x : ParkItem) : State :=
  match lookup? s.teams team with
  | none => s
  | some t => if s.runs t.core then s.performItem x
    else (s.parkAt t.core asid x).getD (s.mapCore t.core (·.park x))

/-- A core's scratchpad as it will be once its parked data has been delivered. -/
def State.spadView (s : State) (core : Nat) : Core :=
  (s.core core).parked.foldl (fun (c : Core) p => match p.item with
    | .data _ at_ bs => c.writeScratch at_ bs
    | _ => c) (s.core core)

end Sys2Proof.Machine
end

