-- ==== Sys2Proof/Machine/Engine.lean ====
section
/-! DEFINITION. The running of a transfer job: its chunks, its records, its faults and its completion (R196, R198 to R202,
R333). -/

namespace Sys2Proof.Machine

def Job.c (j : Job) : Card := .ofBits j.card

def State.setJob (s : State) (j : Job) : State := { s with jobs := s.jobs.map (fun k => if k.id = j.id then j else k) }

/-- Where a job's team is, which a restore may have moved (R342). -/
def State.jobCore (s : State) (j : Job) : Nat :=
  match lookup? s.teams j.team with
  | some t => t.core
  | none => j.core

/-! ### Progress records and fault records (R201) -/

def JobState.code : JobState → Nat
  | .queued => 0 | .running => 1 | .faulted => 3

/-- The record of a job under a STATE code. -/
def Job.record (j : Job) (state : Nat) : List Byte :=
  leBytes 4 (state + 256 * (match j.cause with | some c => c.code.toNat | none => 0) + 65536 * j.stage +
    2 ^ 20 * j.missed.toNat) ++ leBytes 4 j.iter ++ leBytes 4 j.srcDone ++ leBytes 4 j.dstDone ++ leBytes 4 j.chunkSrc ++
    leBytes 4 j.chunkDst ++ leBytes 8 j.faultVa

/-- Where a job's progress record lies in its team's allocation, ÷ 16; 0 for none. -/
def State.recordAt (s : State) (j : Job) : Nat :=
  match j.c.done with
  | 1 => ((s.team j.team).barrier j.c.doneb).progress.toNat
  | 2 => j.c.cpl
  | _ => 0

/-- A core that a job's write-scratch names receives nothing (R199). -/
def State.misses (s : State) (j : Job) : Bool := j.c.last == 8 && (s.receivers j.c j.grid j.team j.core).2

/-- The progress record written, dropped once the team is gone or where it would leave the allocation. A core that is skipped when
it is written shows in it (R199). -/
def State.progress (s : State) (j : Job) (state : Nat) : State :=
  match lookup? s.teams j.team with
  | none => s
  | some t =>
    let at_ := 16 * s.recordAt j
    if (j.c.done = 1 ∧ at_ = 0) ∨ (j.c.done ≠ 1 ∧ j.c.done ≠ 2) ∨ t.size < at_ + 32 then s
    else s.toPort j.team j.asid (.data j.team (t.base + at_) (({ j with missed := j.missed || s.misses j } : Job).record state))

/-- A fault record of a job (R333). -/
def State.jobReport (s : State) (j : Job) (kind : Nat) : State :=
  s.report j.asid { kind, code := match j.cause with | some c => c.code.toNat | none => 0, va := j.faultVa, grid := j.gid,
                    core := j.core, team := j.linear, recoff := s.recordAt j }

/-! ### The barrier of a job (R154, R199) -/

/-- The teams whose DONEB barrier a job acts on. -/
def State.jobTeams (s : State) (j : Job) : List Nat :=
  if j.c.done ≠ 1 then []
  else if j.c.last = 8 then (s.receivers j.c j.grid j.team j.core).1.map (·.1) else [j.team]

/-- Bytes performed at the destination counted down (R154). -/
def State.jobBytes (s : State) (j : Job) (n : Nat) : State :=
  if n = 0 then s else (s.jobTeams j).foldl (fun (s : State) t => s.toPort t j.asid (.count t j.c.doneb n)) s

/-- The arrival on the full barrier of the slot of an iteration (R198). -/
def State.fullArrival (s : State) (j : Job) : State :=
  s.toPort j.team j.asid (.arrive j.team (j.c.fullb + j.iter % j.c.slots))

/-- A job leaves the table: its final record, its last arrivals, its copy counter and its flags (R37, R200). -/
def State.endJob (s : State) (j : Job) (state : Nat) : State :=
  let s := s.progress j state
  let s := if j.c.loop ≠ 0 ∧ state = 2 then s.fullArrival j else s
  let s := (s.jobTeams j).foldl (fun (s : State) t => s.toPort t j.asid (.arrive t j.c.doneb)) s
  { s.noteFlags j.id (BitVec.allOnes 32) j.flags with jobs := s.jobs.filter (fun k => k.id != j.id) }.complete j.id

/-- The bytes that a job posts over its whole run (R202). -/
def Job.posted (j : Job) : Nat :=
  if j.c.loop ≠ 0 then 0
  else if j.c.has 3 then
    match ZArray.ofBits j.ddesc with
    | some z => j.c.dstlen * z.shape.bytes
    | none => 0
  else j.c.dstlen

/-- A job is abandoned (R202): the rest of its bytes counted down, its record, its arrival, its completion. -/
def State.abandon (s : State) (j : Job) : State := (s.jobBytes j (j.posted - j.moved)).endJob j 4

/-! ### Accesses of the engine -/

/-- Why an engine access fails: cause, address, and whether the walk met poison. -/
structure EngFault where
  cause : Cause
  va    : Nat
  walkPoison : Bool := false

/-- The frame of an engine's access: over a link that is down it is out of scope (R200, R354, R356). -/
def State.engPage (s : State) (j : Job) (write : Bool) (va : Nat) : Except EngFault Nat :=
  if 2 ^ 57 ≤ va then .error { cause := .pageFault, va }
  else match s.translateIn (sectorOf j.core) j.asid va with
    | .absent => .error { cause := .pageFault, va }
    | .poisoned => .error { cause := .pageFault, va, walkPoison := true }
    | .page p =>
      if !(if write then p.write else p.read) then .error { cause := .permission, va }
      else if s.linkDown p.pa then .error { cause := .scopeUnreachable, va }
      else .ok p.pa

/-- A neighbour's aperture refuses an access of the engine (R355). -/
def State.engLost (s : State) (va pa : Nat) : Bool :=
  match homeOf pa with
  | .peer _ => Config.peerRefusesEngine s.free va
  | _ => false

/-- Bytes read by the engine, with the lines that give poison, those that a neighbour refuses among them, and all lines read. -/
def State.engRead (s : State) (j : Job) (va n : Nat) : Except EngFault (List Byte × List Nat × List Nat) := do
  let xs ← (pieces va n).mapM (fun p => do
    let pa ← s.engPage j false p.1
    let lost := s.engLost p.1 pa
    let bad := s.poisoned pa || lost
    if bad && j.strict then .error { cause := .poison, va := p.1 }
    else .ok (if lost then List.replicate p.2 (0 : Byte) else s.readBytes pa p.2, if bad then [lineOf pa] else [], lineOf pa))
  .ok (xs.flatMap (·.1), xs.flatMap (·.2.1), xs.map (·.2.2))

/-- A number as an address: negative ones wrap. -/
def wrapVa (x : Int) : Nat := (x % (2 ^ 64 : Int)).toNat

/-! ### Units of a chunk (R201) -/

def Job.z (j : Job) : ZShape := match ZArray.ofBits j.sdesc with | some z => z.shape | none => { dim := 1, wide := false, rate := 4 }
def Job.dz (j : Job) : ZShape := match ZArray.ofBits j.ddesc with | some z => z.shape | none => { dim := 1, wide := false, rate := 4 }

/-- Elements per source step: the elements of a block for a coded source. -/
def Job.perStep (j : Job) : Nat := if j.c.codedSource then j.z.count else 1

/-- Source units per step: bytes of an element for read-linear. -/
def Job.unit (j : Job) : Nat := if j.c.first = 0 ∧ j.c.shandle = 0 ∧ !j.c.raw then tyBytes (tyAt j.c.csrc) else 1

/-- The steps of one iteration: bytes of SRCLEN that make no whole element are not read (DESIGN CHOICE, log 97). -/
def Job.total (j : Job) : Nat :=
  let c := j.c
  match c.first with
  | 0 => c.srclen / j.unit
  | 1 => (Tensor.ofBits j.sdesc).count
  | 6 => c.idxCount
  | _ => c.srclen / tyBytes (tyAt c.csrc)

/-- Bytes of an element that the last stage takes. -/
def Job.lastSize (j : Job) : Nat := if j.c.raw then 1 else tyBytes (j.c.lastTy j.sdesc)

/-- Bits that an element takes in a plane image, and the columns of the image that to-planes lays out (R173, R196). -/
def Job.planeBits (j : Job) : Nat := 8 * headBytes (j.c.lastTy j.sdesc) + (fmtOf (j.c.lastTy j.sdesc)).w
def Job.planeCols (j : Job) : Nat := j.total * j.perStep / 64

/-- The steps of a chunk: at most 4,096 destination bytes, and whole blocks. -/
def Job.chunkSteps (j : Job) : Nat :=
  let left := j.total - j.srcDone / j.unit
  let n :=
    if j.c.has 5 then 32768 / j.planeBits / j.perStep
    else if j.c.has 3 then 4096 / j.dz.bytes * j.dz.count / j.perStep
    else 4096 / (j.perStep * j.lastSize)
  min left (max n 1)

/-! ### The first stage -/

/-- What reading a chunk gives: the state, raw bytes or elements, poisoned lines met, the lines read, flags. -/
structure Taken where
  s     : State
  bytes : List Byte := []
  elems : List W64 := []
  poisoned : Nat := 0
  lines : List Nat := []
  flags : Flags := 0

/-- Why a chunk's source is not read: a fault, or write-backs of decoded blocks that wait, with their notes (R242, R263). -/
inductive TakeStop where
  | fault (e : EngFault)
  | waits (notes : Option State)

/-- Elements of `size` bytes from bytes. -/
def chopElems (size : Nat) (bs : List Byte) : List W64 :=
  (List.range (bs.length / size)).map (fun k => BitVec.ofNat 64 (leNat ((bs.drop (k * size)).take size)))

/-- Whether a chunk's source lies in its team's scratchpad. -/
def Job.fromSpad (j : Job) : Bool := j.c.first == 0 && j.c.shandle == 0 && j.c.sspace

/-- The scratchpad bytes that a chunk of `n` steps reads, by their first byte and their number; the fault of one that leaves the
allocation. -/
def State.spadSource (s : State) (j : Job) (n : Nat) : Except EngFault (Nat × Nat) :=
  let at_ := j.c.srcAt j.iter + j.srcDone
  let size := match lookup? s.teams j.team with | some t => t.size | none => 2 ^ 32
  if at_ < 0 ∨ (size : Int) < at_ + (n * j.unit : Nat) then .error { cause := .permission, va := wrapVa at_ }
  else .ok (j.base + at_.toNat, n * j.unit)

def State.takeLinear (s : State) (j : Job) (n : Nat) : Except EngFault Taken := do
  let finish (bs : List Byte) (bad : Nat) (lines : List Nat) : Taken :=
    if j.c.raw then { s, bytes := bs, poisoned := bad, lines }
    else { s, elems := chopElems (tyBytes (tyAt j.c.csrc)) bs, poisoned := bad, lines }
  if j.c.sspace then
    let _ ← s.spadSource j n
    .ok (finish j.taken 0 [])
  else
    let r ← s.engRead j (wrapVa (j.c.srcAt j.iter + j.srcDone)) (n * j.unit)
    .ok (finish r.1 r.2.1.eraseDups.length r.2.2)

/-- Blocks of a compressed source, each through its home slice (R200); every poisoned line of a decode counts (R201). -/
def State.takeBlocks (j : Job) (z : ZArray) : List Int → Taken → Except TakeStop Taken
  | [], t => .ok t
  | b :: bs, t =>
    let va := wrapVa (z.base + b * z.shape.bytes)
    let last := (va + z.shape.bytes - 1) / 4096 * 4096
    if b < 0 ∨ (z.blocks : Int) ≤ b then .error (.fault { cause := .permission, va })
    else match t.s.engPage j false va, (if last ≤ va then .ok 0 else t.s.engPage j false last) with
      | .error e, _ => .error (.fault e)
      | _, .error e => .error (.fault e)
      | .ok pa, .ok pa2 =>
        if !(homeOf pa).package then .error (.fault { cause := .scopeUnreachable, va })
        else match t.s.zopen z.shape j.asid pa pa2 with
          | none => .error (.waits (t.s.zwait z.shape pa))
          | some r =>
            if r.2.2 && j.strict then .error (.fault { cause := .poison, va })
            else
              let bad := if r.2.2 then ((z.shape.lines pa pa2).filter t.s.poison.contains).length else 0
              State.takeBlocks j z bs { t with s := r.1, elems := t.elems ++ r.2.1.elems, poisoned := t.poisoned + bad }

/-- A box element's coordinates, none where one lies outside the extents (R187, R198). -/
def Job.coords (j : Job) (t : Tensor) (k : Nat) : Option (List Nat) :=
  let b (d : Nat) : Nat := t.box.getD d 1
  let loc := [k % b 0, k / b 0 % b 1, k / b 0 / b 1]
  let at_ (d : Nat) : Int :=
    signedBits 21 (j.c.src / 2 ^ (21 * d)) + (if j.c.loop = 0 then 0 else j.iter * signedBits 10 (j.c.step / 2 ^ (10 * d))) +
      (loc.getD d 0 : Int)
  let xs := [at_ 0, at_ 1, at_ 2]
  if (xs.zip t.ext).all (fun p => 0 ≤ p.1 && p.1 < (p.2 : Int)) then some (xs.map Int.toNat) else none

/-- Elements read one by one, none standing for a supplied zero. -/
def State.takeEach (s : State) (j : Job) (size : Nat) (vas : List (Except EngFault (Option Nat))) : Except EngFault Taken := do
  let xs ← vas.mapM (fun v => do
    match ← v with
    | none => .ok ((0 : W64), [], [])
    | some va =>
      let r ← s.engRead j va size
      .ok (BitVec.ofNat 64 (leNat r.1), r.2))
  .ok { s, elems := xs.map (·.1), poisoned := (xs.flatMap (·.2.1)).eraseDups.length, lines := xs.flatMap (·.2.2) }

def State.takeTensor (s : State) (j : Job) (n : Nat) : Except EngFault Taken :=
  let t := Tensor.ofBits j.sdesc
  s.takeEach j (tyBytes t.ty) ((List.range n).map (fun k => .ok ((j.coords t (j.srcDone + k)).map t.at_)))

def State.takeGather (s : State) (j : Job) (n : Nat) : Except EngFault Taken :=
  let size := tyBytes (tyAt j.c.csrc)
  s.takeEach j size ((List.range n).map (fun k =>
    let off := j.indices.getD (j.srcDone + k) 0 * size
    let va := wrapVa (j.c.srcAt j.iter + off)
    if j.c.srclen ≤ off then .ok none
    else if j.c.srclen < off + size then .error { cause := .permission, va }
    else .ok (some va)))

/-- Combine (R196): the destination, then the slots in ascending order. -/
def State.takeCombine (s : State) (j : Job) (n : Nat) : Except EngFault Taken := do
  let t := tyAt j.c.csrc
  let f := fmtOf t
  let size := tyBytes t
  let xs ← (List.range n).mapM (fun k => do
    let off := (j.srcDone + k) * size
    if j.c.dstlen < off + size then .error { cause := .permission, va := j.c.dst + off }
    let x ← s.engRead j (j.c.dst + off) size
    let ys ← (List.range j.c.nsrc).mapM (fun q => s.engRead j (j.c.src + q * j.c.srclen + off) size)
    let v (bs : List Byte) : Fp := f.decode (BitVec.ofNat 64 (leNat bs))
    let r := ys.foldl (fun (r : W64 × Flags) y => let z := f.add .rne false (f.decode r.1) (v y.1); (z.1, r.2 ||| z.2))
      (BitVec.ofNat 64 (leNat x.1), Flags.none)
    .ok (r, x.2.1 ++ ys.flatMap (·.2.1), x.2.2 ++ ys.flatMap (·.2.2)))
  .ok { s, elems := xs.map (·.1.1), poisoned := (xs.flatMap (·.2.1)).eraseDups.length, lines := xs.flatMap (·.2.2),
        flags := xs.foldl (fun x y => x ||| y.1.2) 0 }

/-- The source of a chunk. -/
def State.takeChunk (s : State) (j : Job) (n : Nat) : Except TakeStop Taken :=
  match j.c.first with
  | 0 =>
    if j.c.shandle ≠ 0 then
      match ZArray.ofBits j.sdesc with
      | some z => State.takeBlocks j z ((List.range n).map (fun k => j.c.srcAt j.iter + (j.srcDone + k : Nat))) { s }
      | none => .ok { s }
    else (s.takeLinear j n).mapError .fault
  | 1 => (s.takeTensor j n).mapError .fault
  | 6 => (s.takeGather j n).mapError .fault
  | _ => (s.takeCombine j n).mapError .fault

/-! ### The middle stages -/

/-- Elements as bytes. -/
def elemBytes (size : Nat) (xs : List W64) : List Byte := xs.flatMap (fun x => leBytes size x.toNat)

/-- Blocks of `n` elements; what no source supplies to the last is open. -/
def chopBlocks (n free : Nat) (xs : List W64) : List (List W64) :=
  (List.range ((xs.length + n - 1) / n)).map (fun b =>
    (List.range n).map (fun i => xs.getD (b * n + i) (Config.padElement (free + i))))

/-- The middle stages of a chunk: its bytes past them, and the flags. -/
def State.middle (s : State) (j : Job) (t : Taken) : List Byte × Flags :=
  if j.c.raw then (t.bytes, t.flags)
  else
    let r : List (W64 × Flags) :=
      if j.c.has 4 then t.elems.map (fun x => convert (tyAt j.c.cdst) (tyAt j.c.csrc) j.c.cround j.c.csat x)
      else t.elems.map (fun x => (x, Flags.none))
    let fl := r.foldl (fun x y => x ||| y.2) t.flags
    let xs := r.map (·.1)
    match j.c.has 3, ZArray.ofBits j.ddesc with
    | true, some z =>
      let bs := chopBlocks z.shape.count s.free xs
      let bad := bs.any (fun b => b.any z.shape.nonfinite)
      (bs.flatMap (elemBytes z.shape.size), fl ||| Flags.when bad Flags.nonfinite)
    | _, _ => (elemBytes j.lastSize xs, fl)

/-! ### The last stage -/

/-- A block that a chunk writes: its shape, its places, and its elements. -/
structure PutBlock where
  shape : ZShape
  pa    : Nat
  pa2   : Nat
  elems : List W64

/-- One write of a chunk: its destination units and bytes, and its places or its fault; a block is encoded as it is written. -/
structure Put where
  va    : Nat := 0
  units : Nat
  bytes : Nat
  where_ : Except EngFault (List (Nat × List Byte))
  whole : List Nat := []
  block : Option PutBlock := none

/-- Bytes to consecutive global addresses, line by line; those past a footprint of `len` bytes from `base` fault. -/
def State.putLines (s : State) (j : Job) (base len off : Nat) (bs : List Byte) : List Put :=
  (pieces (base + off) (min bs.length (len - off))).map (fun p =>
    let data := (bs.drop (p.1 - (base + off))).take p.2
    match s.engPage j true p.1 with
      | .ok pa => { va := p.1, units := p.2, bytes := p.2, where_ := .ok [(pa, data)], whole := if p.2 = 128 then [lineOf pa] else [] }
      | .error e => { units := p.2, bytes := p.2, where_ := .error e }) ++
  (if len - off < bs.length then [{ units := 1, bytes := 1, where_ := .error { cause := .permission, va := base + max len off } }] else [])

/-- Coded blocks to their places (R200). -/
def State.putBlocks (s : State) (j : Job) (z : ZArray) (off : Nat) (bs : List Byte) : List Put :=
  (List.range (bs.length / z.shape.room)).map (fun k =>
    let b := j.c.dst + off + k
    let va := z.blockVa b
    let elems := chopElems z.shape.size ((bs.drop (k * z.shape.room)).take z.shape.room)
    let last := (va + z.shape.bytes - 1) / 4096 * 4096
    let fail (e : EngFault) : Put := { units := 1, bytes := z.shape.bytes, where_ := .error e }
    if j.c.dstlen ≤ off + k ∨ z.blocks ≤ b then fail { cause := .permission, va }
    else match s.engPage j true va, (if last ≤ va then .ok 0 else s.engPage j true last) with
      | .ok pa, .ok pa2 =>
        if !(homeOf pa).package then fail { cause := .scopeUnreachable, va }
        else { va, units := 1, bytes := z.shape.bytes, where_ := .ok [], block := some { shape := z.shape, pa, pa2, elems } }
      | .error e, _ => fail e
      | _, .error e => fail e)

/-- Elements scattered by the index list; those at or past DSTLEN are dropped (R196), and so are those beyond the index count
(DESIGN CHOICE, log 97). -/
def State.putScatter (s : State) (j : Job) (size off : Nat) (bs : List Byte) : List Put :=
  (List.range (bs.length / size)).map (fun k =>
    let data := (bs.drop (k * size)).take size
    let none_ : Put := { units := size, bytes := 0, where_ := .ok [] }
    match j.indices[off / size + k]? with
    | none => none_
    | some ix =>
      let d := ix * size
      let va := j.c.dst + d
      if j.c.dstlen ≤ d then none_
      else if j.c.dstlen < d + size then { units := size, bytes := size, where_ := .error { cause := .permission, va } }
      else
        let r : Except EngFault (List (Nat × List Byte)) := (pieces va size).mapM (fun p => do
          .ok (← s.engPage j true p.1, (data.drop (p.1 - va)).take p.2))
        { va, units := size, bytes := size, where_ := r })

/-- The writes of a chunk to memory that are still to be performed. -/
def State.puts (s : State) (j : Job) (bs : List Byte) : List Put :=
  let done := j.dstDone - j.chunkDst
  match j.c.last with
  | 7 => s.putScatter j j.lastSize j.dstDone (bs.drop done)
  | 10 => s.putLines j (j.c.dst + j.c.slot * j.c.dstlen) j.c.dstlen j.dstDone (bs.drop done)
  | 9 =>
    match j.c.has 3, ZArray.ofBits j.ddesc with
    | true, some z => s.putBlocks j z j.dstDone (bs.drop (done * z.shape.room))
    | _, _ => s.putLines j j.c.dst j.c.dstlen j.dstDone (bs.drop done)
  | _ => []

/-- The puts before the first that faults, and its fault. -/
def splitPuts : List Put → List Put × Option EngFault
  | [] => ([], none)
  | p :: ps =>
    match p.where_ with
    | .ok _ => let r := splitPuts ps; (p :: r.1, r.2)
    | .error e => ([], some e)

/-- Whether writing a block changes its stored bits: not where they already decode to its elements (R261). -/
def State.blockWrites (s : State) (b : PutBlock) : Bool :=
  (b.shape.lines b.pa b.pa2).any s.poison.contains || b.shape.decode (s.codedBits b.shape b.pa b.pa2) != b.elems

/-- The lines that a put writes. -/
def State.putLinesOf (s : State) (p : Put) : List Nat :=
  match p.block, p.where_ with
  | some b, _ => if s.blockWrites b then b.shape.lines b.pa b.pa2 else []
  | none, .ok xs => (xs.filter (fun x => match homeOf x.1 with | .peer _ => false | _ => true)).map (fun x => lineOf x.1)
  | none, .error _ => []

/-- One put is performed; what a neighbour refuses is dropped (R355). -/
def State.doPut (s : State) (p : Put) : State :=
  match p.block, p.where_ with
  | some b, _ =>
    let t := s.dropZ b.pa
    if s.blockWrites b then t.writeCoded b.shape b.pa b.pa2 (b.shape.encode b.elems) else t
  | none, .ok xs => xs.foldl (fun (s : State) x =>
      if s.engLost p.va x.1 then s else (s.applyWrite x.1 x.2 p.whole).written x.1) s
  | none, .error _ => s

/-- A job stops (R201): a poisoned read under STRICT abandons it, any other fault waits in STATE 3. -/
def State.jobFault (s : State) (j : Job) (stage : Nat) (e : EngFault) : State :=
  let s := if e.walkPoison then s.poisonRead j.asid 1 else s
  let j : Job := { j with cause := some e.cause, faultVa := e.va, stage }
  if e.cause = .poison then (s.jobReport j 2).abandon j
  else
    let j : Job := { j with state := .faulted }
    ((s.setJob j).progress j 3).jobReport j 1

/-- A chunk of a plane image laid over a core's scratchpad, with the places that it changes below a limit, and whether it would go
beyond: elements in row-major order from the chunk's first (R173, R174). -/
def Job.planeChunk (j : Job) (c : Core) (at_ limit : Nat) (bs : List Byte) : Core × List Nat × Bool :=
  let t := j.c.lastTy j.sdesc
  let q₀ := j.chunkSrc / j.unit * j.perStep
  let step (r : Core × List Nat × Bool) (x : W64) (q : Nat) : Core × List Nat × Bool :=
    let k := q % j.planeCols
    (planeBytes t 128 (at_ + k / 128 * imageStride t 128) (q / j.planeCols) (k % 128) x (fun b => get 0 r.1.scratch b)).foldl
      (fun r y => if y.1 < limit then (r.1.writeScratch y.1 [y.2], y.1 :: r.2.1, r.2.2) else (r.1, r.2.1, true)) r
  (chopElems (tyBytes t) bs).zipIdx.foldl (fun r p => step r p.1 (q₀ + p.2)) (c, [], false)

/-- What a chunk leaves in a receiving team's scratchpad: the data, its units, and whether it would go past DSTLEN. -/
def State.scratchPut (s : State) (j : Job) (p : Nat × Team) (bs : List Byte) : ParkItem × Nat × Bool :=
  let at_ := p.2.base + j.c.dstAt j.iter
  if j.c.has 5 then
    let r := j.planeChunk (s.spadView p.2.core) at_ (at_ + j.c.dstlen) bs
    let lo := r.2.1.foldl min (at_ + j.c.dstlen)
    let hi := r.2.1.foldl (fun m a => max m (a + 1)) lo
    let n := (j.chunkSrc / j.unit * j.perStep + bs.length / tyBytes (j.c.lastTy j.sdesc)) * j.planeBits / 8
    (.data p.1 lo (getAll 0 r.1.scratch lo (hi - lo)), if r.2.2 then r.2.1.eraseDups.length else n - j.dstDone, r.2.2)
  else
    let rest := bs.drop (j.dstDone - j.chunkDst)
    (.data p.1 (at_ + j.dstDone) (rest.take (j.c.dstlen - j.dstDone)), min rest.length (j.c.dstlen - j.dstDone),
      j.c.dstlen - j.dstDone < rest.length)

/-- Whether a COPYL may write its iteration's slot: the empty barrier has completed the phases it waits for (R198). DESIGN CHOICE
(log 98): the read of the iteration waits for them too. For a team that is gone nothing is awaited: its job runs to completion
(R202). -/
def State.slotFree (s : State) (j : Job) : Bool :=
  j.c.loop == 0 || j.iter < j.c.slots || (lookup? s.teams j.team).isNone ||
    (let k := j.iter % j.c.slots
     let b := (s.team j.team).barrier (j.c.emptyb + k)
     j.iter / j.c.slots ≤ b.phases - j.phases.getD k 0)

/-- Flits that a chunk takes at a port, and that a record takes. -/
def chunkFlits : Nat := 256
def recordFlits : Nat := 2

/-- A job goes on while its core stands still (R335): what it needs is that the port of its team's core takes its record, and, with
`data`, that the ports of its receivers take a chunk; else its senders have no credit (R341). -/
def State.jobRuns (s : State) (j : Job) (data : Bool) : Bool :=
  s.portTakes (s.jobCore j) j.asid recordFlits &&
    (!data || j.c.last != 8 || ((s.receivers j.c j.grid j.team j.core).1.map (fun p => p.2.core)).all
      (fun k => s.portTakes k j.asid chunkFlits))

/-- A chunk for scratchpad is written from the stage buffer, up to the end of the footprint (R199, R200). -/
def State.writeScratchChunk (s : State) (j : Job) (bs : List Byte) : State :=
  let rs := s.receivers j.c j.grid j.team j.core
  let puts := rs.1.map (fun p => (p.1, s.scratchPut j p bs))
  let s := puts.foldl (fun (s : State) x => s.toPort x.1 j.asid x.2.1) s
  let none_ : Nat := if j.c.has 5 then bs.length / tyBytes (j.c.lastTy j.sdesc) * j.planeBits / 8 else bs.length
  let r := match puts.head? with | some x => (x.2.2.1, x.2.2.2) | none => (none_, false)
  let j : Job := { j with dstDone := j.dstDone + r.1, missed := j.missed || rs.2, moved := j.moved + r.1 }
  if r.2 then (s.jobBytes j r.1).jobFault j (j.c.nstage - 1) { cause := .permission, va := j.c.dstAt j.iter + j.c.dstlen }
  else
    let j : Job := { j with chunkDst := j.dstDone, chunkSrc := j.srcDone, buffer := none }
    (s.setJob j).jobBytes j r.1

/-- A chunk for memory is written from the stage buffer, in ascending order up to a fault. -/
def State.writeMemoryChunk (s : State) (j : Job) (ps : List Put × Option EngFault) : State :=
  let s := { ps.1.foldl State.doPut s with free := s.free + 1 }
  let bytes := (ps.1.map (·.bytes)).sum
  let j : Job := { j with dstDone := j.dstDone + (ps.1.map (·.units)).sum, moved := j.moved + bytes }
  match ps.2 with
  | some e => (s.jobBytes j bytes).jobFault j (j.c.nstage - 1) e
  | none =>
    let j : Job := { j with chunkSrc := j.srcDone, chunkDst := j.dstDone, buffer := none }
    (s.setJob j).jobBytes j bytes

/-- A chunk is written from the stage buffer (R201): to scratchpad at once, to memory once the leases of its lines are over. -/
def State.writeChunk (s : State) (j : Job) (bs : List Byte) : Option State :=
  if j.c.last = 8 then some (s.writeScratchChunk j bs)
  else
    let ps := splitPuts (s.puts j bs)
    let lines := (ps.1.flatMap s.putLinesOf).eraseDups
    let busy := lines.filter (fun l => !s.leaseOver l)
    if busy.isEmpty then some ((s.endWait j.id).writeMemoryChunk j ps)
    else if busy.all (fun l => s.leaseWait.contains (j.id, l)) then none
    else some (s.awaitLease j.id busy)

/-- A chunk's source is read and taken past the middle stages; a fault discards what was read (R201). -/
def State.readChunk (s : State) (j : Job) : Option State :=
  let n := j.chunkSteps
  match s.takeChunk j n with
  | .error (.fault e) => some (s.jobFault { j with srcDone := j.chunkSrc, dstDone := j.chunkDst, taken := [] } 0 e)
  | .error (.waits notes) => s.takeNotes notes
  | .ok t =>
    let m := t.s.middle j t
    let j' : Job := { j with srcDone := j.srcDone + n * j.unit, taken := [], buffer := some m.1, flags := j.flags ||| m.2 }
    let lines := (t.lines.eraseDups).filter (fun l => s.cached (l * 128))
    let s := (lines.foldl (fun (s : State) l => s.readCopy (homeDie (l * 128)) l) (t.s.l2Reads lines))
    let s := { s with free := s.free + 64 }.setJob j'
    some (if t.poisoned = 0 then s else s.poisonRead j.asid t.poisoned)

/-- The next granules of a chunk's source in scratchpad are read, each as its bank holds it at that moment (R281); what a stopped
core's port has kept for it counts as arrived. None once the chunk is read whole. -/
def State.readGranules (s : State) (j : Job) (many : Nat) : Option State :=
  match s.spadSource j j.chunkSteps with
  | .error _ => none
  | .ok (lo, len) =>
    if !j.fromSpad || len ≤ j.taken.length then none
    else
      let at_ := lo + j.taken.length
      let stop := min (lo + len) ((at_ / 32 + max 1 many) * 32)
      some (s.setJob { j with taken := j.taken ++ (s.spadView (s.jobCore j)).readScratch at_ (stop - at_) })

/-! ### The events -/

def State.jobAt (s : State) (id : Nat) : Option Job := s.jobs.find? (fun j => j.id == id)

/-- Footprints of a job, reads and writes. -/
def State.footprints (s : State) (j : Job) : List Region × List Region :=
  let rs := (s.receivers j.c j.grid j.team j.core).1.map (fun p => (p.2.core, p.2.base))
  (j.c.reads j.sdesc j.core j.base, j.c.writes j.ddesc rs)

/-- Whether two jobs overlap in a write (R200). -/
def State.jobsMeet (s : State) (a b : Job) : Bool :=
  let x := s.footprints a
  let y := s.footprints b
  x.2.any (fun r => (y.1 ++ y.2).any r.meets) || x.1.any (fun r => y.2.any r.meets)

/-- A job begins once every earlier job of its engine and context that it overlaps has completed (R200). -/
def execTransferJobStart (id : Nat) (s : State) : Host.Outcome State Fault Refusal :=
  event s (match s.jobAt id with
    | some j =>
      let earlier := s.jobs.filter (fun k => k.id < j.id && sectorOf k.core == sectorOf j.core && k.asid == j.asid)
      if j.state = .queued ∧ s.jobRuns j false ∧ !earlier.any (s.jobsMeet j) then
        let j' : Job := { j with state := .running }
        some ((s.setJob j').progress j' 1)
      else none
    | none => none)

/-- Whether the iteration in progress has moved everything. -/
def Job.iterDone (j : Job) : Bool := j.buffer.isNone && j.total ≤ j.srcDone / j.unit

/-- A chunk is read, from scratchpad by granules, or written from the stage buffer. -/
def execTransferChunk (r : Moving) (s : State) : Host.Outcome State Fault Refusal :=
  event s (match s.jobAt r.job with
    | some j =>
      if j.state ≠ .running ∨ !s.jobRuns j true ∨ !s.slotFree j ∨ j.iterDone then none
      else match j.buffer with
        | some bs => s.writeChunk j bs
        | none => (s.readGranules j r.many).or (s.readChunk j)
    | none => none)

/-- An iteration of COPYL ends, and another follows: the engine arrives on the slot's full barrier (R198). -/
def execCopylIteration (id : Nat) (s : State) : Host.Outcome State Fault Refusal :=
  event s (match s.jobAt id with
    | some j =>
      if j.state = .running ∧ s.jobRuns j false ∧ j.iterDone ∧ j.iter + 1 < j.c.loop then
        let s := s.fullArrival j
        some (s.setJob { j with iter := j.iter + 1, srcDone := 0, dstDone := 0, chunkSrc := 0, chunkDst := 0 })
      else none
    | none => none)

/-- A job completes (R200): its record, the arrival of a COPYL's last iteration, its arrival on DONEB. -/
def execTransferJobComplete (id : Nat) (s : State) : Host.Outcome State Fault Refusal :=
  event s (match s.jobAt id with
    | some j =>
      if j.state = .running ∧ s.jobRuns j false ∧ j.iterDone ∧ (j.c.loop = 0 ∨ j.iter + 1 = j.c.loop) then
        some (s.endJob j 2)
      else none
    | none => none)

/-- TLBINV `.resume` restarts a job that waits (R201). -/
def State.resumeJob (s : State) (j : Job) : State :=
  let j' : Job := { j with state := .running, cause := none, stage := 0, faultVa := 0 }
  (s.setJob j').progress j' 1

end Sys2Proof.Machine
end

