-- ==== Sys2Proof/Machine/System.lean ====
section
/-! DEFINITION. SREAD, SWRITE, TLBINV and POISONCLR (R211, R215, R216). -/

namespace Sys2Proof.Machine

/-! ### SREAD and SWRITE -/

/-- SREAD of a special register (R35, R211). -/
def execSread (w : Fields) (s : State) :=
  issueWord w s (fun f s =>
    .ok { s := s.course f (f.results w (tyWide w.ty) (fun L => (s.a f w L, Flags.none))) })

/-- The control register that IMM32 names. -/
def ctlIndex (w : Fields) : Nat := w.imm.toNat % 4096

/-- SREAD `.ctl` (R211): the register at its issue, in the width of TYPE. -/
def execSreadCtl (w : Fields) (s : State) :=
  issueWord w s (fun f s => do
    require f.c.super .permission
    match s.readCtl f.asid (some (f.core, f.c)) (ctlIndex w) with
    | none => trapOf .illegalOperand
    | some x => .ok { s := s.course f (f.same w (tyWide w.ty) x) })

/-- The special registers that SWRITE may write, and which of them only a supervisor may (R35). -/
def swriteAccess (c : Nat) : Option Bool :=
  if c = 0xD3 ∨ c = 0xD4 ∨ c = 0xD5 then some false
  else if c = 0xD1 ∨ c = 0xD2 ∨ c = 0xD7 ∨ c = 0xD8 ∨ c = 0xDD then some true
  else none

/-- A strand-owned register of a lane written: the flags of %status, %accepts or %proposals (R36). -/
def Course.swriteLane (c : Course) (r L : Nat) (x : W64) : Course :=
  if r = 0xD3 then { c with flags := assign c.flags L (x.setWidth 8) }
  else if r = 0xD4 then { c with accepts := assign c.accepts L (low32 x) }
  else { c with proposals := assign c.proposals L (low32 x) }

/-- A register of the course or of the context written; `all` for 64 bits (R35, R211, R317). -/
def State.swriteOnce (s : State) (f : Frag) (r : Nat) (all : Bool) (x : W64) : State :=
  if r = 0xD1 then s.course f (fun c => { c with trapCause := x.setWidth 8 })
  else if r = 0xD2 then s.course f (fun c => { c with trapPc := ctlValue true all c.trapPc x })
  else if r = 0xD7 then s.mapCtx f.asid (fun c => { c with budget := low32 x })
  else if r = 0xD8 then s.mapCtx f.asid (fun c => { c with poisonCount := low32 x })
  else s.mapCtx f.asid (fun c => { c with ragged := low32 x })

/-- The code in SWRITE's D. -/
def swriteCode (w : Fields) : Nat := match w.d with | .code c => c.toNat | _ => 0

/-- SWRITE (R211): strand-owned registers in each executing lane, the others from the lowest. -/
def execSwrite (w : Fields) (s : State) :=
  issueWord w s (fun f s =>
    let r := swriteCode w
    match swriteAccess r with
    | none => trapOf .illegalOperand
    | some sv => do
      require (!sv || f.c.super) .permission
      if sv then .ok { s := s.swriteOnce f r (tyWide w.ty) (s.scalarA f w w.ty) }
      else .ok { s := s.course f (fun c => (lanesOf f.exec).foldl (fun (c : Course) L => c.swriteLane r L (s.a f w L)) c) })

/-- SWRITE `.ctl` (R211). A write of a queue's tail is a release at .sys (R308), held until what it covers is performed. -/
def execSwriteCtl (w : Fields) (s : State) :=
  issueWord w s (fun f s => do
    require f.c.super .permission
    match s.writeCtl f.asid (ctlIndex w) (tyWide w.ty) (s.scalarA f w w.ty) with
    | none => trapOf .illegalOperand
    | some s' => if isTail (ctlIndex w) && !s.releasable f.core f.c.stamp 5 then .error .hold else .ok { s := s' })

/-! ### TLBINV (R215) -/

/-- Whether a cached translation covers a part of a range. -/
def TlbEntry.meets (e : TlbEntry) (asid lo hi : Nat) : Bool :=
  e.asid == asid && e.va < hi && lo < e.va + 2 ^ e.bits

/-- Whether a scope of TLBINV about a core holds a sector's TLB. -/
def sectorInScope (scope core sector : Nat) : Bool :=
  match scope with
  | 0 => false
  | 1 => sector == sectorOf core
  | 2 => sector / 8 == dieOf core
  | _ => true

/-- Translations of a context that cover a range dropped from every TLB in scope; a stopped core's, when its clock starts (R334). -/
def State.dropTlb (s : State) (scope core asid lo hi : Nat) : State :=
  { s with
    cores := s.cores.map (fun p =>
      if inScopeOf scope core p.1 && p.2.run == .running then (p.1, { p.2 with tlb := p.2.tlb.filter (fun e => !e.meets asid lo hi) }) else p)
    sectorTlb := s.sectorTlb.filter (fun p => !(sectorInScope scope core p.1 && p.2.meets asid lo hi)) }

/-- Stores of a course that have not been performed at .h5. -/
def State.storesPending (s : State) (stamp : Nat) : Bool :=
  s.ops.any (fun o => o.stamp == stamp && !o.done && (match o.kind with
    | .store .. | .rmw .. | .zstore .. => true
    | _ => false))

/-- TLBINV over a range of addresses; `range` gives it, none where its count traps. -/
def tlbinv (w : Fields) (range : Frag → State → Option (Nat × Nat)) (s : State) : Host.Outcome State Fault Refusal :=
  issueWord w s (fun f s => do
    require f.c.super .permission
    let scope := scopeOf w.imm
    require (scope < 4) .illegalOperand
    match range f s with
    | none => trapOf .illegalOperand
    | some (lo, hi) =>
      if s.storesPending f.c.stamp then .error .hold
      else
        let s := s.dropTlb scope f.core f.asid lo hi
        let s := { s with tlbinvAt := assign s.tlbinvAt f.asid s.clock }
        let again := if w.modx then s.jobs.filter (fun j =>
          j.state == .faulted && j.asid == f.asid && lo ≤ j.faultVa && j.faultVa < hi) else []
        .ok { s := again.foldl State.resumeJob s })

/-- The first byte of the page that A names. -/
def State.pageOf (s : State) (f : Frag) (w : Fields) : Nat := (s.scalarA f w .n64).toNat / 4096 * 4096

def execTlbinvPage (w : Fields) (s : State) :=
  tlbinv w (fun f s => some (s.pageOf f w, s.pageOf f w + 4096)) s

def execTlbinvRange (w : Fields) (s : State) :=
  tlbinv w (fun f s =>
    let n := (s.scalarB f w .n32).toNat
    if n = 0 ∨ 2 ^ 20 < n then none else some (s.pageOf f w, s.pageOf f w + 4096 * n)) s

def execTlbinvAll (w : Fields) (s : State) := tlbinv w (fun _ _ => some (0, 2 ^ 64)) s

/-! ### POISONCLR (R216) -/

/-- A poisoned line set to zero and its mark cleared, as one write. -/
def State.unpoison (s : State) (line : Nat) : State :=
  if s.poison.contains line then (s.clearPoison line).written (line * 128) else s

/-- What POISONCLR does as an operation of its course: a relaxed write of whole lines at .h5. -/
def Frag.lineWrite (f : Frag) (xs : List Access) : Op :=
  { id := f.op, core := f.core, slot := f.slot, stamp := f.c.stamp, entry := f.entry, team := f.c.team, grid := f.c.grid,
    asid := f.asid, strict := false, sym := false, cls := 0, kind := .store .global { scope := 3, class3 := true } xs [] }

/-- No lease holds a poisoned line against a course's write, nor an earlier write that waits (R242). -/
def State.mayClear (s : State) (stamp line : Nat) : Bool :=
  !s.poison.contains line || (s.leaseOver line &&
    (match s.leaseWait.find? (fun y => y.2 == line) with | some y => y.1 == stamp | none => true))

/-- POISONCLR, held until every executing lane's write is performed (R216, R242, R278): it waits for the leases of its lines under
the stamp of its course. -/
def execPoisonclr (w : Fields) (s : State) :=
  issueWord w s (fun f s => do
    let ps := f.probes s w .n64
    let pages ← s.checkGlobal f.core f.asid { size := 128, read := false, write := true, scope := some 3, peers := false } ps
    let xs : List Access := pages.map (fun p => { lane := 0, va := 0, pa := p.pa, size := 128 })
    let lines := (pages.map (fun p => lineOf p.pa)).eraseDups
    if !s.mayPerform (f.lineWrite xs) xs false then .error .hold
    else if lines.all (s.mayClear f.c.stamp) then
      .ok { s := lines.foldl State.unpoison ((s.sendClass f.core .poisonclr).endWait f.c.stamp) }
    else .error (.wait (s.awaitLease f.c.stamp (lines.filter (fun l => !s.mayClear f.c.stamp l)))))

end Sys2Proof.Machine
end

