-- ==== Sys2Proof/Machine/Capo.lean ====
section
/-! DEFINITION. CAPTURE and RESTORE (R213, R214), the stopping of a core and the streaming of its image (R334 to R339), and
the mending of its traffic (R341 to R343). -/

namespace Sys2Proof.Machine

/-! ### The instructions -/

/-- The pages of an image at an address. -/
def imageProbes (lane va : Nat) : List Probe :=
  (List.range 256).map (fun i => { lane, va := BitVec.ofNat 64 (va + 4096 * i) })

/-- The checks of CAPTURE (R213), with the permission that the image's pages must give: the target and the address. -/
def State.capoChecks (s : State) (f : Frag) (w : Fields) (q : Ask) : Except Stop (Nat × Nat) := do
  let a := (s.scalarA f w .n32).toNat
  let b := s.scalarB f w .n64
  let c := s.ctx f.asid
  require (f.c.super && c.capRight.getLsbD 0) .permission
  require (a < 2048 && a != f.core) .illegalOperand
  require (s.grants f.asid a) .permission
  if b.toNat % 4096 ≠ 0 then trapAt .misaligned { va := b.toNat, lane := f.low, write := q.write }
  let _ ← s.checkGlobal f.core f.asid q (if 2 ^ 57 ≤ b.toNat then [{ lane := f.low, va := b }] else imageProbes f.low b.toNat)
  .ok (a, b.toNat)

/-- The fragment as one that a request holds. -/
def Frag.waiter (f : Frag) : Waiter := { core := f.core, slot := f.slot, stamp := f.c.stamp, entry := f.entry }

/-- CAPTURE (R213): the request leaves for its target, and the fragment is held until the image is performed. -/
def execCapture (w : Fields) (s : State) :=
  issueWord w s (fun f s =>
    match s.captures.find? (fun r => r.who == some f.waiter) with
    | some r => if r.done then .ok { s := { s with captures := s.captures.filter (fun x => x.who != some f.waiter) } } else .error .hold
    | none => do
      let t ← s.capoChecks f w { size := 4096, read := false, write := true }
      let r : CapReq := { target := t.1, asid := f.asid, va := t.2, origin := 1, who := some f.waiter, via := some f.core }
      .error (.wait { s.sendClass f.core .captureRequest with captures := s.captures ++ [r] }))

/-- The translation of what a core's instruction, or for none the host, asks for: through the issuing core's TLB (R331). -/
def State.translateFor (s : State) (via : Option Nat) (asid va : Nat) : Walk :=
  match via with
  | some k => s.translate k asid va
  | none => s.walk asid va

/-- An image read from a context's memory: none where a page is absent or not readable, or a line is poisoned (R339). -/
def State.imageRead (s : State) (via : Option Nat) (asid va n : Nat) : Option (List Byte) :=
  match physical (s.translateFor via asid) (·.read) va n with
  | some ps => if ps.any (fun p => s.anyPoisoned p.1 p.2) then none else some (ps.flatMap (fun p => getBlock emptyByte s.mem p.1 p.2))
  | none => none

/-- What the reads of an image leave: a walk or a line that meets poison counts (R132, R330), and every line is read at its slice
(R371). -/
def State.imageTouch (s : State) (via : Option Nat) (asid va n : Nat) : State :=
  match ((pieces va n).map (fun p => s.translateFor via asid p.1)).find? (fun x => !x.found), physical (s.translateFor via asid) (·.read) va n with
  | some .poisoned, _ => s.poisonRead asid 1
  | none, some ps =>
    if ps.any (fun p => s.anyPoisoned p.1 p.2) then s.poisonRead asid 1 else s.l2Reads (ps.map (fun p => lineOf p.1))
  | _, _ => s

/-- The teams on a core. -/
def State.teamsOn (s : State) (core : Nat) : List (Nat × Team) := s.teams.filter (fun p => p.2.core == core)

/-- The core that a snapshot was taken of is still stopped with the same courses, which a restore then moves. -/
def State.stillHeld (s : State) (x : Snap) : Bool :=
  (s.core x.num).run == .stopped x.clock && (s.core x.num).courses.map (fun p => p.2.stamp) == x.core.courses.map (fun p => p.2.stamp)

/-- Whether an image is of courses that still stand stopped. -/
def State.imageHeld (s : State) (image : List Byte) : Bool :=
  match s.tokenOf image with
  | some (_, x) => s.stillHeld x
  | none => false

/-- The snapshots of a stopped core take what its port has kept, since its teams are about to be killed: an image of them brings it
back (R343). -/
def State.keepParked (s : State) (target : Nat) : State :=
  let parked := (s.core target).parked
  let kept (id : Nat) : Bool := parked.any (fun p => p.item == .answer id)
  { s with snaps := s.snaps.map (fun (p : Nat × Snap) =>
      if p.2.num == target && s.stillHeld p.2 then
        (p.1, { p.2 with parked, ops := p.2.ops ++ s.ops.filter (fun o => kept o.id && !o.done), pool := s.pool.filter (fun q => kept q.op),
                         xwaits := p.2.xwaits.map (fun (x : XWait) =>
                           { x with ans := (s.xwaits.find? (fun y => y.id == x.id)).bind (fun y => y.ans) }) })
      else p) }

/-- The start of a restore (R339 step 4): the teams of a stopped target are killed, but those that the image itself
brings back, and the target loads. -/
def State.beginRestore (s : State) (target asid : Nat) (image : List Byte) : State :=
  let keep : List Nat := match s.tokenOf image with
    | some (_, x) => if x.num == target && s.stillHeld x then (s.teamsOn target).map (·.1) else []
    | none => []
  let s := s.keepParked target
  let s := ((s.teamsOn target).filter (fun p => !keep.contains p.1)).foldl (fun (s : State) p => s.killTeam p.1) s
  let hdr := leNat (image.take 64)
  let exact := ((s.snapOf 0 image).core.ofImage image).courses.any (fun p => p.2.exact)
  s.mapCore target (fun c =>
    { c with run := .loading, heldFor := some asid, split := 64 + 32 * (hdr / 2 ^ 172 % 16),
             mv := if exact then 650 else c.mv, change := if exact then none else c.change })

/-- RESTORE (R214, R339): held while the target's own binding is open, then refused, or held until it has loaded. -/
def execRestore (w : Fields) (s : State) :=
  issueWord w s (fun f s =>
    match s.restores.find? (fun r => r.who == some f.waiter) with
    | some r => match r.status with
      | some code =>
        let s := { s with restores := s.restores.filter (fun x => x.who != some f.waiter) }
        .ok { s := s.course f (f.same w false (BitVec.ofNat 64 code)) }
      | none => .error .hold
    | none => do
      let t ← s.capoChecks f w { size := 4096, read := true, write := false }
      let c := s.core t.1
      let stopped : Bool := match c.run with | .stopped _ => true | _ => false
      require (stopped || (s.teamsOn t.1).isEmpty) .illegalOperand
      if c.binding.isSome || c.run == .loading then .error .hold
      else
        let image := s.imageRead f.core f.asid t.2 imageLength
        let header := s.imageRead f.core f.asid t.2 64
        match s.refuseImage t.1 f.asid header image with
        | some code =>
          -- a header of another revision ends the reading (R339)
          let s := s.imageTouch f.core f.asid t.2 (if code = 0x51 ∨ header = none then 64 else imageLength)
          .ok { s := s.course f (f.same w false (BitVec.ofNat 64 code)) }
        | none =>
          let r : RestReq := { target := t.1, asid := f.asid, va := t.2, who := some f.waiter, via := some f.core, host := false,
                               held := s.imageHeld (image.getD []) }
          .error (.wait { s.beginRestore t.1 f.asid (image.getD []) with restores := s.restores ++ [r] }))

/-! ### Stopping (R334) -/

/-- A core's clock stops for a context, and its port records the credits that it holds. -/
def State.stopCore (s : State) (core asid : Nat) : State :=
  s.mapCore core (fun c => { c with run := .stopped s.clock, heldFor := some asid, returned := [] })

/-- A capture request reaches its target. One that is loading stops when its clock would start. -/
def execCapoStop (core : Nat) (s : State) : Host.Outcome State Fault Refusal :=
  event s (match s.captures.find? (fun r => r.target == core && !r.arrived) with
    | none => none
    | some r =>
      let s := { s with captures := s.captures.map (fun (x : CapReq) => if x = r then { x with arrived := true } else x) }
      some (if s.runs core then s.stopCore core r.asid else s))

/-! ### Streaming (R336) -/

/-- A core as its stop left it: without what its port has kept since, and what is not the core's own. -/
def Core.atStop (c : Core) : Core :=
  { c with parked := [], parkSeq := 0, returned := [], mv := 650, change := none, fenced := false, ecapBoot := 64, binding := none,
           bound := [], lastCtx := none, courses := c.courses.map (fun (p : Nat × Course) => (p.1, { p.2 with
             entries := p.2.entries.map (fun (q : Nat × Entry) => (q.1, { q.2 with held := false })) })) }

/-- A snapshot without what goes on while a core is stopped. -/
def Snap.settled (x : Snap) : Snap := { x with core := x.core.atStop, grids := [], parked := [], pool := [] }

/-- What the revision sections of a core hold: itself, its teams, its tile queue, and its XCHG and WAITADDR that wait (R336). -/
def State.snapNow (s : State) (core clock : Nat) : Snap :=
  let c := s.core core
  let mine (n : Nat) : Bool := c.courses.any (fun p => p.2.stamp == n)
  let ids := (s.teamsOn core).map (fun p => p.2.grid)
  { num := core, core := c, teams := s.teamsOn core, grids := s.grids.filter (fun p => ids.contains p.1), clock,
    ops := s.ops.filter (fun o => c.tileQ.any (fun t => t.op == o.id) ||
      s.xwaits.any (fun x => x.id == o.id && mine x.stamp) || s.watches.any (fun x => x.id == o.id && mine x.stamp)),
    xwaits := (s.xwaits.filter (fun x => mine x.stamp)).map (fun (x : XWait) => { x with ans := none }),
    watches := (s.watches.filter (fun x => mine x.stamp)).map (fun (x : Watch) => { x with woken := false }) }

/-- What a core's revision sections name: the snapshot already taken of this stop, or a fresh one. -/
def State.snapshot (s : State) (core clock : Nat) : Nat × State :=
  let x := s.snapNow core clock
  match s.snaps.find? (fun p => p.2.settled == x.settled) with
  | some p => (p.1, s)
  | none => (s.stamp, { s with snaps := s.snaps ++ [(s.stamp, x)], stamp := s.stamp + 1 })

/-- The bytes of an image written at their homes: `places` gives, for pieces of whole lines, their place in the image, their
physical address and their length. -/
def State.spreadImage (s : State) (places : List (Nat × Nat × Nat)) (bs : List Byte) : State :=
  places.foldl (fun (s : State) p =>
    if s.linkDown p.2.1 then s
    else ({ s.noteCode p.2.1 p.2.2 with mem := putBlock emptyByte s.mem p.2.1 ((bs.drop p.1).take p.2.2) }.clearPoison
      (lineOf p.2.1)).written p.2.1) s

/-- The places of an image's lines in physical memory, of those whose pages may be written. -/
def State.imagePlaces (s : State) (r : CapReq) : List (Nat × Nat × Nat) :=
  (pieces r.va imageLength).filterMap (fun p => match s.translateFor r.via r.asid p.1 with
    | .page q => if q.write then some (p.1 - r.va, q.pa, p.2) else none
    | _ => none)

/-- A capture has ended: CAPTURE's fragment goes on, or the host is told (R333, R348). -/
def State.captureDone (s : State) (r : CapReq) : State :=
  if r.origin = 2 then
    { s with captures := s.captures.filter (· != r) }.report r.asid { kind := 5, va := r.va, core := r.target }
      |>.mapCtx r.asid (fun c => { c with cmdStatus := 0 })
  else if r.who.isSome then { s with captures := s.captures.map (fun (x : CapReq) => if x = r then { x with done := true } else x) }
  else { s with captures := s.captures.filter (· != r) }

/-- The image is performed at its home, once every lease on its lines is over (R213, R242). -/
def execImageStreamComplete (core : Nat) (s : State) : Host.Outcome State Fault Refusal :=
  event s (match s.captures.find? (fun r => r.target == core && r.arrived && !r.done), (s.core core).run with
    | some r, .stopped clock =>
      let places := s.imagePlaces r
      let waits (line : Nat) : Bool := !s.leaseOver line || s.leaseWait.any (fun x => x.2 == line && x.1 != 0)
      let busy := (places.filter (fun p => (homeOf p.2.1).package && waits (lineOf p.2.1))).map (fun p => lineOf p.2.1)
      if !busy.isEmpty then
        if busy.all (fun l => s.leaseWait.contains (0, l)) then none else some (s.awaitLease 0 busy)
      else
        let t := s.snapshot core clock
        let bytes := t.2.image core (t.2.core core) t.1 r.asid r.origin clock
        some ((t.2.spreadImage places bytes).captureDone r)
    | _, _ => none)

/-! ### Parking (R341) -/

/-- The answer of an operation leaves its home, or the switch that paired it: the state in which it is on its way to the core, none
while it is not performed (R134). -/
def State.answered (s : State) (o : Op) : Option State :=
  match o.kind with
  | .load .scratch .. | .qpop .. => none
  | .load sp _ _ _ xs =>
    if xs.all (·.got) then some s
    else if s.mayRead o && (sp != .global || xs.all (fun x => x.got || s.present o.core (lineOf x.pa))) then
      some (s.readAll o.id (fun _ => true))
    else none
  | .zload .. => s.zPerformRead o
  | .reply .. => some s
  | .pool _ => if s.poolOpen o.id then none else some s
  | _ => none

/-- The reply of a waiting XCHG, or the wake of a WAITADDR, that is on its way to a stopped core's port: its core and context, and what
the port keeps. -/
def State.flitFor (s : State) (id : Nat) : Option (Nat × Nat × ParkItem) :=
  let asid (core slot stamp : Nat) : Nat := match s.courseOf core slot stamp with | some c => (s.grid c.grid).asid | none => 0
  ((s.xwaits.find? (fun x => x.id == id && x.ans.isSome)).map (fun x => (x.core, asid x.core x.slot x.stamp, ParkItem.xchg id))).or
    ((s.watches.find? (fun x => x.id == id && x.woken)).map (fun x => (x.core, x.asid, ParkItem.wake id)))

/-- An answer, a reply or a wake that arrives for a stopped core is parked, spilled, or held back (R341). -/
def execParkFlit (op : Nat) (s : State) : Host.Outcome State Fault Refusal :=
  let kept (core : Nat) (x : ParkItem) : Bool := s.runs core || (s.core core).parked.any (fun p => p.item == x)
  event s (match s.opAt op with
    | some o =>
      match s.flitFor op with
      | some r => if kept r.1 r.2.2 then none else s.parkAt r.1 r.2.1 r.2.2
      | none =>
        if kept o.core (.answer op) then none
        else ((s.answered o).bind (fun s => s.parkAt o.core o.asid (.answer op))).map (·.freeAbsorb op (fun _ => true))
    | none => (s.flitFor op).bind (fun r => if kept r.1 r.2.2 then none else s.parkAt r.1 r.2.1 r.2.2))

/-- Credits that the crossbar returns: a stopped core's port counts them (R341). -/
def execCreditReturn (core cls n : Nat) (s : State) : Host.Outcome State Fault Refusal :=
  event s (if 4 ≤ cls then none
    else some (s.mapCore core (fun c =>
      if c.run == .running then { c with credits := assign c.credits cls (min 8 (c.credit cls + n)) }
      else { c with returned := assign c.returned cls (get 0 c.returned cls + n) })))

/-! ### Restoring (R339, R342) -/

/-- The credits at a clock's start: those held at the stop with those returned since (R342). -/
def Core.reconciled (c : Core) : List (Nat × Nat) :=
  (List.range 4).map (fun k => (k, min 8 (c.credit k + get 0 c.returned k)))

/-- What a port kept is delivered. -/
def State.replayOne (s : State) (p : Parked) : State :=
  match p.item with
  | .answer op => match s.opAt op with
    | none => s
    | some o => match o.kind with
      | .pool _ => (s.poolDone o).getD s
      | .zload .. => s.zDeliver o
      | _ => (s.deliverNow o).getD s
  | .xchg id => match s.xwaits.find? (fun (x : XWait) => x.id == id) with
    | some x => s.xchgDone x x.ans
    | none => s
  -- the WAITADDR is marked as woken, and repeats its loop now
  | .wake _ => s
  | x => s.performItem x

/-- The status of a child grid reaches its lane's D, or waits at its stopped core's port. -/
def State.childStatus (s : State) (asid : Nat) (k : Child) (code : Nat) : State :=
  let others (s : State) (f : Child → Option Child) : State := s.mapCtx asid (fun c => { c with children := c.children.filterMap f })
  if s.runs k.core then
    let s := others s (fun x => if x = k then none else some x)
    let s := s.mapCourseOf k.core k.slot k.stamp (fun c => c.deliver k.file k.reg k.lane false (BitVec.ofNat 64 code))
    if (s.ctx asid).children.any (fun x => x.op == k.op) then s
    else match s.ops.find? (fun o => !o.done && o.kind == .launch k.op) with
      | some o => s.complete o.id
      | none => s
  else others s (fun x => if x = k then some { x with status := some code } else some x)

/-- The statuses that a port kept reach their lanes. -/
def State.deliverStatuses (s : State) (core : Nat) : State :=
  s.ctxs.foldl (fun (s : State) p => p.2.children.foldl (fun (s : State) k =>
    match k.status with
    | some code => if k.core = core then s.childStatus p.1 k code else s
    | none => s) s) s

/-- What has changed about a core while its clock stood: translations that a TLBINV may have named leave its TLB, and its courses
show the token that they now have (R334). -/
def State.catchUp (s : State) (core : Nat) : State :=
  let since (asid : Nat) : Bool := match (s.core core).run, lookup? s.tlbinvAt asid with
    | .stopped t, some u => t ≤ u
    | _, _ => false
  let token (c : Course) : Bool :=
    let id := (s.team c.team).linear * 16 + c.index
    if c.det then (s.grid c.grid).token == some id && (c.token || id != 0) else c.token
  s.mapCore core (fun c => { c with tlb := c.tlb.filter (fun e => !since e.asid),
                                    courses := c.courses.map (fun (p : Nat × Course) => (p.1, { p.2 with token := token p.2 })) })

/-- A core's clock starts: its parked traffic is delivered in order, then what was still on its way, and the completions that waited
take effect, before anything issues. A capture that arrived while it loaded stops it again at once. -/
def State.startClock (s : State) (core : Nat) (parked : List Parked) : State :=
  let s := (s.catchUp core).mapCore core (fun c => { c with run := .running, heldFor := none, parked := [] })
  let s := parked.foldl State.replayOne s
  let s := (s.xwaits.filter (fun x => x.core == core && x.ans.isSome)).foldl (fun (s : State) x => s.xchgDone x x.ans) s
  let s := ((s.core core).courses.foldl (fun (s : State) p => s.retire core p.1 p.2.stamp) s).deliverStatuses core
  match s.captures.find? (fun r => r.target == core && r.arrived && !r.done) with
  | some r => s.stopCore core r.asid
  | none => s

/-- What names a moved core in the operations of its courses. -/
def State.moveTraffic (s : State) (stamps : List Nat) (to_ : Nat) : State :=
  let mine (n : Nat) : Bool := stamps.contains n
  { s with
    ops := s.ops.map (fun (o : Op) => if mine o.stamp then { o with core := to_ } else o)
    pool := s.pool.map (fun (o : PoolOp) => if mine o.stamp then { o with core := to_ } else o)
    xwaits := s.xwaits.map (fun (o : XWait) => if mine o.stamp then { o with core := to_ } else o)
    watches := s.watches.map (fun (o : Watch) => if mine o.stamp then { o with core := to_ } else o)
    captures := s.captures.map (fun (r : CapReq) => { r with who := r.who.map (fun (k : Waiter) => if mine k.stamp then { k with core := to_ } else k) })
    restores := s.restores.map (fun (r : RestReq) => { r with who := r.who.map (fun (k : Waiter) => if mine k.stamp then { k with core := to_ } else k) })
    ctxs := s.ctxs.map (fun p => (p.1, { p.2 with children := p.2.children.map (fun (k : Child) =>
      if mine k.stamp then { k with core := to_ } else k) })) }

/-- The clock's TLB section is taken back only by its own core, with no TLBINV of the context since (R339). -/
def State.tlbKept (s : State) (x : Snap) (target asid : Nat) : Bool :=
  x.num == target && (match lookup? s.tlbinvAt asid with | some t => t < x.clock | none => true)

/-- What the target holds once an image has streamed in. -/
def State.loaded (s : State) (target asid : Nat) (x : Snap) (image : List Byte) : Core :=
  let c := x.core.ofImage image
  let t := s.core target
  { c with run := .loading, heldFor := t.heldFor, tlb := if s.tlbKept x target asid then c.tlb else [], lastCtx := some asid,
           l1 := c.l1.filter (fun p => s.clock < p.2), mv := t.mv, change := t.change,
           ecapBoot := t.ecapBoot, fenced := t.fenced, binding := none, bound := [], parked := [], returned := [],
           credits := t.credits }

/-- What stands for a stamp of an image whose courses no longer stand: a fresh one by its place in a list from `n` on. -/
def renew (n : Nat) (olds : List Nat) (x : Nat) : Nat := match olds.findIdx? (· == x) with | some i => n + i | none => x

/-- Restored courses that no longer stand anywhere get stamps and teams of their own, with their tile operations, dirty private
lines, waiting XCHG and WAITADDR, and what their port had kept (R336, R340, R343); a grid that had retired is there again. -/
def State.revive (s : State) (x : Snap) (c : Core) (target : Nat) : State :=
  let olds := x.teams.map (·.1) ++ x.core.courses.map (fun p => p.2.stamp) ++ x.ops.map (·.id) ++ x.pool.map (·.id) ++
    x.xwaits.map (·.id) ++ x.watches.map (·.id)
  let new := renew s.stamp olds
  let count (n cls : Nat) : Nat := (x.ops.filter (fun o => o.stamp == n && o.cls == cls)).length
  let teams : List (Nat × Team) := x.teams.map (fun (p : Nat × Team) => (new p.1, { p.2 with
    core := target
    qwaits := p.2.qwaits.map (fun (q : QWait) => { q with stamp := new q.stamp })
    bwaits := p.2.bwaits.map (fun (q : BWait) => { q with stamp := new q.stamp }) }))
  let c := { c with
    -- only what comes back with the courses is outstanding (log 65)
    courses := c.courses.map (fun (p : Nat × Course) => (p.1, { p.2 with
      stamp := new p.2.stamp, team := new p.2.team,
      counts := (List.range 5).foldl (fun (k : Counts) i => k.write (i + 1) (count p.2.stamp (i + 1))) p.2.counts }))
    privs := c.privs.map (fun (p : PrivLine) => { p with stamp := new p.stamp })
    tileQ := c.tileQ.map (fun (t : TileOp) => { t with op := new t.op, stamp := new t.stamp, team := new t.team })
    parked := x.parked.map (fun (p : Parked) => { p with item := match p.item with
      | .answer id => .answer (new id)
      | .xchg id => .xchg (new id)
      | .wake id => .wake (new id)
      | .data t at_ bs => .data (new t) at_ bs
      | .count t b n => .count (new t) b n
      | .arrive t b => .arrive (new t) b }) }
  let s := { s with
    stamp := s.stamp + olds.length
    teams := teams.foldl (fun (m : List (Nat × Team)) (p : Nat × Team) => assign m p.1 p.2) s.teams
    grids := x.grids.foldl (fun (m : List (Nat × Grid)) (p : Nat × Grid) => if (lookup? m p.1).isSome then m else assign m p.1 p.2) s.grids
    ops := s.ops ++ x.ops.map (fun (o : Op) => { o with id := new o.id, core := target, stamp := new o.stamp, team := new o.team })
    pool := s.pool ++ x.pool.map (fun (q : PoolOp) => { q with
      id := new q.id, op := new q.op, core := target, stamp := new q.stamp, team := new q.team })
    xwaits := s.xwaits ++ x.xwaits.map (fun (o : XWait) => { o with id := new o.id, core := target, stamp := new o.stamp })
    watches := s.watches ++ x.watches.map (fun (o : Watch) => { o with id := new o.id, core := target, stamp := new o.stamp, woken := true }) }
  s.setCore target c

/-- The courses of an image move with the traffic that their port kept, and their old core's port forwards what comes after
(R342). -/
def State.moveCourses (s : State) (target : Nat) (x : Snap) (c : Core) : State :=
  let src := s.core x.num
  let stamps := x.core.courses.map (fun p => p.2.stamp)
  -- responses that are still to come, and jobs of the core or that name it (R342)
  let open_ := (s.ops.filter (fun o => stamps.contains o.stamp && !o.done && o.kind != .tile && o.kind != .hint &&
    !src.parked.any (fun p => p.item == .answer o.id))).map (·.id)
  let named (j : Job) : Bool := j.c.last == 8 && sectorOf j.core == sectorOf x.num && j.c.mask / 2 ^ (x.num % 64) % 2 == 1
  let jobs := (s.jobs.filter (fun j => j.core == x.num || stamps.contains j.stamp || named j)).map (·.id)
  let s := s.setCore target { c with credits := src.reconciled, tileQ := src.tileQ }
  let s := { s with teams := s.teams.map (fun (p : Nat × Team) => if p.2.core == x.num then (p.1, { p.2 with core := target }) else p) }
  let s := s.moveTraffic stamps target
  if x.num == target then s
  else s.mapCore x.num (fun k =>
    { k with courses := [], starved := [], tileQ := [], parked := [], privs := [], l1 := [], binding := some target, bound := open_ ++ jobs })

/-- The end of a restore whose image was read whole (R339 steps 4 to 6). -/
def State.finishRestore (s : State) (target asid : Nat) (held : Bool) (image : List Byte) : State :=
  let x := s.snapOf asid image
  let c := s.loaded target asid x image
  if leNat (image.take 64) / 2 ^ 144 % 2 ^ 16 = 0 then
    (s.setCore target { c with courses := [], starved := [], tileQ := [] }).startClock target []
  else if held && (x.num == target || s.stillHeld x) then
    let parked := (s.core x.num).parked
    (s.moveCourses target x c).startClock target parked
  else
    let s := { s with stamp := s.stamp + 1 }.revive x c target
    s.startClock target (s.core target).parked

/-- A restore's status reaches its fragment. -/
def State.restoreDone (s : State) (r : RestReq) (code : Nat) : State :=
  if r.who.isSome then { s with restores := s.restores.map (fun (x : RestReq) => if x = r then { x with status := some code } else x) }
  else { s with restores := s.restores.filter (· != r) }

/-- The image has streamed in, or the host's release ends (R339). A read that fails leaves the target free. -/
def execRestoreComplete (core : Nat) (s : State) : Host.Outcome State Fault Refusal :=
  event s (match s.restores.find? (fun r => r.target == core && r.status.isNone) with
    | none => none
    | some r =>
      if r.host then
        if (s.core core).binding.isSome then none
        else
          let parked := (s.core core).parked
          let s := { s with restores := s.restores.filter (· != r) }
          let s := (s.mapCore core (fun c => { c with credits := c.reconciled, returned := [] })).startClock core parked
          some ((s.report r.asid { kind := 6, code := 0x50, va := r.va, core := core }).mapCtx r.asid (fun c => { c with cmdStatus := 0 }))
      else match s.imageRead r.via r.asid r.va imageLength with
        | some image => some (((s.imageTouch r.via r.asid r.va imageLength).finishRestore core r.asid r.held image).restoreDone r 0x50)
        | none =>
          let s := (s.imageTouch r.via r.asid r.va imageLength)
          let s := (s.teamsOn core).foldl (fun (s : State) p => s.killTeam p.1) s
          some ((s.startClock core []).restoreDone r 0x52))

/-- A binding closes once nothing that it forwards is outstanding, and its core is free (R342). -/
def execBindingClose (core : Nat) (s : State) : Host.Outcome State Fault Refusal :=
  event s (
    let c := s.core core
    let open_ := s.ops.any (fun o => c.bound.contains o.id && !o.done) || s.jobs.any (fun j => c.bound.contains j.id)
    if c.binding.isSome && !open_ then
      some ((s.mapCore core (fun c => { c with binding := none, bound := [] })).startClock core [])
    else none)

end Sys2Proof.Machine
end

