-- ==== Sys2Proof/Machine/Fabric.lean ====
section
/-! DEFINITION. Walks, misses, combining and absorption, write-backs with deduplication, recalls and victim buffers (R247,
R248, R251, R329 to R332, R349 to R352, R367). -/

namespace Sys2Proof.Machine

/-! ### Walks (R331, R332) -/

/-- Translations that a core's TLB and a sector's TLB hold. -/
def coreTlbRoom : Nat := 256
def sectorTlbRoom : Nat := 8192

/-- A present leaf entry cached for a core, whose clock runs, and for its sector. -/
def State.fillTlb (s : State) (core : Nat) (e : TlbEntry) : State :=
  let old := s.sectorTlb.filter (fun p => !(p.1 == sectorOf core && p.2 == e))
  let mine := old.filter (fun p => p.1 == sectorOf core)
  let old := if mine.length < sectorTlbRoom then old else
    match mine.getLast? with
    | some x => old.filter (· != x)
    | none => old
  let s := { s with sectorTlb := (sectorOf core, e) :: old }
  if s.runs core then s.mapCore core (fun c => { c with tlb := e :: (c.tlb.filter (· != e)).take (coreTlbRoom - 1) }) else s

/-- A translation that the sector's TLB holds reaches a core's own TLB. -/
def State.fillCore (s : State) (core : Nat) (e : TlbEntry) : State :=
  if s.runs core then s.mapCore core (fun c => { c with tlb := e :: (c.tlb.filter (· != e)).take (coreTlbRoom - 1) }) else s

/-- A requester's lookup (R331): a level that holds the address answers, as it stands; only where all miss is there a walk, whose
present leaf entry is cached. -/
def State.lookUp (s : State) (asid va core : Nat) : State :=
  if (s.core core).tlb.any (fun e => e.covers asid va) then s
  else match s.sectorTlb.find? (fun p => p.1 == sectorOf core && p.2.covers asid va) with
    | some p => s.fillCore core p.2
    | none => match s.walk asid va with
      | .page p => s.fillTlb core (p.entry asid va)
      | _ => s

/-- The lines of the table entries that a walk reads (R329). -/
def State.walkLines (s : State) (va : Nat) : (left : Nat) → (base : Nat) → List Nat
  | 0, _ => []
  | k + 1, base =>
    let at_ := base + 8 * (va / 2 ^ (12 + 9 * k) % 512)
    let e := s.readNat at_ 8
    lineOf at_ :: (if s.poisoned at_ || e % 2 == 0 || e / 128 % 2 == 1 then [] else s.walkLines va k (e / 4096 % 2 ^ 40 * 4096))

/-- The lines of tables that a translation for a core reads, none where a TLB holds it. -/
def State.tableLines (s : State) (core asid va : Nat) : List Nat :=
  if (s.core core).tlb.any (fun e => e.covers asid va) ||
    s.sectorTlb.any (fun p => p.1 == sectorOf core && p.2.covers asid va) then []
  else s.walkLines va 5 (s.ctx asid).ptroot.toNat

/-- Requesters of an address look it up; those that miss everywhere share one walk, which reads its table lines at their slices
(R332, R371). -/
def execPageWalk (asid : Nat) (va : W64) (cores : List Nat) (s : State) : Host.Outcome State Fault Refusal :=
  let lines := ((cores.flatMap (fun k => s.tableLines k asid va.toNat)).eraseDups)
  event s (some (cores.foldl (fun (s : State) k => s.lookUp asid va.toNat k) (s.l2Reads lines)))

/-! ### Misses and combining (R247) -/

/-- The cycles for which a combining entry takes further reads. -/
def combineWindow : Nat := 32

/-- The cluster of a core, eight cores (R3). -/
def clusterOf (core : Nat) : Nat := core / 8

/-- The reads on their way: loads in flight, and the passes of WAITADDR. -/
def State.readers (s : State) : List Op :=
  s.ops.filter (fun o => !o.done) ++ (s.watches.filter (fun x => x.reading)).map Watch.asOp

/-- A reader whose read of a line reaches the line's slice and misses there: it may be performed, and nothing nearer holds the
line. -/
def State.missesLine (s : State) (line : Nat) (o : Op) : Bool :=
  o.missing.contains line && !s.combining o.id && !s.absorbed o.id && !s.present o.core line &&
    s.mayPerform o (o.kind.parts.2.filter (fun x => lineOf x.pa == line)) true

/-- The clusters whose reads and prefetches a combining entry has. -/
def State.clustersOf (s : State) (c : Combine) : List Nat :=
  c.ops.filterMap (fun i => (s.reader i).map (fun o => clusterOf o.core)) ++ c.fills.map (fun f => clusterOf f.1)

/-- A read that misses opens a combining entry in its die's slice, or joins the open one from another cluster. -/
def State.missOn (s : State) (line : Nat) (o : Op) : Option State :=
  let die := authorityDie o.core line
  match s.combineAt die line with
  | some c =>
    if s.clock < c.since + combineWindow && !(s.clustersOf c).contains (clusterOf o.core) then
      some { s with combines := s.combines.map (fun (x : Combine) => if x = c then { x with ops := x.ops ++ [o.id] } else x) }
    else none
  | none => some (s.openMiss die line [o.id] [])

/-- A slice opens a combining entry for a line that it lacks, or a read from another cluster of the die joins an open one. -/
def execL2ReadMiss (line : Nat) (s : State) : Host.Outcome State Fault Refusal :=
  event s ((s.readers.filter (s.missesLine line)).findSome? (s.missOn line))

/-- The data of a fetch arrives, at the home's slice from DRAM, at another die's from the home: every joined read and prefetch, with
the reads absorbed behind them, is performed, and each load or pass that has all its data returns. -/
def State.fillArrives (s : State) (c : Combine) : State :=
  let s : State := { s with combines := s.combines.filter (fun x => x != c) }
  let s := if homeDie (c.line * 128) = c.die then s.l2Fill c.line 0 else s.l2Read c.line 0
  let s := c.fills.foldl (fun (s : State) f => s.fill f.1 c.line 0 f.2) s
  let s := c.ops.foldl (fun (s : State) i => s.readAll i (fun l => l == c.line)) s
  c.ops.foldl (fun (s : State) i => (s.readDone i).getD s) s

def execDramFillArrival (line : Nat) (s : State) : Host.Outcome State Fault Refusal :=
  event s ((s.combines.find? (fun c => c.line == line)).map s.fillArrives)

/-! ### Absorption (R248) -/

/-- Entries of an absorb table. -/
def absorbRoom : Nat := 16

/-- The switches that a read of a line passes: the core's sector crossbar, its die's central crossbar, and, unless the die has a
copy of the line, the bridge to the home's die and that die's central crossbar. Sector crossbars are numbered from 0, central
crossbars from 32, bridges from 36 by 4 × from + to. -/
def State.switchPath (s : State) (core line : Nat) : List Nat :=
  let d := dieOf core
  let h := homeDie (line * 128)
  [sectorOf core, 32 + d] ++
    (if h = d || (lookup? s.copies (line * 4 + d)).isSome then [] else [36 + 4 * d + h, 32 + h])

/-- The line of which a read passes a switch next: the first on whose path the switch lies and that neither stands in its table
nor is absorbed. -/
def State.passing (s : State) (op switch core : Nat) (lines : List Nat) : Option Nat :=
  lines.find? (fun l => (s.switchPath core l).contains switch &&
    !s.absorbs.any (fun a => a.line == l && ((a.switch == switch && a.op == op) || a.joined.contains op)))

/-- A class-3 read passes a switch: absorbed by a live entry of its line whose read passed in the cycle of its issue or later, else it
takes an entry while one is free. -/
def execClass3ReadSwitchPass (op switch : Nat) (s : State) : Host.Outcome State Fault Refusal :=
  event s ((s.class3Lines op).bind (fun r => (s.passing op switch r.2.1 r.2.2.2).bind (fun line =>
    let table := s.absorbs.filter (fun a => a.switch == switch)
    match table.find? (fun a => a.line == line && a.asid == r.1 && r.2.2.1 ≤ a.passed && a.op != op) with
    | some a => some { s with absorbs := s.absorbs.map (fun (x : Absorb) => if x = a then { x with joined := x.joined ++ [op] } else x) }
    | none =>
      if table.length < absorbRoom then
        some { s with absorbs := s.absorbs ++ [{ switch, line, asid := r.1, op, passed := s.clock }] }
      else none)))

/-! ### Write-back (R240, R251) -/

/-- POLICY `.keep` lets a line of its home's L2 leave: only while its set holds no other line (R245). -/
def State.keepLets (s : State) (line : Nat) : Bool :=
  let die := homeDie (line * 128)
  !s.kept.contains (heldKey die line) ||
    (s.setLines die (sliceOf (line * 128)) (setOf (line / 4))).all (fun l => s.kept.contains (heldKey die l))

/-- A line leaves its cache: a dirty one of L2 is written back to DRAM and leaves when it may, a clean one leaves; a dirty line of
private memory leaves the L1 of a core that runs (R334). What makes one leave is not stated in full, so any may (DESIGN CHOICE,
log 29). -/
def execL2Writeback (line : Nat) (s : State) : Host.Outcome State Fault Refusal :=
  event s (match lookup? s.l2 line with
    | some x =>
      if s.evictable (homeDie (line * 128)) line && s.keepLets line then some (s.evictLine (homeDie (line * 128)) line)
      else if x == Mesi.m && (homeOf (line * 128)).package then some ((s.toDram line).l2Clean line)
      else none
    | none => (s.cores.findSome? (fun k => if k.2.run == .running then
          (k.2.privs.find? (fun p => p.line == line)).map (fun p => (k.1, p)) else none)).map
        (fun r => s.spillPriv r.1 r.2))

/-! ### Recalls and victim buffers (R351, R352, R367) -/

/-- Cycles after which a recall is unanswered. -/
def recallLimit : Nat := 2 ^ 20

/-- Whether another die holds a line, or its victim buffer does. -/
def State.heldElsewhere (s : State) (line : Nat) : Bool :=
  s.copies.any (fun p => p.1 / 4 == line) || s.victims.any (fun v => v.line == line && !v.taken)

/-- A home sends a recall, or the recall is answered once the leases on the line are over. -/
def execRecall (line : Nat) (s : State) : Host.Outcome State Fault Refusal :=
  event s (
    if s.recallFree line then
      if s.heldElsewhere line then some { s with recalls := s.recalls ++ [(line, s.clock)] } else none
    else if s.leaseOver line then
      some { (s.takeCopy line).dropCopies line with recalls := s.recalls.filter (fun p => p.1 != line) }
    else none)

/-- A recall of a copy in E or M that no one answers: the line is poisoned (R367). -/
def execRecallTimeout (line : Nat) (s : State) : Host.Outcome State Fault Refusal :=
  event s (match s.recalls.find? (fun p => p.1 == line) with
    | some p =>
      if p.2 + recallLimit ≤ s.clock ∧ (s.copies.any (fun q => q.1 / 4 == line && q.2 != .s) ∨ s.victims.any (fun v => v.line == line)) then
        some ({ s with recalls := s.recalls.filter (fun q => q.1 != line) }.poisonLine line)
      else none
    | none => none)

/-- A dirty line of another home leaves its set for the victim buffer, once no lease on it is live and the buffer has room (R242),
and asks to be written back. -/
def execVictimWritebackRequest (die line : Nat) (s : State) : Host.Outcome State Fault Refusal :=
  event s (if s.writesAway die line && s.evictable die line then some (s.evictLine die line) else none)

/-- The home's grant: it takes the data, or cancels where a recall or snoop has taken it. The die that has read the line again
meanwhile keeps its bit. -/
def execWritebackGrant (die line : Nat) (s : State) : Host.Outcome State Fault Refusal :=
  event s (match s.victims.find? (fun v => v.die == die && v.line == line) with
    | none => none
    | some v =>
      let s := { s with victims := s.victims.filter (· != v) }
      if v.taken || homeOf (line * 128) == .host then some s
      else
        let e := get 0 s.directory line
        let bit : BitVec 10 := BitVec.ofNat 10 (2 ^ dieBit (homeDie (line * 128)) die)
        let e := if (lookup? s.copies (line * 4 + die)).isSome then e else e &&& ~~~ bit
        some ((s.setEntry line (withOwn e 0)).l2Put line .m 0))

end Sys2Proof.Machine
end

