-- ==== Sys2Proof/Machine/Errors.lean ====
section
/-! DEFINITION. Soft errors: how a read finds one, and what becomes of the word (R365, R366). -/

namespace Sys2Proof.Machine

/-- The die whose counters an error raises. -/
def SoftError.die (e : SoftError) : Nat :=
  match e.spot.site with
  | .line pa _ => homeDie pa
  | .tag line => homeDie (line * 128)
  | .core k _ | .tlb k _ _ => dieOf k
  | .copy d _ | .buffer d => d

/-! ### What becomes of a word -/

/-- One more correction logged of a row or lane (R372). -/
def logRow (row : Config.Fuse) : List (Config.Fuse × Nat) → List (Config.Fuse × Nat)
  | [] => [(row, 1)]
  | p :: ps => if p.1 = row then (row, p.2 + 1) :: ps else p :: logRow row ps

/-- A line whose data is lost is poisoned. -/
def State.loseLine (s : State) (die line : Nat) : State := (s.poisonLine line).count 3 die 1

/-- A line of its home's L2, by its data or its tag: lost where it is dirty, else fetched again. -/
def State.badL2 (s : State) (die line : Nat) : State :=
  match lookup? s.l2 line with
  | none => s
  | some x => if x = .m then s.loseLine die line else (s.countMiss line).count 2 die 1

/-- Whether a die holds a line dirty that is another die's, in its L2 or in its victim buffer. -/
def State.dirtyCopy (s : State) (die line : Nat) : Bool :=
  lookup? s.copies (line * 4 + die) == some .m || s.victims.any (fun v => v.die == die && v.line == line && !v.taken)

/-- A core's L1 without a line. -/
def Core.dropL1 (c : Core) (line : Nat) : Core := { c with l1 := erase c.l1 line, privs := c.privs.filter (fun p => p.line != line) }

/-- Whether a core's L1 holds a line. -/
def Core.holdsL1 (c : Core) (line : Nat) : Bool := (lookup? c.l1 line).isSome || c.privs.any (fun p => p.line == line)

/-- A line in a die's caches but its home's L2: lost where the die holds it dirty, else dropped, to be fetched again by the next read.
Any line of an L1 is dropped, a dirty private one too (log 23). -/
def State.badCopy (s : State) (die line : Nat) : State :=
  if s.dirtyCopy die line then s.loseLine die line
  else
    let held := (lookup? s.copies (line * 4 + die)).isSome
    if !held && !s.cores.any (fun p => dieOf p.1 == die && p.2.holdsL1 line) then s
    else
      let e := get 0 s.directory line &&& ~~~ (BitVec.ofNat 10 (2 ^ dieBit (homeDie (line * 128)) die))
      let s := if held then { s with copies := erase s.copies (line * 4 + die) }.setEntry line (withOwn e 0) else s
      { s with cores := s.cores.map (fun (p : Nat × Core) => if dieOf p.1 = die then (p.1, p.2.dropL1 line) else p) }.count 2 die 1

/-- A translation is dropped from a core's TLB and its sector's, to be walked again (DESIGN CHOICE, log 23). -/
def State.badTlb (s : State) (core asid va : Nat) : State :=
  { s.mapCore core (fun c => { c with tlb := c.tlb.filter (fun e => !e.covers asid va) }) with
    sectorTlb := s.sectorTlb.filter (fun p => !(p.1 == sectorOf core && p.2.covers asid va)) }.count 2 (dieOf core) 1

/-- A team whose word is lost is killed (R234), and a record of KIND 4 written. -/
def State.badCore (s : State) (core team : Nat) : State :=
  (match lookup? s.teams team with
    | some t =>
      if t.core = core then
        (s.report t.asid { kind := 4, code := Cause.poison.code.toNat, grid := s.gridId t.grid, core, team := t.linear }).killTeam team
      else s
    | none => s).count 3 (dieOf core) 1

/-- A read finds an error: one bit is corrected and the correction logged; a word with more is handled by where it lies. What a
buffer of the fabric or a link loses is sent again (DESIGN CHOICE, log 23). -/
def State.discover (s : State) (e : SoftError) : State :=
  let s := { s with softErrors := s.softErrors.filter (· != e) }
  if e.bits ≤ 1 then { s with mgmt := { s.mgmt with logged := logRow e.spot.row s.mgmt.logged } }.count 1 e.die 1
  else match e.spot.site with
    | .line pa true => s.badL2 e.die (lineOf pa)
    | .tag line => s.badL2 e.die line
    | .line pa false => s.loseLine e.die (lineOf pa)
    | .copy die line => s.badCopy die line
    | .tlb core asid va => s.badTlb core asid va
    | .buffer die => s.count 2 die 1
    | .core core team => s.badCore core team

/-! ### The reads that find it -/

/-- A read of a line: the die of the reader, and whether an L1 there answers it. -/
structure LineRead where
  die  : Nat
  line : Nat
  near : Bool := false

/-- A read of a line that its home answers. -/
def homeRead (line : Nat) : LineRead := { die := homeDie (line * 128), line }

/-- A read of a line by a core. -/
def State.coreRead (s : State) (core line : Nat) : LineRead :=
  { die := dieOf core, line, near := s.l1Hit core line || (s.core core).privs.any (fun p => p.line == line) }

/-- Whether a read meets an error: in the caches of its die, at the home where those lack the line, in DRAM where the home's L2 lacks
it too, in the copy that gives the home its data, in the buffers of the dies between. -/
def State.meets (s : State) (e : SoftError) (r : LineRead) : Bool :=
  let line := r.line
  let far := !r.near && (r.die == homeDie (line * 128) || (lookup? s.copies (line * 4 + r.die)).isNone)
  match e.spot.site with
  | .line pa true => far && lineOf pa == line
  | .tag l => far && l == line
  | .line pa false => far && lineOf pa == line && (lookup? s.l2 line).isNone
  | .copy d l => l == line && (d == r.die || (far && (s.dirtyCopy d line || lookup? s.copies (line * 4 + d) == some .e)))
  | .buffer d => !r.near && (d == r.die || d == homeDie (line * 128))
  | .tlb .. | .core .. => false

/-- The errors that some reads of lines find. -/
def State.findReads (s : State) (rs : List LineRead) : State :=
  (s.softErrors.filter (fun e => rs.any (s.meets e))).foldl State.discover s

/-- Who translates an address: the device itself, a core, or a sector's transfer engine. -/
inductive Via where
  | device | core (k : Nat) | sector (n : Nat)

/-- How an address is translated (R331). -/
def State.translateVia (s : State) : Via → Nat → Nat → Walk
  | .device => s.walk
  | .core k => s.translate k
  | .sector n => s.translateIn n

/-- The lines of tables that a translation reads. -/
def State.tablesVia (s : State) (via : Via) (asid va : Nat) : List Nat :=
  let walked := s.walkLines va 5 (s.ctx asid).ptroot.toNat
  match via with
  | .device => walked
  | .core k => s.tableLines k asid va
  | .sector n => if s.sectorTlb.any (fun p => p.1 == n && p.2.covers asid va) then [] else walked

/-- Whether a lookup meets an error in a translation that its TLB, or its sector's, holds. -/
def Via.meets (via : Via) (asid va : Nat) (s : State) (e : SoftError) : Bool :=
  match e.spot.site with
  | .tlb k a v =>
    let hit (t : TlbEntry) : Bool := t.covers a v && t.covers asid va
    let shared := s.sectorTlb.any (fun p => p.1 == sectorOf k && hit p.2)
    match via with
    | .device => false
    | .core c => (c == k && (s.core k).tlb.any hit) || (sectorOf c == sectorOf k && shared)
    | .sector n => n == sectorOf k && shared
  | _ => false

/-- The errors that a translation finds: in the TLBs, then in the tables that are walked. -/
def State.findVa (s : State) (via : Via) (asid va : Nat) : State :=
  let s := (s.softErrors.filter (via.meets asid va s)).foldl State.discover s
  s.findReads ((s.tablesVia via asid va).map homeRead)

/-- An access to a context's memory: who makes it, where, its bytes, and whether it reads them. -/
structure Span where
  via  : Via
  asid : Nat
  va   : Nat
  n    : Nat
  read : Bool := true

/-- The errors that an access finds: those of its translations, then those of what it reads. -/
def State.findSpan (s : State) (x : Span) : State :=
  if s.softErrors = [] then s
  else
    let s := (pieces x.va x.n).foldl (fun (s : State) p => s.findVa x.via x.asid p.1) s
    if !x.read then s
    else match physical (s.translateVia x.via x.asid) (·.read) x.va x.n with
      | some ps => s.findReads (ps.map (fun p => match x.via with
          | .core k => s.coreRead k (lineOf p.1)
          | _ => homeRead (lineOf p.1)))
      | none => s

end Sys2Proof.Machine
end

