-- ==== Sys2Proof/Machine/Dispatcher.lean ====
section
/-! DEFINITION. The dispatcher: acceptance, dependences, admission, retirement, energy and supply (R305 to R324). -/

namespace Sys2Proof.Machine

/-! ### Packets, records and extensions (R25, R305, R307) -/

def Grid.kernelRecord (g : Grid) : Nat := field g.packet 0 64
def Grid.paramCount (g : Grid) : Nat := field g.packet 64 7
def Grid.paramVa (g : Grid) : Nat := field g.packet 224 64
def Grid.extVa (g : Grid) : Nat := field g.packet 288 64
def Grid.eventVa (g : Grid) : Nat := field g.packet 352 64
def Grid.eventVal (g : Grid) : Nat := field g.packet 416 32
def Grid.doneVa (g : Grid) : Nat := field g.packet 448 64
def Grid.after (g : Grid) : Bool := field g.packet 90 1 == 1
def Grid.tmode (g : Grid) : Nat := field g.packet 91 2
def Grid.lmask (g : Grid) : Mask := BitVec.ofNat 32 (field g.packet 192 32)
def Grid.codeLength (g : Grid) : Nat := field g.krec 64 32
def Grid.producer (g : Grid) : Nat := field g.krec 101 4
/-- The admission weight of a team (R316). -/
def Grid.weight (g : Grid) : Nat := g.courses * (field g.krec 105 2 + 1)
def Grid.extension (g : Grid) : BitVec 1024 := g.ext.getD 0
def Grid.traceVa (g : Grid) : Nat := field g.extension 704 64
def Grid.traceLen (g : Grid) : Nat := field g.extension 768 32
def Grid.signature (g : Grid) : Nat := field g.extension 640 64
def Grid.replays (g : Grid) : Bool := g.det && g.tmode == 1

/-- The limits of a packet (R305). -/
def Grid.packetOk (g : Grid) : Bool :=
  field g.packet 93 3 == 0 && [g.kernelRecord, g.paramVa, g.extVa, g.eventVa, g.doneVa].all (fun a => a < 2 ^ 57) &&
  g.kernelRecord % 32 == 0 && g.paramVa % 4 == 0 && g.extVa % 128 == 0 && g.eventVa % 4 == 0 && g.doneVa % 8 == 0 &&
  g.lmask != 0 && 0 < g.gx && 0 < g.gy && 0 < g.gz && g.teams ≤ 2 ^ 32 && g.paramCount ≤ 64 && g.psize ≤ 65536

/-- The limits of a kernel record against its image's header (R25). -/
def Grid.recordOk (g : Grid) (header : BitVec 512) : Bool :=
  field g.krec 109 3 == 0 && 1 ≤ g.courses && g.courses ≤ 16 && g.producer < g.courses &&
  field g.krec 32 32 % 12 == 0 && g.codeLength % 12 == 0 &&
  field header 0 32 == 0x4C5A5A34 && field header 32 16 == 4 && field header 64 32 == 64 &&
  field g.krec 112 16 < field header 48 16 && field g.krec 32 32 + g.codeLength ≤ field header 128 32

/-- The limits of an extension (R307). -/
def Grid.extOk (g : Grid) : Bool :=
  field g.extension 800 224 == 0 && field g.extension 516 124 == 0 && field g.extension 512 4 ≤ 8 &&
  g.traceVa % 16 == 0 && g.variants.all (fun v => v.2 % 12 == 0 && v.2 < g.codeLength)

/-! ### The trace and the signature (R323, R324) -/

def recCore (r : BitVec 64) : Nat := field r 32 11
def recRot (r : BitVec 64) : Nat := field r 43 2
def recTeam (r : BitVec 64) : Nat := field r 0 32

/-- A trace record. -/
def traceRecord (team core rot : Nat) : BitVec 64 :=
  BitVec.ofNat 64 (team % 2 ^ 32 + core % 2048 * 2 ^ 32 + rot % 4 * 2 ^ 43)

/-- Bytes as 64-bit records. -/
def bytesRecords : Nat → List Byte → List (BitVec 64)
  | 0, _ => []
  | n + 1, bs => BitVec.ofNat 64 (leNat (bs.take 8)) :: bytesRecords n (bs.drop 8)

/-- The bytes of a trace: its header, then a record per team. -/
def Grid.traceBytes (g : Grid) : List Byte :=
  leBytes 4 0x4C5A5452 ++ leBytes 4 4 ++ leBytes 4 g.teams ++ leBytes 4 0 ++ g.trace.flatMap (fun r => leBytes 8 r.toNat)

/-- A trace that is to be replayed fits the launch: header, every team once, every core granted. -/
def traceFits (granted : Nat → Bool) (teams : Nat) (header : List Byte) (rs : List (BitVec 64)) : Bool :=
  let h := leNat header
  h % 2 ^ 64 == 0x4C5A5452 + 4 * 2 ^ 32 && h / 2 ^ 64 == teams && rs.length == teams &&
  rs.all (fun r => r.toNat < 2 ^ 45 && recTeam r < teams && granted (recCore r)) &&
  (rs.map recTeam).eraseDups.length == teams

/-- The words of the signature before TEAMS and the records. -/
def Grid.sigHead (g : Grid) (code : List Byte) : List W32 :=
  let n (x : Nat) : W32 := BitVec.ofNat 32 x
  let vs := g.variants
  [4, n g.gx, n g.gy, n g.gz, g.lmask, n (field g.packet 64 22)] ++ g.params ++
    (0 :: (List.range 7).map (fun i => n (field g.krec (32 * (i + 1)) 32))) ++ (bytesWords code).map n ++
    (n vs.length :: vs.flatMap (fun v => [n v.1, n v.2]))

/-- SIG over a stream of words. -/
def sigOf (ws : List W32) : Nat :=
  let r := ws.foldl (fun (p : W32 × W32 × W32) w => (rng p.1 w, rng (p.2.1 ^^^ p.2.2) w, p.2.2 + 1)) (0, 0, 0)
  4 * 2 ^ 60 + r.2.1.toNat % 2 ^ 28 * 2 ^ 32 + r.1.toNat

/-- The signature of a grid with its trace. -/
def Grid.sign (g : Grid) : Nat :=
  sigOf (g.sigWords ++ BitVec.ofNat 32 g.teams :: g.trace.flatMap (fun r => [low32 r, high32 r]))

/-! ### Acceptance (R308 to R312) -/

/-- The launch status codes (R311). -/
def accepted : Nat := 0x00
def resources : Nat := 0x41
def coresidency : Nat := 0x42
def malformed : Nat := 0x43
def signatureGeneration : Nat := 0x47
def traceMismatch : Nat := 0x48

/-- The bytes of a context's memory as one number, none where a read faults. -/
def State.readNum (s : State) (asid va n : Nat) : Option Nat := (s.readVia asid va n).map leNat

/-- What the dispatcher reads: none where a read faults or a limit is broken, with what its reads leave. -/
abbrev Reads := OptionT (StateM State)

/-- A read of the dispatcher, which finds soft errors as any read does (R132, R330, R365, R371). -/
def fetchBytes (asid va n : Nat) : Reads (List Byte) := OptionT.mk (fun s =>
  let s := s.findSpan { via := .device, asid, va, n }
  (s.readVia asid va n, s.touch asid va n true))
def fetchNum (asid va n : Nat) : Reads Nat := (fetchBytes asid va n) >>= fun bs => pure (leNat bs)

/-- Whether a value of the event word makes its grid dispatchable, none where its read faults. -/
def State.eventRead (s : State) (g : Grid) : Option Bool :=
  if g.eventVa = 0 then some true else (s.readNum g.asid g.eventVa 4).map (fun v => g.eventVal ≤ v)

/-- What a read of the event word leaves. -/
def State.eventTouch (s : State) (g : Grid) : State := if g.eventVa = 0 then s else s.touch g.asid g.eventVa 4 true

/-- A read that leaves the launch as it is where it faults. -/
def tryNum (asid va n : Nat) : Reads (Option Nat) := OptionT.mk (fun s => let r := (fetchNum asid va n).run s; (some r.1, r.2))

/-- The shared-deterministic regions that a kernel's declaration records of kind 3 give, in record order (R25, R26). The records are
read where the image's header places them, as relocation leaves them in memory: the base takes the first and the third extent, low
word first, and the length the second (DESIGN CHOICE, log 14). A record that cannot be read gives none. -/
def readRegions (g : Grid) (at_ : Nat) (header : BitVec 512) : Reads (List (Nat × Nat)) :=
  (List.range (field header 320 32)).foldlM (fun rs i => do
    match ← tryNum g.asid (at_ + field header 288 32 + 32 * i) 32 with
    | none => pure rs
    | some x =>
      let r : BitVec 256 := BitVec.ofNat 256 x
      pure (if field r 0 8 = 3 ∧ field r 8 24 = field g.krec 112 16 then
        rs ++ [(field r 64 32 + 2 ^ 32 * field r 128 32, field r 96 32)] else rs)) []

/-- Reads of step 1 of R310, the grid as they leave it: none where one faults or a limit is broken. -/
def launchReads (g : Grid) : Reads Grid := do
  guard g.packetOk
  let krec ← fetchNum g.asid g.kernelRecord 32
  let g : Grid := { g with krec := BitVec.ofNat 256 krec }
  let at_ := g.kernelRecord - 64 - 32 * field g.krec 112 16
  guard (64 + 32 * field g.krec 112 16 ≤ g.kernelRecord)
  let header : BitVec 512 := BitVec.ofNat 512 (← fetchNum g.asid at_ 64)
  guard (g.recordOk header)
  let det := field g.krec 107 1 == 1
  guard (!(det && 2 ≤ g.tmode))
  let params ← fetchBytes g.asid g.paramVa (4 * g.paramCount)
  let ext : Option (BitVec 1024) ←
    if g.extVa = 0 then pure none else (fetchNum g.asid g.extVa 128) >>= fun x => pure (some (BitVec.ofNat 1024 x))
  let g : Grid := { g with code := at_ + field header 96 32, det, ext, params := (bytesWords params).map (BitVec.ofNat 32) }
  guard g.extOk
  let code ← if det then fetchBytes g.asid g.entryPc g.codeLength else pure []
  let seen ← OptionT.mk (fun s =>
    let s := if g.eventVa = 0 then s else s.findSpan { via := .device, asid := g.asid, va := g.eventVa, n := 4 }
    (s.eventRead g, s.eventTouch g))
  let _ ← OptionT.mk (fun (s : State) =>
    let s := if g.doneVa = 0 then s else s.findSpan { via := .device, asid := g.asid, va := g.doneVa, n := 8, read := false }
    (if g.doneVa = 0 then some [] else physical (s.walk g.asid) (·.write) g.doneVa 8,
     if g.doneVa = 0 then s else s.touch g.asid g.doneVa 8 false))
  let regions ← if det then readRegions g at_ header else pure []
  pure { g with eventSeen := seen, sigWords := if det then g.sigHead code else [], regions }

def State.readLaunch (s : State) (g : Grid) : Option Grid × State := (launchReads g).run s

/-- The scratchpad split that a first team sets, in KiB (R314). -/
def Grid.splitFor (g : Grid) : Nat :=
  let want := min 393216 (max 65536 (16 / g.courses * g.scratch))
  (want + 32767) / 32768 * 32

/-- A team's scratchpad with its alignment. -/
def Grid.run_ (g : Grid) : Nat := (g.scratch + 255) / 256 * 256

/-- Teams of a grid that a core holds at once with nothing else on it, by its boot ECAP (R310, R313). -/
def Grid.capacity (g : Grid) (c : Core) : Nat :=
  let slots := 16 / g.courses
  let spad := if g.scratch = 0 then slots else 1024 * g.splitFor / g.run_
  let spad := if 1024 * g.splitFor < g.scratch then 0 else max spad 1
  min (min slots spad) (min (c.ecapBoot / g.weight) (if g.usesTiles then 1 else slots))

/-- The cores granted to a context and not fenced off (R328, R372). -/
def State.usable (s : State) (asid : Nat) : List Nat :=
  (List.range 2048).filter (s.grants asid)

/-- The trace that a replayed launch names, none where a read of it faults; an empty one where it is too short. -/
def traceReads (g : Grid) : Reads (List Byte × List (BitVec 64)) := do
  if g.replays && g.ext.isSome && 16 + 8 * g.teams ≤ g.traceLen then
    let h ← fetchBytes g.asid g.traceVa 16
    let rs ← fetchBytes g.asid (g.traceVa + 16) (8 * g.teams)
    pure (h, bytesRecords g.teams rs)
  else pure ([], [])

def State.readTrace (s : State) (g : Grid) : Option (List Byte × List (BitVec 64)) × State := (traceReads g).run s

/-- The courses that teams under some rotations place in a quadrant: course `i` in that of rotation + i (R313). -/
def Grid.load (g : Grid) (rots : List Nat) (quadrant : Nat) : Nat :=
  (rots.map (fun r => ((List.range g.courses).filter (fun i => (r + i) % 4 == quadrant)).length)).sum

/-- Whether a core with nothing else on it holds at once the teams that a trace gives it, by its boot ECAP (R310, R313). -/
def Grid.coreHolds (g : Grid) (c : Core) (rots : List Nat) : Bool :=
  (List.range 4).all (fun q => g.load rots q ≤ 4) && rots.length * g.weight ≤ c.ecapBoot &&
    (!g.usesTiles || rots.length ≤ 1) && g.scratch ≤ 1024 * g.splitFor &&
    (g.scratch = 0 || (rots.length - 1) * g.run_ + g.scratch ≤ 1024 * g.splitFor)

/-- The rotations of the teams that a trace gives a core. -/
def rotsOn (rs : List (BitVec 64)) (core : Nat) : List Nat := (rs.filter (fun r => recCore r == core)).map recRot

/-- The granted cores hold every team of a grid at once (R310 step 3): each where its trace puts it, for a replay whose trace fits
the launch. -/
def State.holdsAll (s : State) (g : Grid) (header : List Byte) (rs : List (BitVec 64)) : Bool :=
  if g.replays && traceFits (s.grants g.asid) g.teams header rs then
    ((rs.map recCore).eraseDups).all (fun k => g.coreHolds (s.core k) (rotsOn rs k))
  else g.teams ≤ ((s.usable g.asid).map (fun k => g.capacity (s.core k))).sum

/-- The decision of R310: the status of the first check that fails, or ACCEPTED, with the grid and what the reads leave. -/
def State.decide (s : State) (g : Grid) : Nat × Grid × State :=
  match s.readLaunch g with
  | (none, s) => (malformed, g, s)
  | (some g, s) =>
    match s.readTrace g with
    | (none, s) => (malformed, g, s)
    | (some (header, rs), s) =>
      let c := s.ctx g.asid
      let cap := (s.usable g.asid).map (fun k => g.capacity (s.core k))
      if cap.all (· == 0) ∨ c.privStride.toNat < 32 * g.psize then (resources, g, s)
      else if g.cores && !s.holdsAll g header rs then (coresidency, g, s)
      else if g.det && g.signature != 0 && g.signature / 2 ^ 60 != 4 then (signatureGeneration, g, s)
      else
        let g := if g.replays then { g with trace := rs } else g
        let fits : Bool := match g.ext with
          | none => g.tmode == 0
          | some _ => 16 + 8 * g.teams ≤ g.traceLen &&
              (g.tmode == 0 || (traceFits (s.grants g.asid) g.teams header rs && (g.signature == 0 || g.signature == g.sign)))
        if g.det && !fits then (traceMismatch, g, s) else (accepted, g, s)

/-- A value of %grid that no live grid of the context has (R35). -/
def freeGid (used : List W32) : Nat → W32 → W32
  | 0, x => x
  | n + 1, x => if used.contains x then freeGid used n (x + 1) else x

/-- The line of a completion record, where a lease on it holds its write back (R242). -/
def State.doneBusy (s : State) (g : Grid) : List Nat :=
  match s.walk g.asid g.doneVa with
  | .page p => if g.doneVa != 0 && !s.leaseOver (lineOf p.pa) then [lineOf p.pa] else []
  | _ => []

def State.doneFree (s : State) (g : Grid) : Bool := (s.doneBusy g).isEmpty

/-- A completion record waits for the lease of its line, so that fills of it take none; none once that is noted. -/
def State.doneWaits (s : State) (g : Grid) : Option State :=
  if (s.doneBusy g).all (fun l => s.leaseWait.contains (0, l)) then none else some (s.awaitLease 0 (s.doneBusy g))

/-- A write of a completion record, or a record of KIND 7 where it cannot be written (R312). -/
def State.writeDone (s : State) (g : Grid) (high : Bool) (status : Nat) (gid : W32) : State :=
  if g.doneVa = 0 then s
  else if 2 ^ 57 ≤ g.doneVa ∨ g.doneVa % 8 ≠ 0 then s.report g.asid { kind := 7, code := status, va := g.doneVa, grid := gid }
  else
    let va := if high then g.doneVa + 4 else g.doneVa
    let bytes : Option (List Byte) := if high then (s.readNum g.asid va 4).map (fun x => leBytes 4 (x + 1)) else some (leBytes 4 status)
    let page := s.walk g.asid va
    match physical (s.walk g.asid) (·.write) va 4, page with
    | some ps, .page p =>
      let bs := bytes.getD (leBytes 4 (s.readNat p.pa 4 + 1))
      (s.spread ps bs).written p.pa
    | _, _ => s.report g.asid { kind := 7, code := status, va := g.doneVa, grid := gid }

/-- A queue of a context among all of its queues: the child queues from 8 on. -/
def Grid.queueNo (g : Grid) : Nat := if g.child then g.queue + 8 else g.queue

/-- The decision carried out: DONE's low word, the high word of a refused launch, the grid of an accepted one. -/
def State.settleLaunch (s : State) (g : Grid) : Nat × State :=
  let d := s.decide g
  let g := d.2.1
  let s := d.2.2
  if d.1 ≠ accepted then
    let t := s.writeDone g false d.1 0
    let bad := 2 ^ 57 ≤ g.doneVa ∨ g.doneVa % 8 ≠ 0 ∨ (physical (s.walk g.asid) (·.write) g.doneVa 8).isNone
    (d.1, if bad then t else t.writeDone g true d.1 0)
  else
    let c := s.ctx g.asid
    let live := (s.grids.filter (fun p => p.2.asid == g.asid)).map (·.2.gid)
    let gid := freeGid live live.length (Config.gridId s.free)
    let killed : Bool := match g.parent with | some q => (s.grid q).killed | none => false
    let g := { g with gid, prev := lookup? c.lastGrid g.queueNo, killed, exact := c.mode.getLsbD 0, strict := c.errCtl.getLsbD 0,
                      token := if g.det then some 0 else none }
    let n := s.stamp
    let s := { s with free := s.free + 1, grids := assign s.grids n g, stamp := n + 1 }.mapCtx g.asid
      (fun c => { c with lastGrid := assign c.lastGrid g.queueNo n })
    (d.1, s.writeDone g false accepted gid)

/-- The cycle in which the next packet of a queue was submitted: that of the earliest write of its tail whose packets have not all
been taken. -/
def Ctx.submitted (c : Ctx) (q : Nat) : Option Nat := (c.tails.find? (fun x => x.1 == q)).map (fun x => x.2.1)

/-- A lower queue whose tail was written in the same cycle still holds packets of that write, which are taken first (R308). -/
def Ctx.queueWaits (c : Ctx) (q : Nat) : Bool :=
  (List.range q).any (fun p => get 0 c.lqHead p != get 0 c.lqTail p &&
    c.tails.any (fun x => x.1 == p && some x.2.1 == c.submitted q))

/-- The head of a queue moves on: the writes of its tail that this reaches are done with. -/
def Ctx.take (c : Ctx) (q : Nat) (n : W32) : Ctx :=
  { c with lqHead := assign c.lqHead q n,
           tails := c.tails.filter (fun x => !(x.1 == q && (x.2.2 == n || get 0 c.lqTail q == n))) }

/-- The next packet of a queue reaches the dispatcher and is decided. -/
def execLaunchAcceptance (asid q : Nat) (child : Bool) (s : State) : Host.Outcome State Fault Refusal :=
  event s (
    let c := s.ctx asid
    if child then
      match c.children.find? (fun k => k.queue == q && k.status.isNone) with
      | none => none
      | some k =>
        let g : Grid := { asid, packet := k.packet, queue := q, child := true, prio := q, depth := (s.grid k.parent).depth + 1,
                          parent := some k.parent }
        if c.state ≠ 1 then none
        else if !s.doneFree g then s.doneWaits g
        else
          let r := s.settleLaunch g
          some (r.2.childStatus asid k r.1)
    else if c.state ≠ 1 ∨ 8 ≤ q ∨ get 0 c.lqHead q = get 0 c.lqTail q ∨ c.queueWaits q then none
    else
      let n := get 0 c.lqHead q
      let va := (get 0 c.lqBase q).toNat + 64 * (n.toNat % c.lqSize.toNat)
      let taken (s : State) : State := s.mapCtx asid (fun c => c.take q (n + 1))
      match s.readNum asid va 64 with
      | none => some (taken (s.touch asid va 64 true))
      | some x =>
        let g : Grid := { asid, packet := BitVec.ofNat 512 x, queue := q, prio := q }
        if s.doneFree g then some (taken ((s.touch asid va 64 true).settleLaunch g).2) else s.doneWaits g)

/-- The dispatcher acquires a grid's event word again (R312). -/
def execEventWordReread (grid : Nat) (s : State) : Host.Outcome State Fault Refusal :=
  event s (match lookup? s.grids grid with
    | some g => if g.eventSeen then none
      else match s.eventRead g with
        | some true => some ((s.eventTouch g).mapGrid grid (fun g => { g with eventSeen := true }))
        | _ => none
    | none => none)

/-- A grid's own dependences are met (R312). -/
def State.released (s : State) (g : Grid) : Bool :=
  g.eventSeen && (!g.after || (match g.prev with | some p => (lookup? s.grids p).isNone | none => true))

/-- A grid is dispatchable, with every earlier grid of its queue. -/
def State.dispatchable (s : State) (n : Nat) (g : Grid) : Bool :=
  s.grids.all (fun p => !(p.1 ≤ n && p.2.asid == g.asid && p.2.queue == g.queue && p.2.child == g.child) || s.released p.2)

/-! ### Admission (R225, R313 to R315) -/

/-- Quadrant slots that are free, lowest first. -/
def Core.freeSlots (c : Core) (quadrant : Nat) : List Nat :=
  ((List.range 4).map (· + 4 * quadrant)).filter (fun k => (lookup? c.courses k).isNone)

/-- The slots of a team's courses under a rotation: none where a quadrant has no room. -/
def Core.placeSlots (c : Core) (rot n : Nat) : Option (List Nat) :=
  (List.range n).mapM (fun i => (c.freeSlots ((rot + i) % 4))[i / 4]?)

/-- The lowest aligned place at which a run of bytes is free under the split. -/
def freeRun (used : List (Nat × Nat)) (limit size : Nat) : Option Nat :=
  let starts := 0 :: used.map (fun u => (u.1 + u.2 + 255) / 256 * 256)
  let ok (a : Nat) : Bool := a + size ≤ limit && used.all (fun u => a + size ≤ u.1 || u.1 + u.2 ≤ a)
  (starts.filter ok).foldl (fun (b : Option Nat) a => match b with | some x => some (min x a) | none => some a) none

/-- What an admission gives a team: its slots, its allocation, and its core's split. -/
structure Place where
  slots : List Nat
  base  : Nat
  split : Nat

/-- The conditions of R313 but the core's voltage and the trace. -/
def State.roomFor (s : State) (g : Grid) (core rot : Nat) : Option Place :=
  let c := s.core core
  let here := s.teamsOn core
  let split := if here.isEmpty then g.splitFor else c.split
  let used := (here.filter (fun p => p.2.size != 0)).map (fun p => (p.2.base, p.2.size))
  let tiles := !g.usesTiles || (!here.any (fun p => p.2.tiles) && c.tileQ.isEmpty)
  let energy := (here.map (fun p => p.2.weight)).sum + g.weight ≤ s.ecap core
  let context := s.grants g.asid core && here.all (fun p => p.2.asid == g.asid)
  if c.run == .running && c.binding.isNone && tiles && energy && context then
    match c.placeSlots rot g.courses with
    | none => none
    | some slots =>
      if g.scratch = 0 then some { slots, base := 0, split }
      else (freeRun used (1024 * split) g.scratch).map (fun base => { slots, base, split })
  else none

/-- Barriers of a new team (R33): expected arrivals from BARINIT. -/
def Grid.barriers (g : Grid) : List (Nat × Barrier) :=
  ((List.range 16).map (fun b => (b, field g.krec (160 + 6 * b) 6))).filterMap (fun p =>
    if p.2 = 0 then none else some (p.1, { expected := BitVec.ofNat 6 p.2, pending := BitVec.ofNat 6 p.2 }))

/-- A new course (R28, R30, R39). -/
def Grid.newCourse (g : Grid) (grid team index stamp cbase : Nat) (token : Bool) : Course :=
  { stamp, grid, team, index, launch := g.lmask, cbase, psize := g.psize, s := ofSeq 0 g.params, det := g.det,
    strict := g.strict, exact := g.exact, token,
    entries := [(0, { mask := g.lmask, valid := true, pc := BitVec.ofNat 64 g.entryPc })] }

/-- A core takes a team: its scratchpad, its tiles, its courses. -/
def State.placeTeam (s : State) (grid linear core rot : Nat) (p : Place) : State :=
  let g := s.grid grid
  let c := s.core core
  let cx := s.ctx g.asid
  let id := s.stamp
  let zero := c.lastCtx != some g.asid
  let c := if zero then { c with scratch := [] } else c
  let c := if g.scratch = 0 then c else { c with scratch := eraseRange c.scratch p.base (p.base + min 256 g.scratch) }
  let c := if g.usesTiles then c.clearTiles else c
  let cbase (slot : Nat) : Nat := cx.privBase.toNat + (core * 16 + slot) * cx.privStride.toNat
  let new := p.slots.zipIdx.map (fun x =>
    -- identifier 0 shows the token from its first issue on (R320)
    (x.1, g.newCourse grid id x.2 (id + 1 + x.2) (cbase x.1) (linear * 16 + x.2 != 0 && g.token == some (linear * 16 + x.2))))
  let c := { c with split := p.split, lastCtx := some g.asid,
                    courses := new.foldl (fun (m : List (Nat × Course)) x => assign m x.1 x.2) c.courses }
  let t : Team := { grid, asid := g.asid, linear, core, rot, slots := p.slots, base := p.base, size := g.scratch,
                    tiles := g.usesTiles, producer := g.producer, weight := g.weight, barriers := g.barriers,
                    waiting := g.cores && g.nextTeam + 1 < g.teams }
  let s := { s.setCore core c with teams := assign s.teams id t, stamp := id + 1 + p.slots.length }
  let s := s.mapGrid grid (fun g =>
    { g with nextTeam := g.nextTeam + 1,
             trace := if g.replays then g.trace.filter (fun r => recTeam r != linear)
                      else if g.det && g.ext.isSome then g.trace ++ [traceRecord linear core rot] else g.trace })
  if g.cores && g.nextTeam + 1 = g.teams then
    { s with teams := s.teams.map (fun (x : Nat × Team) => if x.2.grid = grid then (x.1, { x.2 with waiting := false }) else x) }
  else s

/-- Teams of `n` courses that free quadrant slots take, over every choice of rotations: `xs` counts the teams of each
rotation. -/
def slotRoom (free : List Nat) (n : Nat) : Nat :=
  let five := List.range 5
  let rest (xs : List Nat) (q : Nat) : Nat :=
    ((List.range 4).map (fun r => if (q + 4 - r) % 4 < n % 4 then xs[r]?.getD 0 else 0)).sum
  let fits (xs : List Nat) : Bool := (free.zipIdx).all (fun f => n / 4 * xs.sum + rest xs f.2 ≤ f.1)
  let all := five.flatMap (fun a => five.flatMap (fun b => five.flatMap (fun c => five.map (fun d => [a, b, c, d]))))
  ((all.filter fits).map (·.sum)).foldl max 0

/-- Allocations of `size` bytes that fit between those in use. -/
def runRoom (used : List (Nat × Nat)) (limit size : Nat) : Nat :=
  let starts := 0 :: used.map (fun u => (u.1 + u.2 + 255) / 256 * 256)
  let run := (size + 255) / 256 * 256
  (starts.map (fun a =>
    let stop := (used.filter (fun u => a ≤ u.1)).foldl (fun (m : Nat) u => min m u.1) limit
    if used.any (fun u => u.1 ≤ a && a < u.1 + u.2) || stop < a + size then 0 else (stop - a - size) / run + 1)).sum

/-- Teams of a grid that a core can still take. -/
def State.roomOn (s : State) (g : Grid) (core : Nat) : Nat :=
  let c := s.core core
  let here := s.teamsOn core
  if (List.range 4).all (fun r => (s.roomFor g core r).isNone) then 0
  else
    let split := if here.isEmpty then g.splitFor else c.split
    let used := (here.filter (fun p => p.2.size != 0)).map (fun p => (p.2.base, p.2.size))
    let slots := slotRoom ((List.range 4).map (fun q => (c.freeSlots q).length)) g.courses
    let energy := (s.ecap core - (here.map (fun p => p.2.weight)).sum) / g.weight
    let spad := if g.scratch = 0 then slots else runRoom used (1024 * split) g.scratch
    min (min slots spad) (min energy (if g.usesTiles then 1 else slots))

/-- Teams of a grid that have not been admitted. -/
def Grid.left (g : Grid) : Nat := g.teams - g.nextTeam

/-- A core can still take the teams that a replayed grid's trace gives it. -/
def State.takesTrace (s : State) (g : Grid) (core : Nat) : Bool :=
  let c := s.core core
  let here := s.teamsOn core
  let rots := rotsOn g.trace core
  let split := if here.isEmpty then g.splitFor else c.split
  let used := (here.filter (fun p => p.2.size != 0)).map (fun p => (p.2.base, p.2.size))
  (List.range 4).any (fun r => (s.roomFor g core r).isSome) &&
    (List.range 4).all (fun q => g.load rots q ≤ (c.freeSlots q).length) &&
    (here.map (fun p => p.2.weight)).sum + rots.length * g.weight ≤ s.ecap core &&
    (!g.usesTiles || rots.length ≤ 1) && (g.scratch == 0 || rots.length ≤ runRoom used (1024 * split) g.scratch)

/-- A co-resident grid is admitted only where there is room for all its teams (R315), on the cores that its trace names when it is
replayed (R313). -/
def State.togetherOk (s : State) (g : Grid) : Bool :=
  !g.cores || (if g.replays then ((g.trace.map recCore).eraseDups).all (s.takesTrace g)
    else g.left ≤ ((s.usable g.asid).map (s.roomOn g)).sum)

/-- A grid whose turn comes before another's: by priority, then by acceptance. -/
def before (n : Nat) (g : Grid) (m : Nat) (h : Grid) : Bool := h.prio < g.prio || (g.prio == h.prio && n < m)

/-- The trace lets a team of a replayed grid go to a core under a rotation: no earlier team of that core waits. -/
def Grid.traceAllows (g : Grid) (linear core rot : Nat) : Bool :=
  match g.trace.find? (fun r => recCore r == core) with
  | some r => recTeam r == linear && recRot r == rot
  | none => false

/-- A core stands at nominal voltage, with no change of its supply under way (R313). -/
def Core.nominal (c : Core) : Bool := c.mv == 650 && c.change.isNone

/-- Whether a grid could have a team admitted to a core now: its next one, or, of a replayed grid, the next that its trace names for
the core (R313, R315). -/
def State.wants (s : State) (n : Nat) (g : Grid) (core : Nat) : Bool :=
  !g.killed && 0 < g.left && s.dispatchable n g && s.togetherOk g && (!g.exact || (s.core core).nominal) &&
    (List.range 4).any (fun r => (s.roomFor g core r).isSome &&
      (!g.replays || (match g.trace.find? (fun x => recCore x == core) with | some x => recRot x == r | none => false)))

/-- A core admits one team of a dispatchable grid. An over-scaled core first returns to 650 mV for an exact grid (R315). -/
def execTeamAdmission (grid team core rot : Nat) (s : State) : Host.Outcome State Fault Refusal :=
  event s (match lookup? s.grids grid with
    | none => none
    | some g =>
      let partly := s.grids.any (fun p => p.1 != grid && p.2.cores && p.2.nextTeam != 0 && p.2.left != 0 && !p.2.killed)
      let first := s.grids.all (fun p => p.1 == grid || !before p.1 p.2 grid g || !s.wants p.1 p.2 core)
      let next := if g.replays then g.traceAllows team core rot else team == g.nextTeam
      if g.killed || g.left == 0 || 4 ≤ rot || partly || !first || !next || !s.dispatchable grid g || !s.togetherOk g then none
      else match s.roomFor g core rot with
        | none => none
        | some p =>
          if g.exact && !(s.core core).nominal then
            if (s.core core).change.any (fun x => x.2 == 650) then none
            else some (s.mapCore core (fun c => { c with change := some (s.clock + 2000, 650) }))
          else
            let t := s.placeTeam grid team core rot p
            if t.togetherOk (t.grid grid) then some t else none)

/-! ### Retirement (R229, R312, R322) -/

/-- Work of a grid that its retirement release covers. -/
def State.gridWork (s : State) (grid : Nat) : Bool :=
  s.ops.any (fun o => o.grid == grid && !o.done) || s.pool.any (fun q => q.grid == grid && q.stage != 6) ||
    s.jobs.any (fun j => j.grid == grid)

/-- All teams of a grid have ended, and every child grid has retired. -/
def State.gridOver (s : State) (grid : Nat) (g : Grid) : Bool :=
  !s.teams.any (fun p => p.2.grid == grid) && (g.killed || g.left == 0) &&
    !s.grids.any (fun p => p.2.parent == some grid) && !(s.ctx g.asid).children.any (fun k => k.parent == grid)

/-- A grid retires: the trace and the signature of a recording grid, then DONE's high word (R312, R322). -/
def State.retireGrid (s : State) (grid : Nat) (g : Grid) : State :=
  let s := if g.det && g.tmode == 0 && g.ext.isSome then
      let s := (s.writeVia g.asid g.traceVa g.traceBytes).getD (s.touch g.asid g.traceVa g.traceBytes.length false)
      (s.writeVia g.asid (g.extVa + 80) (leBytes 8 g.sign)).getD (s.touch g.asid (g.extVa + 80) 8 false)
    else s
  let grids := erase s.grids grid
  let s := s.writeDone g true 0 g.gid
  { s with grids, oldCode := if grids.isEmpty then [] else s.oldCode }

/-- A write of a completion record leaves the grids as they are, so that the grid can be taken out after it. -/
def execGridRetirement (grid : Nat) (s : State) : Host.Outcome State Fault Refusal :=
  event s (match lookup? s.grids grid with
    | some g =>
      if !s.gridOver grid g || s.gridWork grid then none
      else if s.doneFree g then some (s.retireGrid grid g) else s.doneWaits g
    | none => none)

/-! ### Energy and supply (R317, R319) -/

/-- A cycle of a context's budget. -/
def Ctx.tick (c : Ctx) : Ctx :=
  if c.eon then
    { c with budget := BitVec.ofNat 32 (min c.emax.toNat (c.budget.toNat - c.debit + c.erate.toNat)), debit := 0 }
  else c

/-- The budget takes its step once every opportunity of the cycle has passed, so that it counts all of the cycle's issues. -/
def execEnergyBudgetTick (asid : Nat) (s : State) : Host.Outcome State Fault Refusal :=
  event s (if (s.ctx asid).eon && !(s.ctx asid).ticked && 8192 ≤ s.turn then some (s.mapCtx asid (fun c => { c.tick with ticked := true })) else none)

/-- The supply that a core is to run at: nominal while a course of it has EXACT (R65, R319). -/
def State.wantedMv (s : State) (core : Nat) : Nat :=
  match s.teamsOn core with
  | [] => 650
  | (_, t) :: ts =>
    if ((0, t) :: ts).any (fun p => (s.grid p.2.grid).exact) || (s.core core).courses.any (fun p => p.2.exact) then 650
    else (s.ctx t.asid).vtarget.toNat

/-- A core's supply begins to move to what is requested, or has arrived; one that was going down to what is no longer requested
moves on from there (R315, R319). -/
def execSupplyChange (core : Nat) (s : State) : Host.Outcome State Fault Refusal :=
  event s (match (s.core core).change with
    | some (_, mv) =>
      if mv = 650 ∨ mv = s.wantedMv core then
        -- a tile operation that runs has run in part below 650 mV (R64)
        let slow := (s.core core).mv < 650 || mv < 650
        some (s.mapCore core (fun c => { c with mv, change := none, tileQ := match c.tileQ with
          | o :: os => { o with slow := o.slow || (o.started && slow) } :: os
          | [] => [] }))
      else some (s.mapCore core (fun c => { c with change := some (s.clock + 2000, s.wantedMv core) }))
    | none =>
      if s.wantedMv core = (s.core core).mv then none
      else some (s.mapCore core (fun c => { c with change := some (s.clock + 2000, s.wantedMv core) })))

end Sys2Proof.Machine
end

