-- ==== Sys2Proof/Machine/Firmware.lean ====
section
/-! DEFINITION. Soft errors and how reads meet them, attestation, boot and recovery, and the physical part (R365, R366, R372
to R376). -/

namespace Sys2Proof.Machine

open Sys2Proof.Encoding

/-! ### Soft errors (R365, R366) -/

/-- A soft error befalls a word. -/
def execSoftError (spot : Spot) (bits : Nat) (s : State) : Host.Outcome State Fault Refusal :=
  event s (if bits = 0 then none else some { s with softErrors := s.softErrors ++ [{ spot, bits }] })

/-- The lines that the next accesses of an operation in flight read. -/
def Op.linesRead (o : Op) : List Nat :=
  match o.kind with
  | .load sp _ _ _ xs | .rmw sp _ _ _ _ _ _ xs _ =>
    if sp = .scratch then [] else (xs.filter (fun x => !x.got)).map (fun x => lineOf x.pa)
  | .zload _ _ xs => (xs.filter (fun x => !x.got)).flatMap (fun x => [lineOf x.pa, lineOf x.pa2])
  | .zstore xs => xs.flatMap (fun x => [lineOf x.pa, lineOf x.pa2])
  | _ => []

/-- The reads of an operation in flight, or of the pass of a WAITADDR, by its stamp, with those absorbed behind them. -/
def State.readsOf (s : State) (id : Nat) : List LineRead :=
  let own (i : Nat) : List LineRead := match s.reader i with
    | some o => o.linesRead.map (s.coreRead o.core)
    | none => []
  own id ++ (s.joinedTo 32 id (fun _ => true)).flatMap (fun j => own j.1)

/-- What a job's next chunk reads of memory (R196, R201). -/
def Job.chunkSpans (j : Job) : List Span :=
  let n := j.chunkSteps
  let of (va : Int) (len : Nat) : Span := { via := .sector (sectorOf j.core), asid := j.asid, va := wrapVa va, n := len }
  let size := tyBytes (tyAt j.c.csrc)
  match j.c.first with
  | 0 =>
    if j.c.shandle ≠ 0 then match ZArray.ofBits j.sdesc with
      | some z => [of (z.base + (j.c.srcAt j.iter + j.srcDone) * z.shape.bytes) (n * z.shape.bytes)]
      | none => []
    else if j.c.sspace then [] else [of (j.c.srcAt j.iter + j.srcDone) (n * j.unit)]
  | 1 =>
    let t := Tensor.ofBits j.sdesc
    (List.range n).filterMap (fun k => (j.coords t (j.srcDone + k)).map (fun x => of (t.at_ x) (tyBytes t.ty)))
  | 6 => (List.range n).map (fun k => of (j.c.srcAt j.iter + j.indices.getD (j.srcDone + k) 0 * size) size)
  | _ => of (j.c.dst + j.srcDone * size) (n * size) ::
      (List.range j.c.nsrc).map (fun q => of (j.c.src + q * j.c.srclen + j.srcDone * size) (n * size))

/-- Where a job's chunk is written in memory. -/
def State.putSpans (s : State) (j : Job) : List Span :=
  ((s.footprints j).2.filter (fun r => r.space == 0)).map (fun r =>
    { via := .sector (sectorOf j.core), asid := j.asid, va := r.lo, n := r.hi - r.lo, read := false })

/-- The place of a context's next packet in a queue. -/
def Ctx.packetVa (c : Ctx) (q : Nat) : Nat := (get 0 c.lqBase q).toNat + 64 * ((get 0 c.lqHead q).toNat % c.lqSize.toNat)

/-- Accesses of an event to a context's memory by virtual addresses. What step 1 of R310 reads finds its errors itself. -/
def State.eventSpans (s : State) : Instr → List Span
  | .launchAcceptance asid q false => [{ via := .device, asid, va := (s.ctx asid).packetVa q, n := 64 }]
  | .eventWordReread g =>
    let x := s.grid g
    if x.eventVa = 0 then [] else [{ via := .device, asid := x.asid, va := x.eventVa, n := 4 }]
  | .gridRetirement g =>
    let x := s.grid g
    (if x.doneVa = 0 then [] else [{ via := .device, asid := x.asid, va := x.doneVa, n := 8 }]) ++
      (if x.det && x.tmode == 0 && x.ext.isSome then
        [{ via := .device, asid := x.asid, va := x.traceVa, n := x.traceBytes.length, read := false },
         { via := .device, asid := x.asid, va := x.extVa + 80, n := 8, read := false }] else [])
  | .transferChunk r => match s.jobAt r.job with
    | some j => if j.buffer.isSome then s.putSpans j else j.chunkSpans
    | none => []
  | .pageWalk asid va cores => cores.map (fun k => { via := .core k, asid, va := va.toNat, n := 1, read := false })
  | .imageStreamComplete core => match s.captures.find? (fun r => r.target == core && r.arrived && !r.done) with
    | some r => [{ via := (r.via.map Via.core).getD .device, asid := r.asid, va := r.va, n := imageLength, read := false }]
    | none => []
  | .restoreComplete core => match s.restores.find? (fun r => r.target == core && r.status.isNone) with
    | some r => if r.host then [] else
      [{ via := (r.via.map Via.core).getD .device, asid := r.asid, va := r.va, n := imageLength }]
    | none => []
  | _ => []

/-- The reads of lines that an event makes by physical addresses. -/
def State.eventReads (s : State) : Instr → List LineRead
  | .loadDataReturn r => s.readsOf r.op
  | .storePerformed op _ | .writeLeaseWaitEnd op | .parkFlit op => s.readsOf op
  | .waitaddrReread i | .waitaddrTimeout i => s.readsOf i
  | .poolOpAtHome p => match s.poolOp p with
    | some q => if q.stage = 5 then (s.poolLines q).map homeRead else []
    | none => []
  | .globalDrainAtHome core => match (s.core core).tileQ.head? with
    | some o => o.frames.flatMap (fun pa => (linesOf pa 4096).map homeRead)
    | none => []
  | .dramFillArrival line =>
    homeRead line :: ((s.combines.find? (fun c => c.line == line)).map (fun c => c.ops.flatMap s.readsOf)).getD []
  | .l2Writeback line | .recall line | .hostSnoop line _ => [homeRead line]
  | .writebackGrant die line => [{ die, line }]
  | .hostRead pa n _ => (linesOf pa n).map homeRead
  | .peerAccessArrival _ (.read pa n) => (linesOf pa n).map homeRead
  | .peerAccessArrival _ (.atomic pa _ _ _ _ _) => [homeRead (lineOf pa)]
  | _ => []

/-- The lanes' addresses in A of the words that access memory there, with the bytes that a lane reads at its issue; a drain's pages,
and an image's. -/
def State.issueSpans (s : State) (f : Frag) : Instr → List Span
  | .ld w | .st w | .ldu w | .gpush w | .gpop w | .wake w | .poisonclr w | .red w | .atom w => lanes w 1 false
  | .pref w | .waitaddr w => lanes w 1 true
  | .launch w => lanes w 64 true
  | .ldp w | .stp w =>
    (privateProbes f w.ty (countOf w.imm) (f.probes s w .n32)).map (fun x => at_ x.1.va.toNat 1 false)
  | .mdrain w => [at_ (s.scalarA f w .n64).toNat (4096 * tyBytes w.ty) false]
  | .capture w => [at_ (s.scalarB f w .n64).toNat imageLength false]
  | .restore w => [at_ (s.scalarB f w .n64).toNat imageLength true]
  | .zld w | .zst w | .zldb w | .zstb w | .zflush w | .zflushAll w => (lanesOf f.exec).map (fun L => slot (s.handleOf f w L))
  | .copy w | .copyl w =>
    let c := Card.ofBits (BitVec.ofNat 512 (s.spadNat f.core ((s.teamOf f).base + (s.scalarA f w .n32).toNat) 64))
    (if c.first == 1 || c.codedSource then [slot c.shandle] else []) ++ (if c.has 3 && c.dhandle != 0 then [slot c.dhandle] else [])
  | _ => []
where
  at_ (va n : Nat) (read : Bool) : Span := { via := .core f.core, asid := f.asid, va, n, read }
  lanes (w : Fields) (n : Nat) (read : Bool) : List Span :=
    ((f.probes s w .n64).filter (fun (p : Probe) => p.va.toNat < 2 ^ 57)).map (fun (p : Probe) => at_ p.va.toNat n read)
  slot (h : W32) : Span := at_ ((s.ctx f.asid).zdtBase.toNat + 16 * (h.toNat % 2 ^ 20)) 16 true

/-- The descriptor that a slot of the table names, as it stands. -/
def State.descSpan (s : State) (x : Span) : List Span :=
  match x.via, x.n with
  | .core k, 16 => match physical (s.translate k x.asid) (·.read) x.va 16 with
    | some ps => [{ x with va := leNat (s.gather ps) % 2 ^ 57, n := 64 }]
    | none => []
  | _, _ => []

/-- The blocks and pages of compressed arrays that a word names. -/
def State.blockSpans (s : State) (f : Frag) (i : Instr) : List Span :=
  let at_ (va n : Nat) : Span := { via := .core f.core, asid := f.asid, va, n, read := false }
  let blocks (ls : Except Stop (List ZLane)) : List Span := match ls with
    | .ok ls => ls.map (fun x => at_ (x.z.blockVa x.block) x.z.shape.bytes)
    | .error _ => []
  match i with
  | .zld w | .zst w => blocks (s.zElement f w)
  | .zldb w | .zstb w => blocks (s.zBlock f w true)
  | .zflush w => blocks (s.zBlock f w false)
  | .zflushAll w => match s.arrays f w with
    | .ok zs => zs.flatMap (fun x => x.2.pages.map (fun p => at_ p.1 1))
    | .error _ => []
  | _ => []

/-- Some accesses find their errors, one after another. -/
def State.findSpans (s : State) (xs : List Span) : State := xs.foldl State.findSpan s

/-- What the issue of a word reads of memory finds its errors: the lanes' addresses, the descriptors of handles, then the places of
their blocks. -/
def State.metIssue (s : State) (i : Instr) : State :=
  match (wordOf i).bind (fun w => s.frag w.2) with
  | some f =>
    let xs := s.issueSpans f i
    let s := s.findSpans xs
    let s := s.findSpans (xs.flatMap s.descSpan)
    s.findSpans (s.blockSpans f i)
  | none => s

/-- The teams of whose words an instruction or an event reads some: registers and course state, scratchpad, tiles. -/
def State.teamsRead (s : State) (i : Instr) : List (Nat × Nat) :=
  let ofOp (id : Nat) : List (Nat × Nat) := match s.opAt id with | some o => [(o.core, o.team)] | none => []
  let ofSlot (core slot : Nat) : List (Nat × Nat) := match s.course? core slot with | some c => [(core, c.team)] | none => []
  let ofTile (core : Nat) : List (Nat × Nat) := match (s.core core).tileQ.head? with | some o => [(core, o.team)] | none => []
  let ofX (id : Nat) : List (Nat × Nat) := match s.xwaits.find? (fun x => x.id == id) with | some x => ofSlot x.core x.slot | none => []
  let ofJob (id : Nat) : List (Nat × Nat) := match s.jobAt id with | some j => [(s.jobCore j, j.team)] | none => []
  match wordOf i with
  | some _ => ofSlot s.issuer.core s.issuer.slot
  | none => match i with
    | .loadDataReturn r => ofOp r.op
    | .storePerformed op _ | .writeLeaseWaitEnd op | .queueOperationComplete op => ofOp op
    | .tileOperationStart core | .tileOperationComplete core | .globalDrainAtHome core => ofTile core
    | .transferJobStart j | .transferJobComplete j | .copylIteration j => ofJob j
    | .transferChunk r => ofJob r.job
    | .xchgPairing a b => ofX a ++ ofX b
    | .xchgTimeout a => ofX a
    | .waitaddrReread a | .waitaddrTimeout a => match s.watch a with | some x => ofSlot x.core x.slot | none => []
    | .handlerEntry core slot | .fragmentFusion core slot _ | .serialFrameAdvance core slot _ => ofSlot core slot
    | .queueHeldOperationServed core team _ => [(core, team)]
    | .imageStreamComplete core => (s.teamsOn core).map (fun p => (core, p.1))
    | _ => []

/-- Reads of a team's words on its core meet an error there, as a free value decides which word they name. -/
def State.metCore (s : State) (i : Instr) : State :=
  let ts := s.teamsRead i
  if ts.isEmpty then s
  else
    let es := s.softErrors.filter (fun e => match e.spot.site with
      | .core k t => ts.contains (k, t) && Config.meetsError s.free
      | _ => false)
    es.foldl State.discover { s with free := s.free + 1 }

/-- The soft errors that the reads of an instruction or an event find, before it runs. -/
def State.met (s : State) (i : Instr) : State :=
  if s.softErrors = [] then s
  else (((s.findSpans (s.eventSpans i)).findReads (s.eventReads i)).metIssue i).metCore i

/-- The soft errors that the fetch of a word finds: those of its translations, then those of its lines, which the home answers. -/
def State.metFetch (s : State) (core asid : Nat) (pc : W64) : State :=
  if s.softErrors = [] then s
  else
    let s := (s.findVa (.core core) asid pc.toNat).findVa (.core core) asid (addPc pc 11).toNat
    match physical (s.translate core asid) (·.exec) pc.toNat 12 with
    | some ps => s.findReads (ps.map (fun p => { die := dieOf core, line := lineOf p.1 }))
    | none => s

/-- Firmware's scrub timer reads a line of DRAM. -/
def execScrubRead (line : Nat) (s : State) : Host.Outcome State Fault Refusal :=
  event s (if (homeOf (line * 128)).package then some (s.findReads [homeRead line]) else none)

/-! ### Attestation (R374) -/

/-- ATTCMD written: the nonce and the clock are read for the report. -/
def State.attest (s : State) (v : W32) : Option State :=
  if v ≠ 1 then none
  else if s.mgmt.state ≠ 1 then some { s with mgmt := { s.mgmt with attStatus := 3 } }
  else some { s with mgmt := { s.mgmt with attStatus := 1, attNonce := s.mgmt.nonce, attClock := s.clock } }

def execAttcmd (v : W32) (s : State) : Host.Outcome State Fault Refusal := event s (s.attest v)

/-- Bits [895:0] of the report, which are signed. -/
def Mgmt.attBody (m : Mgmt) : BitVec 896 :=
  m.attNonce ++ Config.firmwareDigest m.fwVersion ++ 0#32 ++ BitVec.ofNat 64 m.attClock ++ m.fwVersion ++
    Config.fuseDigest 2048 m.fuses ++ Config.stepping 2048 ++ 1#16 ++ 4#16 ++ 0x4C5A4154#32

/-- The 112 bytes that are signed. -/
def Mgmt.attBytes (m : Mgmt) : List Byte := leBytes 112 m.attBody.toNat

def execAttestationReportDone (s : State) : Host.Outcome State Fault Refusal :=
  event s (if s.mgmt.attStatus = 1 then
    let m := s.mgmt
    let report : BitVec 2048 := 0#384 ++ Config.signS m.attBytes s.free ++ Config.signR m.attBytes s.free ++ m.attBody
    some { s with mgmt := { m with report, attStatus := 2 }, free := s.free + 1 }
  else none)

/-! ### Reset (R27) -/

/-- The device as reset brings it into being: what is fused stays, and so do the firmware slot and the log of corrections (R372,
R373). -/
def State.afterReset (s : State) : State :=
  { State.reset with
    mgmt := { State.reset.mgmt with fwMin := s.mgmt.fwMin, railsUp := s.mgmt.railsUp, fuses := s.mgmt.fuses, dead := s.mgmt.dead,
                                    logged := s.mgmt.logged, slot := s.mgmt.slot }
    agenda := s.agenda
    free := s.free }

def execDeviceReset (s : State) : Host.Outcome State Fault Refusal := event s (some s.afterReset)

/-- The rails have come up, and PERST# is released. -/
def execPowerUp (s : State) : Host.Outcome State Fault Refusal :=
  event s (if s.mgmt.railsUp then none
    else some { s.afterReset with mgmt := { s.afterReset.mgmt with railsUp := true } })

/-! ### Spares (R372) -/

/-- The spare rows or lanes of a unit: 2 rows of each 256 of an SRAM array, 8 of a DRAM bank, one lane of a link. -/
def spareCount : Config.FuseUnit → Nat
  | .sram _ _ => 2
  | .dram _ _ => 8
  | .lane _ => 1

/-- The die of a unit. -/
def unitDie : Config.FuseUnit → Nat
  | .sram d _ | .dram d _ => d
  | .lane l => l % 4

/-- What a boot is to replace: the rows and lanes that failed its test, and those logged above 16 corrections in the last run. -/
def Mgmt.toReplace (m : Mgmt) (failed : List Config.Fuse) : List Config.Fuse :=
  ((failed ++ (m.logged.filter (fun p => 16 < p.2)).map (·.1)).eraseDups).filter (fun x => !m.fuses.contains x)

/-- The fuse map with rows and lanes replaced, each while its unit has a spare. -/
def fuseIn : List Config.Fuse → List Config.Fuse → List Config.Fuse
  | map, [] => map
  | map, x :: xs => if (map.filter (fun y => y.unit = x.unit)).length < spareCount x.unit then fuseIn (map ++ [x]) xs else fuseIn map xs

/-- Spares fused at a boot: the new map; SPARES of each die; the links and the cores that cannot be mended. -/
def State.fuse (s : State) (failed : List Config.Fuse) : State :=
  let m := s.mgmt
  let want := m.toReplace failed
  let map := fuseIn m.fuses want
  let bad := (want.filter (fun x => !map.contains x)).map (·.unit)
  let links := bad.filterMap (fun u => match u with | .lane l => some l | _ => none)
  let cores := bad.filterMap (fun u => match u with | .sram d g => Config.arrayCore d g | _ => none)
  let s := { s with mgmt := { m with fuses := map, logged := [], dead := (m.dead ++ links).eraseDups } }
  let spares (d : Nat) : W64 := BitVec.ofNat 64 ((want.filter (fun x => map.contains x && unitDie x.unit == d)).length)
  let s := (List.range 4).foldl (fun (s : State) d => { s with counters := assign s.counters (8 * 2048 + d) (spares d) }) s
  cores.foldl (fun (s : State) k => s.mapCore k (fun c => { c with fenced := true })) s

/-! ### Boot and recovery (R373) -/

/-- Module draw as a reading gives it: at most 1,800 W (R7, R375). -/
def powerReading (n : Nat) : W32 := BitVec.ofNat 32 ((Config.moduleDraw n).toNat % 1800001)

/-- A reading of the sensors. -/
def State.sense (s : State) : State :=
  { s with mgmt := { s.mgmt with temp := Config.temperature s.free, power := powerReading s.free }, free := s.free + 1 }

/-- What firmware sets at boot: cores fenced off, each core's ECAP, 16 to 64, the ports that run in PCIe mode, the inbound apertures of
the links, and FWMIN, which only rises (R316, R346, R355, R372, R373). -/
def State.configure (s : State) (fenced pcie : List Nat) (b : BootSetup) : State :=
  let s := fenced.foldl (fun (s : State) k => s.mapCore k (fun c => { c with fenced := true })) s
  let s := b.ecaps.foldl (fun (s : State) e => s.mapCore e.1 (fun c => { c with ecapBoot := max 16 (min 64 e.2) })) s
  let raise := s.mgmt.fwMin ≤ b.fwMin && b.fwMin ≤ s.mgmt.slot.2
  { s with pcie, apertures := b.apertures, mgmt := { s.mgmt with fwMin := if raise then b.fwMin else s.mgmt.fwMin } }

/-- Boot: the image in the slot is verified and run, or the device is left in recovery. -/
def execBoot (failed : List Config.Fuse) (fenced pcie : List Nat) (setup : BootSetup) (s : State) : Host.Outcome State Fault Refusal :=
  event s (
    let m := s.mgmt
    if !m.railsUp || m.state != 0 then none
    else if m.slot.1 && m.fwMin ≤ m.slot.2 then
      let s := ((s.fuse failed).configure fenced pcie setup).sense
      some { s with mgmt := { s.mgmt with state := 1, fwVersion := m.slot.2 } }
    else some { s with mgmt := { m with state := 2 } })

/-- The host writes an image to the slot in recovery: one that verifies is booted. -/
def execFirmwareRecovery (signed : Bool) (version : W32) (s : State) : Host.Outcome State Fault Refusal :=
  event s (if s.mgmt.state = 2 then
    some { s with mgmt := { s.mgmt with slot := (signed, version), state := if signed && s.mgmt.fwMin ≤ version then 0 else 2 } }
  else none)

/-! ### Throttling and power (R376) -/

/-- The temperature of a die as TEMP holds it, in 1/16 °C (R375). -/
def Mgmt.dieTemp (m : Mgmt) (die : Nat) : Int := (m.temp.extractLsb' (16 * die) 16).toInt

/-- Some die is at or above a temperature in °C. -/
def Mgmt.hot (m : Mgmt) (celsius : Int) : Bool := (List.range 4).any (fun d => 16 * celsius ≤ m.dieTemp d)

/-- Firmware reads the sensors, and acts on what it reads. -/
def State.sensed (s : State) (when_ : Mgmt → Bool) (act : Mgmt → Mgmt) : State :=
  let s := s.sense
  if when_ s.mgmt then { s with mgmt := act s.mgmt } else s

/-- At 100 °C every ECAP falls to 16. -/
def execThrottleEntry (s : State) : Host.Outcome State Fault Refusal :=
  event s (if s.mgmt.throttle then none else some (s.sensed (·.hot 100) (fun m => { m with throttle := true })))

/-- Once every die is below 95 °C every ECAP is as at boot, and issue goes on. -/
def execThrottleExit (s : State) : Host.Outcome State Fault Refusal :=
  event s (if s.mgmt.throttle then some (s.sensed (fun m => !m.hot 95) (fun m => { m with throttle := false, stalled := false })) else none)

/-- At 105 °C firmware stalls all issue. -/
def execThermalIssueStall (s : State) : Host.Outcome State Fault Refusal :=
  event s (if s.mgmt.stalled then none else some (s.sensed (·.hot 105) (fun m => { m with stalled := true })))

/-- At 110 °C MGMTSTATE becomes 3 and the supplies fall. -/
def execThermalShutdown (s : State) : Host.Outcome State Fault Refusal :=
  event s (if s.mgmt.railsUp then some (s.sensed (·.hot 110) (fun m => { m with state := 3, railsUp := false })) else none)

/-- The supplies fall in the reverse of the order in which they rose. -/
def execPowerDown (s : State) : Host.Outcome State Fault Refusal :=
  event s (if s.mgmt.railsUp then some { s with mgmt := { s.mgmt with railsUp := false } } else none)

end Sys2Proof.Machine
end

