-- ==== Sys2Proof/Machine/Host.lean ====
section
/-! DEFINITION. The host and the peers: snoops, reads and writes of the host, accesses over peer links, the links and ports, the
pages of registers and the context commands (R327, R346 to R356, R367, R375). -/

namespace Sys2Proof.Machine

/-! ### The host's memory traffic (R350 to R353) -/

/-- A write of the host, or a snoop or back-invalidate that is one under R242, waits for the leases of a line, so that fills of it take
none; none once that is noted. -/
def State.hostWaits (s : State) (line : Nat) : Option State :=
  if s.leaseWait.contains (0, line) then none else some (s.awaitLease 0 [line])

/-- A snoop of the host for a line of its memory, or the device's back-invalidate of a host copy, reaches the slice. For
`data` the line stays shared and clean; else it goes, once no lease on it is live. -/
def execHostSnoop (line : Nat) (data : Bool) (s : State) : Host.Outcome State Fault Refusal :=
  event s (match homeOf (line * 128) with
    | .host =>
      if !s.cached (line * 128) then none
      else if data then
        if (lookup? s.l2 line).isSome || s.heldElsewhere line then
          some { s.l2Clean line with
            copies := s.copies.map (fun (p : Nat × Mesi) => if p.1 / 4 = line then (p.1, .s) else p)
            victims := s.victims.map (fun (v : Victim) => if v.line = line then { v with taken := true } else v)
            directory := (s.setEntry line (withOwn (get 0 s.directory line) 0)).directory }
        else none
      else if s.leaseOver line then
        some ((({ s.dropCopies line with l2 := erase s.l2 line } : State).wakeLine line).endNote line)
      else s.hostWaits line
    | h =>
      let e := get 0 s.directory line
      if !h.package || data || e.toNat / 8 % 16 == 0 then none
      else if !s.leaseOver line then s.hostWaits line
      else some ((s.setEntry line (BitVec.ofNat 10 (e.toNat % 8 + (if ownOf e = 1 then 256 else 0)))).endNote line))

/-- The bytes lie in one line. -/
def inLine (pa n : Nat) : Bool := 0 < n && pa % 128 + n ≤ 128

/-- A read from outside the package applied at the home slice, which waits for no lease (R353). -/
def State.outsideRead (s : State) (line : Nat) : State := (s.l2Read line 0).readCopy (homeDie (line * 128)) line

/-- A read of the host performed at the home slice. With `port` it takes a copy there, which the directory tracks. -/
def execHostRead (pa n : Nat) (port : Option Nat) (s : State) : Host.Outcome State Fault Refusal :=
  event s (
    let line := lineOf pa
    if !(homeOf pa).package || !inLine pa n then none
    else match port with
      | none => some (s.outsideRead line)
      | some p =>
        let e := get 0 s.directory line
        if 4 ≤ p || s.pcie.contains p then none
        else if e.toNat / 2 ^ (3 + p) % 2 = 1 then some s
        else
          let s := s.outsideRead line
          let e' := get 0 s.directory line
          some (s.setEntry line (withOwn (e' ||| BitVec.ofNat 10 (2 ^ (3 + p))) (if e = 0 then 2 else 0))))

/-- A write of an agent outside the package to bytes of one line of the device, under the rule of leases: while they hold it, it
waits. One that covers its whole line clears a poison mark. -/
def State.outsideWrite (s : State) (pa : Nat) (bytes : List Byte) : Option State :=
  let line := lineOf pa
  if !inLine pa bytes.length then none
  else if s.leaseOver line && s.recallFree line && !s.leaseWait.any (fun x => x.2 == line && x.1 != 0) then
    some ((s.applyWrite pa bytes (if bytes.length = 128 then [line] else [])).written pa)
  else s.hostWaits line

/-- A write of the host. One to its own memory is seen through the snoop that has removed the device's copy, or at once
where the port is in PCIe mode (R346); it wakes the WAITADDR that watch its line (R165, R353). One to a peer window stands for what
the neighbour writes there (R354; log 47). -/
def execHostWrite (pa : Nat) (bytes : List Byte) (s : State) : Host.Outcome State Fault Refusal :=
  event s (match homeOf pa with
    | .near _ | .far _ => s.outsideWrite pa bytes
    | .host =>
      let line := lineOf pa
      if inLine pa bytes.length && (!s.cached pa || ((lookup? s.l2 line).isNone && !s.heldElsewhere line)) then
        some ((s.writeBytes pa bytes).wakeLine line)
      else none
    | .peer _ => if inLine pa bytes.length then some ((s.writeBytes pa bytes).wakeLine (lineOf pa)) else none
    | .nowhere => none)

/-! ### Peers (R354 to R356) -/

/-- Whether a link's aperture holds bytes of the device. -/
def State.admits (s : State) (link pa n : Nat) : Bool :=
  match lookup? s.apertures link with
  | some (base, limit) => base ≤ pa && pa + n ≤ limit && (homeOf pa).package
  | none => false

/-- An atomic of a neighbour performed at the home: none while a lease holds it. -/
def State.peerAtomic (s : State) (pa code : Nat) (ty : Ty) (rnd : Rnd) (val cmp : W64) : Option State :=
  let x : Access := { lane := 0, va := pa, pa, size := tyBytes ty, val, cmp }
  if s.poisoned pa then some s
  else match (rmwValue code ty rnd (extend ty (BitVec.ofNat 64 (s.readNat pa x.size))) x).1 with
    | some v => s.outsideWrite pa (leBytes x.size v.toNat)
    | none => if s.recallFree (lineOf pa) && s.leaseOver (lineOf pa) then some (s.atHome pa) else s.hostWaits (lineOf pa)

/-- An access that arrives over a link is performed at its home, or refused outside the aperture: a refused access changes
nothing here. -/
def execPeerAccessArrival (link : Nat) (acc : PeerAccess) (s : State) : Host.Outcome State Fault Refusal :=
  event s (
    if !s.linkUp link then none
    else match acc with
      | .read pa n =>
        if !s.admits link pa n then some s
        else if inLine pa n then some (s.outsideRead (lineOf pa)) else none
      | .write pa bytes =>
        if !s.admits link pa bytes.length then some s
        else s.outsideWrite pa bytes
      | .atomic pa code ty rnd val cmp =>
        if !s.admits link pa (tyBytes ty) then some s else s.peerAtomic pa code ty rnd val cmp
      | .pool push pa asid wide item =>
        if !s.admits link pa 64 || pa % 64 != 0 then some s
        else
          let q : PoolOp :=
            { id := s.stamp, op := 0, core := peerCore, slot := 0, stamp := 0, asid, grid := 0, gid := 0, team := 0, linear := 0, lane := 0,
              push, va := pa, pa, item, wide, file := .v, reg := 0, pred := 0, window := 0, marked := false, strict := false,
              entry := 0, stage := 4, until_ := 0, scope := 5, ans := 0, ok := false, poisoned := false, info := none }
          some { s with pool := s.pool ++ [q], stamp := s.stamp + 1 }
      | .wake pa => if !s.admits link pa 1 then some s else some (s.wakeLine (lineOf pa)))

/-- An access over a link that has stopped training is refused (R356). -/
def Access.cut (link : Nat) (x : Access) : Access :=
  if homeOf x.pa = .peer link then { x with val := if x.got then 0 else x.val, bad := x.bad || x.got, lost := true } else x

/-- The accesses of an operation that are on their way over a link. `beyond` says whether a virtual address lies beyond it. -/
def OpKind.cut (link : Nat) (beyond : Nat → Bool) : OpKind → OpKind
  | .load sp f t ord xs => .load sp f t ord (if sp = .scratch then xs else xs.map (Access.cut link))
  | .store sp ord xs whole => .store sp ord (if sp = .scratch then xs else xs.map (Access.cut link)) whole
  | .rmw sp f code t rnd ret ord xs vals => .rmw sp f code t rnd ret ord (if sp = .scratch then xs else xs.map (Access.cut link)) (cutAll vals)
  | .reply f wide ord vals => .reply f wide ord (cutAll vals)
  | k => k
where
  cutAll (vals : List Reply) : List Reply :=
    vals.map (fun (r : Reply) => if beyond r.va then { r with val := 0, poisoned := true, lost := true } else r)

/-- A pool operation over a link that has stopped training. -/
def PoolOp.cut (link : Nat) (q : PoolOp) : PoolOp :=
  if homeOf q.pa = .peer link then
    { q with lost := true, ok := if q.stage = 6 then false else q.ok, ans := if q.stage = 6 then 0 else q.ans,
             poisoned := q.poisoned || (q.stage == 6 && !q.push) }
  else q

/-- A link stops training and leaves .h6: what is on its way over it is refused (R356). -/
def execLinkTrainingLoss (link : Nat) (s : State) : Host.Outcome State Fault Refusal :=
  let beyond (o : Op) (va : Nat) : Bool := match s.translate o.core o.asid va with | .page p => homeOf p.pa == .peer link | _ => false
  event s (some { s with
    links := s.links.filter (· != link)
    ops := s.ops.map (fun (o : Op) => { o with kind := o.kind.cut link (beyond o) })
    pool := s.pool.map (PoolOp.cut link)
    watches := s.watches.map (fun (x : Watch) => { x with lanes := x.lanes.map (Access.cut link) }) })

/-- A link trains, and its neighbour is inside .h6 (R269); one with more failed lanes than spares does not (R372). -/
def execLinkTrained (link : Nat) (s : State) : Host.Outcome State Fault Refusal :=
  event s (if link < 18 ∧ !s.linkUp link ∧ !s.mgmt.dead.contains link then some { s with links := s.links ++ [link] } else none)

/-- A flit is resent after a link check failed (R371). -/
def execLinkFlitResend (link : Nat) (s : State) : Host.Outcome State Fault Refusal :=
  event s (if link < 18 then some (s.count 7 link 1) else none)

/-- A host port enters a fatal link state: every line whose HOST bit names it is poisoned (R367). -/
def execHostPortFatal (die : Nat) (s : State) : Host.Outcome State Fault Refusal :=
  event s (if 4 ≤ die then none
    else
      let lost := (s.directory.filter (fun p => p.2.getLsbD (3 + die))).map (·.1)
      some (lost.foldl State.poisonLine { s with fatal := if s.fatal.contains die then s.fatal else s.fatal ++ [die] }))

/-! ### Context commands (R327, R348) -/

/-- A command refused. -/
def State.refuse (s : State) (asid : Nat) : State := s.mapCtx asid (fun c => { c with cmdStatus := 2 })

/-- Command 1: a free context goes live, its budget and counts as at creation (R317). -/
def State.makeLive (s : State) (asid : Nat) : State :=
  if (s.ctx asid).state ≠ 0 then s.refuse asid
  else s.mapCtx asid (fun c => { c with state := 1, cmdStatus := 0, budget := c.emax, debit := 0, poisonCount := 0, ragged := 0 })

/-- A core that stands still for a context is freed: what it still holds of another goes on (R327 step 2). -/
def State.freeCore (s : State) (core : Nat) : State :=
  let parked := (s.core core).parked
  (s.mapCore core (fun c => { c with credits := c.reconciled, returned := [], binding := none, bound := [] })).startClock core parked

/-- The cores that Capo has stopped for a context. -/
def State.stillCores (s : State) (asid : Nat) : List Nat :=
  (s.cores.filter (fun p => p.2.run != .running && p.2.heldFor == some asid)).map (·.1)

/-- Steps 1 to 3 of a teardown: no launch is accepted any more, the grids are killed, the jobs abandoned. -/
def State.beginTearDown (s : State) (asid : Nat) : State :=
  let still := s.stillCores asid
  let s := s.mapCtx asid (fun c => { c with state := 2, cmdStatus := 0, children := [] })
  let s := (s.grids.filter (fun p => p.2.asid == asid)).foldl (fun (s : State) p => s.killGrid p.1) s
  let s := { s with captures := s.captures.filter (fun r => r.asid != asid), restores := s.restores.filter (fun r => r.asid != asid) }
  let s := still.foldl State.freeCore s
  (s.jobs.filter (fun j => j.asid == asid)).foldl State.abandon s

/-- The pages of the KIND 1 slots of a context's descriptor table, as ranges of physical memory (R186, R263). -/
def tableReads (c : Ctx) (asid : Nat) : Reads (List ZRange) :=
  (List.range c.zdtCount.toNat).foldlM (fun rs i => do
    match ← tryNum asid (c.zdtBase.toNat + 16 * i) 16 with
    | none => pure rs
    | some x =>
      let e : BitVec 128 := BitVec.ofNat 128 x
      if field e 80 4 ≠ 1 then pure rs
      else match (← tryNum asid (field e 0 64) 64).bind (fun d => ZArray.ofBits (BitVec.ofNat 512 d)) with
        | none => pure rs
        | some z =>
          let range (s : State) (p : Nat × Nat) : Option ZRange := match s.walk asid p.1 with
            | .page q => some { shape := z.shape, lo := q.pa, len := p.2 }
            | _ => none
          let mine ← OptionT.mk (fun s =>
            (some (z.pages.filterMap (range s)), z.pages.foldl (fun (s : State) p => s.touch asid p.1 1 false) s))
          pure (rs ++ mine)) []

def State.tableRanges (s : State) (asid : Nat) : List ZRange × State :=
  let r := (tableReads (s.ctx asid) asid).run s
  (r.1.getD [], r.2)

/-- Nothing of a context is on its way any more. -/
def State.quiet (s : State) (asid : Nat) : Bool :=
  !s.grids.any (fun p => p.2.asid == asid) && !s.ops.any (fun o => o.asid == asid && !o.done) &&
    !s.pool.any (fun q => q.asid == asid) && !s.jobs.any (fun j => j.asid == asid)

/-- Steps 4 to 7 of a teardown, once the killed grids have retired; a block that is to be written back waits for the leases of its
lines (R242). What the context had set of the cores goes with it: a new context of its ASID finds no scratchpad as its own (R238). -/
def State.endTearDown (s : State) (asid : Nat) : Option State :=
  if !s.quiet asid then none
  else
    let r := s.tableRanges asid
    let es := r.2.zDirty r.1
    let busy := es.flatMap r.2.zbusy
    if !busy.isEmpty then
      if busy.all (fun l => s.leaseWait.contains (0, l)) then none else some (s.awaitLease 0 busy)
    else
      let s := es.foldl State.zclean r.2
      let s := s.dropTlb 5 0 asid 0 (2 ^ 64)
      let gone := (s.shared.filter (fun p => p.2.asid == asid && frozen ≤ p.2.count)).map (·.1)
      some { s with
        shared := s.shared.filter (fun p => !gone.contains p.1)
        hashes := s.hashes.filter (fun p => !gone.contains p.2)
        dedup := s.dedup.filter (fun p => !gone.contains p.2)
        cores := s.cores.map (fun (p : Nat × Core) => if p.2.lastCtx = some asid then (p.1, { p.2 with lastCtx := none }) else p)
        tlbinvAt := assign s.tlbinvAt asid s.clock
        ctxs := erase s.ctxs asid }

/-- Command 2. -/
def State.tearDown (s : State) (asid : Nat) : State :=
  if (s.ctx asid).state ≠ 1 then s.refuse asid
  else
    let s := s.beginTearDown asid
    (s.endTearDown asid).getD s

/-- The checks of a capture's addresses (R131), by the walkers. -/
def State.capturePages (s : State) (asid va : Nat) : Bool :=
  va + 2 ^ 20 ≤ 2 ^ 57 &&
    (s.checkPages { size := 4096, read := false, write := true } ((imageProbes 0 va).map (fun p => (p, s.walk asid p.va.toNat)))).isOk

/-- Command 3: the host asks for a capture of CAPCORE. -/
def State.hostCapture (s : State) (asid : Nat) : State :=
  let c := s.ctx asid
  let k := c.capCore.toNat
  let stopped : Bool := match (s.core k).run with | .stopped _ => true | _ => false
  if c.state ≠ 1 ∨ 2048 ≤ k ∨ !s.grants asid k ∨ stopped then s.refuse asid
  else if !s.capturePages asid c.capAddr.toNat then (s.touch asid c.capAddr.toNat imageLength false).refuse asid
  else
    let r : CapReq := { target := k, asid, va := c.capAddr.toNat, origin := 2, who := none, via := none }
    { s with captures := s.captures ++ [r] }.mapCtx asid (fun c => { c with cmdStatus := 1 })

/-- Command 4: the host releases CAPCORE. -/
def State.hostRelease (s : State) (asid : Nat) : State :=
  let c := s.ctx asid
  let k := c.capCore.toNat
  let stopped : Bool := match (s.core k).run with | .stopped _ => true | _ => false
  if c.state ≠ 1 ∨ 2048 ≤ k ∨ !s.grants asid k ∨ !stopped then s.refuse asid
  else
    let r : RestReq := { target := k, asid, va := c.capAddr.toNat, who := none, via := none, host := true }
    { s with restores := s.restores ++ [r] }.mapCtx asid (fun c => { c with cmdStatus := 1 })

/-- A write of CTXCMD: dropped while a command is busy, and for a value that is no command. -/
def State.command (s : State) (asid : Nat) (v : Nat) : Option State :=
  if (s.ctx asid).cmdStatus = 1 then none
  else match v with
    | 1 => some (s.makeLive asid)
    | 2 => some (s.tearDown asid)
    | 3 => some (s.hostCapture asid)
    | 4 => some (s.hostRelease asid)
    | _ => none

def execCtxcmdMakeLive (asid : Nat) (s : State) : Host.Outcome State Fault Refusal := event s (s.command asid 1)

/-- The command, or, of a context that is being torn down, the rest of its teardown. -/
def execCtxcmdTearDown (asid : Nat) (s : State) : Host.Outcome State Fault Refusal :=
  event s (if (s.ctx asid).state = 2 then s.endTearDown asid else s.command asid 2)

def execCtxcmdCapture (asid : Nat) (s : State) : Host.Outcome State Fault Refusal := event s (s.command asid 3)
def execCtxcmdRelease (asid : Nat) (s : State) : Host.Outcome State Fault Refusal := event s (s.command asid 4)

/-! ### Register pages (R348, R375) -/

/-- A write to a context page. -/
def State.writeCtxPage (s : State) (asid off : Nat) (v : W64) : State :=
  if off % 8 ≠ 0 then s
  else if off < 0x8000 then s.hostCtl asid (off / 8) v
  else if off = 0x8008 then (s.command asid (low32 v).toNat).getD s
  else if off = 0x8010 then s.mapCtx asid (fun c => { c with capCore := low32 v })
  else if off = 0x8018 then
    if v.toNat % 4096 = 0 then s.mapCtx asid (fun c => { c with capAddr := v }) else s
  else s

/-- A write to the management page. -/
def State.writeMgmtPage (s : State) (off : Nat) (v : W64) : State :=
  if off = 0x30 then
    if cntselOk (low32 v).toNat then { s with mgmt := { s.mgmt with cntSel := low32 v } } else s
  else if off = 0x40 then (s.attest (low32 v)).getD s
  else if 0x100 ≤ off ∧ off < 0x120 ∧ off % 8 = 0 then
    let sh := 8 * (off - 0x100)
    let old := s.mgmt.nonce &&& ~~~ (BitVec.ofNat 256 (2 ^ 64 - 1) <<< sh)
    { s with mgmt := { s.mgmt with nonce := old ||| (v.setWidth 256 <<< sh) } }
  else s

/-- A read of a context page by the host. -/
def State.readCtxPage (s : State) (asid off : Nat) : W64 :=
  let c := s.ctx asid
  if off < 0x8000 then (s.readCtl asid none (off / 8)).getD 0
  else if off = 0x8000 then BitVec.ofNat 64 c.state
  else if off = 0x8010 then c.capCore.setWidth 64
  else if off = 0x8018 then c.capAddr
  else if off = 0x8020 then c.cmdStatus.setWidth 64
  else 0

/-- A read of the management page by the host. -/
def State.readMgmtPage (s : State) (off : Nat) : W64 :=
  let m := s.mgmt
  let n (x : W32) : W64 := x.setWidth 64
  if off = 0x00 then BitVec.ofNat 64 m.state
  else if off = 0x08 then n m.fwVersion
  else if off = 0x10 then n m.fwMin
  else if off = 0x18 then m.temp
  else if off = 0x20 then n m.power
  else if off = 0x28 then BitVec.ofNat 64 m.throttle.toNat
  else if off = 0x30 then n m.cntSel
  else if off = 0x38 then s.counter m.cntSel
  else if off = 0x48 then BitVec.ofNat 64 m.attStatus
  else if off = 0x50 then BitVec.ofNat 64 (min 2048 Config.certificateLength)
  else if 0x100 ≤ off ∧ off < 0x120 then m.nonce.extractLsb' (8 * (off - 0x100)) 64
  else if 0x200 ≤ off ∧ off < 0x300 then m.report.extractLsb' (8 * (off - 0x200)) 64
  else if 0x1000 ≤ off ∧ off < 0x1800 then BitVec.ofNat 64 (leNat ((List.range 8).map (fun k => Config.certificate (off - 0x1000 + k))))
  else 0

/-- A write of a register by the host. -/
def execRegisterWrite (reg : HostReg) (v : W64) (s : State) : Host.Outcome State Fault Refusal :=
  event s (some (match reg with
    | .ctx asid off => s.writeCtxPage asid off v
    | .mgmt off => s.writeMgmtPage off v))

/-- A write of LQTAIL submits packets (R308). -/
def execLqtail (asid q : Nat) (v : W32) (s : State) : Host.Outcome State Fault Refusal :=
  event s (if 8 ≤ q then none else some (s.hostCtl asid (0x118 + q) (v.setWidth 64)))

/-- A write of MODE (R317). -/
def execMode (asid : Nat) (v : W32) (s : State) : Host.Outcome State Fault Refusal :=
  event s (some (s.hostCtl asid 0x126 (v.setWidth 64)))

/-- A write of VTARGET (R319). -/
def execVtarget (asid : Nat) (v : W32) (s : State) : Host.Outcome State Fault Refusal :=
  event s (some (s.hostCtl asid 0x128 (v.setWidth 64)))

end Sys2Proof.Machine
end

