-- ==== Sys2Proof/Machine/Dispatch.lean ====
section
/-! DEFINITION. Every instruction and event with its meaning. -/

namespace Sys2Proof.Machine

def exec (i : Instr) (s : State) : Host.Outcome State Fault Refusal :=
  match i with
  | .nop w => Sys2Proof.Machine.execNop w s
  | .bra w => Sys2Proof.Machine.execBra w s
  | .brx w => Sys2Proof.Machine.execBrx w s
  | .call w => Sys2Proof.Machine.execCall w s
  | .callInd w => Sys2Proof.Machine.execCallInd w s
  | .ret w => Sys2Proof.Machine.execRet w s
  | .retTrap w => Sys2Proof.Machine.execRetTrap w s
  | .exit w => Sys2Proof.Machine.execExit w s
  | .trap w => Sys2Proof.Machine.execTrap w s
  | .bkpt w => Sys2Proof.Machine.execBkpt w s
  | .yield w => Sys2Proof.Machine.execYield w s
  | .launch w => Sys2Proof.Machine.execLaunch w s
  | .phase w => Sys2Proof.Machine.execPhase w s
  | .tokpass w => Sys2Proof.Machine.execTokpass w s
  | .sread w => Sys2Proof.Machine.execSread w s
  | .sreadCtl w => Sys2Proof.Machine.execSreadCtl w s
  | .swrite w => Sys2Proof.Machine.execSwrite w s
  | .swriteCtl w => Sys2Proof.Machine.execSwriteCtl w s
  | .capture w => Sys2Proof.Machine.execCapture w s
  | .restore w => Sys2Proof.Machine.execRestore w s
  | .tlbinvPage w => Sys2Proof.Machine.execTlbinvPage w s
  | .tlbinvRange w => Sys2Proof.Machine.execTlbinvRange w s
  | .tlbinvAll w => Sys2Proof.Machine.execTlbinvAll w s
  | .poisonclr w => Sys2Proof.Machine.execPoisonclr w s
  | .add w => Sys2Proof.Machine.execAdd w s
  | .sub w => Sys2Proof.Machine.execSub w s
  | .mul w => Sys2Proof.Machine.execMul w s
  | .mulhi w => Sys2Proof.Machine.execMulhi w s
  | .mad w => Sys2Proof.Machine.execMad w s
  | .div w => Sys2Proof.Machine.execDiv w s
  | .rem w => Sys2Proof.Machine.execRem w s
  | .min w => Sys2Proof.Machine.execMin w s
  | .max w => Sys2Proof.Machine.execMax w s
  | .abs w => Sys2Proof.Machine.execAbs w s
  | .neg w => Sys2Proof.Machine.execNeg w s
  | .and w => Sys2Proof.Machine.execAnd w s
  | .or w => Sys2Proof.Machine.execOr w s
  | .xor w => Sys2Proof.Machine.execXor w s
  | .not w => Sys2Proof.Machine.execNot w s
  | .shl w => Sys2Proof.Machine.execShl w s
  | .shr w => Sys2Proof.Machine.execShr w s
  | .sar w => Sys2Proof.Machine.execSar w s
  | .rot w => Sys2Proof.Machine.execRot w s
  | .clz w => Sys2Proof.Machine.execClz w s
  | .popc w => Sys2Proof.Machine.execPopc w s
  | .brev w => Sys2Proof.Machine.execBrev w s
  | .bfx w => Sys2Proof.Machine.execBfx w s
  | .bfi w => Sys2Proof.Machine.execBfi w s
  | .lea w => Sys2Proof.Machine.execLea w s
  | .sel w => Sys2Proof.Machine.execSel w s
  | .cmp w => Sys2Proof.Machine.execCmp w s
  | .mov w => Sys2Proof.Machine.execMov w s
  | .addmin w => Sys2Proof.Machine.execAddmin w s
  | .fadd w => Sys2Proof.Machine.execFadd w s
  | .fsub w => Sys2Proof.Machine.execFsub w s
  | .fmul w => Sys2Proof.Machine.execFmul w s
  | .ffma w => Sys2Proof.Machine.execFfma w s
  | .fmin w => Sys2Proof.Machine.execFmin w s
  | .fmax w => Sys2Proof.Machine.execFmax w s
  | .fabs w => Sys2Proof.Machine.execFabs w s
  | .fneg w => Sys2Proof.Machine.execFneg w s
  | .fcmp w => Sys2Proof.Machine.execFcmp w s
  | .fclass w => Sys2Proof.Machine.execFclass w s
  | .fdiv w => Sys2Proof.Machine.execFdiv w s
  | .fsqrt w => Sys2Proof.Machine.execFsqrt w s
  | .frnd w => Sys2Proof.Machine.execFrnd w s
  | .fscale w => Sys2Proof.Machine.execFscale w s
  | .faddmin w => Sys2Proof.Machine.execFaddmin w s
  | .fdot4 w => Sys2Proof.Machine.execFdot4 w s
  | .frcpAuto w => Sys2Proof.Machine.execFrcpAuto w s
  | .frsqAuto w => Sys2Proof.Machine.execFrsqAuto w s
  | .fexp2Auto w => Sys2Proof.Machine.execFexp2Auto w s
  | .flog2Auto w => Sys2Proof.Machine.execFlog2Auto w s
  | .fsinAuto w => Sys2Proof.Machine.execFsinAuto w s
  | .fcosAuto w => Sys2Proof.Machine.execFcosAuto w s
  | .frcpFast w => Sys2Proof.Machine.execFrcpFast w s
  | .frsqFast w => Sys2Proof.Machine.execFrsqFast w s
  | .fexp2Fast w => Sys2Proof.Machine.execFexp2Fast w s
  | .flog2Fast w => Sys2Proof.Machine.execFlog2Fast w s
  | .fsinFast w => Sys2Proof.Machine.execFsinFast w s
  | .fcosFast w => Sys2Proof.Machine.execFcosFast w s
  | .frcpExact w => Sys2Proof.Machine.execFrcpExact w s
  | .frsqExact w => Sys2Proof.Machine.execFrsqExact w s
  | .fexp2Exact w => Sys2Proof.Machine.execFexp2Exact w s
  | .flog2Exact w => Sys2Proof.Machine.execFlog2Exact w s
  | .fsinExact w => Sys2Proof.Machine.execFsinExact w s
  | .fcosExact w => Sys2Proof.Machine.execFcosExact w s
  | .cvt w => Sys2Proof.Machine.execCvt w s
  | .pack w => Sys2Proof.Machine.execPack w s
  | .unpack w => Sys2Proof.Machine.execUnpack w s
  | .pand w => Sys2Proof.Machine.execPand w s
  | .por w => Sys2Proof.Machine.execPor w s
  | .pxor w => Sys2Proof.Machine.execPxor w s
  | .pnot w => Sys2Proof.Machine.execPnot w s
  | .pmov w => Sys2Proof.Machine.execPmov w s
  | .pcount w => Sys2Proof.Machine.execPcount w s
  | .lshup w => Sys2Proof.Machine.execLshup w s
  | .lshdn w => Sys2Proof.Machine.execLshdn w s
  | .shfl w => Sys2Proof.Machine.execShfl w s
  | .vote w => Sys2Proof.Machine.execVote w s
  | .elect w => Sys2Proof.Machine.execElect w s
  | .redux w => Sys2Proof.Machine.execRedux w s
  | .xchg w => Sys2Proof.Machine.execXchg w s
  | .xchgPairing x y => Sys2Proof.Machine.execXchgPairing x y s
  | .xchgTimeout x => Sys2Proof.Machine.execXchgTimeout x s
  | .ld w => Sys2Proof.Machine.execLd w s
  | .st w => Sys2Proof.Machine.execSt w s
  | .lds w => Sys2Proof.Machine.execLds w s
  | .sts w => Sys2Proof.Machine.execSts w s
  | .ldp w => Sys2Proof.Machine.execLdp w s
  | .stp w => Sys2Proof.Machine.execStp w s
  | .ldu w => Sys2Proof.Machine.execLdu w s
  | .pref w => Sys2Proof.Machine.execPref w s
  | .atom w => Sys2Proof.Machine.execAtom w s
  | .red w => Sys2Proof.Machine.execRed w s
  | .fence w => Sys2Proof.Machine.execFence w s
  | .loadDataReturn op => Sys2Proof.Machine.execLoadDataReturn op s
  | .storePerformed op atCore => Sys2Proof.Machine.execStorePerformed op atCore s
  | .writeLeaseWaitEnd op => Sys2Proof.Machine.execWriteLeaseWaitEnd op s
  | .binit w => Sys2Proof.Machine.execBinit w s
  | .barrive w => Sys2Proof.Machine.execBarrive w s
  | .bwait w => Sys2Proof.Machine.execBwait w s
  | .bexpect w => Sys2Proof.Machine.execBexpect w s
  | .bflags w => Sys2Proof.Machine.execBflags w s
  | .qpush w => Sys2Proof.Machine.execQpush w s
  | .qpop w => Sys2Proof.Machine.execQpop w s
  | .queueHeldOperationServed core team q => Sys2Proof.Machine.execQueueHeldOperationServed core team q s
  | .gpush w => Sys2Proof.Machine.execGpush w s
  | .gpop w => Sys2Proof.Machine.execGpop w s
  | .poolSwitchArrival p => Sys2Proof.Machine.execPoolSwitchArrival p s
  | .fretWindowExpiry p => Sys2Proof.Machine.execFretWindowExpiry p s
  | .poolOpAtHome p => Sys2Proof.Machine.execPoolOpAtHome p s
  | .queueOperationComplete op => Sys2Proof.Machine.execQueueOperationComplete op s
  | .wait w => Sys2Proof.Machine.execWait w s
  | .waitr w => Sys2Proof.Machine.execWaitr w s
  | .waitaddr w => Sys2Proof.Machine.execWaitaddr w s
  | .waitaddrReread x => Sys2Proof.Machine.execWaitaddrReread x s
  | .waitaddrTimeout x => Sys2Proof.Machine.execWaitaddrTimeout x s
  | .wake w => Sys2Proof.Machine.execWake w s
  | .zld w => Sys2Proof.Machine.execZld w s
  | .zst w => Sys2Proof.Machine.execZst w s
  | .zldb w => Sys2Proof.Machine.execZldb w s
  | .zstb w => Sys2Proof.Machine.execZstb w s
  | .zflush w => Sys2Proof.Machine.execZflush w s
  | .zflushAll w => Sys2Proof.Machine.execZflushAll w s
  | .blockBufferEviction pa => Sys2Proof.Machine.execBlockBufferEviction pa s
  | .copy w => Sys2Proof.Machine.execCopy w s
  | .copyl w => Sys2Proof.Machine.execCopyl w s
  | .transferJobStart j => Sys2Proof.Machine.execTransferJobStart j s
  | .transferChunk j => Sys2Proof.Machine.execTransferChunk j s
  | .copylIteration j => Sys2Proof.Machine.execCopylIteration j s
  | .transferJobComplete j => Sys2Proof.Machine.execTransferJobComplete j s
  | .mzero w => Sys2Proof.Machine.execMzero w s
  | .mload w => Sys2Proof.Machine.execMload w s
  | .mstore w => Sys2Proof.Machine.execMstore w s
  | .mmac w => Sys2Proof.Machine.execMmac w s
  | .mmacs w => Sys2Proof.Machine.execMmacs w s
  | .mmacg w => Sys2Proof.Machine.execMmacg w s
  | .msmax w => Sys2Proof.Machine.execMsmax w s
  | .mdrain w => Sys2Proof.Machine.execMdrain w s
  | .mdrainSpad w => Sys2Proof.Machine.execMdrainSpad w s
  | .planes w => Sys2Proof.Machine.execPlanes w s
  | .tileOperationStart core => Sys2Proof.Machine.execTileOperationStart core s
  | .tileOperationComplete core => Sys2Proof.Machine.execTileOperationComplete core s
  | .globalDrainAtHome core => Sys2Proof.Machine.execGlobalDrainAtHome core s
  | .prop w => Sys2Proof.Machine.execProp w s
  | .accept w => Sys2Proof.Machine.execAccept w s
  | .pdrop w => Sys2Proof.Machine.execPdrop w s
  | .peek w => Sys2Proof.Machine.execPeek w s
  | .rng w => Sys2Proof.Machine.execRng w s
  | .rngf w => Sys2Proof.Machine.execRngf w s
  | .fragmentFusion core slot entry => Sys2Proof.Machine.execFragmentFusion core slot entry s
  | .serialFrameAdvance core slot entry => Sys2Proof.Machine.execSerialFrameAdvance core slot entry s
  | .handlerEntry core slot => Sys2Proof.Machine.execHandlerEntry core slot s
  | .teamKill core what => Sys2Proof.Machine.execTeamKill core what s
  | .pageWalk asid va cores => Sys2Proof.Machine.execPageWalk asid va cores s
  | .l2ReadMiss line => Sys2Proof.Machine.execL2ReadMiss line s
  | .dramFillArrival line => Sys2Proof.Machine.execDramFillArrival line s
  | .class3ReadSwitchPass op switch => Sys2Proof.Machine.execClass3ReadSwitchPass op switch s
  | .l2Writeback line => Sys2Proof.Machine.execL2Writeback line s
  | .recall line => Sys2Proof.Machine.execRecall line s
  | .recallTimeout line => Sys2Proof.Machine.execRecallTimeout line s
  | .victimWritebackRequest die line => Sys2Proof.Machine.execVictimWritebackRequest die line s
  | .writebackGrant die line => Sys2Proof.Machine.execWritebackGrant die line s
  | .hostSnoop line data => Sys2Proof.Machine.execHostSnoop line data s
  | .hostRead pa n port => Sys2Proof.Machine.execHostRead pa n port s
  | .hostWrite pa bytes => Sys2Proof.Machine.execHostWrite pa bytes s
  | .peerAccessArrival link acc => Sys2Proof.Machine.execPeerAccessArrival link acc s
  | .linkTrainingLoss link => Sys2Proof.Machine.execLinkTrainingLoss link s
  | .linkTrained link => Sys2Proof.Machine.execLinkTrained link s
  | .linkFlitResend link => Sys2Proof.Machine.execLinkFlitResend link s
  | .hostPortFatal die => Sys2Proof.Machine.execHostPortFatal die s
  | .lqtail asid q v => Sys2Proof.Machine.execLqtail asid q v s
  | .launchAcceptance asid q child => Sys2Proof.Machine.execLaunchAcceptance asid q child s
  | .eventWordReread grid => Sys2Proof.Machine.execEventWordReread grid s
  | .teamAdmission grid team core rot => Sys2Proof.Machine.execTeamAdmission grid team core rot s
  | .gridRetirement grid => Sys2Proof.Machine.execGridRetirement grid s
  | .energyBudgetTick asid => Sys2Proof.Machine.execEnergyBudgetTick asid s
  | .mode asid v => Sys2Proof.Machine.execMode asid v s
  | .vtarget asid v => Sys2Proof.Machine.execVtarget asid v s
  | .supplyChange core => Sys2Proof.Machine.execSupplyChange core s
  | .registerWrite reg v => Sys2Proof.Machine.execRegisterWrite reg v s
  | .ctxcmdMakeLive asid => Sys2Proof.Machine.execCtxcmdMakeLive asid s
  | .ctxcmdTearDown asid => Sys2Proof.Machine.execCtxcmdTearDown asid s
  | .ctxcmdCapture asid => Sys2Proof.Machine.execCtxcmdCapture asid s
  | .ctxcmdRelease asid => Sys2Proof.Machine.execCtxcmdRelease asid s
  | .capoStop core => Sys2Proof.Machine.execCapoStop core s
  | .parkFlit op => Sys2Proof.Machine.execParkFlit op s
  | .imageStreamComplete core => Sys2Proof.Machine.execImageStreamComplete core s
  | .restoreComplete core => Sys2Proof.Machine.execRestoreComplete core s
  | .bindingClose core => Sys2Proof.Machine.execBindingClose core s
  | .attcmd v => Sys2Proof.Machine.execAttcmd v s
  | .attestationReportDone => Sys2Proof.Machine.execAttestationReportDone s
  | .scrubRead line => Sys2Proof.Machine.execScrubRead line s
  | .deviceReset => Sys2Proof.Machine.execDeviceReset s
  | .powerUp => Sys2Proof.Machine.execPowerUp s
  | .boot signed version spares setup => Sys2Proof.Machine.execBoot signed version spares setup s
  | .firmwareRecovery signed version => Sys2Proof.Machine.execFirmwareRecovery signed version s
  | .throttleEntry => Sys2Proof.Machine.execThrottleEntry s
  | .throttleExit => Sys2Proof.Machine.execThrottleExit s
  | .thermalIssueStall => Sys2Proof.Machine.execThermalIssueStall s
  | .thermalShutdown => Sys2Proof.Machine.execThermalShutdown s
  | .powerDown => Sys2Proof.Machine.execPowerDown s
  | .softError site bits => Sys2Proof.Machine.execSoftError site bits s
  | .creditReturn core cls n => Sys2Proof.Machine.execCreditReturn core cls n s

end Sys2Proof.Machine
end

