-- ==== Sys2Proof/Machine/Schedule.lean ====
section
/-! DEFINITION. Fetch, the choice of the fragment that issues, the events that the device does by itself, and the end of a cycle
(R69, R79, R83, R220 to R222, R230, R283, R317). -/

namespace Sys2Proof.Machine

open Sys2Proof.Encoding

/-! ### Fetch (R69, R283) -/

/-- How the fetch of the part of a word in one page ends: its physical address, or a trap. `va` is what TRAPVA reports. -/
def State.fetchPage (s : State) (core asid at_ va lane : Nat) : Except Trap Nat :=
  let site : FaultAt := { va, lane, fetch := true }
  match s.translate core asid at_ with
  | .absent => .error { cause := .pageFault, site := some site }
  | .poisoned => .error { cause := .pageFault, site := some site, walkPoison := true }
  | .page p =>
    if !p.exec then .error { cause := .permission, site := some { site with cow := p.cow } }
    else match homeOf p.pa with
      | .peer _ => .error { cause := .scopeUnreachable, site := some site }
      | _ => .ok p.pa

/-- The physical addresses of the three 4-byte parts of a word. -/
def State.fetchParts (s : State) (core asid lane : Nat) (pc : W64) : Except Trap (List Nat) := do
  let second := ((addPc pc 11).toNat / 4096) * 4096
  let part (k : Nat) : Except Trap Nat :=
    let at_ := (addPc pc (BitVec.ofNat 64 (4 * k))).toNat
    s.fetchPage core asid at_ (if at_ / 4096 = pc.toNat / 4096 then pc.toNat else second) lane
  let x ← part 0
  let y ← part 1
  let z ← part 2
  .ok [x, y, z]

/-- A 4-byte part as a grid fetches it: zeros from a poisoned line, else what the word holds or has held since the grid was
accepted. -/
def State.codePart (s : State) (grid n pa : Nat) : W32 :=
  let now : W32 := if s.poisoned pa then 0 else BitVec.ofNat 32 (s.readNat pa 4)
  let old := (s.oldCode.filter (fun r => r.1 == pa / 4 && grid < r.2.1)).map (fun r => r.2.2)
  if old = [] then now else (now :: old).getD (Config.fetchOld n % (old.length + 1)) now

/-- A word of code from its parts. -/
def State.codeWord (s : State) (grid : Nat) (ps : List Nat) : BitVec 96 :=
  BitVec.ofNat 96 ((ps.zipIdx.map (fun p => (s.codePart grid (s.free + p.2) p.1).toNat * 2 ^ (32 * p.2))).sum)

/-- Lines of a cluster's instruction cache: 64 KiB (R3). -/
def icacheRoom : Nat := 512

/-- A line fetched through its cluster's instruction cache: on a miss its message leaves the core, its home's slice is read, and a
line that a free value names leaves a full cache (R3, R246, R371; DESIGN CHOICE, log 39). -/
def State.fetchLine (s : State) (core line : Nat) : State :=
  let k := clusterOf core
  if s.icache.contains (k, line) then s
  else
    let s := (s.sendClass core .fetch).l2Reads [line]
    let mine := s.icache.filter (fun p => p.1 == k)
    if mine.length < icacheRoom then { s with icache := (k, line) :: s.icache }
    else
      let out := mine[Config.privVictim s.free % mine.length]?
      { s with icache := (k, line) :: s.icache.filter (fun p => some p != out), free := s.free + 1 }

/-- A word has held other values since the grid was accepted, of which a free value chooses. -/
def State.hasOld (s : State) (grid : Nat) (ps : List Nat) : Bool :=
  ps.any (fun pa => s.oldCode.any (fun r => r.1 == pa / 4 && grid < r.2.1))

/-- What a fetch of some parts leaves. -/
def State.fetched (s : State) (core grid : Nat) (ps : List Nat) : State :=
  let s := if s.hasOld grid ps then { s with free := s.free + 3 } else s
  ((ps.map lineOf).eraseDups).foldl (fun (s : State) l => s.fetchLine core l) s

/-- The cause of a word that R83 does not let through. -/
def causeOf : Sys2Proof.Reject → Cause
  | .illegalOpcode => .illegalOpcode
  | .reservedField => .reservedField
  | .illegalOperand => .illegalOperand

/-! ### One fragment's next instruction -/

/-- A fragment that may issue. -/
structure Cand where
  core  : Nat
  slot  : Nat
  entry : Nat
  c     : Course
  e     : Entry

/-- The fragment still stands in its course. -/
def State.stands (s : State) (x : Cand) : Bool :=
  match s.courseOf x.core x.slot x.c.stamp with
  | some c => (get {} c.entries x.entry).valid
  | none => false

/-- A state in which the fragment has been tried and is held. -/
def State.heldAt (s : State) (x : Cand) : Bool :=
  match s.courseOf x.core x.slot x.c.stamp with
  | some c => (get {} c.entries x.entry).held
  | none => false

/-- The fragment is held before its word is looked at: its context's budget is empty, or a load of its STRICT course has not
returned (R79, R132). -/
def State.heldBefore (s : State) (x : Cand) : Bool :=
  (s.ctx (s.grid x.c.grid).asid).empty || (x.c.strict && s.strictHeld x.c.stamp)

/-- The fragment has been tried and is held. -/
def State.holdAt (s : State) (x : Cand) : State :=
  s.mapCourseOf x.core x.slot x.c.stamp (·.mapEntry x.entry (fun e => { e with held := true }))

/-- Whether an operand of `n` registers names a v register. -/
def namesV (o : Operand) (n reg : Nat) : Bool :=
  match o with
  | .v k => k.val ≤ reg && reg < k.val + n
  | _ => false

/-- Registers that a slot of an operand takes: `vec` elements where TYPE gives the width (R87, R137). -/
def slotRegs (x : Sel) (vec : Nat) (slot : Slot) : Nat :=
  (if slot.wd.wide x then 2 else 1) * (if slot.wd = .ty then vec else 1)

/-- Whether a word names a v register in D, A or B: every register of a vector access, and the coordinates of ZLD and ZST (R137,
R188). -/
def wordNames (op : Nat) (w : Fields) (reg : Nat) : Bool :=
  match rowOf op with
  | none => false
  | some row =>
    let x := selOf op w
    let slots := row.slots x
    let vec := if 0x0E0 ≤ op ∧ op ≤ 0x0E5 then countOf w.imm else 1
    namesV w.d (slotRegs x vec slots.1) reg || namesV w.b (slotRegs x vec slots.2.2) reg ||
      namesV w.a (if op = 0x160 ∨ op = 0x161 then 3 else slotRegs x vec slots.2.1) reg

/-- The word names a D that a child grid's status has still to reach, and is no LAUNCH that goes on with its lanes (R96). -/
def State.childHeld (s : State) (x : Cand) (i : Instr) : Bool :=
  match wordOf i with
  | none => false
  | some (op, w) => x.e.launched == 0 && (s.ctx (s.grid x.c.grid).asid).children.any (fun k =>
      k.core == x.core && k.slot == x.slot && k.stamp == x.c.stamp && wordNames op w k.reg)

/-- A word of poisoned code that has issued counts in %poison_count. -/
def State.countFetch (s : State) (x : Cand) (asid : Nat) (ps : List Nat) : Host.Outcome State Fault Refusal → Host.Outcome State Fault Refusal
  | .next t => .next (if ps.any s.poisoned && !t.heldAt x then t.poisonRead asid 1 else t)
  | o => o

/-- A fragment fetches, decodes and runs its next instruction. -/
def State.runAt (s : State) (x : Cand) : Host.Outcome State Fault Refusal :=
  let s := { s with issuer := { core := x.core, slot := x.slot, entry := x.entry } }
  let asid := (s.grid x.c.grid).asid
  if s.heldBefore x then .next (s.holdAt x)
  else
  let s := s.metFetch x.core asid x.e.pc
  match s.fetchParts x.core asid (lowest x.e.mask) x.e.pc with
  | .error t => .next (s.takeTrap x.core x.slot x.entry t)
  | .ok ps =>
    let word := s.codeWord x.c.grid ps
    if x.c.full (Raw.ofWord word).bump.toNat then .next (s.holdAt x)
    else s.countFetch x asid ps (
      let s := s.fetched x.core x.c.grid ps
      match decode word with
      | .error r => .next (s.takeTrap x.core x.slot x.entry { cause := causeOf r })
      | .ok i =>
        if s.childHeld x i then .next (s.holdAt x)
        else
          let s := s.met i
          if s.stands x then exec i s else .next s)

/-! ### The quadrant scheduler (R79, R220, R221) -/

/-- Whether a course may issue at all now. -/
def State.courseReady (s : State) (c : Course) : Bool :=
  c.trapWait.isNone && c.nextIssue ≤ s.clock && !(s.team c.team).waiting

/-- Whether an entry is a fragment that is not held. Only the handler's lanes issue while SUPER is 1 (R232). -/
def Course.entryReady (c : Course) (n : Nat) (e : Entry) : Bool :=
  e.valid && !e.held && !c.isJoin n && !c.isWaiting n && (c.serialAdvance n).isNone &&
    (match c.saved with | some v => !c.super || e.mask &&& ~~~ v.mask == 0 | none => true)

/-- The fragments of a quadrant that may issue now, apart from what YIELD holds back. -/
def State.ready (s : State) (core quadrant : Nat) : List Cand :=
  if !s.mayIssue core then []
  else ((s.core core).courses.filter (fun p => quadrantOf p.1 == quadrant && s.courseReady p.2)).flatMap (fun p =>
    (p.2.entries.filter (fun q => p.2.entryReady q.1 q.2)).map (fun q =>
      { core, slot := p.1, entry := q.1, c := p.2, e := q.2 }))

/-- A fragment whose course gives up this opportunity, if another course takes it (R79 point 2). -/
def State.yields (s : State) (x : Cand) : Bool :=
  match x.c.yieldAt with
  | some t => s.clock == t + 1
  | none => false

def State.candidates (s : State) (core quadrant : Nat) : List Cand :=
  let xs := s.ready core quadrant
  let ys := xs.filter (fun x => !s.yields x)
  if ys.isEmpty then xs else ys

/-- The order of R220, as numbers to be compared one after another: the place in the starved queue, priority, the admission of the
course with its team, AGE; of equals the course of the lower place in its team goes first (DESIGN CHOICE, log 91). -/
def State.rank (s : State) (x : Cand) : List Nat :=
  let q := (s.core x.core).starved
  [q.idxOf (x.slot, x.entry), 7 - (s.grid x.c.grid).prio, x.c.team, x.e.age, x.c.stamp]

def lexLt : List Nat → List Nat → Bool
  | a :: as, b :: bs => a < b || (a == b && lexLt as bs)
  | _, _ => false

/-- The first fragment in the order of R220. -/
def State.best (s : State) : List Cand → Option Cand
  | [] => none
  | x :: xs => some (xs.foldl (fun b y => if lexLt (s.rank y) (s.rank b) then y else b) x)

/-- Passes after which a fragment joins the starved queue. -/
def starvedAfter : Nat := 16

/-- A ready fragment has been passed over (R220). -/
def State.passOver (s : State) (x : Cand) : State :=
  let s := s.mapCourseOf x.core x.slot x.c.stamp (fun c => c.mapEntry x.entry (fun e => { e with passed := e.passed + 1 }))
  if x.e.passed + 1 = starvedAfter && s.stands x then
    s.mapCore x.core (fun c => { c with starved := c.starved ++ [(x.slot, x.entry)] })
  else s

/-- Whether a fragment was ready: its next instruction is not held. -/
def State.wasReady (s : State) (x : Cand) : Bool :=
  match s.runAt x with
  | .next t => !t.heldAt x
  | _ => true

/-- A fragment that has spent its opportunity, with a trap too, is passed over no more (R220). -/
def State.spent (s : State) (x : Cand) : State :=
  (s.mapCourseOf x.core x.slot x.c.stamp (·.mapEntry x.entry (fun e => { e with passed := 0 }))).mapCore x.core
    (fun c => { c with starved := c.starved.filter (fun p => p != (x.slot, x.entry)) })

/-- The opportunity of a quadrant: its first ready fragment issues and the other ready ones are passed over. A fragment that
turns out to be held leaves the opportunity to the next. -/
def State.issue (s : State) (core quadrant : Nat) (x : Cand) : Host.Outcome State Fault Refusal :=
  let s := { s with turn := 4 * core + quadrant }
  match s.runAt x with
  | .next t =>
    if t.heldAt x then .next t
    else
      let others := (s.candidates core quadrant).filter (fun y => (y.slot, y.entry) != (x.slot, x.entry) && s.wasReady y)
      .next { others.foldl State.passOver (t.spent x) with turn := 4 * core + quadrant + 1 }
  | o => o

/-- The next opportunity of this cycle with a fragment to issue. -/
def State.opportunity (s : State) : Option (Nat × Nat × Cand) :=
  s.cores.findSome? (fun p =>
    if p.2.courses.isEmpty then none
    else (List.range 4).findSome? (fun q =>
      if 4 * p.1 + q < s.turn then none
      else (s.best (s.candidates p.1 q)).map (fun x => (p.1, q, x))))

/-! ### Events of the device -/

/-- Whether an event is enabled: it changes the state. -/
def State.enabled (s : State) (i : Instr) : Bool :=
  match exec i s with
  | .next t => t != s
  | _ => false

/-- Changes of split tables and handler entries, which the hardware makes at once (R222, R224, R230), and the ends of timeouts, which
no cycle passes over (R129, R165, R361). -/
def State.promptEvents (s : State) : List Instr :=
  (s.xwaits.filter (fun x => x.left == 0)).map (fun x => Instr.xchgTimeout x.id) ++
  (s.watches.filter (fun x => x.left == some 0)).map (fun x => Instr.waitaddrTimeout x.id) ++
  s.cores.flatMap (fun p =>
    if p.2.run != .running then []
    else p.2.courses.flatMap (fun q =>
      (if q.2.trapWait.isSome then [Instr.handlerEntry p.1 q.1] else []) ++
      (q.2.entries.filter (fun r => r.2.valid && (q.2.isJoin r.1 || (q.2.serialAdvance r.1).isSome))).flatMap (fun r =>
        [Instr.serialFrameAdvance p.1 q.1 r.1, Instr.fragmentFusion p.1 q.1 r.1])))

def State.prompt (s : State) : Option Instr := s.promptEvents.find? s.enabled

/-- Events of operations on their way. -/
def State.trafficEvents (s : State) : List Instr :=
  (s.ops.filter (fun o => !o.done)).flatMap (fun o =>
    if s.runs o.core then
      match o.kind with
      | .load .. | .reply .. | .zload .. => [Instr.loadDataReturn { op := o.id }]
      | .pool _ | .qpop .. => [Instr.queueOperationComplete o.id]
      | .store .. | .rmw .. | .zstore .. | .zflush .. => [Instr.storePerformed o.id {}, Instr.writeLeaseWaitEnd o.id]
      | _ => []
    else [Instr.storePerformed o.id {}, Instr.writeLeaseWaitEnd o.id, Instr.parkFlit o.id]) ++
  s.readers.flatMap (fun o => o.missing.map Instr.l2ReadMiss) ++
  (s.xwaits.filter (fun x => x.ans.isSome)).map (fun x => Instr.parkFlit x.id) ++
  (s.watches.filter (fun x => x.woken && !s.runs x.core)).map (fun x => Instr.parkFlit x.id) ++
  s.pool.flatMap (fun q => [Instr.poolSwitchArrival q.id, Instr.fretWindowExpiry q.id, Instr.poolOpAtHome q.id]) ++
  s.combines.map (fun c => Instr.dramFillArrival c.line) ++ s.recalls.map (fun r => Instr.recall r.1) ++
  s.victims.map (fun v => Instr.writebackGrant v.die v.line)

/-- Events of fragments that are held, of engines and of tiles. -/
def State.unitEvents (s : State) : List Instr :=
  s.teams.flatMap (fun p => p.2.qwaits.map (fun q => Instr.queueHeldOperationServed p.2.core p.1 q.queue)) ++
  s.xwaits.flatMap (fun x => s.xwaits.map (fun y => Instr.xchgPairing x.id y.id)) ++
  s.xwaits.map (fun x => Instr.xchgTimeout x.id) ++
  s.watches.flatMap (fun x => [Instr.waitaddrReread x.id, Instr.waitaddrTimeout x.id]) ++
  s.jobs.flatMap (fun j => [Instr.transferJobStart j.id, Instr.transferChunk { job := j.id }, Instr.copylIteration j.id,
    Instr.transferJobComplete j.id]) ++
  s.cores.flatMap (fun p => if p.2.tileQ.isEmpty then [] else
    [Instr.tileOperationStart p.1, Instr.globalDrainAtHome p.1, Instr.tileOperationComplete p.1])

/-- Events of captures and restores, of the supplies and of the ports. -/
def State.coreEvents (s : State) : List Instr :=
  s.captures.flatMap (fun r => [Instr.capoStop r.target, Instr.imageStreamComplete r.target]) ++
  s.restores.map (fun r => Instr.restoreComplete r.target) ++
  s.cores.flatMap (fun p =>
    (if p.2.binding.isSome then [Instr.bindingClose p.1] else []) ++
    (match p.2.change with
     | some (t, _) => if t ≤ s.clock then [Instr.supplyChange p.1] else []
     | none => []) ++
    (if p.2.run == .running then (p.2.credits.filter (fun k => k.2 < 8)).map (fun k => Instr.creditReturn p.1 k.1 (8 - k.2)) else []))

/-- An admission of a grid's next team that the device makes by itself: the first core and rotation with room. -/
def State.admissions (s : State) (n : Nat) (g : Grid) : List Instr :=
  if g.killed || g.left == 0 then []
  else if g.replays then g.trace.map (fun r => Instr.teamAdmission n (recTeam r) (recCore r) (recRot r))
  else match (s.usable g.asid).find? (fun k => (List.range 4).any (fun r => (s.roomFor g k r).isSome)) with
    | some k => (List.range 4).map (fun r => Instr.teamAdmission n g.nextTeam k r)
    | none => []

/-- Events of the dispatcher, the contexts and the firmware. -/
def State.launchEvents (s : State) : List Instr :=
  s.ctxs.flatMap (fun p =>
    (List.range 8).map (fun q => Instr.launchAcceptance p.1 q false) ++
    p.2.children.map (fun k => Instr.launchAcceptance p.1 k.queue true) ++
    (if p.2.state = 2 then [Instr.ctxcmdTearDown p.1] else [])) ++
  s.grids.flatMap (fun p => Instr.eventWordReread p.1 :: s.admissions p.1 p.2 ++ [Instr.gridRetirement p.1]) ++
  (if s.mgmt.attStatus = 1 then [Instr.attestationReportDone] else [])

/-- Supplies that begin to move: after every admission that could be made, so that a core which an exact team has brought to 650 mV
takes it first (R315). -/
def State.supplyEvents (s : State) : List Instr :=
  (s.cores.filter (fun p => p.2.change.isNone && s.wantedMv p.1 != p.2.mv)).map (fun p => Instr.supplyChange p.1)

/-- The first event that the device does by itself, none while its rails are down. -/
def State.nextEvent (s : State) : Option Instr :=
  if !s.mgmt.railsUp then none
  else (s.trafficEvents.find? s.enabled).or ((s.unitEvents.find? s.enabled).or ((s.coreEvents.find? s.enabled).or
    ((s.launchEvents.find? s.enabled).or (s.supplyEvents.find? s.enabled))))

/-! ### The end of a cycle -/

/-- Quadrants of a core that an empty budget has held in this cycle (R317). -/
def State.stalledQuadrants (s : State) (c : Core) : Nat :=
  ((List.range 4).filter (fun q => c.courses.any (fun p => quadrantOf p.1 == q && p.2.entries.any (fun e => e.2.held) &&
    (let x := s.ctx (s.grid p.2.grid).asid; x.eon && x.budget == 0)))).length

/-- A course at the end of a cycle: what a cycle's issue has found held is tried again. -/
def Course.endCycle (c : Course) : Course :=
  { c with entries := c.entries.map (fun (q : Nat × Entry) => (q.1, { q.2 with held := false })) }

/-- Completions that a read of %pending has put off show from the next cycle on (R38). -/
def State.showPending (s : State) : State :=
  s.cores.foldl (fun (s : State) p => p.2.courses.foldl (fun (s : State) q =>
    if q.2.pendingAt.isSome then s.retire p.1 q.1 q.2.stamp else s) s) s

/-- The clock advances. -/
def State.tick (s : State) : State :=
  let s := s.cores.foldl (fun (s : State) p => let n := s.stalledQuadrants p.2; if n = 0 then s else s.count 0x11 p.1 n) s
  State.showPending { s with
    clock := s.clock + 1
    turn := 0
    cores := s.cores.map (fun (p : Nat × Core) =>
      (p.1, { p.2 with courses := p.2.courses.map (fun (q : Nat × Course) => (q.1, q.2.endCycle)) }))
    ctxs := s.ctxs.map (fun (p : Nat × Ctx) =>
      if p.2.ticked then (p.1, { p.2 with ticked := false }) else if p.2.eon then (p.1, p.2.tick) else p)
    xwaits := s.xwaits.map (fun (x : XWait) => if s.runs x.core && x.ans.isNone then { x with left := x.left - 1 } else x)
    watches := s.watches.map (fun (x : Watch) => if s.runs x.core then { x with left := x.left.map (· - 1) } else x) }

/-- What happens while the rails are down: they come up, or memory that is not the device's changes (R376). -/
def whileDown : Instr → Bool
  | .powerUp => true
  | .hostWrite pa _ => match homeOf pa with | .host | .peer _ => true | _ => false
  | _ => false

/-- An event of the device or of its environment, with the soft errors that it finds. An instruction word is none. -/
def State.runEvent (s : State) (i : Instr) : Host.Outcome State Fault Refusal :=
  match wordOf i with
  | some _ => .next s
  | none => if s.mgmt.railsUp || whileDown i then exec i (s.met i) else .next s

/-- Opportunities of one cycle: four of each of 2,048 cores. -/
def turns : Nat := 8192

/-- Every opportunity of the cycle has passed, and then the cycle ends. -/
def State.endCycle (s : State) : State := if s.turn < turns then { s with turn := turns } else s.tick

/-- One issue opportunity, or the end of the cycle. -/
def State.cycle (s : State) : Host.Outcome State Fault Refusal :=
  match s.opportunity with
  | some (core, q, x) => s.issue core q x
  | none => .next s.endCycle

/-- One step: what the hardware does at once; what the environment's timing puts next; an issue opportunity; an event that the
device does by itself; the end of the cycle. -/
def State.advance (s : State) : Host.Outcome State Fault Refusal :=
  match s.prompt with
  | some i => s.runEvent i
  | none =>
    match s.agenda with
    | some i :: rest => { s with agenda := rest }.runEvent i
    | none :: rest => { s with agenda := rest }.cycle
    | [] =>
      match s.opportunity with
      | some (core, q, x) => s.issue core q x
      | none =>
        match s.nextEvent with
        | some i => s.runEvent i
        | none => .next s.endCycle

/-! ### A program in place -/

/-- Where a placed word stands, as a virtual and a physical address. -/
def placeAt : Nat := 0x10000

/-- The page tables of a placed word: one page with every permission. -/
def placeTables : List (Nat × Nat) :=
  [(0x1000, 0x2000 + 1), (0x2000, 0x3000 + 1), (0x3000, 0x4000 + 1), (0x4000, 0x5000 + 1),
   (0x5000 + 8 * 16, placeAt + 0x781)]

/-- A state whose next step fetches a word: context 0 is live with the page that holds the word, and core 0 holds one team of
one course of a running grid, at the word, with nothing before it (DESIGN CHOICE, log 13). -/
def State.place (s : State) (word : List Byte) : State :=
  let n := s.stamp
  let g : Grid := { asid := 0, packet := BitVec.ofNat 512 (2 ^ 96 + 2 ^ 128 + 2 ^ 160 + (2 ^ 32 - 1) * 2 ^ 192),
                    krec := BitVec.ofNat 256 (12 * 2 ^ 64 + 2 ^ 96), code := placeAt, nextTeam := 1, eventSeen := true }
  let t : Team := { grid := n, asid := 0, core := 0, slots := [0], weight := 1 }
  let c : Course := { g.newCourse n (n + 1) 0 (n + 2) 0 false with nextIssue := 0 }
  let k : Core := { (s.core 0) with courses := [(0, c)], starved := [], run := .running, change := none, binding := none, tlb := [], lastCtx := some 0 }
  let mem := placeTables.foldl (fun (m : Cells 8) (p : Nat × Nat) => putAll emptyByte m p.1 (leBytes 8 p.2)) s.mem
  { s with
    mem := putAll emptyByte mem placeAt word
    poison := []
    softErrors := []
    icache := []
    oldCode := []
    sectorTlb := []
    cores := [(0, k)]
    ctxs := assign s.ctxs 0 { (s.ctx 0) with state := 1, ptroot := 0x1000, budget := 0xFFFFFFFF }
    grids := assign s.grids n g
    teams := assign s.teams (n + 1) t
    stamp := n + 3
    mgmt := { s.mgmt with railsUp := true, stalled := false }
    agenda := []
    turn := 0 }

end Sys2Proof.Machine
end

