-- ==== Sys2Proof/Machine/Step.lean ====
section
/-! DEFINITION. The step of the machine, and a state whose next step runs a given word. -/

namespace Sys2Proof.Machine

/-- One step of the device. -/
def step (s : State) : Host.Outcome State Fault Refusal := s.advance

/-- A state whose next step fetches and runs a given word: see `State.place`. -/
def State.withFetchWord (s : State) (nbits w : Nat) : State :=
  s.place (Sys2Proof.bytesOfWord (BitVec.ofNat 96 (w % 2 ^ nbits)))

end Sys2Proof.Machine
end

