-- ==== Sys2Proof/Safety.lean ====
section
/-! DEFINITION. What counts as a safe run, and the terms that claims use: a fragment that may issue a word, and what an
instruction leaves as it was. -/

namespace Sys2Proof.Machine

/-- A run of `k` steps that neither faults nor is refused. -/
def SafeRun (k : Nat) (s : State) : Prop := ∃ t, Host.Core.run Sys2Proof.core k s = .next t

/-- The fragment that the state names as issuing stands, and nothing holds the word at issue (R37, R79, R96, R132): no full
counter, no empty budget, no STRICT load on its way; and it executes in some lane (R77). -/
structure State.Free (s : State) (w : Fields) (f : Frag) : Prop where
  frag  : s.frag w = some f
  free  : s.gated f w = false
  lanes : f.exec ≠ 0

/-- As `State.Free`, and a SYM word executes only in lanes with an open proposal (R205). -/
structure State.Ready (s : State) (w : Fields) (f : Frag) : Prop extends State.Free s w f where
  sym   : ¬ (w.hints.sym = true ∧ f.exec &&& ~~~ f.c.propOpen ≠ 0)

/-- What the issue of a word that acts in its own course alone leaves: memory, every other course, the scratchpads and tiles
of every core, every context register but the energy of this cycle, and every unit of the device. -/
structure State.Beside (s t : State) (f : Frag) : Prop where
  rest    : t = { s with cores := t.cores, counters := t.counters, ctxs := t.ctxs, ops := t.ops, stamp := t.stamp,
                         free := t.free }
  counters : ∀ k, k ≠ 0x10 * 2048 + f.core → get 0 t.counters k = get 0 s.counters k
  cores   : ∀ k, t.core k = { s.core k with courses := (t.core k).courses, starved := (t.core k).starved }
  courses : ∀ k j, k ≠ f.core ∨ j ≠ f.slot → t.course? k j = s.course? k j
  ctxs    : ∀ a, t.ctx a = { s.ctx a with debit := (t.ctx a).debit }
  going   : ∀ o ∈ s.ops, o.done = false → o ∈ t.ops

/-- What an issue costs and counts (R38, R64, R79, R95, R316, R317, R320, R371): ISSUED of its core rises, the cost of the word's
ENERGY class is debited to its context under EON, STALL sets the earliest next issue, YIELD is noted, the counter that BUMP names
rises where the word's operation is on its way or an earlier one of its class is, and identifier 0 starts with the token. -/
structure State.Billed (s t : State) (f : Frag) (w : Fields) (c₀ c : Course) (sent : Bool) : Prop where
  issued : get 0 t.counters (0x10 * 2048 + f.core) = get 0 s.counters (0x10 * 2048 + f.core) + 1
  debit  : ∀ a, (t.ctx a).debit =
    (s.ctx a).debit + if a = f.asid ∧ (s.ctx a).eon = true then energyCost w.hints.energy.val else 0
  stall  : c.nextIssue = s.clock + max w.hints.stall.val 1
  yields : w.hints.yield = true → c.yieldAt = some s.clock
  token  : c.token = (c₀.token || s.tokenStarts c₀)
  replay : 650 ≤ (s.core f.core).mv → c.replays = c₀.replays
  counts : ∀ n, 1 ≤ n → n ≤ 5 → c.counts.read n = c₀.counts.read n +
    if n = w.hints.bump.val ∧ (sent = true ∨ ∃ o ∈ s.ops, o.stamp = c₀.stamp ∧ o.cls = n) then 1 else 0

/-- The split table after an issue that moves the fragment's pc: its own entry keeps its lanes and its reconvergence address, and
every other entry is as it was. -/
structure Course.Steps (c₀ c : Course) (entry : Nat) (pc : W64) : Prop where
  own    : get {} c.entries entry = { get {} c₀.entries entry with pc := pc, passed := 0, held := false, began := none }
  others : ∀ n, n ≠ entry → get {} c.entries n = get {} c₀.entries n

/-- What the issue of a word leaves of its course besides its results and flags: the counters, the scheduler's data, the token and
%replays may change, and the entry of its fragment, which goes on at `pc`. -/
structure Course.Frame (c c' : Course) (entry : Nat) (pc : W64) : Prop where
  rest : c' = { c with v := c'.v, y := c'.y, propMask := c'.propMask, s := c'.s, p := c'.p, flags := c'.flags,
                       counts := c'.counts, entries := c'.entries, nextIssue := c'.nextIssue, yieldAt := c'.yieldAt,
                       pendingAt := c'.pendingAt, replays := c'.replays, token := c'.token }
  table : c.Steps c' entry pc

/-- A word's D names one register of the file that its form writes: a strand register, or a uniform register for a word of
the uniform pipe (R70, R81). -/
def destOk (w : Fields) : Bool :=
  match w.d with
  | .v _ => !w.hints.uniform
  | .s _ => w.hints.uniform && !w.hints.sym
  | _ => false

/-- What D holds in a lane: a strand register, its shadow for a SYM word, a uniform register (R30, R205). -/
def Course.dest (c : Course) (w : Fields) (wide : Bool) (L : Nat) : W64 :=
  match w.d with
  | .v n =>
    if w.hints.sym then
      if wide then pair (c.readY (n.val - 96 + 1) L) (c.readY (n.val - 96) L) else (c.readY (n.val - 96) L).setWidth 64
    else c.readVal n.val L wide
  | .s n => c.readSVal n.val wide
  | _ => 0

/-- The strand registers that a word's result covers. -/
def coversV (w : Fields) (wide : Bool) (n : Nat) : Bool :=
  match w.d with
  | .v k => !w.hints.sym && (k.val == n || (wide && k.val + 1 == n))
  | _ => false

/-- The shadow registers that a word's result covers, by their place in the bank. -/
def coversY (w : Fields) (wide : Bool) (n : Nat) : Bool :=
  match w.d with
  | .v k => w.hints.sym && (k.val - 96 == n || (wide && k.val - 96 + 1 == n))
  | _ => false

/-- The uniform registers that a word's result covers. -/
def coversS (w : Fields) (wide : Bool) (n : Nat) : Bool :=
  match w.d with
  | .s k => k.val == n || (wide && k.val + 1 == n)
  | _ => false

/-- The low half of a result where D is one register. -/
def narrow (wide : Bool) (x : W64) : W64 := if wide then x else (low32 x).setWidth 64

/-- An instruction has written a value to D in each computing lane and flags beside it, and nothing else but its own
bookkeeping: its fragment goes on at `pc`, past the word where none is named. A SYM word marks each shadow register that it writes in
the lane's proposal mask (R205). -/
structure State.Wrote (s t : State) (f : Frag) (w : Fields) (wide : Bool) (fn : Nat → W64 × Flags) (c : Course)
    (pc : W64 := addPc f.pc 12) : Prop where
  beside : s.Beside t f
  billed : s.Billed t f w f.c c false
  course : t.course? f.core f.slot = some c
  frame  : f.c.Frame c f.entry pc
  value  : ∀ L ∈ f.lanes w, c.dest w wide L = narrow wide (fn L).1
  otherV : ∀ n L, L < 32 → (coversV w wide n && (f.lanes w).contains L) = false → c.readV n L = f.c.readV n L
  otherY : ∀ n L, L < 32 → (coversY w wide n && (f.lanes w).contains L) = false → c.readY n L = f.c.readY n L
  otherS : ∀ n, coversS w wide n = false → c.readS n = f.c.readS n
  marks  : ∀ n L, n < 16 → L < 32 → (get 0 c.propMask L).getLsbD n =
    ((get 0 f.c.propMask L).getLsbD n || (coversY w wide n && (f.lanes w).contains L))
  preds  : c.p = f.c.p
  flags  : ∀ L, L < 32 → c.readFlags L =
    (f.lanes w).foldl (fun x K => if (f.flagLanes w K).getLsbD L then x ||| (fn K).2 else x) (f.c.readFlags L)
  mask   : (get {} c.entries f.entry).mask = f.active

/-- A word gives D a value and flags that a claim describes, lane by lane, and changes nothing else. -/
def Gives (i : Instr) (s : State) (w : Fields) (f : Frag) (wide : Bool) (P : Nat → W64 × Flags → Prop) : Prop :=
  ∃ t c fn, exec i s = .next t ∧ s.Wrote t f w wide fn c ∧ ∀ L ∈ f.lanes w, P L (fn L)

/-- An integer brought into a type's range: clamped under SAT, else wrapped (R40). -/
def brought (t : Ty) (sat : Bool) (x : Int) : Int :=
  if sat then max (tyLo t) (min (tyHi t) x) else (x - tyLo t) % 2 ^ tyBits t + tyLo t

/-- A lane's truth value of a predicate-writing word: the uniform pipe computes it once (R81). -/
def Frag.truth (f : Frag) (w : Fields) (cond : Nat → Bool) (L : Nat) : Bool :=
  cond (if w.hints.uniform then f.low else L)

/-- A word has written a predicate in its executing lanes, and flags, and nothing else but its own bookkeeping: a write of
p0 is ignored (R30). -/
structure State.WroteP (s t : State) (f : Frag) (w : Fields) (fn : Nat → Bool × Flags) (c : Course) : Prop where
  beside : s.Beside t f
  billed : s.Billed t f w f.c c false
  course : t.course? f.core f.slot = some c
  frame  : f.c.Frame c f.entry (addPc f.pc 12)
  pred   : ∀ L, L < 32 → (c.readP (predD w)).getLsbD L =
    if predD w ≠ 0 ∧ f.exec.getLsbD L then f.truth w (fun K => (fn K).1) L else (f.c.readP (predD w)).getLsbD L
  others : ∀ n, n ≠ predD w → c.readP n = f.c.readP n
  regs   : c.v = f.c.v ∧ c.y = f.c.y ∧ c.s = f.c.s ∧ c.propMask = f.c.propMask
  flags  : ∀ L, L < 32 → c.readFlags L =
    (f.lanes w).foldl (fun x K => if (f.flagLanes w K).getLsbD L then x ||| (fn K).2 else x) (f.c.readFlags L)
  mask   : (get {} c.entries f.entry).mask = f.active

/-- A word gives its predicate a truth value and flags that a claim describes, lane by lane, and changes nothing else. -/
def GivesP (i : Instr) (s : State) (w : Fields) (f : Frag) (P : Nat → Bool × Flags → Prop) : Prop :=
  ∃ t c fn, exec i s = .next t ∧ s.WroteP t f w fn c ∧ ∀ L ∈ f.lanes w, P L (fn L)

/-- What the issue of a word that sends a message leaves: as `State.Beside`, but for the send credits of its core. -/
structure State.Around (s t : State) (f : Frag) : Prop where
  rest    : t = { s with cores := t.cores, counters := t.counters, ctxs := t.ctxs, ops := t.ops, stamp := t.stamp,
                         free := t.free }
  counters : ∀ k, k ≠ 0x10 * 2048 + f.core → get 0 t.counters k = get 0 s.counters k
  cores   : ∀ k, t.core k = { s.core k with courses := (t.core k).courses, starved := (t.core k).starved,
                                            credits := (t.core k).credits }
  courses : ∀ k j, k ≠ f.core ∨ j ≠ f.slot → t.course? k j = s.course? k j
  ctxs    : ∀ a, t.ctx a = { s.ctx a with debit := (t.ctx a).debit }
  going   : ∀ o ∈ s.ops, o.done = false → o ∈ t.ops

/-- A course after an issue that leaves `c₀` of it: only the bookkeeping of the issue differs, and its fragment goes on at `pc`. -/
structure Course.Booked (c₀ c : Course) (entry : Nat) (pc : W64) : Prop where
  rest  : c = { c₀ with counts := c.counts, entries := c.entries, nextIssue := c.nextIssue, yieldAt := c.yieldAt,
                        pendingAt := c.pendingAt, replays := c.replays, token := c.token }
  table : c₀.Steps c entry pc

/-- A word has issued and changed its own course alone, into `c₀` but for the bookkeeping; its fragment goes on at `pc`. -/
structure State.Moved (s t : State) (f : Frag) (w : Fields) (c₀ c : Course) (pc : W64) (sent : Bool := false) : Prop where
  beside : s.Beside t f
  billed : s.Billed t f w c₀ c sent
  course : t.course? f.core f.slot = some c
  booked : c₀.Booked c f.entry pc
  mask   : (get {} c.entries f.entry).mask = f.active

/-- A word has issued and its operation is on its way; nothing of its course changes but the bookkeeping, and nothing of
memory, until the operation is performed. -/
structure State.Sent (s t : State) (f : Frag) (w : Fields) (kind : OpKind) (c : Course) : Prop where
  around : s.Around t f
  billed : s.Billed t f w f.c c true
  course : t.course? f.core f.slot = some c
  booked : f.c.Booked c f.entry (addPc f.pc 12)
  mask   : (get {} c.entries f.entry).mask = f.active
  going  : ∃ o ∈ t.ops, o.id = s.stamp ∧ o.kind = kind ∧ o.core = f.core ∧ o.slot = f.slot ∧ o.stamp = f.c.stamp ∧
    o.asid = f.asid ∧ o.done = false ∧ o.inCore = false

/-- A word has issued, and its fragment stands at it until an event ends what it waits for (R129, R165): its executing lanes are kept,
and nothing else of its course changes but the bookkeeping. -/
structure State.Stood (s t : State) (f : Frag) (w : Fields) (c : Course) : Prop where
  around : s.Around t f
  billed : s.Billed t f w f.c c true
  course : t.course? f.core f.slot = some c
  rest   : c = { f.c with counts := c.counts, entries := c.entries, nextIssue := c.nextIssue, yieldAt := c.yieldAt,
                          pendingAt := c.pendingAt, token := c.token }
  own    : get {} c.entries f.entry = { get {} f.c.entries f.entry with passed := 0, began := some f.exec }
  others : ∀ n, n ≠ f.entry → get {} c.entries n = get {} f.c.entries n

/-- Where the commit token of a grid goes from identifier `h` (R98, R320): the smallest identifier above it of a course that has not
ended, else the smallest of all, and nowhere when every course has ended. -/
def Grid.Next (g : Grid) (h : Nat) (n : Option Nat) : Prop :=
  let stands (m : Nat) : Prop := m % 16 < g.courses ∧ m / 16 < g.teams ∧ m ∉ g.endedIds
  match n with
  | none => ∀ m, ¬ stands m
  | some n => stands n ∧ ((h < n ∧ ∀ m, stands m → h < m → n ≤ m) ∨ ∀ m, stands m → m ≤ h ∧ n ≤ m)

/-- Identifier `h` has handed the token of its grid on: TOKEN of its course is clear and that of the next one set, where that course is
resident, and nothing else has changed. -/
structure State.Passed (s u : State) (grid h : Nat) : Prop where
  rest  : u = { s with cores := u.cores, grids := u.grids }
  next  : h % 16 < (s.grid grid).courses → h / 16 < (s.grid grid).teams → (s.grid grid).Next h (u.grid grid).token
  here  : u.grid grid = { s.grid grid with token := (u.grid grid).token }
  grids : ∀ g, g ≠ grid → u.grid g = s.grid g
  cores : ∀ k, u.core k = { s.core k with courses := (u.core k).courses }
  shown : ∀ k j, u.course? k j = (s.course? k j).map (fun d =>
    let has : Bool :=
      if s.runs k = false then d.token
      else if (u.grid grid).token.bind (s.findCourse grid) = some (k, j) then true
      else if s.findCourse grid h = some (k, j) then false else d.token
    { d with token := has })

/-- The lanes of a fragment that go on at an address. -/
def Frag.bound (f : Frag) (addr : Nat → W64) (p : W64) (m : Mask) : Prop :=
  ∀ L, L < 32 → m.getLsbD L = (f.active.getLsbD L && addr L == p)

/-- A fragment has parted (R89, R90, R221, R224): the lanes of one address are one group, the groups in the order of their lowest
lanes. Where the table has room and the fragment does not run its groups one after another already, its entry becomes the join at
`x`, with its own reconvergence address, and each group lies in a new entry, the lowest free one first; else the first group goes on
in the entry and the others are pending in a new frame. No other entry changes. -/
structure State.Parted (s t : State) (f : Frag) (w : Fields) (addr : Nat → W64) (x : W64) (c : Course) : Prop where
  beside : s.Beside t f
  billed : s.Billed t f w f.c c false
  course : t.course? f.core f.slot = some c
  rest   : c = { f.c with entries := c.entries, frames := c.frames, counts := c.counts, nextIssue := c.nextIssue,
                          yieldAt := c.yieldAt, pendingAt := c.pendingAt, replays := c.replays, token := c.token }
  room   : (f.c.framesOf f.entry).isEmpty = true →
    let ps := ((lanesOf f.active).map addr).eraseDups
    ps.length ≤ f.c.freeEntries.length →
      c.frames = f.c.frames ∧ (get {} c.entries f.entry).mask = f.active ∧ (get {} c.entries f.entry).pc = x ∧
      (get {} c.entries f.entry).rpc = (get {} f.c.entries f.entry).rpc ∧
      (∀ i p, ps[i]? = some p → ∃ n m, f.c.freeEntries[i]? = some n ∧ f.bound addr p m ∧
        get {} c.entries n = { mask := m, valid := true, pc := p, rpc := x, age := f.c.live.length + i }) ∧
      ∀ n, n ≠ f.entry → n ∉ f.c.freeEntries.take ps.length → get {} c.entries n = get {} f.c.entries n
  serial : let ps := ((lanesOf f.active).map addr).eraseDups
    (f.c.framesOf f.entry).isEmpty = false ∨ f.c.freeEntries.length < ps.length →
      (get {} c.entries f.entry).pc = addr (lowest f.active) ∧
      f.bound addr (addr (lowest f.active)) (get {} c.entries f.entry).mask ∧
      (∀ n, n ≠ f.entry → get {} c.entries n = get {} f.c.entries n) ∧
      ∃ r : Frame, c.frames = f.c.frames ++ [r] ∧ r.entry = f.entry ∧ r.rpc = x ∧ r.held = 0 ∧
        r.pending.length + 1 = ps.length ∧ ∀ i p, ps[i + 1]? = some p → ∃ g, r.pending[i]? = some g ∧ g.pc = p ∧ f.bound addr p g.mask

/-! ### Exact values of results (R42 to R51) -/

/-- ±m × 2^e as a rational number. -/
def Exact (neg : Bool) (m : Nat) (e : Int) : ℚ := (if neg then -(m : ℚ) else m) * 2 ^ e

/-- The exact value of a finite number. -/
def Fp.val : Fp → ℚ
  | .fin neg m e => Exact neg m e
  | _ => 0

/-- A nonzero exact value rounded once into a format (R46). -/
def Fmt.Rounds (f : Fmt) (mode : Rnd) (sat : Bool) (x : ℚ) (r : W64 × Flags) : Prop :=
  ∃ neg m e, m ≠ 0 ∧ Exact neg m e = x ∧ r = f.round mode sat neg m e

/-- A positive exact value `x` is rounded once, given by its sign and by any comparison of x with a number of the format's
precision and two bits more: `k` units of 2^e lie at or below x, k + 1 above it, and a last bit says whether x is k units. -/
def Fmt.RoundsAt (f : Fmt) (mode : Rnd) (sat neg : Bool) (below : ℚ → Prop) (equal : ℚ → Prop) (r : W64 × Flags) : Prop :=
  ∃ (k : Nat) (e : Int), 2 ^ (f.w + 1) ≤ k ∧ below (k * 2 ^ e) ∧ ¬ below ((k + 1) * 2 ^ e) ∧
    ((equal (k * 2 ^ e) ∧ r = f.round mode sat neg (2 * k) (e - 1)) ∨
     (¬ equal (k * 2 ^ e) ∧ r = f.round mode sat neg (2 * k + 1) (e - 1)))

/-- Sums (R44, R46 to R48). -/
def Fmt.IsSum (f : Fmt) (mode : Rnd) (sat : Bool) (x y : Fp) (r : W64 × Flags) : Prop :=
  match x, y with
  | .nan a, y => r = (f.canonNan, Flags.when (a || y.isSnan) Flags.invalid)
  | x, .nan b => r = (f.canonNan, Flags.when (x.isSnan || b) Flags.invalid)
  | .inf a, .inf b => r = if a = b then (f.infinity a, Flags.none) else (f.canonNan, Flags.invalid)
  | .inf a, .fin _ _ _ | .fin _ _ _, .inf a => r = (f.infinity a, Flags.none)
  | .fin a m e, .fin b n k =>
    if Exact a m e + Exact b n k = 0 then r = (f.zero (if a = b then a else mode = .rdn), Flags.none)
    else f.Rounds mode sat (Exact a m e + Exact b n k) r

/-- Products (R44, R46 to R48). -/
def Fmt.IsProduct (f : Fmt) (mode : Rnd) (sat : Bool) (x y : Fp) (r : W64 × Flags) : Prop :=
  match x, y with
  | .nan a, y => r = (f.canonNan, Flags.when (a || y.isSnan) Flags.invalid)
  | x, .nan b => r = (f.canonNan, Flags.when (x.isSnan || b) Flags.invalid)
  | .inf a, .inf b => r = (f.infinity (a ^^ b), Flags.none)
  | .inf a, .fin b m _ | .fin b m _, .inf a =>
    r = if m = 0 then (f.canonNan, Flags.invalid) else (f.infinity (a ^^ b), Flags.none)
  | .fin a m e, .fin b n k =>
    if m = 0 ∨ n = 0 then r = (f.zero (a ^^ b), Flags.none) else f.Rounds mode sat (Exact a m e * Exact b n k) r

/-- Zero times infinity. -/
def Fp.zeroInf : Fp → Fp → Bool
  | .inf _, .fin _ m _ | .fin _ m _, .inf _ => m == 0
  | _, _ => false

/-- x × y + z with one rounding (R109): the invalid product is INVALID even beside a quiet NaN. -/
def Fmt.IsFma (f : Fmt) (mode : Rnd) (x y z : Fp) (r : W64 × Flags) : Prop :=
  if x.zeroInf y = true ∨ x.isNan = true ∨ y.isNan = true ∨ z.isNan = true then
    r = (f.canonNan, Flags.when (x.zeroInf y || x.isSnan || y.isSnan || z.isSnan) Flags.invalid)
  else
    match x, y with
    | .fin a m e, .fin b n k => f.IsSum mode false (.fin (a ^^ b) (m * n) (e + k)) z r
    | .inf a, .inf b | .inf a, .fin b _ _ | .fin a _ _, .inf b => f.IsSum mode false (.inf (a ^^ b)) z r
    | _, _ => False

/-- Quotients (R44, R46 to R48): a nonzero number by zero is an exact infinity with DIVZERO. -/
def Fmt.IsQuotient (f : Fmt) (mode : Rnd) (sat : Bool) (x y : Fp) (r : W64 × Flags) : Prop :=
  match x, y with
  | .nan a, y => r = (f.canonNan, Flags.when (a || y.isSnan) Flags.invalid)
  | x, .nan b => r = (f.canonNan, Flags.when (x.isSnan || b) Flags.invalid)
  | .inf _, .inf _ => r = (f.canonNan, Flags.invalid)
  | .inf a, .fin b _ _ => r = (f.infinity (a ^^ b), Flags.none)
  | .fin a _ _, .inf b => r = (f.zero (a ^^ b), Flags.none)
  | .fin a m e, .fin b n k =>
    if n = 0 then r = if m = 0 then (f.canonNan, Flags.invalid) else (f.infinity (a ^^ b), Flags.divzero)
    else if m = 0 then r = (f.zero (a ^^ b), Flags.none)
    else f.RoundsAt mode sat (a ^^ b) (fun v => v * Exact false n k ≤ Exact false m e)
      (fun v => v * Exact false n k = Exact false m e) r

/-- Square roots (R44, R46, R109). -/
def Fmt.IsRoot (f : Fmt) (mode : Rnd) (x : Fp) (r : W64 × Flags) : Prop :=
  match x with
  | .nan a => r = (f.canonNan, Flags.when a Flags.invalid)
  | .inf neg => r = if neg then (f.canonNan, Flags.invalid) else (f.infinity false, Flags.none)
  | .fin neg m e =>
    if m = 0 then r = (f.zero neg, Flags.none)
    else if neg then r = (f.canonNan, Flags.invalid)
    else f.RoundsAt mode false false (fun v => v * v ≤ Exact false m e) (fun v => v * v = Exact false m e) r

/-- A number rounded to an integer (R46). -/
def roundInt (mode : Rnd) (x : ℚ) : Int :=
  match mode with
  | .rdn => ⌊x⌋
  | .rup => ⌈x⌉
  | .rtz => if 0 ≤ x then ⌊x⌋ else ⌈x⌉
  | .rne =>
    if x - ⌊x⌋ < 1 / 2 then ⌊x⌋ else if 1 / 2 < x - ⌊x⌋ then ⌊x⌋ + 1 else if ⌊x⌋ % 2 = 0 then ⌊x⌋ else ⌊x⌋ + 1

/-- FMIN and FMAX (R110): `least` chooses which; the result keeps one operand's bits. -/
def Fmt.IsExtreme (f : Fmt) (least : Bool) (a b : W64) (r : W64 × Flags) : Prop :=
  let x := f.decode a
  let y := f.decode b
  let bits (v : W64) : Nat := v.toNat % 2 ^ (1 + f.ebits + f.fbits)
  r.2 = Flags.when (x.isSnan || y.isSnan) Flags.invalid ∧
  (x.isNan = true → y.isNan = true → r.1 = f.canonNan) ∧
  (x.isNan = true → y.isNan = false → r.1.toNat = bits b) ∧
  (x.isNan = false → y.isNan = true → r.1.toNat = bits a) ∧
  (x.isNan = false → y.isNan = false → (r.1.toNat = bits a ∨ r.1.toNat = bits b) ∧
    if least then x.below (f.decode r.1) = false ∧ y.below (f.decode r.1) = false
    else (f.decode r.1).below x = false ∧ (f.decode r.1).below y = false)

/-- A number of a format converted to another (R49): e4m3 has no infinity. -/
def Fmt.IsConverted (f : Fmt) (mode : Rnd) (sat : Bool) (x : Fp) (r : W64 × Flags) : Prop :=
  match x with
  | .nan a => r = (f.canonNan, Flags.when a Flags.invalid)
  | .inf neg =>
    r = if f.inf then (f.infinity neg, Flags.none)
      else if sat then (f.largest neg, Flags.none) else (f.canonNan, Flags.invalid)
  | .fin neg m e => if m = 0 then r = (f.zero neg, Flags.none) else f.Rounds mode sat (Exact neg m e) r

/-- A number of a format converted to an integer type (R50): it always saturates. -/
def IsInteger (t : Ty) (mode : Rnd) (x : Fp) (r : W64 × Flags) : Prop :=
  match x with
  | .nan _ => r = (regOfInt t 0, Flags.invalid)
  | .inf neg => r = (regOfInt t (if neg then tyLo t else tyHi t), Flags.invalid)
  | .fin neg m e =>
    let n := roundInt mode (Exact neg m e)
    r = if n < tyLo t then (regOfInt t (tyLo t), Flags.invalid)
      else if tyHi t < n then (regOfInt t (tyHi t), Flags.invalid)
      else (regOfInt t n, Flags.when (decide ((n : ℚ) ≠ Exact neg m e)) Flags.inexact)

/-! ### Operations in flight -/

/-- An operation is in flight: the list of operations holds it and it has not completed. -/
structure State.Flying (s : State) (o : Op) : Prop where
  found : s.ops.find? (fun p => p.id == o.id) = some o
  open_ : o.done = false

/-- What a register of a file holds in a lane, by the number that a result is delivered to. -/
def Course.holds (c : Course) (file : File) (reg lane : Nat) (wide : Bool) : W64 :=
  match file with
  | .v => c.readVal reg lane wide
  | .s => c.readSVal reg wide
  | .y => if wide then pair (c.readY (reg - 96 + 1) lane) (c.readY (reg - 96) lane) else (c.readY (reg - 96) lane).setWidth 64

/-- A register that a result of an access does not cover. -/
def apart (n reg : Nat) (wide : Bool) : Prop := n ≠ reg ∧ (wide = true → n ≠ reg + 1)

/-- The operations of a course that retire when `o` completes: those completed that no earlier one of their class holds back
(R38). -/
def State.retires (s : State) (o : Op) : List Op :=
  (retireOps o.stamp [] (s.ops.map (fun p => if p.id = o.id then { p with done := true } else p))).2

/-- The flags that those operations raise in a lane. -/
def State.raisedBy (s : State) (o : Op) (L : Nat) : BitVec 8 :=
  (s.retires o).foldl (fun g p => p.flags.foldl (fun g x => if x.1.getLsbD L then g ||| x.2 else g) g) 0

/-- An address lies outside some accesses. -/
def outside (ys : List Access) (a : Nat) : Prop := ∀ x ∈ ys, a < x.pa ∨ x.pa + x.size ≤ a

/-- Some accesses hold their values where their space holds them, memory, a scratchpad or a core's private lines in L1, and
nothing else of these has changed. -/
structure State.Stored (s t : State) (core : Nat) (sp : Space) (ys : List Access) : Prop where
  there : ∀ x ∈ ys, t.bytesAt core sp x = leBytes x.size x.val.toNat
  mem : ∀ a, sp ≠ .global ∨ outside ys a → t.readByte a = s.readByte a
  scratch : ∀ k a, k ≠ core ∨ sp ≠ .scratch ∨ outside ys a → get 0 (t.core k).scratch a = get 0 (s.core k).scratch a
  others : ∀ k, k ≠ core ∨ sp ≠ .priv → (t.core k).privs = (s.core k).privs
  privs : sp = .priv → ∀ a, outside ys a → t.privBytes core a 1 = s.privBytes core a 1
  poison : t.poison = s.poison

/-- A course as it was, but for its counters and flags. -/
def Course.kept (c d : Course) : Prop := d = { c with counts := d.counts, flags := d.flags }

/-- Every course of the device is as it was, but for counters and flags. -/
def State.coursesKept (s t : State) : Prop :=
  ∀ k j, (s.course? k j = none → t.course? k j = none) ∧ ∀ c, s.course? k j = some c → ∃ d, t.course? k j = some d ∧ c.kept d

/-- Accesses can be written: the team of a scratchpad stands, the course of private memory stands and L1 has room for its lines,
each access lies in one line, and no poison or refusal meets them. -/
structure State.Lands (s : State) (o : Op) (ys : List Access) : Prop where
  team : o.kind.parts.1 = .scratch → (lookup? s.teams o.team).isSome = true
  course : o.kind.parts.1 = .priv → (s.courseOf o.core o.slot o.stamp).isSome = true
  room : o.kind.parts.1 = .priv →
    (s.core o.core).privs.length + ys.length + (s.core o.core).l1.length ≤ (s.core o.core).l1Room
  within : ∀ x ∈ ys, 1 ≤ x.size ∧ lineOf (x.pa + x.size - 1) = lineOf x.pa
  clean : ∀ x ∈ ys, s.meetsPoison o.kind.parts.1 x = false

/-- An event about an operation may act on its accesses: nothing earlier stops it, its core runs where the access is made inside
it, no write of it waits already, and no lease or fetch of its line is open. -/
structure State.MayAct (s : State) (o : Op) (ys : List Access) : Prop extends State.Lands s o ys where
  order : s.mayPerform o ys false = true
  runs  : o.kind.parts.1 ≠ .global ∨ o.inCore = true → s.runs o.core = true
  lease : s.leaseWait.any (fun x => x.1 == o.id) = false
  line  : ∀ l ∈ o.nextLines, s.leaseOver l = true

/-! ### Pages and handles -/

/-- A byte at a virtual address: its page stands, may be read and written as asked, and lies in the package. -/
structure State.Mapped (s : State) (f : Frag) (rd wr : Bool) (va : Nat) (p : Page) : Prop where
  canonical : va < 2 ^ 57
  found : s.translate f.core f.asid va = .page p
  reads : rd = true → p.read = true
  writes : wr = true → p.write = true
  home : ∃ d, homeOf p.pa = .near d ∨ homeOf p.pa = .far d

/-- Bytes of the issuing context's memory within one page, read at issue, from a line that is not poisoned. -/
def State.Holds (s : State) (f : Frag) (va n x : Nat) : Prop :=
  va < 2 ^ 57 ∧ ∃ p, s.translate f.core f.asid va = .page p ∧ p.read = true ∧ s.poisoned p.pa = false ∧ s.readNat p.pa n = x

/-- A handle names a descriptor of a kind (R186): its table entry is valid and of the handle's generation and kind. -/
def State.Describes (s : State) (f : Frag) (kind : Nat) (h : W32) (d : BitVec 512) : Prop :=
  h.toNat % 2 ^ 20 < (s.ctx f.asid).zdtCount.toNat ∧
  ∃ x y : Nat, s.Holds f ((s.ctx f.asid).zdtBase.toNat + 16 * (h.toNat % 2 ^ 20)) 16 x ∧
    let e : BitVec 128 := BitVec.ofNat 128 x
    e.getLsbD 76 = true ∧ field e 64 12 = h.toNat / 2 ^ 20 ∧ field e 80 4 = kind ∧ field e 0 64 % 64 = 0 ∧
    s.Holds f (field e 0 64) 64 y ∧ d = BitVec.ofNat 512 y

/-- A handle names a compressed array (R252). -/
def State.Names (s : State) (f : Frag) (h : W32) (z : ZArray) : Prop :=
  ∃ d, s.Describes f 1 h d ∧ ZArray.ofBits d = some z

end Sys2Proof.Machine
end

