-- ==== Sys2Proof/Certificates/Slice0/Obligations.lean ====
section
/-! DEFINITION. The statements for the provers. -/

open Sys2Proof Sys2Proof.Machine

/-! ### Encoding -/

/-- R68, R70, R83: the word of every well-formed instruction decodes to that instruction: no bit of any field is lost. -/
def Obligations.DecodeOfEncode : Prop :=
  ∀ (i : Instr) (word : BitVec 96), i.wf = true → encode i = some word → decode word = .ok i

/-- R68, R83, R85: a word that decodes is the word of the instruction it decodes to: two words never name one instruction,
and reserved bits are zero. -/
def Obligations.EncodeOfDecode : Prop :=
  ∀ (i : Instr) (word : BitVec 96), decode word = .ok i → encode i = some word ∧ i.wf = true

/-- R68 to R85: a few words written out from the encoding, and the instructions they stand for; a word whose opcode the map
does not hold, and one with a reserved bit set, are refused with their causes. -/
def Obligations.DecodeSamples : Prop :=
  let h (uniform : Bool) (energy : Fin 4) : Hints := { reuseB := false, reuseA := false, reconv := false, sym := false,
                                                       uniform, energy, bump := 0, yield := false, stall := 1 }
  let word (d a b : Operand) (ty : Ty) (modx : Bool) (imm : W32) (hints : Hints) : Fields :=
    ⟨0, false, d, a, b, ty, .rne, false, modx, imm, hints⟩
  -- NOP: opcode 0, HINTS 0x0001 (STALL 1)
  decode 0x0001_0000_0000_0000_0000_0000 = .ok (.nop (word .none .none .none .i32 false 0 (h false 0))) ∧
  -- ADD.n32 v10, v8, 5: opcode 0x020, D 10, A 8, B 0xE0, TYPE 1, IMM32 5, ENERGY 1
  decode 0x0101_0000_0005_01E0_080A_0020 = .ok (.add (word (.v 10) (.v 8) .imm .n32 false 5 (h false 1))) ∧
  -- SREAD.N64.CTL s10:s11, 0x302: the worked word of the counters
  decode 0x0401_0000_0302_8300_008A_000C = .ok (.sreadCtl (word (.s 10) .none .none .n64 true 0x302 (h true 0))) ∧
  -- CAPTURE v1, s4:s5: the worked word of the capture
  decode 0x0201_0000_0000_0084_0100_000E = .ok (.capture (word .none (.v 1) (.s 4) .i32 false 0 (h false 2))) ∧
  -- an opcode that the map does not hold
  decode 0x0001_0000_0000_0000_0000_01FF = .error .illegalOpcode ∧
  -- NOP with bit 15 set
  decode 0x0001_0000_0000_0000_0000_8000 = .error .reservedField

/-! ### The machine as a whole -/

/-- R69, R79, R83: when nothing of the device comes first, nothing holds the chosen fragment before its word is looked at, and
the words at its pc decode, a step is `exec` of the decoded instruction, in the state that names the fragment as issuing and
notes the fetch. Clauses of it are the model's choices, not the spec's: that a word of poisoned code which issues counts in
%poison_count and what its fetch leaves (log 79), that the quadrant's turn has passed and the fragments that were ready beside it are
passed over where the fragment is not held (log 80), that the first word which identifier 0 of a deterministic grid issues runs with
the token (log 42), and the agenda with the order of the events (log 1). -/
def Obligations.StepRunsDecoded : Prop :=
  ∀ (s : State) (core quadrant : Nat) (x : Cand) (ps : List Nat) (i : Instr),
    let turned : State := { s with turn := 4 * core + quadrant }
    let s₁ : State := { turned with issuer := { core := x.core, slot := x.slot, entry := x.entry } }
    let asid := (s.grid x.c.grid).asid
    let word := s₁.codeWord x.c.grid ps
    let s₂ := s₁.fetched x.core x.c.grid ps
    -- what the step adds around a word that has issued into `t`
    let after (t : State) : State :=
      let t := if ps.any s₁.poisoned then t.poisonRead asid 1 else t
      { (((turned.candidates core quadrant).filter (fun y =>
          (y.slot, y.entry) != (x.slot, x.entry) && turned.wasReady y)).foldl State.passOver (t.spent x)) with
        turn := 4 * core + quadrant + 1 }
    s.prompt = none → s.agenda = [] → s.opportunity = some (core, quadrant, x) → s.softErrors = [] → s.stands x = true →
    s.heldBefore x = false → s₁.fetchParts x.core asid (lowest x.e.mask) x.e.pc = .ok ps → decode word = .ok i →
    x.c.full (word.toNat / 2 ^ 85 % 8) = false → s₂.childHeld x i = false → s₂.stands x = true →
    (step s = match exec i s₂ with
      | .next t => if t.heldAt x then .next t else .next (after t)
      | o => o) ∧
    -- the fetch leaves every course, context and byte as it was, and the word's fragment carries the token that it starts with
    s₂.mem = s.mem ∧ s₂.ctxs = s.ctxs ∧ (∀ k j, s₂.course? k j = s.course? k j) ∧
    (s.course? x.core x.slot = some x.c → ∀ code w f, Encoding.wordOf i = some (code, w) → s₂.frag w = some f →
      f.c = x.c ∧ f.token = (x.c.token || s₂.tokenStarts x.c))

/-- No step faults and none is refused: from every state the device goes on (R83, R230 give every trap an effect). It is the model's
choice that an event which is not enabled changes nothing (log 25), and so is the order of the events (log 1). -/
def Obligations.StepNeverStops : Prop := ∀ s : State, ∃ t, step s = .next t

/-- Every step keeps memory in its canonical form. -/
def Obligations.StepKeepsMemory : Prop := ∀ s t : State, Memory.wf s.mem → step s = .next t → Memory.wf t.mem

/-- R27, R28, R318, R328, R371, R375: what reset leaves. No core holds a course, no context is live, and the registers hold the values
of their rows. That memory lists nothing, its canonical form, is the model's choice (log 2), and so is it that no context is granted
a core (log 5). -/
def Obligations.ResetState : Prop :=
  (∀ k j, State.reset.course? k j = none) ∧ (∀ a k, (State.reset.ctx a).granted k = false) ∧
  (∀ a, (State.reset.ctx a).state = 0 ∧ (State.reset.ctx a).lqSize = 2 ∧ (State.reset.ctx a).erate = 0 ∧
    (State.reset.ctx a).emax = 0xFFFFFFFF ∧ (State.reset.ctx a).mode = 0 ∧ (State.reset.ctx a).vtarget = 650 ∧
    (State.reset.ctx a).privBase = 0 ∧ (State.reset.ctx a).lease = 512 ∧ (State.reset.ctx a).errCtl = 0) ∧
  State.reset.clock = 0 ∧ Memory.wf State.reset.mem ∧ State.reset.mem = [] ∧ State.reset.poison = []

/-- R77, R79, R82, R205, for every word of the instruction set: while its counter is full or its context's budget is empty, or
another gate is shut, a word is held, and only its fragment's mark changes; a word that executes in no lane only goes on;
a word with SYM in a lane without an open proposal traps PROPOSAL_MISUSE. That a quadrant sees the budget of its own cycle is the
model's choice among the 16 that R317 allows (log 63). -/
def Obligations.IssueGates : Prop :=
  ∀ (i : Instr) (code : Nat) (w : Fields) (s : State) (f : Frag), Encoding.wordOf i = some (code, w) → s.frag w = some f →
    let full := w.hints.bump.val ≠ 0 ∧ 63 ≤ f.c.counts.read w.hints.bump.val
    let empty := (s.ctx f.asid).mode.getLsbD 1 = true ∧ (s.ctx f.asid).budget = 0
    let issued := s.blocked f.c.stamp f.entry = true
    (full ∨ empty ∨ issued ∨ s.gated f w = true → exec i s = .next (s.hold f) ∧ (s.hold f).mem = s.mem ∧
      (s.hold f).course? f.core f.slot = some { f.c with entries := adjust f.c.entries f.entry (fun e => { e with held := true }) }) ∧
    (s.gated f w = false → f.exec = 0 → ∃ t c, exec i s = .next t ∧ s.Moved t f w f.c c (addPc f.pc 12)) ∧
    (s.gated f w = false → w.hints.sym = true → f.exec &&& ~~~ f.c.propOpen ≠ 0 →
      exec i s = .next (s.takeTrap f.core f.slot f.entry { cause := .proposalMisuse }))

/-! ### Integer words -/

/-- R100: ADD, SUB, MUL, MAD, ABS and NEG compute an exact result and bring it into range by R40; MULHI writes the high bits
of the exact product; MIN and MAX compare by TYPE. No flag is raised, nothing else changes, and the word completes. -/
def Obligations.IntegerArithmetic : Prop :=
  ∀ (w : Fields) (s : State) (f : Frag), s.Ready w f → destOk w = true →
    let a (L : Nat) : Int := intOf w.ty (s.a f w L)
    let b (L : Nat) : Int := intOf w.ty (s.b f w L)
    let d (L : Nat) : Int := intOf w.ty (f.old w w.ty L)
    let is (sat : Bool) (x : Nat → Int) (L : Nat) (r : W64 × Flags) : Prop :=
      r = (regOfInt w.ty (brought w.ty sat (x L)), Flags.none)
    let gives (i : Instr) := Gives i s w f (tyWide w.ty)
    gives (.add w) (is w.sat (fun L => a L + b L)) ∧ gives (.sub w) (is w.sat (fun L => a L - b L)) ∧
    gives (.mul w) (is w.sat (fun L => a L * b L)) ∧ gives (.mad w) (is w.sat (fun L => a L * b L + d L)) ∧
    gives (.abs w) (is w.sat (fun L => |a L|)) ∧ gives (.neg w) (is w.sat (fun L => -a L)) ∧
    gives (.mulhi w) (is false (fun L => (a L * b L) / 2 ^ tyBits w.ty)) ∧
    gives (.min w) (is false (fun L => min (a L) (b L))) ∧ gives (.max w) (is false (fun L => max (a L) (b L)))

/-- R101: DIV and REM truncate toward zero; a zero divisor and the one quotient out of range give the values of the rule's
table; no case traps. -/
def Obligations.IntegerDivision : Prop :=
  ∀ (w : Fields) (s : State) (f : Frag), s.Ready w f → destOk w = true →
    let a (L : Nat) : Int := intOf w.ty (s.a f w L)
    let b (L : Nat) : Int := intOf w.ty (s.b f w L)
    Gives (.div w) s w f (tyWide w.ty) (fun L r => r = (regOfInt w.ty (
      if b L = 0 then (if a L < 0 then tyLo w.ty else tyHi w.ty)
      else if a L = tyLo w.ty ∧ b L = -1 then (if w.sat then tyHi w.ty else brought w.ty false (-a L))
      else (a L).tdiv (b L)), Flags.none)) ∧
    Gives (.rem w) s w f (tyWide w.ty) (fun L r => r = (regOfInt w.ty (
      if b L = 0 then a L else a L - b L * (a L).tdiv (b L)), Flags.none))

/-- R102: the shift and bit instructions, for the types that take them. `n` is the low bits of a as a number. R102: SAR
shifts right arithmetically by min(k, w − 1). R103: BFX takes out a bit field, with source bits at or above the width
read as the sign or as zero; BFI puts one in. -/
def Obligations.ShiftsAndBits : Prop :=
  (
    ∀ (w : Fields) (s : State) (f : Frag), s.Ready w f → destOk w = true → w.ty = .b32 ∨ w.ty = .n64 →
      let W := tyBits w.ty
      let n (L : Nat) : Nat := (s.a f w L).toNat % 2 ^ W
      let m (L : Nat) : Nat := (s.b f w L).toNat % 2 ^ W
      let k (L : Nat) : Nat := s.bWord f w L
      let gives (i : Instr) (P : Nat → Nat → Prop) := Gives i s w f (tyWide w.ty) (fun L r =>
        P L (r.1.toNat % 2 ^ W) ∧ r.2 = Flags.none)
      let counts (i : Instr) (P : Nat → Nat → Prop) := Gives i s w f false (fun L r => P L r.1.toNat ∧ r.2 = Flags.none)
      gives (.shl w) (fun L r => r = if W ≤ k L then 0 else n L * 2 ^ k L % 2 ^ W) ∧
      gives (.shr w) (fun L r => r = if W ≤ k L then 0 else n L / 2 ^ k L) ∧
      gives (.rot w) (fun L r => ∀ i < W, r.testBit ((i + k L) % W) = (n L).testBit i) ∧
      gives (.and w) (fun L r => ∀ i < W, r.testBit i = ((n L).testBit i && (m L).testBit i)) ∧
      gives (.or w) (fun L r => ∀ i < W, r.testBit i = ((n L).testBit i || (m L).testBit i)) ∧
      gives (.xor w) (fun L r => ∀ i < W, r.testBit i = ((n L).testBit i ^^ (m L).testBit i)) ∧
      gives (.not w) (fun L r => ∀ i < W, r.testBit i = !(n L).testBit i) ∧
      gives (.brev w) (fun L r => ∀ i < W, r.testBit (W - 1 - i) = (n L).testBit i) ∧
      counts (.clz w) (fun L r => r ≤ W ∧ n L < 2 ^ (W - r) ∧ (r < W → 2 ^ (W - 1 - r) ≤ n L)) ∧
      counts (.popc w) (fun L r => r = ((List.range W).filter (fun i => (n L).testBit i)).length)) ∧
  (
    ∀ (w : Fields) (s : State) (f : Frag), s.Ready w f → destOk w = true → w.ty = .i32 ∨ w.ty = .i64 →
      Gives (.sar w) s w f (tyWide w.ty) (fun L r =>
        intOf w.ty r.1 = intOf w.ty (s.a f w L) / 2 ^ min (s.bWord f w L) (tyBits w.ty - 1) ∧ r.2 = Flags.none)) ∧
  (
    ∀ (w : Fields) (s : State) (f : Frag), s.Ready w f → destOk w = true →
      let W := tyBits w.ty
      let pos (L : Nat) : Nat := s.bWord f w L % 256
      let len (L : Nat) : Nat := min (s.bWord f w L / 256 % 256) W
      (w.ty = .i32 ∨ w.ty = .i64 ∨ w.ty = .n32 ∨ w.ty = .n64 → Gives (.bfx w) s w f (tyWide w.ty) (fun L r =>
        let x : Int := intOf w.ty (s.a f w L) / 2 ^ pos L % 2 ^ len L
        intOf w.ty r.1 = (if tySigned w.ty ∧ len L ≠ 0 ∧ 2 ^ (len L - 1) ≤ x then x - 2 ^ len L else x) ∧ r.2 = Flags.none)) ∧
      (w.ty = .b32 ∨ w.ty = .n64 → Gives (.bfi w) s w f (tyWide w.ty) (fun L r =>
        (∀ i < W, r.1.getLsbD i = if pos L ≤ i ∧ i < pos L + len L then (s.a f w L).getLsbD (i - pos L)
          else (f.old w w.ty L).getLsbD i) ∧ r.2 = Flags.none)))

/-- R104, R105, R107: LEA, SEL, MOV and ADDMIN. R106: CMP writes the predicate that D names, true where the condition
of its code holds between a and b. -/
def Obligations.SelectAndCompare : Prop :=
  (
    ∀ (w : Fields) (s : State) (f : Frag), s.Ready w f → destOk w = true →
      Gives (.lea w) s w f true (fun L r => r.2 = Flags.none ∧ r.1.toNat =
        ((s.a f w L).toNat + (if w.modx then (s.bWord f w L) % 2 ^ 32
          else ((BitVec.ofNat 32 (s.bWord f w L)).signExtend 64).toNat) * 2 ^ (w.imm.toNat % 8)) % 2 ^ 64) ∧
      Gives (.sel w) s w f (tyWide w.ty) (fun L r =>
        r = (extend w.ty (if (f.c.readP (w.imm.toNat % 32)).getLsbD L then s.a f w L else s.b f w L), Flags.none)) ∧
      Gives (.mov w) s w f (tyWide w.ty) (fun L r => r = (s.a f w L, Flags.none)) ∧
      Gives (.addmin w) s w f (tyWide w.ty) (fun L r => r = (regOfInt w.ty (min (intOf w.ty (f.old w w.ty L))
        (brought w.ty true (intOf w.ty (s.a f w L) + intOf w.ty (s.b f w L)))), Flags.none))) ∧
  (
    ∀ (w : Fields) (s : State) (f : Frag), s.Ready w f →
      GivesP (.cmp w) s w f (fun L r =>
        let a := intOf w.ty (s.a f w L)
        let b := intOf w.ty (s.b f w L)
        let test : Bool := match w.modx, w.round with
          | false, .rne => a = b
          | false, .rtz => a ≠ b
          | false, .rup => a < b
          | false, .rdn => a ≤ b
          | true, .rne => b < a
          | true, _ => b ≤ a
        r = (test, Flags.none)))


/-! ### Floating-point words -/

/-- R44 to R48, R109: FADD, FSUB, FMUL, FFMA, FDIV and FSQRT compute exactly and round once, with the special results,
zero signs and flags of those rules, and flush subnormals only under `.ftz`. -/
def Obligations.FloatArithmetic : Prop :=
  ∀ (w : Fields) (s : State) (f : Frag), s.Ready w f → destOk w = true → w.ty ∈ [Ty.f32, .f64, .f16, .bf16] →
    let F := fmtOf w.ty
    let a (L : Nat) : Fp := fin w w.modx (s.a f w L)
    let b (L : Nat) : Fp := fin w w.modx (s.b f w L)
    let d (L : Nat) : Fp := fin w w.modx (f.old w w.ty L)
    let gives (i : Instr) (P : Nat → W64 × Flags → Prop) :=
      Gives i s w f (tyWide w.ty) (fun L r => ∃ x, P L x ∧ r = F.flushOut w.modx x)
    gives (.fadd w) (fun L => F.IsSum w.round w.sat (a L) (b L)) ∧
    gives (.fsub w) (fun L => F.IsSum w.round w.sat (a L) (b L).neg) ∧
    gives (.fmul w) (fun L => F.IsProduct w.round w.sat (a L) (b L)) ∧
    gives (.ffma w) (fun L => F.IsFma w.round (a L) (b L) (d L)) ∧
    gives (.fdiv w) (fun L => F.IsQuotient w.round w.sat (a L) (b L)) ∧
    gives (.fsqrt w) (fun L => F.IsRoot w.round (a L))

/-- R46, R48: what rounding a nonzero exact value x into a format gives. Without overflow the result is a number of the format that no
other number of the format separates from x, on the side that the mode names, the nearest under RNE, and of two that lie equally near
the one of even significand; INEXACT is raised exactly where it differs from x. Overflow raises OVERFLOW and INEXACT and gives the
mode's infinity, or under SAT, or where the mode rounds away from it, the largest finite number. UNDERFLOW is raised for an inexact
result below the smallest normal number after rounding: that this is judged on x rounded to the format's precision with an unbounded
exponent is the model's reading (log 33). -/
def Obligations.RoundingIsFaithful : Prop :=
  ∀ (t : Ty) (mode : Rnd) (sat neg : Bool) (m : Nat) (e : Int), tyFloat t = true → m ≠ 0 →
    let F := fmtOf t
    let r := F.round mode sat neg m e
    let x := Exact neg m e
    let finite (y : W64) := ∃ n k j, F.decode y = .fin n k j
    let val (y : W64) : ℚ := (F.decode y).val
    let between (p q : ℚ) := ∃ y : W64, finite y ∧ p < val y ∧ val y < q
    let smallest : ℚ := 2 ^ F.emin
    -- x rounds to the smallest normal number or beyond it at the format's precision
    let reaches : Prop := smallest ≤ |x| ∨ match mode with
      | .rne => smallest * (1 - 1 / 2 ^ (F.w + 1)) ≤ |x|
      | .rtz => False
      | .rup => neg = false ∧ smallest * (1 - 1 / 2 ^ F.w) < |x|
      | .rdn => neg = true ∧ smallest * (1 - 1 / 2 ^ F.w) < |x|
    (r.2 &&& Flags.overflow = 0 →
      finite r.1 ∧ ¬ between x (val r.1) ∧ ¬ between (val r.1) x ∧
      (r.2 &&& Flags.inexact = 0 ↔ val r.1 = x) ∧
      (mode = .rup → x ≤ val r.1) ∧ (mode = .rdn → val r.1 ≤ x) ∧ (mode = .rtz → |val r.1| ≤ |x|) ∧
      (mode = .rne → ∀ y : W64, finite y → |val r.1 - x| ≤ |val y - x| ∧
        (|val r.1 - x| = |val y - x| → val y ≠ val r.1 → r.1.getLsbD 0 = false)) ∧
      (r.2 &&& Flags.underflow ≠ 0 ↔ val r.1 ≠ x ∧ ¬ reaches)) ∧
    (r.2 &&& Flags.overflow ≠ 0 → r.2 = Flags.overflow ||| Flags.inexact ∧ val (F.largest false) < |x| ∧
      r.1 = if sat = true ∨ mode = .rtz ∨ (mode = .rup ∧ neg = true) ∨ (mode = .rdn ∧ neg = false) then F.largest neg
        else if F.inf then F.infinity neg else F.canonNan) ∧
    -- under RNE a value half a unit or more beyond the largest number overflows
    (mode = .rne → F.inf = true → 2 ^ (F.maxQ - 1) * (2 * (F.maxM : ℚ) + 1) ≤ |x| → r.2 &&& Flags.overflow ≠ 0)

/-- R110, R111, R113 to R115: FMIN, FMAX, FABS, FNEG, FCLASS, FRND, FSCALE, FADDMIN and FDOT4. FSCALE computes a × 2^b exactly
and rounds once. R112: FCMP writes the predicate that D names with the condition of its code, −0 and +0 equal; with a NaN the
ordered conditions are false and raise INVALID. That a 0xE0 source of FDOT4 supplies the converted immediate as element 0 and
zeros elsewhere is the model's choice (log 90). -/
def Obligations.FloatSelect : Prop :=
  (
    ∀ (w : Fields) (s : State) (f : Frag), s.Ready w f → destOk w = true →
      let F := fmtOf w.ty
      let n := tyBits w.ty
      let a (L : Nat) : Fp := F.decode (s.a f w L)
      (w.ty ∈ [Ty.f32, .f64, .f16, .bf16] →
        Gives (.fmin w) s w f (tyWide w.ty) (fun L => F.IsExtreme true (s.a f w L) (s.b f w L)) ∧
        Gives (.fmax w) s w f (tyWide w.ty) (fun L => F.IsExtreme false (s.a f w L) (s.b f w L)) ∧
        Gives (.fabs w) s w f (tyWide w.ty) (fun L r => r.2 = Flags.none ∧
          if (a L).isNan then r.1 = F.canonNan else r.1.toNat = (s.a f w L).toNat % 2 ^ (n - 1)) ∧
        Gives (.fneg w) s w f (tyWide w.ty) (fun L r => r.2 = Flags.none ∧
          if (a L).isNan then r.1 = F.canonNan else r.1.toNat = ((s.a f w L).toNat + 2 ^ (n - 1)) % 2 ^ n) ∧
        Gives (.fclass w) s w f false (fun L r => r.2 = Flags.none ∧ r.1.toNat = 2 ^ (match a L with
          | .nan signalling => if signalling then 8 else 9
          | .inf neg => if neg then 0 else 7
          | .fin neg m _ =>
            if m = 0 then (if neg then 3 else 4) else if F.subnormal (s.a f w L) then (if neg then 2 else 5)
            else (if neg then 1 else 6))) ∧
        Gives (.frnd w) s w f (tyWide w.ty) (fun L r => match a L with
          | .nan signalling => r = (F.canonNan, Flags.when signalling Flags.invalid)
          | .inf neg => r = (F.infinity neg, Flags.none)
          | .fin neg m e => r.2 = Flags.none ∧ ∃ k j, F.decode r.1 = .fin neg k j ∧
              Exact neg k j = roundInt w.round (Exact neg m e)) ∧
        Gives (.fscale w) s w f (tyWide w.ty) (fun L r =>
          let k := intOf .i32 (s.src f w .i32 L w.b)
          match a L with
          | .nan signalling => r = (F.canonNan, Flags.when signalling Flags.invalid)
          | .inf neg => r = (F.infinity neg, Flags.none)
          | .fin neg m e => if m = 0 then r = (F.zero neg, Flags.none) else F.Rounds w.round w.sat (Exact neg m e * 2 ^ k) r) ∧
        Gives (.faddmin w) s w f (tyWide w.ty) (fun L r => ∃ x y, F.IsSum w.round false (a L) (F.decode (s.b f w L)) x ∧
          F.IsExtreme true (f.old w w.ty L) x.1 y ∧ r = (y.1, x.2 ||| y.2))) ∧
      (w.ty ∈ [Ty.f16, .bf16, .e4m3, .e5m2] →
        Gives (.fdot4 w) s w f false (fun L r =>
          let G := fmtOf .f32
          let read (o : Operand) : W64 :=
            match o with
            | .imm => immValue w.ty w.round w.imm
            | o => s.src f w (if n = 16 then .n64 else .n32) L o
          let p (i : Nat) : Fp := product (dotElem w.ty (read w.a) i) (dotElem w.ty (read w.b) i)
          ∃ l u v x, G.IsSum w.round false (p 0) (p 1) l ∧ G.IsSum w.round false (p 2) (p 3) u ∧
            G.IsSum w.round false (G.decode l.1) (G.decode u.1) v ∧
            G.IsSum w.round false (G.decode (f.old w .n32 L)) (G.decode v.1) x ∧ r = (x.1, l.2 ||| u.2 ||| v.2 ||| x.2)))) ∧
  (
    ∀ (w : Fields) (s : State) (f : Frag), s.Ready w f →
      GivesP (.fcmp w) s w f (fun L r =>
        let x := (fmtOf w.ty).decode (s.a f w L)
        let y := (fmtOf w.ty).decode (s.b f w L)
        let nan := x.isNan || y.isNan
        let snan := x.isSnan || y.isSnan
        let lt (x y : Fp) : Prop := match x, y with
          | .inf a, .inf b => a = true ∧ b = false
          | .inf a, .fin _ _ _ => a = true
          | .fin _ _ _, .inf b => b = false
          | x, y => x.val < y.val
        let ordered (t : Prop) := (nan = false → (r.1 = true ↔ t)) ∧ (nan = true → r.1 = false)
        match w.modx, w.round with
        | false, .rne => ordered (¬ lt x y ∧ ¬ lt y x) ∧ r.2 = Flags.when snan Flags.invalid
        | false, .rtz => (nan = true → r.1 = true) ∧ (nan = false → (r.1 = true ↔ (lt x y ∨ lt y x))) ∧
            r.2 = Flags.when snan Flags.invalid
        | false, .rup => ordered (lt x y) ∧ r.2 = Flags.when nan Flags.invalid
        | false, .rdn => ordered (¬ lt y x) ∧ r.2 = Flags.when nan Flags.invalid
        | true, .rne => ordered (lt y x) ∧ r.2 = Flags.when nan Flags.invalid
        | true, .rtz => ordered (¬ lt x y) ∧ r.2 = Flags.when nan Flags.invalid
        | true, .rup => r.1 = nan ∧ r.2 = Flags.when snan Flags.invalid
        | true, .rdn => r.1 = !nan ∧ r.2 = Flags.when snan Flags.invalid))

/-- R61 to R63, R116: the eighteen transcendental words, and what the functions of those words give. The special inputs give the
results and flags of R63's table on every path; `.fast` depends on the input and TYPE alone; `.auto` takes the fast path below the
threshold of R62, and the exact one otherwise and in exact mode. The `.exact` paths of FRCP and FRSQ round the reciprocal and the
reciprocal root once by ROUND; a finite `.fast` result of FRCP and FRSQ lies within 2 ulp of them, and that of every function within
five places of its correctly rounded result, with the OVERFLOW and UNDERFLOW of that result (that it may be any of them is log 9). -/
def Obligations.Transcendentals : Prop :=
  (
    ∀ (w : Fields) (s : State) (f : Frag), s.Ready w f → destOk w = true → w.ty = .f32 ∨ w.ty = .f64 →
      let gives (fn : TFn) (fast auto exact : Instr) :=
        let is (path : Path) (L : Nat) (r : W64 × Flags) := r = fn.apply path f.c.exact w.ty w.round (s.a f w L)
        Gives fast s w f (tyWide w.ty) (is .fast) ∧ Gives auto s w f (tyWide w.ty) (is .auto) ∧
        Gives exact s w f (tyWide w.ty) (is .exact)
      gives .rcp (.frcpFast w) (.frcpAuto w) (.frcpExact w) ∧ gives .rsq (.frsqFast w) (.frsqAuto w) (.frsqExact w) ∧
      gives .exp2 (.fexp2Fast w) (.fexp2Auto w) (.fexp2Exact w) ∧ gives .log2 (.flog2Fast w) (.flog2Auto w) (.flog2Exact w) ∧
      gives .sin (.fsinFast w) (.fsinAuto w) (.fsinExact w) ∧ gives .cos (.fcosFast w) (.fcosAuto w) (.fcosExact w)) ∧
  (
    ∀ (fn : TFn) (t : Ty) (mode : Rnd) (bits : W64), t = .f32 ∨ t = .f64 →
      let F := fmtOf t
      let x := F.decode bits
      let one := F.round .rne false false 1 0
      -- `.fast` reads neither ROUND nor the mode; `.auto` in exact mode is `.exact`, and `.exact` reads no mode
      (∀ em mode', fn.apply .fast em t mode bits = fn.apply .fast false t mode' bits) ∧
      fn.apply .auto true t mode bits = fn.apply .exact false t mode bits ∧
      fn.apply .exact true t mode bits = fn.apply .exact false t mode bits ∧
      -- the thresholds
      (∀ neg m e, x = .fin neg m e → m ≠ 0 →
        let T : Int := match fn, tyWide t with
          | .rcp, false | .rsq, false => 126 | .rcp, true | .rsq, true => 1022 | .exp2, false => 6 | .exp2, true => 9
          | .log2, false => 32 | .log2, true => 256 | .sin, false | .cos, false => 10 | .sin, true | .cos, true => 20
        fn.apply .auto false t mode bits =
          if Exact false m e < 2 ^ T then fn.apply .fast false t mode bits else fn.apply .exact false t mode bits) ∧
      -- the correctly rounded reciprocal and reciprocal root
      (∀ neg m e, x = .fin neg m e → m ≠ 0 → F.IsQuotient mode false (.fin false 1 0) x (TFn.rcp.apply .exact false t mode bits)) ∧
      (∀ m e, x = .fin false m e → m ≠ 0 → F.RoundsAt mode false false (fun v => v * v * Exact false m e ≤ 1)
        (fun v => v * v * Exact false m e = 1) (TFn.rsq.apply .exact false t mode bits)) ∧
      -- the fast results: near the value, near the rounded result, with its flags
      (∀ neg m e k neg' m' e', x = .fin neg m e → m ≠ 0 → 2 ^ k * Exact false m e ≤ 1 → 1 < 2 ^ (k + 1) * Exact false m e →
        F.decode (TFn.rcp.apply .fast false t mode bits).1 = .fin neg' m' e' →
        |Exact neg' m' e' * Exact neg m e - 1| ≤ 2 * 2 ^ max (k + 1 - (F.w : Int)) F.qmin * Exact false m e) ∧
      (∀ m e k neg' m' e', x = .fin false m e → m ≠ 0 → 2 ^ k * 2 ^ k * Exact false m e ≤ 1 →
        1 < 2 ^ (k + 1) * 2 ^ (k + 1) * Exact false m e → F.decode (TFn.rsq.apply .fast false t mode bits).1 = .fin neg' m' e' →
        let u : ℚ := 2 * 2 ^ max (k + 1 - (F.w : Int)) F.qmin
        let y := Exact neg' m' e'
        (0 ≤ y + u ∧ 1 ≤ (y + u) * (y + u) * Exact false m e) ∧ (y - u ≤ 0 ∨ (y - u) * (y - u) * Exact false m e ≤ 1)) ∧
      (let near := fn.apply .exact false t .rne bits
       let r := fn.apply .fast false t mode bits
       |F.place r.1 - F.place near.1| ≤ 5 ∧
         r.2 &&& (Flags.overflow ||| Flags.underflow) = near.2 &&& (Flags.overflow ||| Flags.underflow)) ∧
      -- the special inputs
      ∀ path em, let r := fn.apply path em t mode bits
        (∀ signalling, x = .nan signalling → r = (F.canonNan, Flags.when signalling Flags.invalid)) ∧
        (∀ neg, x = .inf neg → r = match fn, neg with
          | .rcp, neg => (F.zero neg, Flags.none)
          | .rsq, false => (F.zero false, Flags.none)
          | .exp2, true => (F.zero false, Flags.none)
          | .exp2, false | .log2, false => (F.infinity false, Flags.none)
          | .rsq, true | .log2, true | .sin, _ | .cos, _ => (F.canonNan, Flags.invalid)) ∧
        (∀ neg e, x = .fin neg 0 e → r = match fn with
          | .rcp | .rsq => (F.infinity neg, Flags.divzero)
          | .log2 => (F.infinity true, Flags.divzero)
          | .exp2 | .cos => (one.1, Flags.none)
          | .sin => (F.zero neg, Flags.none)) ∧
        (∀ m e, x = .fin true m e → m ≠ 0 → fn = .rsq ∨ fn = .log2 → r = (F.canonNan, Flags.invalid)) ∧
        (x.val = 1 → fn = .log2 → r = (F.zero false, Flags.none)))

/-- R117 to R119, R66, R67, R210: CVT, PACK and UNPACK convert by R49 to R51; RNG and RNGF give the generator's value. -/
def Obligations.Conversions : Prop :=
  ∀ (w : Fields) (s : State) (f : Frag), s.Ready w f → destOk w = true →
    let converted (dst src : Ty) (x : W64) (r : W64 × Flags) : Prop :=
      match tyFloat src, tyFloat dst with
      | true, true => (fmtOf dst).IsConverted w.round w.sat ((fmtOf src).decode x) r
      | true, false => IsInteger dst w.round ((fmtOf src).decode x) r
      | false, true =>
        if intOf src x = 0 then r = ((fmtOf dst).zero false, Flags.none)
        else (fmtOf dst).Rounds w.round w.sat (intOf src x : ℚ) r
      | false, false => r = (regOfInt dst (brought dst w.sat (intOf src x)), Flags.none)
    let src := tyAt (w.imm.toNat % 16)
    let t := if tyFloat w.ty then Ty.f32 else .i32
    let n := tyBits w.ty
    let key (L : Nat) : W32 := BitVec.ofNat 32 (s.aWord f w L)
    let index (L : Nat) : W32 := BitVec.ofNat 32 (s.bWord f w L)
    (w.ty ≠ .b32 → src ≠ .b32 →
      Gives (.cvt w) s w f (tyWide w.ty) (fun L => converted w.ty src (s.src f w src L w.a))) ∧
    (n = 16 ∨ n = 8 → Gives (.pack w) s w f false (fun L r => ∃ x y,
      converted w.ty t (s.src f w t L w.a) x ∧ converted w.ty t (s.src f w t L w.b) y ∧ r.2 = x.2 ||| y.2 ∧
      ∀ i < 32, r.1.getLsbD i =
        if n = 16 then (if i < 16 then x.1.getLsbD i else y.1.getLsbD (i - 16))
        else
          let at0 := if w.modx then 16 else 0
          if at0 ≤ i ∧ i < at0 + 8 then x.1.getLsbD (i - at0)
          else if at0 + 8 ≤ i ∧ i < at0 + 16 then y.1.getLsbD (i - at0 - 8)
          else (f.old w .n32 L).getLsbD i)) ∧
    (n = 16 ∨ n = 8 → Gives (.unpack w) s w f false (fun L r =>
      let x : W64 := BitVec.ofNat 64 ((s.src f w .n32 L w.a).toNat / 2 ^ (n * (w.imm.toNat % 4)) % 2 ^ n)
      if tyFloat w.ty then (fmtOf .f32).IsConverted .rne false ((fmtOf w.ty).decode x) r
      else intOf .i32 r.1 = intOf w.ty x ∧ r.2 = Flags.none)) ∧
    -- the generator
    (∀ k i : W32,
      let n : Nat := 2 ^ 32
      let a := i.toNat ^^^ (k.toNat * 0x9E3779B1 % n)
      let b := (a ^^^ (a / 2 ^ 16)) * 0x85EBCA6B % n
      let c := (b ^^^ (b / 2 ^ 13)) * 0xC2B2AE35 % n
      (rng k i).toNat = c ^^^ (c / 2 ^ 16)) ∧
    Gives (.rng w) s w f false (fun L r => r = ((rng (key L) (index L)).setWidth 64, Flags.none)) ∧
    Gives (.rngf w) s w f false (fun L r => r.2 = Flags.none ∧ ∃ k j, (fmtOf .f32).decode r.1 = .fin false k j ∧
      Exact false k j = ((rng (key L) (index L)).toNat / 256 : Nat) / (2 ^ 24 : ℚ))


/-! ### Predicates and lanes -/

/-- R121, R125, R126: the predicate instructions, none of which has a uniform form (R120): PAND, POR, PXOR, PNOT, PMOV per
lane, VOTE over the executing lanes, ELECT for the lowest one. -/
def Obligations.PredicateLogic : Prop :=
  ∀ (w : Fields) (s : State) (f : Frag), s.Ready w f → w.hints.uniform = false →
    let read (o : Operand) (L : Nat) : Bool :=
      match o with
      | .pred inv n => (f.c.readP n.val).getLsbD L ^^ inv
      | _ => false
    let a := read w.a
    let b := read w.b
    let gives (i : Instr) (v : Nat → Bool) := GivesP i s w f (fun L r => r = (v L, Flags.none))
    let lanes := lanesOf f.exec
    ((∃ inv n, w.a = .pred inv n) → (∃ inv n, w.b = .pred inv n) →
      gives (.pand w) (fun L => a L && b L) ∧ gives (.por w) (fun L => a L || b L) ∧ gives (.pxor w) (fun L => a L ^^ b L)) ∧
    ((∃ inv n, w.a = .pred inv n) →
      gives (.pnot w) (fun L => !a L) ∧ gives (.pmov w) a ∧
      (w.imm.toNat % 4 = 0 → gives (.vote w) (fun _ => lanes.all a)) ∧
      (w.imm.toNat % 4 = 1 → gives (.vote w) (fun _ => lanes.any a)) ∧
      (w.imm.toNat % 4 = 2 → gives (.vote w) (fun _ => lanes.all a || lanes.all (fun L => !a L))) ∧
      (w.imm.toNat % 4 = 3 → destOk w = true → Gives (.vote w) s w f false (fun _ r => r.2 = Flags.none ∧
        ∀ L < 64, r.1.getLsbD L = (decide (L < 32) && f.exec.getLsbD L && a L)))) ∧
    gives (.elect w) (fun L => L == lanes.headD 0)

/-- R122 to R124: PCOUNT counts, and LSHUP, LSHDN and SHFL take values from other lanes of the same fragment; a lane
outside it is never read. R52, R127: REDUX gives every executing lane one value, reduced over the executing lanes in
the tree of R52, whose node adds two values as TYPE and the operation say: an integer sum that wraps or saturates, a floating sum
rounded by ROUND, the lesser or greater value, with the flags of both sides and its own; a wrapping sum is the sum of the lanes, and
the bitwise reductions are those of the lanes' bits. What one executing lane alone gives is the model's reading (log 101). -/
def Obligations.LaneMoves : Prop :=
  (
    ∀ (w : Fields) (s : State) (f : Frag), s.Ready w f → destOk w = true → w.hints.uniform = false →
      let k := w.imm.toNat % 32
      let is (x : W64) (r : W64 × Flags) := r = (x, Flags.none)
      (∀ inv n, w.a = .pred inv n → Gives (.pcount w) s w f false (fun _ => is (BitVec.ofNat 64
        ((lanesOf f.exec).filter (fun L => (f.c.readP n.val).getLsbD L ^^ inv)).length))) ∧
      Gives (.lshup w) s w f (tyWide w.ty) (fun L =>
        is (if k ≤ L ∧ f.active.getLsbD (L - k) = true then s.a f w (L - k) else s.b f w L)) ∧
      Gives (.lshdn w) s w f (tyWide w.ty) (fun L =>
        is (if L + k ≤ 31 ∧ f.active.getLsbD (L + k) = true then s.a f w (L + k) else s.b f w L)) ∧
      Gives (.shfl w) s w f (tyWide w.ty) (fun L =>
        let S := if w.modx then L ^^^ (s.bWord f w L % 32) else s.bWord f w L % 32
        is (if f.active.getLsbD S = true then s.a f w S else s.a f w L))) ∧
  (
    ∀ (w : Fields) (s : State) (f : Frag), s.Ready w f → destOk w = true → w.hints.uniform = false →
      let op := w.imm.toNat % 8
      let lanes := lanesOf f.exec
      Gives (.redux w) s w f (tyWide w.ty) (fun _ r =>
        r = (treeSum (reduxAdd w op) 5 ((List.range 32).map (fun L =>
          if f.exec.getLsbD L then some (s.a f w L, Flags.none) else none))).getD (0, Flags.none) ∧
        -- the node of the tree
        (∀ x y : W64 × Flags, let z := reduxAdd w op x y
          let F := fmtOf w.ty
          let a := intOf w.ty x.1
          let b := intOf w.ty y.1
          let int (v : Int) : Prop := z = (regOfInt w.ty v, x.2 ||| y.2)
          let float (P : W64 × Flags → Prop) : Prop := ∃ r, P r ∧ z = (r.1, x.2 ||| y.2 ||| r.2)
          (w.ty ∈ [Ty.i32, .n32, .i64, .n64] → (op = 0 → int (brought w.ty w.sat (a + b))) ∧ (op = 1 → int (min a b)) ∧
            (op = 2 → int (max a b))) ∧
          (w.ty ∈ [Ty.f32, .f64] → (op = 0 → float (F.IsSum w.round false (F.decode x.1) (F.decode y.1))) ∧
            (op = 1 → float (F.IsExtreme true x.1 y.1)) ∧ (op = 2 → float (F.IsExtreme false x.1 y.1)))) ∧
        (op = 0 → w.sat = false → w.ty ∈ [Ty.i32, .n32, .i64, .n64] → 1 < lanes.length →
          r = (regOfInt w.ty (brought w.ty false ((lanes.map (fun L => intOf w.ty (s.a f w L))).sum)), Flags.none)) ∧
        (op = 3 → ∀ i < 64, r.1.getLsbD i = lanes.all (fun L => (s.a f w L).getLsbD i)) ∧
        (op = 4 → ∀ i < 64, r.1.getLsbD i = lanes.any (fun L => (s.a f w L).getLsbD i)) ∧
        (op = 5 → ∀ i < 64, r.1.getLsbD i = (((lanes.filter (fun L => (s.a f w L).getLsbD i)).length % 2) == 1))))

/-! ### Special and control registers -/

/-- R35 to R39, R211: SREAD gives each lane its special register; every one of them holds what R35 says. R206, R211:
SREAD `.ctl` in supervisor state gives every executing lane the control register that IMM32 names, the one that O22 says SWRITE `.ctl`
writes, or of its core or course where it is theirs, and traps ILLEGAL_OPERAND where none is defined; PEEK gives the shadow register
that A names. %energy_left reads the budget of the current cycle, where R317 allows any of the last 16 cycles (log 63, the model's
choice). -/
def Obligations.RegisterRead : Prop :=
  (
    ∀ (w : Fields) (s : State) (f : Frag), s.Ready w f → destOk w = true →
      Gives (.sread w) s w f (tyWide w.ty) (fun L r => r = (s.a f w L, Flags.none)) ∧
      ∀ L, L < 32 →
        let t := s.team f.c.team
        let g := s.grid f.c.grid
        let x (r : Special) : Nat := (s.special f L r).toNat
        x .lane = L ∧ x .strand = (f.c.index * 32 + L) % 2 ^ 32 ∧ x .course = f.c.index % 2 ^ 32 ∧
        (g.gx ≠ 0 → g.gy ≠ 0 → t.linear < 2 ^ 32 → t.linear = x .teamx + g.gx * (x .teamy + g.gy * x .teamz) ∧
          x .teamx < g.gx ∧ x .teamy < g.gy) ∧
        x .team = t.linear % 2 ^ 32 ∧ x .gridx = g.gx ∧ x .gridy = g.gy ∧ x .gridz = g.gz ∧ x .grid = g.gid.toNat ∧
        x .core = f.core % 2 ^ 32 ∧ x .sector = f.core / 64 % 8 ∧ x .die = f.core / 512 % 2 ^ 32 ∧ x .depth = g.depth % 2 ^ 32 ∧
        x .quadrant = f.slot / 4 % 2 ^ 32 ∧ x .accepts = (get 0 f.c.accepts L).toNat ∧
        x .proposals = (get 0 f.c.proposals L).toNat ∧ x .poisonCount = (s.ctx f.asid).poisonCount.toNat ∧
        x .ragged = (s.ctx f.asid).ragged.toNat ∧
        (let k := f.c.counts
         x .pending = (k.load + 64 * k.store + 4096 * k.copy + 2 ^ 18 * k.tile + 2 ^ 24 * k.queue) % 2 ^ 32) ∧
        x .fragment = (f.entry + 16 * (f.c.entries.filter (fun p => p.2.valid)).length +
          if f.c.frames.any (fun r => r.entry == f.entry) then 256 else 0) % 2 ^ 32 ∧
        x .clock = s.clock % 2 ^ 64 ∧ x .mask = f.active.toNat ∧ x .trapPc = f.c.trapPc.toNat ∧
        x .trapCause = f.c.trapCause.toNat ∧ x .phase = f.c.phase.toNat ∧ x .replays = f.c.replays.toNat ∧
        x .status % 256 = (f.c.readFlags L).toNat ∧ (s.special f L .status).getLsbD 8 = f.c.propOpen.getLsbD L ∧
        (s.special f L .status).getLsbD 9 = f.c.exact ∧ (s.special f L .status).getLsbD 10 = f.c.strict ∧
        (s.special f L .status).getLsbD 11 = f.c.det ∧ (s.special f L .status).getLsbD 12 = f.token ∧
        (s.special f L .status).getLsbD 13 = f.c.super ∧
        x .energyLeft = if (s.ctx f.asid).eon then (s.ctx f.asid).budget.toNat else 0xFFFFFFFF) ∧
  (
    ∀ (w : Fields) (s : State) (f : Frag), s.Ready w f → destOk w = true →
      (∀ x, f.c.super = true → s.readCtl f.asid (some (f.core, f.c)) (w.imm.toNat % 4096) = some x →
        Gives (.sreadCtl w) s w f (tyWide w.ty) (fun _ r => r = (x, Flags.none))) ∧
      (f.c.super = true → s.readCtl f.asid (some (f.core, f.c)) (w.imm.toNat % 4096) = none →
        exec (.sreadCtl w) s = .next (s.takeTrap f.core f.slot f.entry { cause := .illegalOperand })) ∧
      (∀ n : BitVec 8, w.a = .code n → 0x60 ≤ n.toNat → n.toNat ≤ 0x6F → (tyWide w.ty = true → n.toNat % 2 = 0) →
        Gives (.peek w) s w f (tyWide w.ty) (fun L r => r.2 = Flags.none ∧
          (low32 r.1 = f.c.readY (n.toNat - 0x60) L) ∧
          (high32 r.1 = if tyWide w.ty then f.c.readY (n.toNat - 0x60 + 1) L else 0)))) ∧
  (
    ∀ (s : State) (asid core : Nat) (c : Course),
      let r := s.readCtl asid (some (core, c))
      (∀ i wide, ctlInfo i = some (.sv, wide) → r i = some ((s.ctx asid).ctl i)) ∧
      (∀ q < 8, r (0x110 + q) = some ((get 0 (s.ctx asid).lqHead q).setWidth 64)) ∧
      (∀ q < 32, r (0x220 + q) = some (get 0 (s.ctx asid).grants q)) ∧
      r 0x122 = some (BitVec.ofNat 64 (s.ecap core)) ∧ r 0x203 = some (BitVec.ofNat 64 asid) ∧
      r 0x204 = some ((s.ctx asid).capRight.setWidth 64) ∧ r 0x20B = some ((s.ctx asid).fqTail.setWidth 64) ∧
      r 0x20D = some ((s.ctx asid).fqLost.setWidth 64) ∧ r 0x210 = some c.trapVa ∧ r 0x211 = some (c.trapInfo.setWidth 64) ∧
      (let sel := (s.ctx asid).cntSel.toNat
       r 0x302 = some (get 0 s.counters (sel % 256 * 2048 + sel / 256 % 2048))) ∧
      ∀ i, ctlInfo i = none → r i = none)

/-- R36, R211: SWRITE writes the flags of %status, %accepts or %proposals in the executing lanes, in any state; in
supervisor state it writes %trap_cause, %trap_pc, %energy_left, %poison_count or %ragged once, from the lowest lane. A write of
%energy_left applies at once, where R317 allows any cycle within 16 (log 63, the model's choice). -/
def Obligations.SpecialWrite : Prop :=
  ∀ (w : Fields) (s : State) (f : Frag) (n : BitVec 8), s.Ready w f → w.d = .code n →
    let x := s.src f w w.ty f.low w.a
    let wide := tyWide w.ty
    (n = 0xD3 ∨ n = 0xD4 ∨ n = 0xD5 → ∃ t c c₀, exec (.swrite w) s = .next t ∧ s.Moved t f w c₀ c (addPc f.pc 12) ∧
      c₀ = { f.c with flags := c₀.flags, accepts := c₀.accepts, proposals := c₀.proposals } ∧
      ∀ L, L < 32 →
        let on (k : BitVec 8) : Bool := n == k && f.exec.getLsbD L
        c₀.readFlags L = (if on 0xD3 then (s.a f w L).setWidth 8 else f.c.readFlags L) ∧
        get 0 c₀.accepts L = (if on 0xD4 then low32 (s.a f w L) else get 0 f.c.accepts L) ∧
        get 0 c₀.proposals L = (if on 0xD5 then low32 (s.a f w L) else get 0 f.c.proposals L)) ∧
    (f.c.super = true →
      (n = 0xD1 → ∃ t c, exec (.swrite w) s = .next t ∧
        s.Moved t f w { f.c with trapCause := x.setWidth 8 } c (addPc f.pc 12)) ∧
      (n = 0xD2 → ∃ t c, exec (.swrite w) s = .next t ∧
        s.Moved t f w { f.c with trapPc := if wide then x else pair (high32 f.c.trapPc) (low32 x) } c (addPc f.pc 12)) ∧
      (n = 0xD7 → ∃ t c, exec (.swrite w) s = .next t ∧
        (s.mapCtx f.asid (fun k => { k with budget := low32 x })).Moved t f w f.c c (addPc f.pc 12)) ∧
      (n = 0xD8 → ∃ t c, exec (.swrite w) s = .next t ∧
        (s.mapCtx f.asid (fun k => { k with poisonCount := low32 x })).Moved t f w f.c c (addPc f.pc 12)) ∧
      (n = 0xDD → ∃ t c, exec (.swrite w) s = .next t ∧
        (s.mapCtx f.asid (fun k => { k with ragged := low32 x })).Moved t f w f.c c (addPc f.pc 12)))

/-- R211, R328: SWRITE `.ctl` in supervisor state writes a register of the context that a supervisor may write, where the
value is within the limits of its row, and nothing else; the register then reads as written, and every other as before. It traps
ILLEGAL_OPERAND where the register is not one that a supervisor may write or the value is beyond its limits. R308: a write of a
queue's tail is held until what the course and its core have written is performed at .sys. That a write of 64 bits leaves bits [31:0]
in a register of 32, and one of 32 bits the upper half of a register of 64, is the model's reading (log 62). -/
def Obligations.ControlWrite : Prop :=
  (∀ (w : Fields) (s : State) (f : Frag) (u : State), s.Ready w f → f.c.super = true →
    s.writeCtl f.asid (w.imm.toNat % 4096) (tyWide w.ty) (s.src f w w.ty f.low w.a) = some u →
    (isTail (w.imm.toNat % 4096) = true → s.releasable f.core f.c.stamp 5 = true) →
      ∃ t c, exec (.swriteCtl w) s = .next t ∧ u.Moved t f w f.c c (addPc f.pc 12)) ∧
  (∀ (w : Fields) (s : State) (f : Frag), s.Ready w f → f.c.super = true →
    let i := w.imm.toNat % 4096
    let u := s.writeCtl f.asid i (tyWide w.ty) (s.src f w w.ty f.low w.a)
    (u = none → exec (.swriteCtl w) s = .next (s.takeTrap f.core f.slot f.entry { cause := .illegalOperand })) ∧
    (u ≠ none → 0x118 ≤ i → i ≤ 0x11F → s.releasable f.core f.c.stamp 5 = false → exec (.swriteCtl w) s = .next (s.hold f))) ∧
  (∀ (s : State) (asid i : Nat) (wide all : Bool) (v : W64), ctlInfo i = some (.sv, wide) →
    let x := if !wide then (low32 v).setWidth 64 else if all then v else pair (high32 ((s.ctx asid).ctl i)) (low32 v)
    (s.writeCtl asid i all v = none ↔ ctlOk i x.toNat = false)) ∧
  (∀ (s : State) (asid i : Nat) (all : Bool) (v : W64), (∀ wide, ctlInfo i ≠ some (.sv, wide)) → s.writeCtl asid i all v = none) ∧
  (∀ (s u : State) (asid i j : Nat) (wide : Bool) (v : W64), ctlInfo i = some (.sv, wide) →
    s.writeCtl asid i true v = some u →
      (u.ctx asid).ctl i = (if wide then v else (low32 v).setWidth 64) ∧
      (j ≠ i → (u.ctx asid).ctl j = (s.ctx asid).ctl j) ∧ (∀ b, b ≠ asid → u.ctx b = s.ctx b))

/-- R92, R211, R213 to R215: outside supervisor state the privileged words trap PERMISSION, and nothing of their effect
happens: SREAD and SWRITE `.ctl`, SWRITE of a supervisor's special register, RET `.trap`, CAPTURE, RESTORE and TLBINV. A fragment with
a request of its own that stands was in supervisor state when it issued, so none stands here. -/
def Obligations.Privilege : Prop :=
  ∀ (w : Fields) (s : State) (f : Frag), s.Ready w f → f.c.super = false →
    (∀ r ∈ s.captures, r.who ≠ some { core := f.core, slot := f.slot, stamp := f.c.stamp, entry := f.entry }) →
    (∀ r ∈ s.restores, r.who ≠ some { core := f.core, slot := f.slot, stamp := f.c.stamp, entry := f.entry }) →
    let traps (i : Instr) := exec i s = .next (s.takeTrap f.core f.slot f.entry { cause := .permission })
    traps (.sreadCtl w) ∧ traps (.swriteCtl w) ∧ traps (.retTrap w) ∧ traps (.capture w) ∧ traps (.restore w) ∧
    traps (.tlbinvPage w) ∧ traps (.tlbinvRange w) ∧ traps (.tlbinvAll w) ∧
    (w.d = .code 0xD1 ∨ w.d = .code 0xD2 ∨ w.d = .code 0xD7 ∨ w.d = .code 0xD8 ∨ w.d = .code 0xDD → traps (.swrite w))

/-! ### Proposals -/

/-- R204, R207, R208: PROP opens a proposal in each executing lane: the bank takes v96 to v111. ACCEPT decides it:
accepted values go to v, both counters move, the proposal is closed; PDROP closes it and changes nothing else. R207: a
NaN and a log ratio of −∞ never accept; with any other ratio u = 0 accepts, and a ratio of zero or more accepts every u
of [0, 1]; a negative ratio accepts exactly u ≤ 2^lr, as real numbers. A second PROP, and ACCEPT in a lane without an open proposal,
trap PROPOSAL_MISUSE; a u that is no NaN and lies outside [0, 1] traps ILLEGAL_OPERAND, −0 counting as +0; ACCEPT and PDROP are held
while an earlier result that goes to a shadow register is on its way. -/
def Obligations.Proposals : Prop :=
  (
    ∀ (w : Fields) (s : State) (f : Frag), s.Ready w f → w.hints.uniform = false →
      let F := fmtOf w.ty
      let lr (L : Nat) : Fp := F.decode (s.a f w L)
      let u (L : Nat) : Fp := F.decode (s.b f w L)
      let on (L : Nat) : Bool := f.exec.getLsbD L
      (f.exec &&& f.c.propOpen = 0 → ∃ t c c₀, exec (.prop w) s = .next t ∧ s.Moved t f w c₀ c (addPc f.pc 12) ∧
        c₀ = { f.c with y := c₀.y, propMask := c₀.propMask, propOpen := f.c.propOpen ||| f.exec } ∧
        ∀ L, L < 32 → get 0 c₀.propMask L = (if on L then 0 else get 0 f.c.propMask L) ∧
          ∀ k < 16, c₀.readY k L = if on L then f.c.readV (96 + k) L else f.c.readY k L) ∧
      (f.exec &&& f.c.propOpen ≠ 0 →
        exec (.prop w) s = .next (s.takeTrap f.core f.slot f.entry { cause := .proposalMisuse })) ∧
      (s.shadowsPending f.c.stamp = true → exec (.accept w) s = .next (s.hold f) ∧ exec (.pdrop w) s = .next (s.hold f)) ∧
      (s.shadowsPending f.c.stamp = false → f.exec &&& ~~~ f.c.propOpen ≠ 0 →
        exec (.accept w) s = .next (s.takeTrap f.core f.slot f.entry { cause := .proposalMisuse })) ∧
      (s.shadowsPending f.c.stamp = false → f.exec &&& ~~~ f.c.propOpen = 0 → (∃ L ∈ lanesOf f.exec, inUnit (u L) = false) →
        exec (.accept w) s = .next (s.takeTrap f.core f.slot f.entry { cause := .illegalOperand })) ∧
      (s.shadowsPending f.c.stamp = false → f.exec &&& ~~~ f.c.propOpen = 0 → (∀ L ∈ lanesOf f.exec, inUnit (u L) = true) →
        ∃ t c c₀, exec (.accept w) s = .next t ∧ s.Moved t f w c₀ c (addPc f.pc 12) ∧
          c₀ = { f.c with v := c₀.v, p := c₀.p, flags := c₀.flags, accepts := c₀.accepts, proposals := c₀.proposals,
                          propMask := c₀.propMask, propOpen := f.c.propOpen &&& ~~~ f.exec } ∧
          (∀ n, n ≠ predD w → c₀.readP n = f.c.readP n) ∧
          ∀ L, L < 32 →
            let yes := accepts (lr L) (u L)
            (c₀.readP (predD w)).getLsbD L =
              (if predD w ≠ 0 ∧ on L = true then yes else (f.c.readP (predD w)).getLsbD L) ∧
            get 0 c₀.propMask L = (if on L then 0 else get 0 f.c.propMask L) ∧
            get 0 c₀.proposals L = get 0 f.c.proposals L + (if on L then 1 else 0) ∧
            get 0 c₀.accepts L = get 0 f.c.accepts L + (if on L && yes then 1 else 0) ∧
            c₀.readFlags L = f.c.readFlags L ||| Flags.when (on L && ((lr L).isNan || (u L).isNan)) Flags.invalid ∧
            ∀ n < 128, c₀.readV n L =
              if on L = true ∧ yes = true ∧ 96 ≤ n ∧ n < 112 ∧ (get 0 f.c.propMask L).getLsbD (n - 96) = true
              then f.c.readY (n - 96) L else f.c.readV n L) ∧
      (s.shadowsPending f.c.stamp = false → ∃ t c c₀, exec (.pdrop w) s = .next t ∧ s.Moved t f w c₀ c (addPc f.pc 12) ∧
        c₀ = { f.c with propMask := c₀.propMask, propOpen := f.c.propOpen &&& ~~~ f.exec } ∧
        ∀ L, L < 32 → get 0 c₀.propMask L = if on L then 0 else get 0 f.c.propMask L)) ∧
  (
    ∀ (t : Ty) (x y : W64), t = .f32 ∨ t = .f64 →
      let F := fmtOf t
      let lr := F.decode x
      let u := F.decode y
      (lr.isNan = true ∨ u.isNan = true → accepts lr u = false) ∧
      (∀ n m e, u = .fin n m e →
        (m = 0 → (∃ a b c, lr = .fin a b c) → accepts lr u = true) ∧ (lr = .inf true → accepts lr u = false) ∧
        (lr = .inf false → accepts lr u = true) ∧ (∀ a b c, lr = .fin a b c → a = false → accepts lr u = true) ∧
        (∀ b c, lr = .fin true b c → 0 ≤ u.val → u.val ≤ 1 → (accepts lr u = true ↔ (u.val : ℝ) ≤ (2 : ℝ) ^ (lr.val : ℝ)))) ∧
      (inUnit u = true ↔ u.isNan = true ∨ ((∃ n m e, u = .fin n m e) ∧ 0 ≤ u.val ∧ u.val ≤ 1)))


/-! ### Control -/

/-- R95, R97, R98: NOP and YIELD only go on; PHASE selects a variant of the launch and goes on at its entry; TOKPASS of the
holder of the commit token passes it, once every write of the course to a shared region has been performed: TOKEN of its course is cleared, and
the token goes to the smallest identifier above it that has not ended, or wraps to the smallest of all; it waits there for a course
whose team is not resident yet. TOKPASS of any other course only goes on. -/
def Obligations.PlainControl : Prop :=
  ∀ (w : Fields) (s : State) (f : Frag), s.Ready w f →
    let next := addPc f.pc 12
    let vs := (s.grid f.c.grid).variants
    let size := (lanesOf f.exec).foldl (fun m L => max m (s.aWord f w L)) 0
    (∃ t c, exec (.nop w) s = .next t ∧ s.Moved t f w f.c c next) ∧
    (∃ t c, exec (.yield w) s = .next t ∧ s.Moved t f w f.c c next ∧ c.yieldAt = some s.clock) ∧
    (f.exec = f.active → vs = [] → ∃ t c, exec (.phase w) s = .next t ∧ s.Moved t f w { f.c with phase := 0 } c next) ∧
    (f.exec = f.active → vs ≠ [] → ∃ t c i, exec (.phase w) s = .next t ∧ i < vs.length ∧
      s.Moved t f w { f.c with phase := BitVec.ofNat 32 i } c
        (BitVec.ofNat 64 (((s.grid f.c.grid).entryPc + (vs.getD i (0, 0)).2) % 2 ^ 57)) ∧
      ((∃ v ∈ vs, size ≤ v.1) → size ≤ (vs.getD i (0, 0)).1 ∧ ∀ j < vs.length, size ≤ (vs.getD j (0, 0)).1 →
        (vs.getD i (0, 0)).1 < (vs.getD j (0, 0)).1 ∨ ((vs.getD i (0, 0)).1 = (vs.getD j (0, 0)).1 ∧ i ≤ j)) ∧
      ((∀ v ∈ vs, v.1 < size) → ∀ j < vs.length,
        (vs.getD j (0, 0)).1 < (vs.getD i (0, 0)).1 ∨ ((vs.getD i (0, 0)).1 = (vs.getD j (0, 0)).1 ∧ i ≤ j))) ∧
    ((f.c.det && f.token) = false → ∃ t c, exec (.tokpass w) s = .next t ∧ s.Moved t f w f.c c next) ∧
    ((f.c.det && f.token) = true → s.sharedPending f.c.stamp = true → exec (.tokpass w) s = .next (s.hold f)) ∧
    (∀ h, (f.c.det && f.token) = true → s.sharedPending f.c.stamp = false → (s.grid f.c.grid).token = some h →
      ∃ u t c c₀, exec (.tokpass w) s = .next t ∧ s.Passed u f.c.grid h ∧ u.course? f.core f.slot = some c₀ ∧ u.Moved t f w c₀ c next)

/-- R89, R90: BRA and BRX. Lanes that agree on one address go on there together; lanes that do not part at the
reconvergence address of the word, or trap ILLEGAL_CONVERGENCE where it names none. BRX checks its targets first. -/
def Obligations.Branches : Prop :=
  ∀ (w : Fields) (s : State) (f : Frag), s.Ready w f →
    let roff := off16 w.imm 16
    let goes (i : Instr) (addr : Nat → W64) :=
      (∀ p, (∀ L ∈ lanesOf f.active, addr L = p) → ∃ t c, exec i s = .next t ∧ s.Moved t f w f.c c p) ∧
      ((∃ K ∈ lanesOf f.active, ∃ L ∈ lanesOf f.active, addr K ≠ addr L) →
        (roff ≠ 0 → ∃ t c, exec i s = .next t ∧ s.Parted t f w addr (addPc f.pc roff) c) ∧
        (roff = 0 → exec i s = .next (s.takeTrap f.core f.slot f.entry { cause := .illegalConvergence })))
    let a (L : Nat) : W64 := s.src f w .n64 L w.a
    goes (.bra w) (fun L => if f.exec.getLsbD L then addPc f.pc (off16 w.imm 0) else addPc f.pc 12) ∧
    ((∀ L ∈ lanesOf f.exec, (a L).toNat < 2 ^ 57 ∧ (a L).toNat % 4 = 0) →
      goes (.brx w) (fun L => if f.exec.getLsbD L then a L else addPc f.pc 12)) ∧
    ((∃ L ∈ lanesOf f.exec, 2 ^ 57 ≤ (a L).toNat) →
      exec (.brx w) s = .next (s.takeTrap f.core f.slot f.entry { cause := .illegalOperand })) ∧
    (∀ L ∈ lanesOf f.exec, (∀ K ∈ lanesOf f.exec, (a K).toNat < 2 ^ 57) → (a L).toNat % 4 ≠ 0 →
      (∀ K ∈ lanesOf f.exec, K < L → (a K).toNat % 4 = 0) →
      exec (.brx w) s = .next (s.takeTrap f.core f.slot f.entry
        { cause := .misaligned, site := some { va := (a L).toNat, lane := L } }))

/-- R91, R92: CALL and CALL `.ind` write the return address to D and jump, RET jumps; each for a whole fragment that agrees
on its target, and it traps ILLEGAL_CONVERGENCE when an active lane does not execute it. -/
def Obligations.CallAndReturn : Prop :=
  ∀ (w : Fields) (s : State) (f : Frag), s.Ready w f →
    let a (L : Nat) : W64 := s.src f w .n64 L w.a
    let link : Nat → W64 × Flags := fun _ => (addPc f.pc 12, Flags.none)
    (f.exec = f.active → destOk w = true → ∃ t c, exec (.call w) s = .next t ∧
      s.Wrote t f w true link c (addPc f.pc ((w.imm.signExtend 64) <<< 2))) ∧
    (∀ p : W64, f.exec = f.active → p.toNat < 2 ^ 57 → p.toNat % 4 = 0 → (∀ L ∈ lanesOf f.exec, a L = p) →
      (destOk w = true → ∃ t c, exec (.callInd w) s = .next t ∧ s.Wrote t f w true link c p) ∧
      ∃ t c, exec (.ret w) s = .next t ∧ s.Moved t f w f.c c p) ∧
    (f.exec ≠ f.active → ∀ i ∈ [Instr.call w, .callInd w, .ret w, .phase w],
      exec i s = .next (s.takeTrap f.core f.slot f.entry { cause := .illegalConvergence }))

/-- R93, R223: EXIT of some of a course's lanes ends them, and the other lanes of the fragment go on after it; EXIT of the
last lanes ends the course, and of the last course its team. R98, R320: a holder of the commit token that ends its course waits
first until every write of the course to a shared region has been performed, and then passes the token on as TOKPASS does; the
identifier of a course that has ended is skipped from then on. -/
def Obligations.ExitEndsLanes : Prop :=
  ∀ (w : Fields) (s : State) (f : Frag), s.Ready w f → (f.c.entries.map (·.1)).Nodup →
    let last := f.c.liveLanes &&& ~~~ f.exec = 0
    let mates := (s.team f.c.team).slots.filter (fun k => k != f.slot)
    let grid := s.grid f.c.grid
    let id := (s.team f.c.team).linear * 16 + f.c.index
    (f.c.det = false ∨ f.token = false ∨ ¬ last ∨ s.sharedPending f.c.stamp = false →
      ∃ t, exec (.exit w) s = .next t ∧ t.mem = s.mem ∧
        (last → t.course? f.core f.slot = none ∧
          (mates = [] → lookup? t.teams f.c.team = none) ∧ (mates ≠ [] → (t.team f.c.team).slots = mates)) ∧
        (last → grid.det = false → t.grids = s.grids ∧ ∀ k j, k ≠ f.core ∨ j ≠ f.slot → t.course? k j = s.course? k j) ∧
        (last → grid.det = true →
          let now := t.grid f.c.grid
          now = { grid with endedIds := id :: grid.endedIds, token := now.token } ∧
          (grid.token ≠ some id → now.token = grid.token) ∧
          (grid.token = some id → f.c.index < 16 → f.c.index < grid.courses → (s.team f.c.team).linear < grid.teams →
            now.Next id now.token) ∧
          ∀ k j, k ≠ f.core ∨ j ≠ f.slot → t.course? k j = (s.course? k j).map (fun d =>
            let gets := decide (grid.token = some id) && s.runs k && now.token.bind (s.findCourse f.c.grid) == some (k, j)
            { d with token := d.token || gets })) ∧
        (¬ last → s.Beside t f ∧ ∃ c, t.course? f.core f.slot = some c ∧ c.liveLanes = f.c.liveLanes &&& ~~~ f.exec ∧
          c = { f.c with entries := c.entries, frames := c.frames, propOpen := f.c.propOpen &&& ~~~ f.exec, token := f.token,
                         counts := c.counts, nextIssue := c.nextIssue, yieldAt := c.yieldAt, pendingAt := c.pendingAt,
                         replays := c.replays } ∧
          (f.exec ≠ f.active → (get {} c.entries f.entry).mask = f.active &&& ~~~ f.exec ∧
            (get {} c.entries f.entry).pc = addPc f.pc 12))) ∧
    (f.c.det = true → f.token = true → last → s.sharedPending f.c.stamp = true → exec (.exit w) s = .next (s.hold f))

/-! ### Exceptions -/

/-- R230, R232, R328: taking a trap. A course outside supervisor state, of a context with a handler, and with nothing
on its way, enters the handler at once: %trap_cause and %trap_pc are written, SUPER is set, the fragment is saved and
goes on at HANDLER with its mask; the causes that name an address also write TRAPVA and TRAPINFO. No register,
predicate or flag changes, and no memory. R230, R233, R234: a trap in supervisor state, or in a context without a
handler, kills the team: none of its courses is left on its core. R94, R231: TRAP and BKPT trap with their causes. -/
def Obligations.TrapTaken : Prop :=
  (
    ∀ (s : State) (core slot entry : Nat) (c : Course) (e : Entry) (x : Trap), s.course? core slot = some c →
      lookup? c.entries entry = some e → c.super = false → x.walkPoison = false →
      (s.ctx (s.grid c.grid).asid).handler ≠ 0 → s.outstanding c.stamp = false →
      let t := s.takeTrap core slot entry x
      t.mem = s.mem ∧ ∃ d, t.course? core slot = some d ∧
        d = { c with trapCause := x.cause.code, trapPc := e.pc, super := true, trapWait := none, trapVa := d.trapVa,
                     saved := some { entry, mask := e.mask, pc := e.pc, frames := (c.framesOf entry).length },
                     trapInfo := d.trapInfo, entries := d.entries } ∧
        (get {} d.entries entry).pc = addPc (s.ctx (s.grid c.grid).asid).handler 0 ∧ (get {} d.entries entry).mask = e.mask ∧
        (∀ n, n ≠ entry → get {} d.entries n = get {} c.entries n) ∧
        (∀ a, x.site = some a → x.cause ∈ [Cause.misaligned, .pageFault, .permission, .poison, .scopeUnreachable] →
          d.trapVa = BitVec.ofNat 64 a.va ∧
          d.trapInfo.toNat = a.lane % 32 + 32 * a.fetch.toNat + 64 * a.write.toNat + 128 * a.cow.toNat) ∧
        (x.cause ∉ [Cause.misaligned, .pageFault, .permission, .poison, .scopeUnreachable] →
          d.trapVa = c.trapVa ∧ d.trapInfo = c.trapInfo)) ∧
  (
    ∀ (s : State) (core slot entry : Nat) (c : Course) (team : Team) (x : Trap), s.course? core slot = some c →
      lookup? s.teams c.team = some team → team.core = core → slot ∈ team.slots →
      c.super = true ∨ (s.ctx (s.grid c.grid).asid).handler = 0 →
        (s.takeTrap core slot entry x).course? core slot = none ∧
        lookup? (s.takeTrap core slot entry x).teams c.team = none) ∧
  (
    ∀ (w : Fields) (s : State) (f : Frag), s.Ready w f →
      exec (.trap w) s = .next (s.takeTrap f.core f.slot f.entry { cause := .software }) ∧
      exec (.bkpt w) s = .next (s.takeTrap f.core f.slot f.entry { cause := .breakpoint }))

/-- R92, R231, R233: RET `.trap` by a fragment that holds every live lane that the handler's entry saved leaves supervisor
state: the saved fragment goes on with those lanes, after a TRAP or BKPT, and at the trapping instruction after any other
cause; what splits of the handler have left inside it is taken back. Where a saved lane lives outside the fragment, RET
`.trap` traps ILLEGAL_CONVERGENCE. -/
def Obligations.ReturnFromTrap : Prop :=
  ∀ (w : Fields) (s : State) (f : Frag) (v : Saved), s.Ready w f → f.c.super = true → f.c.saved = some v →
    (lookup? f.c.entries v.entry).isSome = true →
    let lanes := v.mask &&& f.c.liveLanes
    let inside := f.c.live.filter (f.c.inside v.entry)
    let plain (e : Entry) : Entry := { e with age := 0, passed := 0 }
    (lanes &&& ~~~ f.active = 0 → ∃ t c, exec (.retTrap w) s = .next t ∧ s.Beside t f ∧ t.course? f.core f.slot = some c ∧
      c = { f.c with super := false, saved := none, entries := c.entries, frames := c.frames, counts := c.counts,
                     nextIssue := c.nextIssue, yieldAt := c.yieldAt, pendingAt := c.pendingAt, replays := c.replays } ∧
      (get {} c.entries v.entry).mask = lanes ∧
      (get {} c.entries v.entry).pc =
        addPc f.c.trapPc (if f.c.trapCause = 0x20 ∨ f.c.trapCause = 0x21 then 12 else 0) ∧
      (∀ p ∈ inside, (get {} c.entries p.1).valid = false) ∧
      (∀ n, n ≠ v.entry → (∀ p ∈ inside, p.1 ≠ n) → plain (get {} c.entries n) = plain (get {} f.c.entries n)) ∧
      (inside = [] → (f.c.framesOf v.entry).length ≤ v.frames → c.frames = f.c.frames)) ∧
    (lanes &&& ~~~ f.active ≠ 0 →
      exec (.retTrap w) s = .next (s.takeTrap f.core f.slot f.entry { cause := .illegalConvergence }))

/-- R96, R309: LAUNCH, once what its course and core have written is performed at .h5 (the model's scope 3) and held until then, reads
one packet for each executing lane, in lane order, and appends it to its child queue; a packet read from a poisoned line counts in
%poison_count and raises POISONED in its lane (R132). A child queue holds 64 packets: where the first lane's is full the word waits.
A level beyond the tenth traps NESTING_LIMIT, a packet off 64 bytes MISALIGNED. -/
def Obligations.LaunchSubmits : Prop :=
  ∀ (w : Fields) (s : State) (f : Frag) (page : Nat → Page), s.Ready w f →
    let a (L : Nat) : W64 := s.src f w .n64 L w.a
    let lanes := lanesOf f.exec
    let depth := (s.grid f.c.grid).depth
    let packet (L : Nat) : BitVec 512 := BitVec.ofNat 512 (s.readNat (page L).pa 64)
    let waiting (q : Nat) := ((s.ctx f.asid).children.filter (fun k => k.queue == q && k.status.isNone)).length
    let bad := (lanes.filter (fun L => s.anyPoisoned (page L).pa 64)).length
    (10 ≤ depth → exec (.launch w) s = .next (s.takeTrap f.core f.slot f.entry { cause := .nestingLimit })) ∧
    (∀ L ∈ lanes, depth < 10 → (a L).toNat % 64 ≠ 0 → (∀ K ∈ lanes, K < L → (a K).toNat % 64 = 0) →
      exec (.launch w) s = .next (s.takeTrap f.core f.slot f.entry
        { cause := .misaligned, site := some { va := (a L).toNat, lane := L } })) ∧
    (depth < 10 → (∀ L ∈ lanes, (a L).toNat % 64 = 0) → s.releasable f.core f.c.stamp 3 = false →
      exec (.launch w) s = .next (s.hold f)) ∧
    (depth < 10 → (get {} f.c.entries f.entry).launched = 0 → s.releasable f.core f.c.stamp 3 = true →
      (∀ L ∈ lanes, (a L).toNat < 2 ^ 57 ∧ (a L).toNat % 64 = 0 ∧
        s.translate f.core f.asid (a L).toNat = .page (page L) ∧ (page L).read = true ∧
        ((homeOf (page L).pa).inScope 3 || homeOf (page L).pa == .host) = true) →
      (64 ≤ waiting (field (packet f.low) 86 3) → ∃ t, exec (.launch w) s = .next t ∧ t.mem = s.mem ∧
        (t.ctx f.asid).children = (s.ctx f.asid).children ∧ ∃ c, t.course? f.core f.slot = some c ∧
          (get {} c.entries f.entry).pc = f.pc ∧ (get {} c.entries f.entry).held = true) ∧
      ((∀ q, waiting q + laneCount f.exec ≤ 64) →
      ∃ t c, exec (.launch w) s = .next t ∧
        (s.mapCtx f.asid (fun k => { k with
          children := k.children ++ lanes.map (fun L =>
            { queue := field (packet L) 86 3, packet := packet L, parent := f.c.grid, op := s.stamp, core := f.core,
              slot := f.slot, stamp := f.c.stamp, lane := L, reg := (match w.d with | .v n => n.val | _ => 0),
              file := if w.hints.sym then .y else .v })
          poisonCount := BitVec.ofNat 32 (min (k.poisonCount.toNat + bad) (2 ^ 32 - 1)) })).Moved t f w
          { f.c with
            flags := c.flags
            entries := adjust f.c.entries f.entry (fun e => { e with launched := 0, launchOp := s.stamp }) } c (addPc f.pc 12) true ∧
        ∀ L, L < 32 → c.readFlags L = f.c.readFlags L |||
          (if f.exec.getLsbD L ∧ s.anyPoisoned (page L).pa 64 = true then Flags.poisoned else 0)))

/-! ### Memory words -/

/-- R130, R131: the checks of a global access, in order over all lanes: an address of 57 bits or fewer, alignment, a page that
is found, a page that grants the access, and a home inside the scope. Offsets of a scratchpad or of private memory: alignment, then the
end of the area, which traps PERMISSION; a private access then makes the checks of its words' pages, each word at the place of R240. R136: a
course without the commit token is held where a lane names a shared-deterministic region. -/
def Obligations.AccessChecks : Prop :=
  ∀ (s : State) (core asid : Nat) (q : Ask) (ps : List Probe),
    let page (p : Probe) : Walk := s.translate core asid p.va.toNat
    let short := ∀ p ∈ ps, p.va.toNat < 2 ^ 57
    let even := ∀ p ∈ ps, p.va.toNat % q.size = 0
    let found := ∀ p ∈ ps, ∃ g, page p = .page g
    let grants := ∀ p ∈ ps, ∀ g, page p = .page g → (q.read = true → g.read = true) ∧ (q.write = true → g.write = true)
    let near := ∀ p ∈ ps, ∀ g, page p = .page g → ∀ n, q.scope = some n → (homeOf g.pa).inScope n = true
    let link := ∀ p ∈ ps, ∀ g l, page p = .page g → homeOf g.pa = .peer l → q.peers = true ∧ s.linkUp l = true
    let ends (c : Cause) := ∃ x : Trap, s.checkGlobal core asid q ps = .error (.trap x) ∧ x.cause = c
    (short → even → found → grants → near → link → ∃ gs, s.checkGlobal core asid q ps = .ok gs ∧
      ps.map page = gs.map Walk.page) ∧
    (¬ short → ends .illegalOperand) ∧ (short → ¬ even → ends .misaligned) ∧ (short → even → ¬ found → ends .pageFault) ∧
    (short → even → found → ¬ grants → ends .permission) ∧
    (short → even → found → grants → ¬ (near ∧ link) → ends .scopeUnreachable) ∧
    -- offsets
    (∀ limit, let within := ∀ p ∈ ps, p.va.toNat + q.size ≤ limit
      let out (c : Cause) := ∃ x : Trap, checkOffsets q limit ps = .error (.trap x) ∧ x.cause = c
      (even → within → checkOffsets q limit ps = .ok ()) ∧ (¬ even → out .misaligned) ∧
      (even → ¬ within → out .permission)) ∧
    -- private memory
    (∀ (w : Fields) (f : Frag) (n reg : Nat) (val : Nat → Nat → W64), q.scope = none → q.peers = true →
      let lanes : List Probe := (f.lanes w).map (fun L => { lane := L, va := s.src f w .n32 L w.a })
      let bytes := if tyWide w.ty then 4 else tyBytes w.ty
      let count := if tyWide w.ty then 2 * n else n
      let words : List (Nat × Nat × W64) := lanes.flatMap (fun p => (List.range count).map (fun i =>
        let o := p.va.toNat + i * bytes
        (p.lane, i, BitVec.ofNat 64 (f.c.cbase + (o / 4 * 32 + p.lane) * 4 + o % 4))))
      let xl (x : Nat × Nat × W64) : Walk := s.translate f.core f.asid x.2.2.toNat
      let out (c : Cause) := ∃ x : Trap, s.privateAccesses f w q n reg val = .error (.trap x) ∧ x.cause = c
      let aligned := ∀ p ∈ lanes, p.va.toNat % q.size = 0
      let within := ∀ p ∈ lanes, p.va.toNat + q.size ≤ f.c.psize
      let mapped := ∀ x ∈ words, ∃ g, xl x = .page g
      let granted := ∀ x ∈ words, ∀ g, xl x = .page g → (q.read = true → g.read = true) ∧ (q.write = true → g.write = true)
      let linked := ∀ x ∈ words, ∀ g l, xl x = .page g → homeOf g.pa = .peer l → s.linkUp l = true
      (¬ aligned → out .misaligned) ∧ (aligned → ¬ within → out .permission) ∧
      (aligned → within → ¬ mapped → out .pageFault) ∧ (aligned → within → mapped → ¬ granted → out .permission) ∧
      (aligned → within → mapped → granted → ¬ linked → out .scopeUnreachable) ∧
      (aligned → within → mapped → granted → linked → ∃ accs, s.privateAccesses f w q n reg val = .ok accs ∧
        accs.map (fun x => (x.lane, x.va, x.size, x.val, x.reg)) =
          words.map (fun x => (x.1, x.2.2.toNat, bytes, val x.1 x.2.1, reg + x.2.1)) ∧
        accs.map (fun x => some x.pa) = words.map (fun x => match xl x with | .page g => some g.pa | _ => none))) ∧
    -- the hold of a deterministic grid
    ∀ (f : Frag) (n : Nat), s.tokenHeld f n ps = true ↔ f.token = false ∧ f.c.det = true ∧
      ∃ p ∈ ps, ∃ r ∈ (s.grid f.c.grid).regions, p.va.toNat < r.1 + r.2 ∧ r.1 < p.va.toNat + n

/-- R134, R138, R140, R141: a load that passes its checks is on its way, with one element access for each element of each
lane; its registers change when its data returns. A check that fails traps instead, and first of all one for registers past v127, s63
or, under SYM, v111. Whether the neighbour refuses an access over a peer link is a free value, taken as the access leaves (log 6). -/
def Obligations.LoadsIssue : Prop :=
  ∀ (w : Fields) (s : State) (f : Frag), s.Ready w f →
    let n := 2 ^ (w.imm.toNat / 128 % 4)
    let per := if tyWide w.ty then 2 else 1
    let sem := w.imm.toNat / 8 % 4
    let scope := w.imm.toNat % 8
    let ord : Order := { acquire := sem == 2, scope, promoted := w.modx, policy := w.imm.toNat / 32 % 4,
                         class3 := sem != 0 }
    let q : Ask := { size := n * tyBytes w.ty, read := true, write := false, scope := if sem = 0 then none else some scope }
    let lanes (t : Ty) : List Probe := (f.lanes w).map (fun L => { lane := L, va := s.src f w t L w.a })
    let team := s.team f.c.team
    let traps (i : Instr) (x : Trap) := exec i s = .next (s.takeTrap f.core f.slot f.entry x)
    let area : Ask := { size := n * tyBytes w.ty, read := true, write := false }
    (fits w w.d true (n * per) = true ↔ (∀ k, w.d = .v k → k.val + n * per ≤ if w.hints.sym then 112 else 128) ∧
      ∀ k, w.d = .s k → k.val + n * per ≤ 64) ∧
    (fits w w.d true (n * per) = false → ∀ i ∈ [Instr.ld w, .ldu w, .lds w, .ldp w], traps i { cause := .illegalOperand }) ∧
    (∀ xs : List Access, (s.sendOut xs).2.map (fun x => { x with lost := false }) = xs.map (fun x => { x with lost := false }) ∧
      (xs.any Access.abroad = false → (s.sendOut xs).2 = xs)) ∧
    (fits w w.d true (n * per) = true →
    (∀ gs, s.checkGlobal f.core f.asid q (lanes .n64) = .ok gs →
      let accs := ((lanes .n64).zip gs).flatMap (fun x => elements w.ty n (destOf w).2 (f.flagLanes w x.1.lane) (fun _ => 0)
        x.1.lane x.1.va.toNat x.2.pa)
      (∃ t c, exec (.ld w) s = .next t ∧ s.Sent t f w (.load .global (destOf w).1 w.ty ord (s.sendOut accs).2) c) ∧
      (∃ t c, exec (.ldu w) s = .next t ∧ s.Sent t f w (.load .global (destOf w).1 w.ty ord (s.sendOut accs).2) c)) ∧
    (∀ x, s.checkGlobal f.core f.asid q (lanes .n64) = .error (.trap x) → traps (.ld w) x ∧ traps (.ldu w) x) ∧
    (∀ x, checkOffsets area team.size (lanes .n32) = .error (.trap x) → traps (.lds w) x) ∧
    (∀ x, s.privateAccesses f w area n (destOf w).2 (fun _ _ => 0) = .error (.trap x) → traps (.ldp w) x) ∧
    ((∀ p ∈ lanes .n32, p.va.toNat % q.size = 0 ∧ p.va.toNat + q.size ≤ team.size) →
      let accs := (lanes .n32).flatMap (fun p => elements w.ty n (destOf w).2 (laneBit p.lane) (fun _ => 0)
        p.lane p.va.toNat (team.base + p.va.toNat))
      ∃ t c, exec (.lds w) s = .next t ∧
        s.Sent t f w (.load .scratch (destOf w).1 w.ty { acquire := sem == 2 } accs) c) ∧
    (∀ accs, s.privateAccesses f w area n (destOf w).2 (fun _ _ => 0) = .ok accs → ∃ t c, exec (.ldp w) s = .next t ∧
      s.Sent t f w (.load .priv (destOf w).1 (if tyWide w.ty then .b32 else w.ty) {} (s.sendOut accs).2) c))

/-- R134, R139 to R141: a store that passes its checks is on its way with the values of its registers; memory changes when
it is performed. A check that fails traps instead, and first of all one for registers past v127 or s63. R136: ST is held where it names
a shared-deterministic region and its course has not the commit token. Whether the neighbour refuses a write over a peer link is a
free value (log 6). -/
def Obligations.StoresIssue : Prop :=
  ∀ (w : Fields) (s : State) (f : Frag), s.Ready w f →
    let n := 2 ^ (w.imm.toNat / 128 % 4)
    let per := if tyWide w.ty then 2 else 1
    let sem := w.imm.toNat / 8 % 4
    let scope := w.imm.toNat % 8
    let q : Ask := { size := n * tyBytes w.ty, read := false, write := true, scope := if sem = 0 then none else some scope }
    let lanes (t : Ty) : List Probe := (f.lanes w).map (fun L => { lane := L, va := s.src f w t L w.a })
    let team := s.team f.c.team
    let traps (i : Instr) (x : Trap) := exec i s = .next (s.takeTrap f.core f.slot f.entry x)
    let area : Ask := { size := n * tyBytes w.ty, read := false, write := true }
    (fits w w.b false (n * per) = true ↔ (∀ k, w.b = .v k → k.val + n * per ≤ 128) ∧ ∀ k, w.b = .s k → k.val + n * per ≤ 64) ∧
    (fits w w.b false (n * per) = false → ∀ i ∈ [Instr.st w, .sts w, .stp w], traps i { cause := .illegalOperand }) ∧
    (fits w w.b false (n * per) = true →
    (s.tokenHeld f q.size (lanes .n64) = true → exec (.st w) s = .next (s.hold f)) ∧
    (∀ x, s.tokenHeld f q.size (lanes .n64) = false → s.checkGlobal f.core f.asid q (lanes .n64) = .error (.trap x) →
      traps (.st w) x) ∧
    (∀ x, checkOffsets area team.size (lanes .n32) = .error (.trap x) → traps (.sts w) x) ∧
    (∀ x, s.privateAccesses f w area n 0 (s.valueWord f w) = .error (.trap x) → traps (.stp w) x) ∧
    (∀ gs, s.tokenHeld f q.size (lanes .n64) = false → s.checkGlobal f.core f.asid q (lanes .n64) = .ok gs →
      let accs := ((lanes .n64).zip gs).flatMap (fun x => elements w.ty n 0 (laneBit x.1.lane) (s.element f w x.1.lane w.b)
        x.1.lane x.1.va.toNat x.2.pa)
      ∃ t c, exec (.st w) s = .next t ∧
        s.Sent t f w (.store .global { release := sem == 2, scope, policy := w.imm.toNat / 32 % 4, class3 := sem != 0 }
          (s.sendOut accs).2 (wholeLines (s.sendOut accs).2)) c) ∧
    ((∀ p ∈ lanes .n32, p.va.toNat % q.size = 0 ∧ p.va.toNat + q.size ≤ team.size) →
      let accs := (lanes .n32).flatMap (fun p => elements w.ty n 0 (laneBit p.lane) (s.element f w p.lane w.b)
        p.lane p.va.toNat (team.base + p.va.toNat))
      ∃ t c, exec (.sts w) s = .next t ∧ s.Sent t f w (.store .scratch { release := sem == 2 } accs []) c) ∧
    (∀ accs, s.privateAccesses f w area n 0 (s.valueWord f w) = .ok accs →
      ∃ t c, exec (.stp w) s = .next t ∧ s.Sent t f w (.store .priv {} (s.sendOut accs).2 []) c))

/-- R143 to R145: ATOM and RED that pass their checks are on their way, one read-modify-write for each lane, in global memory
or in scratchpad. A check that fails traps instead. R136: in global memory they are held where they name a shared-deterministic region
and their course has not the commit token. Whether the neighbour refuses one over a peer link is a free value (log 6). -/
def Obligations.AtomicsIssue : Prop :=
  ∀ (w : Fields) (s : State) (f : Frag), s.Ready w f →
    let size := tyBytes w.ty
    let sem := w.imm.toNat / 8 % 4
    let scope := w.imm.toNat % 8
    let op := w.imm.toNat / 32 % 16
    let ord : Order := { acquire := sem % 2 == 1, release := decide (2 ≤ sem), scope, promoted := w.modx }
    let lanes (t : Ty) : List Probe := (f.lanes w).map (fun L => { lane := L, va := s.src f w t L w.a })
    let team := s.team f.c.team
    let acc (p : Probe) (pa : Nat) : Access :=
      { lane := p.lane, va := p.va.toNat, pa, size, val := s.b f w p.lane, cmp := f.old w w.ty p.lane, reg := (destOf w).2,
        who := laneBit p.lane }
    let sent (space : Space) (accs : List Access) :=
      (∃ t c, exec (.atom w) s = .next t ∧ s.Sent t f w (.rmw space (destOf w).1 op w.ty w.round true ord accs []) c) ∧
      (∃ t c, exec (.red w) s = .next t ∧ s.Sent t f w (.rmw space (destOf w).1 op w.ty w.round false ord accs []) c)
    let both (P : Instr → Prop) := P (.atom w) ∧ P (.red w)
    let traps (x : Trap) := both (fun i => exec i s = .next (s.takeTrap f.core f.slot f.entry x))
    let ask : Ask := { size, read := true, write := true, scope := some scope }
    (∀ x, w.imm.getLsbD 9 = true →
      checkOffsets { size, read := true, write := true } team.size (lanes .n32) = .error (.trap x) → traps x) ∧
    (w.imm.getLsbD 9 = false → s.tokenHeld f size (lanes .n64) = true → both (fun i => exec i s = .next (s.hold f))) ∧
    (∀ x, w.imm.getLsbD 9 = false → s.tokenHeld f size (lanes .n64) = false →
      s.checkGlobal f.core f.asid ask (lanes .n64) = .error (.trap x) → traps x) ∧
    (w.imm.getLsbD 9 = true → (∀ p ∈ lanes .n32, p.va.toNat % size = 0 ∧ p.va.toNat + size ≤ team.size) →
      sent .scratch ((lanes .n32).map (fun p => acc p (team.base + p.va.toNat)))) ∧
    (∀ gs, w.imm.getLsbD 9 = false → s.tokenHeld f size (lanes .n64) = false →
      s.checkGlobal f.core f.asid ask (lanes .n64) = .ok gs →
        sent .global (s.sendOut (((lanes .n64).zip gs).map (fun x => acc x.1 x.2.pa))).2)

/-- R142, R146: PREF changes no register and no byte of memory and never traps; FENCE waits while what it orders has not been
performed: the course's earlier reads, and but for an acquire fence its earlier writes and pool operations, with what its core's
store path holds beyond .h0; with `.promote` also what the store paths of other cores hold; and then it only goes on. -/
def Obligations.PrefetchAndFence : Prop :=
  ∀ (w : Fields) (s : State) (f : Frag), s.Ready w f →
    let acquires := w.imm.toNat / 8 % 4 = 1
    let reads (o : Op) : Bool := match o.kind with | .load .. | .rmw .. | .reply .. | .zload .. => true | _ => false
    let writes (o : Op) : Bool := match o.kind with | .store .. | .zstore .. | .zflush .. => true | _ => s.poolOpen o.id
    let awaited (o : Op) : Prop :=
      (o.done = false ∧ o.stamp = f.c.stamp ∧ (reads o = true ∨ (¬ acquires ∧ writes o = true))) ∨
      (o.done = false ∧ ¬ acquires ∧ w.imm.toNat % 8 ≠ 0 ∧ o.core = f.core ∧ o.inCore = true) ∨
      (o.done = false ∧ w.modx = true ∧ o.core ≠ f.core ∧ o.inCore = true)
    (∃ t c, exec (.pref w) s = .next t ∧ t.mem = s.mem ∧ t.poison = s.poison ∧ t.course? f.core f.slot = some c ∧
      f.c.Booked c f.entry (addPc f.pc 12)) ∧
    ((∀ o ∈ s.ops, ¬ awaited o) → ∃ t c, exec (.fence w) s = .next t ∧ s.Moved t f w f.c c (addPc f.pc 12)) ∧
    ((∃ o ∈ s.ops, awaited o) → exec (.fence w) s = .next (s.hold f))

/-! ### Barriers, queues, pools and waits -/

/-- R147 to R154: the barrier words act on one barrier of the team, and a phase completes when no arrival and no byte
is awaited. BARRIVE brings the flags of its executing lanes, as R150 gives them; R37 differs, and that reading is the model's
(log 89). BWAIT goes on once the phase that it names is past and is held while it is the current one. BINIT traps ILLEGAL_OPERAND for
counts out of range and BARRIER_MISUSE in the middle of a phase, BARRIVE BARRIER_MISUSE where no arrival is awaited, BEXPECT
BARRIER_EXPECT_OVERFLOW past 24 bits, and all but BINIT BARRIER_MISUSE on a barrier that has not been set up. R148, R154: the
phase-completion rule; that a barrier without BINIT completes none is the model's choice (log 104). -/
def Obligations.Barriers : Prop :=
  (
    ∀ (w : Fields) (s : State) (f : Frag), s.Ready w f →
      let n := w.imm.toNat % 16
      let b := (s.team f.c.team).barrier n
      let a := (s.src f w .n32 f.low w.a).toNat
      let p := (s.src f w .n32 f.low w.b).toNat
      -- the team with the barrier acted on, and the phase rule after it
      let acted (g : Barrier) : State := s.mapTeam f.c.team (fun t => t.act n (fun _ => g))
      let traps (i : Instr) (c : Cause) := exec i s = .next (s.takeTrap f.core f.slot f.entry { cause := c })
      let phase := (s.src f w .n32 f.low w.a).getLsbD 0
      let waits (x : BWait) : Prop := x.stamp = f.c.stamp ∧ x.entry = f.entry ∧ x.bar = n
      (¬ (1 ≤ a ∧ a ≤ 63 ∧ p < 2 ^ 19) → traps (.binit w) .illegalOperand) ∧
      (1 ≤ a → a ≤ 63 → p < 2 ^ 19 → b.expected ≠ 0 → b.pending ≠ b.expected ∨ b.bytes ≠ 0 →
        traps (.binit w) .barrierMisuse) ∧
      (b.expected ≠ 0 → b.pending = 0 → traps (.barrive w) .barrierMisuse) ∧
      (b.expected ≠ 0 → b.pending ≠ 0 → s.releasable f.core f.c.stamp 0 = false → exec (.barrive w) s = .next (s.hold f)) ∧
      (b.expected ≠ 0 → 2 ^ 24 ≤ b.bytes.toNat + a → traps (.bexpect w) .barrierExpectOverflow) ∧
      -- a fragment that comes to a phase that is still to complete waits for it, and one that waits is held until it has completed
      (b.expected ≠ 0 → b.phase = phase → (∀ x ∈ (s.team f.c.team).bwaits, ¬ waits x) →
        exec (.bwait w) s = .next ((({ s with stamp := s.stamp + 1 } : State).mapTeam f.c.team (fun t => { t with
          bwaits := t.bwaits ++ [{ bar := n, phase, stamp := f.c.stamp, entry := f.entry, ended := false }] })).wait f)) ∧
      (b.expected ≠ 0 → b.phase = phase → (∃ x ∈ (s.team f.c.team).bwaits, waits x) →
        (∀ x ∈ (s.team f.c.team).bwaits, waits x → x.ended = false) → exec (.bwait w) s = .next (s.hold f)) ∧
      (1 ≤ a → a ≤ 63 → p < 2 ^ 19 → b.expected = 0 ∨ (b.pending = b.expected ∧ b.bytes = 0) →
        let b' : Barrier := { b with expected := BitVec.ofNat 6 a, pending := BitVec.ofNat 6 a, bytes := 0, flags := 0,
                                     progress := BitVec.ofNat 19 p }
        ∃ t c, exec (.binit w) s = .next t ∧ (acted b').Moved t f w f.c c (addPc f.pc 12)) ∧
      (b.expected ≠ 0 → b.pending ≠ 0 → s.releasable f.core f.c.stamp 0 = true → destOk w = true →
        let b' : Barrier := { b with pending := b.pending - 1,
                                     flags := (lanesOf f.exec).foldl (fun x L => x ||| f.c.readFlags L) b.flags }
        ∃ t c, exec (.barrive w) s = .next t ∧
          (acted b').Wrote t f w false (fun _ => (if b.phase then 1 else 0, Flags.none)) c) ∧
      (b.expected ≠ 0 → b.bytes.toNat + a < 2 ^ 24 → ∃ t c, exec (.bexpect w) s = .next t ∧
        (acted { b with bytes := b.bytes + BitVec.ofNat 24 a }).Moved t f w f.c c (addPc f.pc 12)) ∧
      (b.expected ≠ 0 → destOk w = true → ∃ t c, exec (.bflags w) s = .next t ∧
        (if w.modx then acted { b with flags := 0 } else s).Wrote t f w false (fun _ => (b.flags.setWidth 64, Flags.none)) c) ∧
      (b.expected ≠ 0 → b.phase ≠ phase →
        (∀ x ∈ (s.team f.c.team).bwaits, x.stamp ≠ f.c.stamp ∨ x.entry ≠ f.entry) →
        ∃ t c, exec (.bwait w) s = .next t ∧ s.Moved t f w f.c c (addPc f.pc 12)) ∧
      (b.expected = 0 → ∀ i ∈ [Instr.barrive w, .bwait w, .bexpect w, .bflags w],
        exec i s = .next (s.takeTrap f.core f.slot f.entry { cause := .barrierMisuse }))) ∧
  (
    ∀ (t : Team) (n : Nat) (g : Barrier → Barrier),
      let b := g (t.barrier n)
      let b' := (t.act n g).barrier n
      (b.expected ≠ 0 ∧ b.pending = 0 ∧ b.bytes = 0 → b'.phase = !b.phase ∧ b'.pending = b.expected) ∧
      (¬ (b.expected ≠ 0 ∧ b.pending = 0 ∧ b.bytes = 0) → b' = b) ∧
      (∀ m, m ≠ n → (t.act n g).barrier m = t.barrier m) ∧
      ∀ x ∈ (t.act n g).bwaits, x.bar = n → x.phase ≠ b'.phase → x.ended = true)

/-- R155 to R157, R80: a push or pop of a local queue that is next in its line and can be served moves one item for each
executing lane, in lane order: a push from the registers to the ring; a pop from the ring to its way to D, which it reaches when
its data arrives. No other byte of a scratchpad changes but those of HEAD, TAIL and ALLOW. A queue without its record's
conditions (R156) traps QUEUE_MISUSE, as does a push that would pass CAP; a push beyond ALLOW, a pop beyond COUNT, and either behind
others of its kind are held in the order of waiting. Both are held until the course's earlier scratchpad writes are performed, and a
push until what its course has written is seen in its core (R272). -/
def Obligations.LocalQueues : Prop :=
  ∀ (w : Fields) (s : State) (f : Frag), s.Ready w f → w.hints.uniform = false →
    let t := s.team f.c.team
    let k := w.imm.toNat % 16
    let q := s.queue t k
    let n := laneCount f.exec
    let bytes := if q.isz = 1 then 8 else 4
    let record := t.base + 16 * k + 8
    let at_ (i : Nat) : Nat := t.base + q.base + bytes * (i % 65536 % q.cap)
    let served (u : State) : Prop := ∀ L ∈ lanesOf f.exec, ∀ j, (lanesOf f.exec)[j]? = some L →
      u.spadNat t.core (at_ (q.tail + j)) bytes = (s.a f w L).toNat % 2 ^ (8 * bytes)
    -- the scratchpads but for some bytes of the team's core
    let spared (u : State) (p : Nat → Prop) : Prop := ∀ c a, (c ≠ t.core ∨ ¬ p a) →
      get 0 (u.core c).scratch a = get 0 (s.core c).scratch a
    let ends (u : State) (head tail allow : Nat) : Prop :=
      (u.queue t k).head = head % 65536 ∧ (u.queue t k).tail = tail % 65536 ∧ (u.queue t k).allow = allow % 65536
    let inRecord (a : Nat) : Prop := record ≤ a ∧ a < record + 6
    let misuse (i : Instr) := exec i s = .next (s.takeTrap f.core f.slot f.entry { cause := .queueMisuse })
    let mine (x : QWait) : Prop := x.stamp = f.c.stamp ∧ x.entry = f.entry
    -- held, in the line of its queue
    let waits (i : Instr) (push : Bool) :=
      ((∃ x ∈ t.qwaits, mine x) → exec i s = .next (s.hold f)) ∧
      ((∀ x ∈ t.qwaits, ¬ mine x) → exec i s = .next ((({ s with stamp := s.stamp + 1 } : State).mapTeam f.c.team (fun t => { t with
        qwaits := t.qwaits ++ [{ queue := k, push, slot := f.slot, stamp := f.c.stamp, entry := f.entry, word := w }] })).wait f))
    (queueOk w t q n = true ↔ 256 ≤ t.size ∧ q.cap ≠ 0 ∧ (q.isz = 1 ↔ tyWide w.ty = true) ∧ q.base % bytes = 0 ∧ 256 ≤ q.base ∧
      q.base + bytes * q.cap ≤ t.size ∧ n ≤ q.cap) ∧
    (∀ push, t.qFirst k push f.c.stamp f.entry = true ↔
      let line := t.qwaits.filter (fun x => x.queue == k)
      (∃ x, line.head? = some x ∧ mine x) ∨ ∀ x ∈ line, ¬ mine x ∧ x.push ≠ push) ∧
    (s.scratchSettled f.c.stamp = false → exec (.qpush w) s = .next (s.hold f) ∧ exec (.qpop w) s = .next (s.hold f)) ∧
    (s.releasable f.core f.c.stamp 0 = false → exec (.qpush w) s = .next (s.hold f)) ∧
    (s.scratchSettled f.c.stamp = true →
    (queueOk w t q n = true → s.releasable f.core f.c.stamp 0 = true →
      (t.qFirst k true f.c.stamp f.entry = false ∨ q.allow < n → waits (.qpush w) true) ∧
      (t.qFirst k true f.c.stamp f.entry = true → n ≤ q.allow → q.cap < q.count + n → misuse (.qpush w))) ∧
    (queueOk w t q n = true → t.qFirst k false f.c.stamp f.entry = false ∨ q.count < n → waits (.qpop w) false) ∧
    (queueOk w t q n = false → exec (.qpop w) s = .next (s.takeTrap f.core f.slot f.entry { cause := .queueMisuse }) ∧
      (s.releasable f.core f.c.stamp 0 = true →
        exec (.qpush w) s = .next (s.takeTrap f.core f.slot f.entry { cause := .queueMisuse }))) ∧
    (queueOk w t q n = true → t.qFirst k true f.c.stamp f.entry = true → n ≤ q.allow → q.count + n ≤ q.cap →
      s.releasable f.core f.c.stamp 0 = true →
      ∃ u c, exec (.qpush w) s = .next u ∧ u.mem = s.mem ∧ (q.tail + n ≤ 65536 → served u) ∧
        u.course? f.core f.slot = some c ∧ f.c.Booked c f.entry (addPc f.pc 12) ∧
        ends u q.head (q.tail + n) (q.allow - n) ∧
        spared u (fun a => inRecord a ∨ ∃ j < n, at_ (q.tail + j) ≤ a ∧ a < at_ (q.tail + j) + bytes)) ∧
    (queueOk w t q n = true → t.qFirst k false f.c.stamp f.entry = true → n ≤ q.count →
      ∃ u c vals, exec (.qpop w) s = .next u ∧ u.mem = s.mem ∧ u.course? f.core f.slot = some c ∧ f.c.Booked c f.entry (addPc f.pc 12) ∧
        (∃ o ∈ u.ops, o.id = s.stamp ∧ o.kind = .qpop (destOf w).1 (tyWide w.ty) vals ∧ o.done = false ∧ o.core = f.core ∧
          o.slot = f.slot ∧ o.stamp = f.c.stamp) ∧
        vals.map (fun r => (r.lane, r.reg, r.val, r.poisoned, r.flags)) = (lanesOf f.exec).zipIdx.map (fun y =>
          (y.1, (destOf w).2, BitVec.ofNat 64 (s.spadNat t.core (at_ (q.head + y.2)) bytes), false, 0)) ∧
        ends u (q.head + n) q.tail (q.allow + n) ∧ spared u inRecord))

/-- R131, R158, R159, R162: GPUSH and GPOP that pass their checks are on their way, one operation for each executing lane. A check that
fails traps instead. R136: they are held where they name a shared-deterministic region and their course has not the commit token. -/
def Obligations.PoolsIssue : Prop :=
  ∀ (w : Fields) (s : State) (f : Frag), s.Ready w f →
    let lanes : List Probe := (lanesOf f.exec).map (fun L => { lane := L, va := s.src f w .n64 L w.a })
    let ask : Ask := { size := 64, read := true, write := true, scope := some (w.imm.toNat % 8) }
    let i (push : Bool) : Instr := if push then .gpush w else .gpop w
    (s.tokenHeld f 64 lanes = true → ∀ push, exec (i push) s = .next (s.hold f)) ∧
    (∀ x, s.tokenHeld f 64 lanes = false → s.checkGlobal f.core f.asid ask lanes = .error (.trap x) →
      ∀ push, exec (i push) s = .next (s.takeTrap f.core f.slot f.entry x)) ∧
    ∀ (gs : List Page) (push : Bool), s.tokenHeld f 64 lanes = false → s.checkGlobal f.core f.asid ask lanes = .ok gs →
      ∃ t c, exec (i push) s = .next t ∧ t.mem = s.mem ∧
      t.course? f.core f.slot = some c ∧ f.c.Booked c f.entry (addPc f.pc 12) ∧
      (∃ o ∈ t.ops, o.id = s.stamp ∧ o.kind = .pool (!push) ∧ o.done = false) ∧
      ∃ qs : List PoolOp, t.pool = s.pool ++ qs ∧
        qs.map (fun q => (q.lane, q.va, q.pa, q.push, q.stage, q.item)) = (lanes.zip gs).map (fun x =>
          (x.1.lane, x.1.va.toNat, x.2.pa, push, 0, if push then s.src f w w.ty x.1.lane w.b else 0)) ∧
        ∀ q ∈ qs, q.op = s.stamp ∧ q.core = f.core ∧ q.slot = f.slot ∧ q.stamp = f.c.stamp

/-- R163 to R166: WAIT and WAITR go on when the counters are at or below their thresholds, and are held while one is above. WAKE marks
the waits that watch its lines in its scope. WAITADDR reads at its issue where its core's L1 holds every word under a live lease, and
goes on with the words in D when each differs from its comparand; where one does not, and where a word must be fetched, it has issued
and its fragment stands at it until a pass ends it (O50), a pass whose reads are still to be made standing under way. A STRICT course
that meets poison traps POISON. Whether the neighbour refuses a read over a peer link is a free value (log 6). -/
def Obligations.Waits : Prop :=
  ∀ (w : Fields) (s : State) (f : Frag), s.Ready w f →
    let next := addPc f.pc 12
    let k := f.c.counts
    let lanes : List Probe := (f.lanes w).map (fun L => { lane := L, va := s.src f w .n64 L w.a })
    let scope := w.imm.toNat % 8
    let quiet := k.load ≤ w.imm.toNat % 64 ∧ k.store ≤ w.imm.toNat / 64 % 64 ∧ k.copy ≤ w.imm.toNat / 4096 % 64 ∧
      k.tile ≤ w.imm.toNat / 2 ^ 18 % 64
    let low := k.read (w.imm.toNat % 8) ≤ min (s.src f w .n32 f.low w.a).toNat 63
    let traps (i : Instr) (x : Trap) := exec i s = .next (s.takeTrap f.core f.slot f.entry x)
    (quiet → ∃ t c, exec (.wait w) s = .next t ∧ s.Moved t f w f.c c next) ∧ (¬ quiet → exec (.wait w) s = .next (s.hold f)) ∧
    (low → ∃ t c, exec (.waitr w) s = .next t ∧ s.Moved t f w f.c c next) ∧ (¬ low → exec (.waitr w) s = .next (s.hold f)) ∧
    (∀ x, s.checkGlobal f.core f.asid { size := 1, read := true, write := false, scope := some scope } lanes = .error (.trap x) →
      traps (.wake w) x) ∧
    (∀ gs, s.checkGlobal f.core f.asid { size := 1, read := true, write := false, scope := some scope } lanes = .ok gs →
      ∃ t c, exec (.wake w) s = .next t ∧
        ({ s.sendClass f.core .wake with watches := s.watches.map (fun x =>
            if x.asid = f.asid ∧ inScopeOf scope f.core x.core ∧
              x.lanes.any (fun k => (gs.map (fun p => lineOf p.pa)).contains (lineOf k.pa))
            then { x with woken := true } else x) } : State).Moved t f w f.c c next) ∧
    (let ask : Ask := { size := tyBytes w.ty, read := true, write := false, scope := some scope }
     (∀ x, s.checkGlobal f.core f.asid ask lanes = .error (.trap x) → traps (.waitaddr w) x) ∧
     ∀ gs, s.checkGlobal f.core f.asid ask lanes = .ok gs →
      let sent := s.sendOut ((lanes.zip gs).map (fun y =>
        { lane := y.1.lane, va := y.1.va.toNat, pa := y.2.pa, size := tyBytes w.ty, cmp := s.b f w y.1.lane, who := laneBit y.1.lane }))
      let x : Watch :=
        { id := s.stamp, core := f.core, slot := f.slot, stamp := f.c.stamp, entry := f.entry, asid := f.asid, lanes := sent.2,
          left := if w.imm.toNat / 16 % 32 = 0 then none else some (2 ^ (w.imm.toNat / 16 % 32)), woken := false, reading := true,
          at_ := s.clock, word := w }
      let near : Prop := (∀ y ∈ x.lanes, s.l1Hit f.core (lineOf y.pa) = true) ∧ s.mayPerform x.asOp x.lanes true = true
      let val (y : Access) : W64 := s.loadValue x.asOp .global y
      let bad (y : Access) : Bool := s.loadPoison x.asOp .global y
      (∀ y ∈ x.lanes, y.got = false) ∧
      (near → (∀ y ∈ x.lanes, bad y = false ∧ val y ≠ y.cmp) → destOk w = true →
        ∃ t c fn, exec (.waitaddr w) s = .next t ∧ s.Wrote t f w (tyWide w.ty) fn c ∧ ∀ y ∈ x.lanes, fn y.lane = (val y, Flags.none)) ∧
      (near → (∀ y ∈ x.lanes, bad y = false) → (∃ y ∈ x.lanes, val y = y.cmp) →
        ∃ t c, exec (.waitaddr w) s = .next t ∧ (let lanes := x.lanes.map (fun y => { y with val := val y, bad := false, got := true })
          ({ s with watches := s.watches ++ [{ x with reading := false, lanes }] } : State).Stood t f w c)) ∧
      (∀ y, near → f.c.strict = true → x.lanes.find? bad = some y →
        traps (.waitaddr w) { cause := .poison, site := some { va := y.va, lane := y.lane } }) ∧
      (¬ near → ∃ t c, exec (.waitaddr w) s = .next t ∧
        ({ s.sendClass f.core .waitaddr with watches := s.watches ++ [x] } : State).Stood t f w c))


/-! ### Arrays, copies, tiles and the system words -/

/-- R188 to R191: ZLD, ZST, ZLDB, ZSTB, ZFLUSH and ZFLUSH.all, each executing lane's handle naming an array: where the
coordinates or block indexes lie inside the arrays, the types fit, scratchpad ranges are aligned and inside the allocation, and
the blocks' pages stand in the package, the word is on its way with one access for each element, or with the ranges that it
flushes. R186, R189: a handle whose slot is past ZDTCOUNT, whose entry is not valid or is of another generation traps STALE_HANDLE, one of
another kind or with a descriptor that R252 does not allow ILLEGAL_OPERAND, in the order of the lanes; then ILLEGAL_OPERAND for a type, a
register or a coordinate that does not fit, MISALIGNED and PERMISSION for scratchpad ranges, and what R131 finds of the blocks' pages. -/
def Obligations.ArraysIssue : Prop :=
  ∀ (w : Fields) (s : State) (f : Frag), s.Ready w f →
    let lanes := lanesOf f.exec
    let team := s.team f.c.team
    (∀ (z : Nat → ZArray) (p q : Nat → Page), (∀ L ∈ lanes, s.Names f (s.handleOf f w L) (z L)) →
      let size (L : Nat) : Nat := (z L).shape.size
      let at_ (L k : Nat) : Nat := if k < (z L).shape.dim then s.coord f w L k else 0
      let blk (L : Nat) : Nat := at_ L 0 / 4 + (z L).nb 0 * (at_ L 1 / 4 + (z L).nb 1 * (at_ L 2 / 4))
      let el (L : Nat) : Nat := at_ L 0 % 4 + 4 * (at_ L 1 % 4) + 16 * (at_ L 2 % 4)
      let idx (L : Nat) : Nat := (s.src f w .n64 L w.a).toNat
      let off (L : Nat) : Nat := (f.old w .n32 L).toNat
      let start (k : Nat → Nat) (L : Nat) : Nat := (z L).blockVa (k L)
      let fin (k : Nat → Nat) (L : Nat) : Nat := start k L + (z L).shape.bytes - 1
      let crosses (k : Nat → Nat) (L : Nat) : Bool := fin k L / 4096 != start k L / 4096
      let stands (wr : Bool) (k : Nat → Nat) : Prop := ∀ L ∈ lanes, s.Mapped f true wr (start k L) (p L) ∧
        (crosses k L = true → s.Mapped f true wr (fin k L / 4096 * 4096) (q L))
      let acc (k : Nat → Nat) (i reg : Nat) (val : W64) (o L : Nat) : ZAccess :=
        { lane := L, shape := (z L).shape, va := start k L, pa := (p L).pa, pa2 := if crosses k L then (q L).pa else 0,
          elem := i, val, reg, spad := o + i * size L }
      let blocks (val : Nat → Nat → W64) : List ZAccess := lanes.flatMap (fun L =>
        (List.range (z L).shape.count).map (fun i => acc idx i 0 (val L i) (off L) L))
      let typed : Prop := ∀ L ∈ lanes, (z L).shape.wide = tyWide w.ty
      let element : Prop := typed ∧ ∀ L ∈ lanes, coordsFit w (z L).shape.dim = true ∧
        ∀ k < (z L).shape.dim, s.coord f w L k < (z L).ext_ k
      let block : Prop := w.a ≠ .imm ∧ ∀ L ∈ lanes, idx L < (z L).blocks
      let even : Prop := ∀ L ∈ lanes, off L % 16 = 0
      let room : Prop := ∀ L ∈ lanes, off L + (z L).shape.count * size L ≤ team.size
      let pad : Prop := even ∧ room
      let out (i : Instr) (c : Cause) := ∃ x : Trap, exec i s = .next (s.takeTrap f.core f.slot f.entry x) ∧ x.cause = c
      let probes (k : Nat → Nat) : List Probe := lanes.flatMap (fun L => [{ lane := L, va := BitVec.ofNat 64 (start k L) },
        { lane := L, va := BitVec.ofNat 64 (if crosses k L then fin k L / 4096 * 4096 else start k L) }])
      let faults (i : Instr) (wr : Bool) (k : Nat → Nat) := ∀ x : Trap,
        s.checkGlobal f.core f.asid { size := 1, read := true, write := wr, scope := some 3, peers := false } (probes k) =
          .error (.trap x) → exec i s = .next (s.takeTrap f.core f.slot f.entry x)
      let settled : Prop := s.scratchSettled f.c.stamp = true
      (¬ element → out (.zld w) .illegalOperand ∧ out (.zst w) .illegalOperand) ∧
      (¬ (typed ∧ block) → out (.zldb w) .illegalOperand ∧ (settled → out (.zstb w) .illegalOperand)) ∧
      (¬ block → out (.zflush w) .illegalOperand) ∧ (w.a ≠ .zero → out (.zflushAll w) .illegalOperand) ∧
      (typed → block → ¬ even → out (.zldb w) .misaligned ∧ (settled → out (.zstb w) .misaligned)) ∧
      (typed → block → even → ¬ room → out (.zldb w) .permission ∧ (settled → out (.zstb w) .permission)) ∧
      (element → faults (.zld w) false blk ∧ faults (.zst w) true blk) ∧
      (typed → block → pad → faults (.zldb w) false idx ∧ (settled → faults (.zstb w) true idx)) ∧
      (block → faults (.zflush w) true idx) ∧
      (element → stands false blk → ∃ t c, exec (.zld w) s = .next t ∧
        s.Sent t f w (.zload (destOf w).1 false (lanes.map (fun L => acc blk (el L) (destOf w).2 0 0 L))) c) ∧
      (element → stands true blk → ∃ t c, exec (.zst w) s = .next t ∧
        s.Sent t f w (.zstore (lanes.map (fun L => acc blk (el L) 0 (f.old w w.ty L) 0 L))) c) ∧
      (typed → block → pad → stands false idx → ∃ t c, exec (.zldb w) s = .next t ∧
        s.Sent t f w (.zload .v true (blocks (fun _ _ => 0))) c) ∧
      (s.scratchSettled f.c.stamp = true → typed → block → pad → stands true idx → ∃ t c, exec (.zstb w) s = .next t ∧
        s.Sent t f w (.zstore (blocks (fun L i =>
          BitVec.ofNat 64 (s.spadNat f.core (team.base + off L + i * size L) (size L))))) c) ∧
      (block → stands true idx → ∃ t c, exec (.zflush w) s = .next t ∧
        s.Sent t f w (.zflush (lanes.map (fun L =>
          { shape := (z L).shape, lo := (p L).pa, len := 1, pa2 := if crosses idx L then (q L).pa else 0, opens := true }))) c) ∧
      (∀ r : Nat → Nat → Page, w.a = .zero → (∀ L ∈ lanes, ∀ x ∈ (z L).pages, s.Mapped f true true x.1 (r L x.1)) →
        ∃ t c, exec (.zflushAll w) s = .next t ∧
          s.Sent t f w (.zflush (lanes.flatMap (fun L => (z L).pages.map (fun x =>
            { shape := (z L).shape, lo := (r L x.1).pa, len := x.2 })))) c)) ∧
    (s.scratchSettled f.c.stamp = false → exec (.zstb w) s = .next (s.hold f)) ∧
    -- a lane's handle that fails, where those of the lower lanes name arrays
    (∀ (L : Nat) (x : Trap), L ∈ lanes → (∀ K ∈ lanes, K < L → ∃ z, s.Names f (s.handleOf f w K) z) →
      s.handle f L 1 (s.handleOf f w L) = .error (.trap x) ∨
        (x = { cause := .illegalOperand } ∧ ∃ d, s.Describes f 1 (s.handleOf f w L) d ∧ ZArray.ofBits d = none) →
      (∀ i ∈ [Instr.zld w, .zst w, .zldb w, .zflush w, .zflushAll w],
        exec i s = .next (s.takeTrap f.core f.slot f.entry x)) ∧
      (s.scratchSettled f.c.stamp = true → exec (.zstb w) s = .next (s.takeTrap f.core f.slot f.entry x))) ∧
    -- a handle
    ∀ (L kind : Nat) (h : W32),
      let slot := h.toNat % 2 ^ 20
      let ends (c : Cause) := s.handle f L kind h = .error (.trap { cause := c })
      ((s.ctx f.asid).zdtCount.toNat ≤ slot → ends .staleHandle) ∧
      (∀ x, slot < (s.ctx f.asid).zdtCount.toNat → s.Holds f ((s.ctx f.asid).zdtBase.toNat + 16 * slot) 16 x →
        let e : BitVec 128 := BitVec.ofNat 128 x
        (e.getLsbD 76 = false ∨ field e 64 12 ≠ h.toNat / 2 ^ 20 → ends .staleHandle) ∧
        (e.getLsbD 76 = true → field e 64 12 = h.toNat / 2 ^ 20 → field e 80 4 ≠ kind ∨ field e 0 64 % 64 ≠ 0 →
          ends .illegalOperand)) ∧
      ∀ d, s.Describes f kind h d → s.handle f L kind h = .ok (d, false)

/-- R193 to R198, R200: COPY and COPYL by the producer course, with a card whose reserved bits are 0, handles that name its
descriptors, a legal chain, its limits kept and its barriers set up, put a job in the sector's table and go on; another course traps
NOT_PRODUCER, a card off 64 bytes MISALIGNED, one past the allocation PERMISSION, a set reserved bit RESERVED_FIELD, a handle what R186
finds of it, an illegal chain ILLEGAL_CHAIN, a broken limit ILLEGAL_OPERAND, a barrier with EXPECTED 0 BARRIER_MISUSE. What R197 calls
legal and what R195, R196 and R198 limit is spelled out. A full table, unsettled scratchpad writes, and R136 hold the word. That an array's
descriptor is checked before the chain, a tensor's after it, is the model's choice (log 96). -/
def Obligations.CopiesIssue : Prop :=
  ∀ (w : Fields) (s : State) (f : Frag) (loops : Bool) (sdesc ddesc : BitVec 512), s.Ready w f →
    let i := if loops then Instr.copyl w else .copy w
    let t := s.team f.c.team
    let a := (s.src f w .n32 f.low w.a).toNat
    let bits : BitVec 512 := BitVec.ofNat 512 (s.spadNat f.core (t.base + a) 64)
    let c := Card.ofBits bits
    let word (k : Nat) : Nat := s.spadNat f.core (t.base + c.idxOff + 4 * k) 4
    let bars := (if c.done = 1 then [c.doneb] else []) ++
      (if loops then (List.range c.slots).flatMap (fun k => [c.fullb + k, c.emptyb + k]) else [])
    let trapsAs (x : Trap) : Prop := exec i s = .next (s.takeTrap f.core f.slot f.entry x)
    let traps (x : Cause) : Prop := trapsAs { cause := x }
    let tensor := Tensor.ofBits sdesc
    let st (k : Nat) : Nat := c.stages.getD k 12
    let n := c.stages.length
    -- the type of the elements before a convert, and of those that reach the last stage
    let before : Ty := if c.has 2 = true then zTy sdesc else if c.first = 1 then tensor.ty else tyAt c.csrc
    let after : Ty := if c.has 4 = true then tyAt c.cdst else before
    let linear : Prop := c.first = 0 ∧ c.shandle = 0
    (c.legal sdesc ddesc loops = true ↔
      2 ≤ c.nstage ∧ c.nstage ≤ 6 ∧ c.stages.Nodup ∧ st 0 ∈ [0, 1, 6, 11] ∧ st (n - 1) ∈ [7, 8, 9, 10] ∧
      (∀ k, 0 < k → k + 1 < n → st k ∈ [2, 3, 4, 5]) ∧ (c.has 2 = true ↔ c.first = 0 ∧ c.shandle ≠ 0) ∧
      (c.has 2 = true → st 1 = 2) ∧ (c.has 4 = true → before = tyAt c.csrc) ∧
      (c.has 3 = true → st (n - 2) = 3 ∧ st (n - 1) = 9 ∧ c.dhandle ≠ 0 ∧ after = zTy ddesc) ∧
      (c.has 5 = true → st (n - 2) = 5 ∧ st (n - 1) = 8 ∧ tyFloat after = true) ∧
      (st (n - 1) = 10 → after = .f32 ∨ after = .f64) ∧ (c.has 11 = true → st 1 = 9) ∧
      (c.has 6 = true ∨ c.has 7 = true → c.has 11 = false ∧ c.has 10 = false) ∧
      (loops = true → c.first ≠ 11 ∧ st (n - 1) = 8 ∧ c.mask = 0)) ∧
    (∀ progress, c.limits sdesc loops t.size progress = true ↔
      (c.first = 1 → c.srclen = 0) ∧ (c.has 5 = true → c.elements sdesc % 64 = 0) ∧ c.done ≠ 3 ∧
      (c.usesCsrc = true → c.csrc ≤ 13) ∧ (c.has 4 = true → c.cdst ≤ 13) ∧
      (c.has 11 = true → (c.csrc = 8 ∨ c.csrc = 9) ∧ 1 ≤ c.idx % 512 ∧ c.idx % 512 ≤ 256) ∧
      (c.has 6 = true ∨ c.has 7 = true → c.idx % 2 ^ 19 % 4 = 0 ∧ 1 ≤ c.idx / 2 ^ 19 ∧
        c.idx % 2 ^ 19 + 4 * (c.idx / 2 ^ 19) ≤ t.size) ∧
      (linear → c.sspace = true → c.src + c.srclen ≤ t.size ∧ 0 ≤ c.srcAt (c.iters - 1) ∧
        c.srcAt (c.iters - 1) + c.srclen ≤ t.size) ∧
      (st (n - 1) = 8 → n ≠ 0 → c.mask = 0 → c.dst + (if loops then c.slots else 1) * c.dstlen ≤ t.size) ∧
      (c.done = 2 → 16 * c.cpl + 32 ≤ t.size) ∧ (c.done = 1 → 16 * progress + 32 ≤ t.size ∨ progress = 0) ∧
      (if loops then 1 ≤ c.loop ∧ c.fullb + c.slots ≤ 16 ∧ c.emptyb + c.slots ≤ 16 ∧
          (c.fullb + c.slots ≤ c.emptyb ∨ c.emptyb + c.slots ≤ c.fullb) ∧ (c.first = 1 → c.step < 2 ^ 30)
        else c.loop = 0) ∧ (c.first = 1 → tensor.ok = true)) ∧
    (t.producer ≠ f.c.index → traps .notProducer) ∧
    (t.producer = f.c.index → a % 64 ≠ 0 → trapsAs { cause := .misaligned, site := some { va := a, lane := f.low } }) ∧
    (t.producer = f.c.index → a % 64 = 0 → t.size < a + 64 →
      trapsAs { cause := .permission, site := some { va := a, lane := f.low } }) ∧
    (t.producer = f.c.index → a % 64 = 0 → a + 64 ≤ t.size →
      s.scratchSettled f.c.stamp = false ∨ 256 ≤ (s.jobsOf (sectorOf f.core)).length → exec i s = .next (s.hold f)) ∧
    (t.producer = f.c.index → a % 64 = 0 → a + 64 ≤ t.size → s.scratchSettled f.c.stamp = true →
      (s.jobsOf (sectorOf f.core)).length < 256 →
      (c.reserved = true → traps .reservedField) ∧
      (∀ x, c.reserved = false → c.first = 1 ∨ c.codedSource = true →
        s.handle f f.low (if c.first = 1 then 2 else 1) c.shandle = .error (.trap x) → trapsAs x) ∧
      (c.reserved = false →
        (if c.first = 1 ∨ c.codedSource = true then s.Describes f (if c.first = 1 then 2 else 1) c.shandle sdesc
          else sdesc = 0) →
        (if c.has 3 = true ∧ c.dhandle ≠ 0 then s.Describes f 1 c.dhandle ddesc else ddesc = 0) →
        (c.codedSource = true → (ZArray.ofBits sdesc).isSome = false → traps .illegalOperand) ∧
        ((c.codedSource = true → (ZArray.ofBits sdesc).isSome = true) →
        (c.has 3 = true → c.dhandle ≠ 0 → (ZArray.ofBits ddesc).isSome = true) →
        (c.legal sdesc ddesc loops = false → traps .illegalChain) ∧
        (c.legal sdesc ddesc loops = true → c.limits sdesc loops t.size (t.barrier c.doneb).progress.toNat = false →
          traps .illegalOperand) ∧
        (c.legal sdesc ddesc loops = true → c.limits sdesc loops t.size (t.barrier c.doneb).progress.toNat = true →
          (∃ b ∈ bars, (t.barrier b).expected = 0) → traps .barrierMisuse) ∧
        (c.legal sdesc ddesc loops = true → c.limits sdesc loops t.size (t.barrier c.doneb).progress.toNat = true →
          (∀ b ∈ bars, (t.barrier b).expected ≠ 0) → f.c.det = true → f.token = false → c.last ≠ 10 →
          (∃ r ∈ c.writes ddesc ((s.receivers c f.c.grid f.c.team f.core).1.map (fun p => (p.2.core, p.2.base))), r.space = 0 ∧
            ∃ q ∈ (s.grid f.c.grid).regions, r.lo < q.1 + q.2 ∧ q.1 < r.hi) → exec i s = .next (s.hold f)) ∧
        (c.legal sdesc ddesc loops = true → c.limits sdesc loops t.size (t.barrier c.doneb).progress.toNat = true →
          (∀ b ∈ bars, (t.barrier b).expected ≠ 0) → (f.c.det = false ∨ f.token = true) →
          let j : Job :=
            { id := s.stamp, core := f.core, slot := f.slot, stamp := f.c.stamp, team := f.c.team, linear := t.linear,
              base := t.base, grid := f.c.grid, gid := s.gridId f.c.grid, asid := f.asid, strict := f.c.strict, card := bits,
              sdesc, ddesc, state := .queued, indices := if c.indexed then (List.range c.idxCount).map word else [],
              phases := if loops then (List.range c.slots).map (fun k => (t.barrier (c.emptyb + k)).phases) else [] }
          ∃ u d, exec i s = .next u ∧ ({ s with jobs := s.jobs ++ [j] } : State).Sent u f w (.copy s.stamp) d))))

/-- R167 to R170, R174 to R177, R182, R183: the words of the matrix engine other than the multiply-accumulates. In a team that
uses the tiles, by a whole course, and with its regions aligned and inside the team's allocation, each enters the queue of its
core; a queue of 16 holds it. A team that does not use the tiles traps ILLEGAL_OPERAND. -/
def Obligations.TilesIssue : Prop :=
  ∀ (w : Fields) (s : State) (f : Frag), s.Ready w f →
    let t := s.team f.c.team
    let d := tileOf w.d
    let a := (s.src f w .n32 f.low w.a).toNat
    let b := (s.src f w .n32 f.low w.b).toNat
    let eb := tyBytes w.ty
    let pitch (x : Nat) : Nat := if x = 0 then 64 * eb else 16 * x
    let side := w.imm.getLsbD 12
    let p := pitch (w.imm.toNat % 4096)
    let q := pitch (w.imm.toNat / 2 % 4096)
    let even := w.ty = .f64 → d % 2 = 0
    let layout := 64 * eb ≤ p ∧ (side = true → w.ty = .f32 ∧ w.imm.toNat % 4096 = 0) ∧ even ∧ a % 16 = 0 ∧
      a + (if side then 512 else 63 * p + 64 * eb) ≤ t.size
    let enters (s' : State) (i : Instr) (kind : TileKind) (x z : Nat) (frames : List Nat) := ∃ u c o, exec i s = .next u ∧
      (s'.mapCore f.core (fun k => { k with tileQ := k.tileQ ++ [o] })).Sent u f w .tile c ∧
      o = { kind, op := s.stamp, stamp := f.c.stamp, slot := f.slot, team := f.c.team, asid := f.asid, d, a := tileOf w.a,
            ty := w.ty, round := w.round, sat := w.sat, modx := w.modx, imm := w.imm, x, z, base := t.base, fa := 0,
            counts := [], frames, exact := f.c.exact }
    (t.tiles = false → ∀ i ∈ [Instr.mzero w, .mload w, .mstore w, .msmax w, .mdrain w, .mdrainSpad w, .planes w],
      exec i s = .next (s.takeTrap f.core f.slot f.entry { cause := .illegalOperand })) ∧
    (t.tiles = true → f.active = f.c.liveLanes → f.c.live.length = 1 → 16 ≤ (s.core f.core).tileQ.length →
      exec (.mzero w) s = .next (s.hold f)) ∧
    (t.tiles = true → f.active = f.c.liveLanes → f.c.live.length = 1 → (s.core f.core).tileQ.length < 16 →
      s.scratchSettled f.c.stamp = true →
      enters s (.mzero w) .zero t.base t.base [] ∧
      (layout → enters s (.mload w) .load (t.base + a) t.base []) ∧
      (layout → (side = true → w.modx = false ∧ w.round = .rne ∧ w.sat = false) → ¬ (w.modx = true ∧ w.ty = .f64) →
        enters s (.mstore w) .store (t.base + a) t.base []) ∧
      (d ≠ tileOf w.a → (∃ m e, (fmtOf .f32).decode (w.imm.setWidth 64) = .fin false m e ∧ m ≠ 0) →
        enters s (.msmax w) .smax t.base t.base []) ∧
      (64 * eb ≤ q → even → a % 16 = 0 → a + (63 * q + 64 * eb) ≤ t.size →
        enters s (.mdrainSpad w) .drainSpad (t.base + a) t.base []) ∧
      (∀ page : Nat → Page, let va := s.src f w .n64 f.low w.a
        even → s.tokenHeld f (4096 * eb) [{ lane := f.low, va }] = false → va.toNat % (4096 * eb) = 0 →
        (∀ k < eb, s.Mapped f true true (va.toNat + 4096 * k) (page k)) →
        enters s (.mdrain w) .drain va.toNat t.base
          ((List.range eb).map (fun k => (page k).pa))) ∧
      (let n := w.imm.toNat % 2 ^ 16
       let r := 16 * (w.imm.toNat / 2 ^ 16 % 4096)
       let spn := w.imm.toNat / 2 ^ 28 % 4
       let cols := chunkCols spn
       n ≠ 0 → n * eb ≤ r → (spn ≠ 0 → n % 2 ^ spn = 0) → a % eb = 0 → b % 256 = 0 → a + (63 * r + n * eb) ≤ t.size →
        b + (((n + cols - 1) / cols - 1) * imageStride w.ty cols + imageBytes w.ty cols) ≤ t.size →
        enters s (.planes w) .planes (t.base + a) (t.base + b) []))

/-- R169 to R173, R180, R181: MMAC, MMACS and MMACG with a format block that R172 allows, operands aligned, and every region
inside the allocation, of scales only where a granularity declares them, enter the queue of their core. A format block with a
reserved field set traps RESERVED_FIELD, one that R172 does not allow ILLEGAL_OPERAND; both are spelled out. -/
def Obligations.MultiplyAccumulateIssues : Prop :=
  ∀ (w : Fields) (s : State) (f : Frag) (kind : TileKind), s.Ready w f →
    kind = .mac ∨ kind = .macSparse ∨ kind = .macGrouped →
    let i := match kind with | .macSparse => Instr.mmacs w | .macGrouped => .mmacg w | _ => .mmac w
    let t := s.team f.c.team
    let a := (s.src f w .n32 f.low w.a).toNat
    let b := (s.src f w .n32 f.low w.b).toNat
    let fb := 32 * (w.imm.toNat % 2 ^ 14)
    let r : BitVec 256 := BitVec.ofNat 256 (s.spadNat f.core (t.base + fb) 32)
    let m := MmacFmt.ofBits r f.c.exact
    let counts := if kind = .macGrouped then
      (List.range (m.ng + 1)).map (fun g => s.spadNat f.core (t.base + m.groff + 2 * g) 2) else []
    let groups := if kind = .macGrouped then (groupsOf 0 0 counts).1.map (fun g => g.1) else [0]
    let holds (off n : Nat) : Prop := n = 0 ∨ off + n ≤ t.size
    let traps (x : Cause) : Prop := exec i s = .next (s.takeTrap f.core f.slot f.entry { cause := x })
    let code (x : Nat) : Prop := 8 ≤ x ∧ x ≤ 13
    let fp8 (x : Ty) : Prop := x = .e4m3 ∨ x = .e5m2
    (formatReserved r kind = true ↔
      ¬ code (field r 0 4) ∨ ¬ code (field r 64 4) ∨ (field r 146 4 ≠ 8 ∧ field r 146 4 ≠ 9) ∨ 3 < field r 4 4 ∨
      3 < field r 68 4 ∨ (∃ x ∈ [(14, 2), (51, 13), (78, 2), (115, 13), (150, 10), (179, 13), (216, 8), (235, 21)],
        field r x.1 x.2 ≠ 0) ∨
      (kind ≠ .macSparse ∧ (field r 144 2 ≠ 0 ∨ field r 160 19 ≠ 0)) ∨
      (kind ≠ .macGrouped ∧ (field r 192 19 ≠ 0 ∨ field r 211 5 ≠ 0 ∨ field r 224 11 ≠ 0))) ∧
    (formatReserved r kind = false → (m.legal kind (tileOf w.d) = true ↔
      (tyAt (field r 0 4) = tyAt (field r 64 4) ∨ (fp8 (tyAt (field r 0 4)) ∧ fp8 (tyAt (field r 64 4)))) ∧
      (field r 146 4 = 9 ↔ tyAt (field r 0 4) = .f64) ∧
      (f.c.exact = false → field r 8 6 ≤ (fmtOf (tyAt (field r 0 4))).w ∧ field r 72 6 ≤ (fmtOf (tyAt (field r 64 4))).w) ∧
      field r 128 16 ≠ 0 ∧ (kind = .macSparse → field r 144 2 ≠ 0 ∧ field r 128 16 % 16 = 0) ∧
      (field r 80 16 = 0 ∨ 64 * tyBytes (tyAt (field r 64 4)) ≤ 16 * field r 80 16) ∧
      (field r 146 4 = 9 → tileOf w.d % 2 = 0))) ∧
    (t.tiles = true → f.active = f.c.liveLanes → f.c.live.length = 1 →
    s.scratchSettled f.c.stamp = true → fb + 32 ≤ t.size →
    (kind = .macGrouped → m.groff + 2 * (m.ng + 1) ≤ t.size) →
    (formatReserved r kind = true → traps .reservedField) ∧
    (formatReserved r kind = false → m.legal kind (tileOf w.d) = false → traps .illegalOperand) ∧
    ((s.core f.core).tileQ.length < 16 → formatReserved r kind = false → m.legal kind (tileOf w.d) = true →
      a % 256 = 0 → b % 16 = 0 → m.aScale % 4 = 0 → m.bScale % 4 = 0 → (kind = .macGrouped → m.groff % 2 = 0) →
      holds a ((m.chunks - 1) * m.stride + imageBytes m.aTy (chunkCols m.spn)) →
      (∀ g ∈ groups, holds (b + g * 256 * m.gstride) (m.k * m.pitch) ∧
        holds (m.bScale + g * 256 * m.gstride) (scaleBytes m.bGran m.chunks)) →
      holds m.aScale (scaleBytes m.aGran m.chunks) →
      (kind = .macSparse → holds m.metaOff (64 * (m.k / 16) * spN m.spn / 2)) →
      ∃ u c, exec i s = .next u ∧ ∃ o : TileOp,
        (s.mapCore f.core (fun k => { k with tileQ := k.tileQ ++ [o] })).Sent u f w .tile c ∧
        o = { kind, op := s.stamp, stamp := f.c.stamp, slot := f.slot, team := f.c.team, asid := f.asid, d := tileOf w.d,
              a := tileOf w.a, ty := w.ty, round := w.round, sat := w.sat, modx := w.modx, imm := w.imm, x := t.base + a,
              z := t.base + b, base := t.base, fa := r, counts, frames := [], exact := f.c.exact }))

/-- R213 to R216: the system words in supervisor state. TLBINV, once the course's stores are performed, drops the translations of
its context over its range from the TLBs in its scope, every entry that covers any part of it and no other (a stopped core's go when its
clock starts, R334), and `.resume` restarts the jobs that wait there; a count outside 1 to 2^20, or a scope above 3, traps
ILLEGAL_OPERAND. CAPTURE and RESTORE of another core that the context is granted, by a context with the
right, leave a request that holds the fragment until it has ended, and then go on, RESTORE with its status in D; a RESTORE that is
refused gives its status at once. POISONCLR clears the poisoned lines of its lanes, which hold zeros, as soon as earlier work and
the leases of the lines let it, and is held until then. -/
def Obligations.SystemWords : Prop :=
  ∀ (w : Fields) (s : State) (f : Frag), s.Ready w f →
    let next := addPc f.pc 12
    let scope := w.imm.toNat % 8
    let a := (s.src f w .n32 f.low w.a).toNat
    let va := (s.src f w .n64 f.low w.b).toNat
    let page := (s.src f w .n64 f.low w.a).toNat / 4096 * 4096
    let count := (s.src f w .n32 f.low w.b).toNat
    let s1 : State := { s with stamp := s.stamp + 1 }
    let mine : Waiter := { core := f.core, slot := f.slot, stamp := f.c.stamp, entry := f.entry }
    let traps (i : Instr) (x : Cause) : Prop := exec i s = .next (s.takeTrap f.core f.slot f.entry { cause := x })
    let again (lo hi : Nat) : List Job := if w.modx then s.jobs.filter (fun j =>
      j.state == .faulted && j.asid == f.asid && lo ≤ j.faultVa && j.faultVa < hi) else []
    let drops (i : Instr) (lo hi : Nat) := ∃ t c, exec i s = .next t ∧
      ((again lo hi).foldl State.resumeJob
        { s.dropTlb scope f.core f.asid lo hi with tlbinvAt := assign s.tlbinvAt f.asid s.clock }).Moved t f w f.c c next
    -- what CAPTURE and RESTORE check of the target, the address and the pages of the image
    let image (wr : Bool) : Prop := f.c.super = true ∧ (s.ctx f.asid).capRight.getLsbD 0 = true ∧ a < 2048 ∧ a ≠ f.core ∧
      s.grants f.asid a = true ∧ va % 4096 = 0 ∧ va + 2 ^ 20 ≤ 2 ^ 57 ∧ ∀ i < 256, ∃ p : Page,
        s.translate f.core f.asid (va + 4096 * i) = .page p ∧ (if wr then p.write else p.read) = true ∧
        ∀ l, homeOf p.pa = .peer l → s.linkUp l = true
    (f.c.super = true → 4 ≤ scope → ∀ i ∈ [Instr.tlbinvPage w, .tlbinvRange w, .tlbinvAll w], traps i .illegalOperand) ∧
    (f.c.super = true → scope < 4 → count = 0 ∨ 2 ^ 20 < count → traps (.tlbinvRange w) .illegalOperand) ∧
    (f.c.super = true → scope < 4 → s.storesPending f.c.stamp = false →
      drops (.tlbinvPage w) page (page + 4096) ∧
      (1 ≤ count → count ≤ 2 ^ 20 → drops (.tlbinvRange w) page (page + 4096 * count)) ∧
      drops (.tlbinvAll w) 0 (2 ^ 64)) ∧
    (∀ r, s.captures.find? (fun r => r.who == some mine) = some r → r.done = true → ∃ t c, exec (.capture w) s = .next t ∧
      ({ s with captures := s.captures.filter (fun x => x.who != some mine) } : State).Moved t f w f.c c next) ∧
    (s.captures.find? (fun r => r.who == some mine) = none → image true →
      let x : CapReq := { target := a, asid := f.asid, va, origin := 1, who := some mine, via := some f.core }
      exec (.capture w) s = .next (State.wait { s1.sendClass f.core .captureRequest with captures := s.captures ++ [x] } f)) ∧
    (∀ r code, s.restores.find? (fun r => r.who == some mine) = some r → r.status = some code → destOk w = true →
      ∃ t c, exec (.restore w) s = .next t ∧
        ({ s with restores := s.restores.filter (fun x => x.who != some mine) } : State).Wrote t f w false
          (fun _ => (BitVec.ofNat 64 code, Flags.none)) c) ∧
    (s.restores.find? (fun r => r.who == some mine) = none → image false → (s.core a).binding = none →
      (s.core a).run ≠ .loading → ((∃ n, (s.core a).run = .stopped n) ∨ s.teamsOn a = []) →
      let bytes := s.imageRead (some f.core) f.asid va imageLength
      let header := s.imageRead (some f.core) f.asid va 64
      match s.refuseImage a f.asid header bytes with
      | some code => destOk w = true → ∃ t c, exec (.restore w) s = .next t ∧ t.mem = s.mem ∧
          (s.imageTouch (some f.core) f.asid va (if code = 0x51 ∨ header = none then 64 else imageLength)).Wrote t f w false
            (fun _ => (BitVec.ofNat 64 code, Flags.none)) c
      | none =>
        let x : RestReq := { target := a, asid := f.asid, va, who := some mine, via := some f.core, host := false,
                             held := s.imageHeld (bytes.getD []) }
        exec (.restore w) s = .next
          (State.wait { s1.beginRestore a f.asid (bytes.getD []) with restores := s.restores ++ [x] } f)) ∧
    (∀ g : Nat → Page,
      (∀ L ∈ f.lanes w, (s.src f w .n64 L w.a).toNat % 128 = 0 ∧
        s.Mapped f false true (s.src f w .n64 L w.a).toNat (g L)) →
      let xs : List Access := (f.lanes w).map (fun L => { lane := 0, va := 0, pa := (g L).pa, size := 128 })
      let lines := ((f.lanes w).map (fun L => lineOf (g L).pa)).eraseDups
      (s.mayPerform (f.lineWrite xs) xs false = false → exec (.poisonclr w) s = .next (s.hold f)) ∧
      (s.mayPerform (f.lineWrite xs) xs false = true → (∃ l ∈ lines, s.mayClear f.c.stamp l = false) →
        exec (.poisonclr w) s = .next (State.wait
          (s1.awaitLease f.c.stamp (lines.filter (fun l => !s.mayClear f.c.stamp l))) f)) ∧
      (s.mayPerform (f.lineWrite xs) xs false = true → (∀ l ∈ lines, s.mayClear f.c.stamp l = true) →
        ∃ t c, exec (.poisonclr w) s = .next t ∧
          (lines.foldl State.unpoison ((s1.sendClass f.core .poisonclr).endWait f.c.stamp)).Moved t f w f.c c next ∧
          (∀ l ∈ lines, l ∉ t.poison) ∧ (∀ l, l ∉ lines → (l ∈ t.poison ↔ l ∈ s.poison)) ∧ t.mem = s.mem)) ∧
    -- what TLBINV drops
    ∀ (s : State) (scope core asid lo hi : Nat),
      let t := s.dropTlb scope core asid lo hi
      let covers (e : TlbEntry) : Prop := e.asid = asid ∧ e.va < hi ∧ lo < e.va + 2 ^ e.bits
      let near (k : Nat) : Prop :=
        if scope = 0 then k = core else if scope = 1 then k / 64 = core / 64 else if scope = 2 then k / 512 = core / 512 else True
      let about (x : Nat) : Prop :=
        if scope = 0 then False else if scope = 1 then x = core / 64 else if scope = 2 then x / 8 = core / 512 else True
      t = { s with cores := t.cores, sectorTlb := t.sectorTlb } ∧
      (∀ k, t.core k = { s.core k with tlb := (t.core k).tlb } ∧
        ∀ e, e ∈ (t.core k).tlb ↔ e ∈ (s.core k).tlb ∧ ¬ (near k ∧ (s.core k).run = .running ∧ covers e)) ∧
      ∀ p, p ∈ t.sectorTlb ↔ p ∈ s.sectorTlb ∧ ¬ (about p.1 ∧ covers p.2)

/-- R128, R129: XCHG waits from its issue, at which it has issued and its fragment stands at it; it takes its fragment's values and mask
with it. A partner that is its own core or lies outside its sector traps ILLEGAL_OPERAND. R129: two XCHG that name each other with one tag, each the first
of its kind to wait, pair: in every lane of each side D takes the partner's value where the partner executes the lane,
and the lane's own otherwise; predicate U is false, both fragments go on, and neither waits any more. R129: an XCHG
whose time has passed completes unpaired: D takes its own values and predicate U is true. That two TYPEs may pair, and what each
side then reads, is the model's choice (log 44). -/
def Obligations.Exchange : Prop :=
  (
    ∀ (w : Fields) (s : State) (f : Frag), s.Ready w f →
      let target := (s.src f w .n32 f.low w.b).toNat
      (target = f.core ∨ sectorOf target ≠ sectorOf f.core →
        exec (.xchg w) s = .next (s.takeTrap f.core f.slot f.entry { cause := .illegalOperand })) ∧
      (target ≠ f.core → sectorOf target = sectorOf f.core →
        let x : XWait :=
          { id := s.stamp, core := f.core, slot := f.slot, stamp := f.c.stamp, entry := f.entry, target, mask := f.exec,
            vals := (lanesOf f.exec).map (fun L => (L, s.a f w L)), left := 2 ^ 20, word := w }
        ∃ t c, exec (.xchg w) s = .next t ∧
          ({ s.sendClass f.core .xchg with xwaits := s.xwaits ++ [x] } : State).Stood t f w c)) ∧
  (
    ∀ (s : State) (x y : XWait) (c d : Course), x.id ≠ y.id → x.core ≠ y.core → x.target = y.core → y.target = x.core →
      let tag (z : XWait) : Nat := z.word.imm.toNat % 256
      tag x = tag y → 0 < x.left → 0 < y.left → x.ans = none → y.ans = none →
      let first (a b : XWait) : Prop := s.xwaits.find? (fun z => z.id == a.id) = some a ∧ s.xwaits.find? (fun z =>
        z.core == a.core && z.target == b.core && a.core == b.target && tag z == tag b && decide (0 < z.left) &&
          z.ans.isNone) = some a
      first x y → first y x →
      s.runs x.core = true → s.runs y.core = true →
      s.course? x.core x.slot = some c → c.stamp = x.stamp → (get {} c.entries x.entry).valid = true →
      s.course? y.core y.slot = some d → d.stamp = y.stamp → (get {} d.entries y.entry).valid = true →
      x.vals.map (·.1) = lanesOf x.mask → y.vals.map (·.1) = lanesOf y.mask →
      destOk x.word = true → destOk y.word = true → x.word.hints.uniform = false → y.word.hints.uniform = false →
      ∃ t c' d', exec (.xchgPairing x.id y.id) s = .next t ∧ t.mem = s.mem ∧
        t.xwaits = s.xwaits.filter (fun z => z.id != x.id && z.id != y.id) ∧
        t.course? x.core x.slot = some c' ∧ t.course? y.core y.slot = some d' ∧
        let gets (z other : XWait) (e e' : Course) : Prop :=
          (∀ L ∈ lanesOf z.mask, e'.dest z.word (tyWide z.word.ty) L =
            narrow (tyWide z.word.ty) ((lookup? other.vals L).getD (get 0 z.vals L))) ∧
          (∀ L ∈ lanesOf z.mask, z.word.imm.toNat / 256 % 32 ≠ 0 →
            (e'.readP (z.word.imm.toNat / 256 % 32)).getLsbD L = false) ∧
          (∀ n, n ≠ z.word.imm.toNat / 256 % 32 → e'.readP n = e.readP n) ∧
          (∀ n L, L < 32 → (coversV z.word (tyWide z.word.ty) n && (lanesOf z.mask).contains L) = false → e'.readV n L = e.readV n L) ∧
          ((∀ o ∈ s.ops, o.stamp = z.stamp → o.flags = []) → e'.flags = e.flags) ∧
          get {} e'.entries z.entry =
            { get {} e.entries z.entry with pc := addPc (get {} e.entries z.entry).pc 12, held := false, began := none }
        gets x y c c' ∧ gets y x d d') ∧
  (
    ∀ (s : State) (x : XWait) (c : Course), s.xwaits.find? (fun y => y.id == x.id) = some x → x.left = 0 → x.ans = none →
      s.runs x.core = true → s.course? x.core x.slot = some c → c.stamp = x.stamp → (get {} c.entries x.entry).valid = true →
      x.vals.map (·.1) = lanesOf x.mask → destOk x.word = true → x.word.hints.uniform = false →
      ∃ t c', exec (.xchgTimeout x.id) s = .next t ∧ (∀ y ∈ t.xwaits, y.id ≠ x.id) ∧ t.mem = s.mem ∧
        t.course? x.core x.slot = some c' ∧
        (∀ L ∈ lanesOf x.mask, c'.dest x.word (tyWide x.word.ty) L = narrow (tyWide x.word.ty) (get 0 x.vals L)) ∧
        (∀ L ∈ lanesOf x.mask, x.word.imm.toNat / 256 % 32 ≠ 0 →
          (c'.readP (x.word.imm.toNat / 256 % 32)).getLsbD L = true) ∧
        (∀ n, n ≠ x.word.imm.toNat / 256 % 32 → c'.readP n = c.readP n) ∧
        (∀ n L, L < 32 → (coversV x.word (tyWide x.word.ty) n && (lanesOf x.mask).contains L) = false → c'.readV n L = c.readV n L) ∧
        get {} c'.entries x.entry =
          { get {} c.entries x.entry with pc := addPc (get {} c.entries x.entry).pc 12, held := false, began := none })

/-! ### Events of memory -/

/-- R134, R138, R140, R141, R132: a load's data returns, once its reads are performed or may all be now, on lines that are present:
every element's register holds the element, as it was read, extended by its type, zeros from poison with POISONED raised; no other
register and no byte of memory changes, and the oldest operation of its class lowers its counter. -/
def Obligations.LoadsReturn : Prop :=
  ∀ (s : State) (o : Op) (sp : Space) (file : File) (ty : Ty) (ord : Order) (xs : List Access) (c : Course), s.Flying o →
    o.kind = .load sp file ty ord xs → s.runs o.core = true → s.courseOf o.core o.slot o.stamp = some c →
    s.showsLater o.core o.slot o.stamp = false →
    ((∀ x ∈ xs, x.got = true) ∨ (s.mayRead o = true ∧ (∀ a ∈ s.absorbs, a.op ≠ o.id) ∧ (∀ x ∈ s.watches, x.id ≠ o.id) ∧
      ∀ x ∈ xs, x.got = false → sp = .global → s.present o.core (lineOf x.pa) = true)) →
    let val (x : Access) : W64 := if x.got then x.val else s.loadValue o sp x
    let bad (x : Access) : Bool := if x.got then x.bad else s.loadPoison o sp x
    (o.strict = true → ∀ x ∈ xs, bad x = false) →
    (∀ x ∈ xs, x.lane < 32 ∧ (file = .y → 96 ≤ x.reg)) →
    xs.Pairwise (fun x y => (file ≠ .s ∧ x.lane ≠ y.lane) ∨ x.reg + regsPer ty ≤ y.reg ∨ y.reg + regsPer ty ≤ x.reg) →
    ∃ t d, exec (.loadDataReturn { op := o.id }) s = .next t ∧ t.mem = s.mem ∧ t.poison = s.poison ∧ t.course? o.core o.slot = some d ∧
      (∀ x ∈ xs, d.holds file x.reg x.lane (tyWide ty) = narrow (tyWide ty) (extend ty (val x))) ∧
      (∀ x ∈ xs, x.got = false → bad x = true → val x = 0) ∧
      (∀ n L, L < 32 → (file = .v → ∀ x ∈ xs, x.lane = L → apart n x.reg (tyWide ty)) → d.readV n L = c.readV n L) ∧
      (∀ n L, L < 32 → (file = .y → ∀ x ∈ xs, x.lane = L → apart (n + 96) x.reg (tyWide ty)) → d.readY n L = c.readY n L) ∧
      (∀ n, (file = .s → ∀ x ∈ xs, apart n x.reg (tyWide ty)) → d.readS n = c.readS n) ∧
      (∀ L, L < 32 → d.readFlags L = xs.foldl (fun g x =>
        if bad x && x.who.getLsbD L then g ||| Flags.poisoned else g) (c.readFlags L) ||| s.raisedBy o L) ∧
      d = { c with v := d.v, y := d.y, s := d.s, propMask := d.propMask, flags := d.flags, counts := d.counts } ∧
      (s.ops.filter (fun p => p.stamp == o.stamp && p.cls == o.cls) = [o] →
        d.counts.read o.cls = c.counts.read o.cls - 1) ∧
      ∀ k j, k ≠ o.core ∨ j ≠ o.slot → t.course? k j = s.course? k j

/-- R134, R139 to R141, R240, R242, R270 to R272, R281, R355, R368: a store is performed: the bytes of its next accesses (those of one
line of memory, a release's in lane order; in scratchpad as many as the event says) hold its values where their space holds them, a
private line in its core's L1, and no other byte changes. While a lease or fetch of their lines is open it waits, so that fills take no
new lease, and is performed when that is over; a .h0 store of the package may first be performed in its core's store path. A store that
does not cover a poisoned line is dropped there, POISONED waits for its completion, and %poison_count counts it; one that a neighbour
refuses is dropped and leaves no mark. Which private line leaves a full L1 is open (log 39). -/
def Obligations.StoresPerform : Prop :=
  ∀ (s : State) (o : Op) (sp : Space) (ord : Order) (xs : List Access) (whole : List Nat), s.Flying o →
    o.kind = .store sp ord xs whole →
    let rest (n : Nat) := (together sp ord n xs).2
    let waits := s.leaseWait.any (fun x => x.1 == o.id)
    -- the accesses that go together: an access's line alone, and for a release no later access before an earlier one
    (∀ x zs, xs = x :: zs → sp = .global → (ord.release || ord.acquire) = false →
      o.next 128 = xs.filter (fun y => lineOf y.pa == lineOf x.pa) ∧ rest 128 = xs.filter (fun y => lineOf y.pa != lineOf x.pa)) ∧
    (sp = .global → (ord.release || ord.acquire) = true → o.next 128 ++ rest 128 = xs) ∧
    (∀ n, sp ≠ .global → o.next n ++ rest n = xs ∧ (o.next n).length = min (max 1 n) xs.length) ∧
    (∀ n, (o.next n).Pairwise (fun x y => x.overlaps y = false) → s.MayAct o (o.next n) →
      ∃ t, exec (.storePerformed o.id { many := n }) s = .next t ∧ s.Stored t o.core sp (o.next n) ∧ s.coursesKept t ∧
        ∀ p ∈ t.ops, p.id = o.id → p.done = true ∨ p.kind = .store sp ord (rest n) (wholeOf whole (rest n))) ∧
    (s.mayPerform o (o.next 128) false = true → waits = false → (o.inCore = true → s.runs o.core = true) →
      (∃ l ∈ o.nextLines, s.leaseOver l = false) → exec (.storePerformed o.id {}) s = .next { s with
        leaseWait := s.leaseWait ++ o.nextLines.map (fun l => (o.id, l)) }) ∧
    (waits = true → (∀ x ∈ s.leaseWait, x.1 = o.id → s.leaseOver x.2 = true ∧
        s.leaseWait.find? (fun y => y.1 != 0 && y.2 == x.2) = some x) →
      s.Lands o (o.next 128) → (o.next 128).Pairwise (fun x y => x.overlaps y = false) →
      ∃ t, exec (.writeLeaseWaitEnd o.id) s = .next t ∧ s.Stored t o.core sp (o.next 128) ∧ s.coursesKept t ∧
        ∀ x ∈ t.leaseWait, x.1 ≠ o.id) ∧
    (waits = true → (∃ x ∈ s.leaseWait, x.1 = o.id ∧ s.leaseOver x.2 = false) → exec (.writeLeaseWaitEnd o.id) s = .next s) ∧
    (sp = .global → ord.scope = 0 → s.runs o.core = true → o.inCore = false → waits = false →
      (∀ x ∈ xs, (homeOf x.pa).package = true) → (∀ p ∈ s.ops, s.lets p o .global xs false = true) →
      exec (.storePerformed o.id { atCore := true }) s = .next { s with stamp := s.stamp + 1, ops := s.ops.map (fun p =>
        if p.id = o.id then { p with inCore := true, seq := s.stamp } else p) }) ∧
    (∀ x, sp = .global → xs = [x] → s.mayPerform o [x] false = true → (o.inCore = true → s.runs o.core = true) →
      waits = false → (∀ l ∈ o.nextLines, s.leaseOver l = true) →
      (x.lost = false → s.poisoned x.pa = true → lineOf x.pa ∉ whole →
        ∃ t, exec (.storePerformed o.id {}) s = .next t ∧ t.mem = s.mem ∧ t.poison = s.poison ∧
        (t.ctx o.asid).poisonCount.toNat = min ((s.ctx o.asid).poisonCount.toNat + 1) (2 ^ 32 - 1) ∧
        ∀ c, o.inCore = false → s.runs o.core = true → s.showsLater o.core o.slot o.stamp = false → o.flags = [] → x.who = laneBit x.lane →
          s.ops.filter (fun p => p.stamp == o.stamp) = [o] → s.courseOf o.core o.slot o.stamp = some c → x.lane < 32 →
          ∃ d, t.course? o.core o.slot = some d ∧ d.readFlags x.lane = c.readFlags x.lane ||| Flags.poisoned) ∧
      (x.lost = true → ∃ t, exec (.storePerformed o.id {}) s = .next t ∧ t.mem = s.mem ∧ t.poison = s.poison ∧ t.ctxs = s.ctxs ∧
        s.coursesKept t))

/-- R143 to R145: an atomic or RED is performed as one read-modify-write: the place holds the new value, RED ends and raises its
flags, and the old value of an atomic is on its way to its lane, which it reaches with the flags; and the operations of R144. R355,
R368: at poison nothing is written, an atomic gives 0 with POISONED on its way, and a RED raises POISONED and counts in %poison_count;
one that a neighbour refuses writes nothing, and a RED then raises nothing. -/
def Obligations.AtomicsPerform : Prop :=
  (
    ∀ (s : State) (o : Op) (sp : Space) (file : File) (code : Nat) (ty : Ty) (rnd : Rnd) (ret : Bool) (ord : Order)
      (x : Access) (c : Course), s.Flying o → o.kind = .rmw sp file code ty rnd ret ord [x] [] → sp ≠ .priv → s.MayAct o [x] →
      s.courseOf o.core o.slot o.stamp = some c → x.lane < 32 →
      let old := extend ty (BitVec.ofNat 64 (leNat (s.bytesAt o.core sp x)))
      let new := rmwValue code ty rnd old x
      let back : Reply := { lane := x.lane, reg := x.reg, va := x.va, val := old, poisoned := false, flags := new.2 }
      let wrote (t : State) := s.Stored t o.core sp (match new.1 with | some v => [{ x with val := v }] | none => [])
      ∃ t, exec (.storePerformed o.id {}) s = .next t ∧ wrote t ∧ s.coursesKept t ∧
        (ret = false → s.runs o.core = true → s.showsLater o.core o.slot o.stamp = false → o.flags = [] →
          s.ops.filter (fun p => p.stamp == o.stamp) = [o] →
          ∃ d, t.course? o.core o.slot = some d ∧ d.readFlags x.lane = c.readFlags x.lane ||| new.2) ∧
        (ret = true → { o with kind := .reply file (tyWide ty) ord [back] } ∈ t.ops)) ∧
  (
    ∀ (s : State) (o : Op) (file : File) (code : Nat) (ty : Ty) (rnd : Rnd) (ret : Bool) (ord : Order) (x : Access),
      s.Flying o → o.kind = .rmw .global file code ty rnd ret ord [x] [] → s.mayPerform o [x] false = true →
      (o.inCore = true → s.runs o.core = true) → s.leaseWait.any (fun y => y.1 == o.id) = false →
      (∀ l ∈ o.nextLines, s.leaseOver l = true) → s.poisoned x.pa = true ∨ x.lost = true →
      let back : Reply := { lane := x.lane, reg := x.reg, va := x.va, val := 0, poisoned := true, flags := 0, lost := x.lost }
      ∃ t, exec (.storePerformed o.id {}) s = .next t ∧ t.mem = s.mem ∧ t.poison = s.poison ∧ s.coursesKept t ∧
        (ret = true → { o with kind := .reply file (tyWide ty) ord [back] } ∈ t.ops ∧ t.ctxs = s.ctxs) ∧
        (ret = false → x.lost = true → t.ctxs = s.ctxs) ∧
        (ret = false → x.lost = false →
          (t.ctx o.asid).poisonCount.toNat = min ((s.ctx o.asid).poisonCount.toNat + 1) (2 ^ 32 - 1))) ∧
  (
    ∀ (s : State) (o : Op) (file : File) (wide : Bool) (ord : Order) (r : Reply) (c : Course), s.Flying o →
      o.kind = .reply file wide ord [r] → s.runs o.core = true → r.poisoned = false → r.lane < 32 →
      (file = .y → 96 ≤ r.reg) → s.courseOf o.core o.slot o.stamp = some c → s.showsLater o.core o.slot o.stamp = false →
      ∃ t d, exec (.loadDataReturn { op := o.id }) s = .next t ∧ t.mem = s.mem ∧ t.course? o.core o.slot = some d ∧
        d.holds file r.reg r.lane wide = narrow wide r.val ∧
        d.readFlags r.lane = c.readFlags r.lane ||| r.flags ||| s.raisedBy o r.lane ∧
        d = { c with v := d.v, y := d.y, s := d.s, propMask := d.propMask, flags := d.flags, counts := d.counts } ∧
        ∀ k j, k ≠ o.core ∨ j ≠ o.slot → t.course? k j = s.course? k j) ∧
  (
    ∀ (ty : Ty) (rnd : Rnd) (old : W64) (x : Access), tyFloat ty = false →
      (∃ v, rmwValue 0 ty rnd old x = (some v, Flags.none) ∧ intOf ty v = brought ty false (intOf ty old + intOf ty x.val)) ∧
      (∃ v, rmwValue 1 ty rnd old x = (some v, Flags.none) ∧ intOf ty v = min (intOf ty old) (intOf ty x.val)) ∧
      (∃ v, rmwValue 2 ty rnd old x = (some v, Flags.none) ∧ intOf ty v = max (intOf ty old) (intOf ty x.val)) ∧
      rmwValue 3 ty rnd old x = (some (old &&& x.val), Flags.none) ∧
      rmwValue 4 ty rnd old x = (some (old ||| x.val), Flags.none) ∧
      rmwValue 5 ty rnd old x = (some (old ^^^ x.val), Flags.none) ∧
      rmwValue 6 ty rnd old x = (some x.val, Flags.none) ∧
      rmwValue 7 ty rnd old x = (if old = x.cmp then some x.val else none, Flags.none)) ∧
  (
    ∀ (ty : Ty) (rnd : Rnd) (old : W64) (x : Access), tyFloat ty = true →
      let f := fmtOf ty
      (∃ v fl, rmwValue 0 ty rnd old x = (some v, fl) ∧ f.IsSum rnd false (f.decode old) (f.decode x.val) (v, fl)) ∧
      (∃ v fl, rmwValue 1 ty rnd old x = (some v, fl) ∧ f.IsExtreme true old x.val (v, fl)) ∧
      (∃ v fl, rmwValue 2 ty rnd old x = (some v, fl) ∧ f.IsExtreme false old x.val (v, fl)))

/-- R157, R165: a pass of a WAITADDR whose reads are all made ends: it goes on where every lane's word differs from its comparand, or
its timeout has passed, with the words in D, and else stands until the next wake. A wake, or the timeout, begins a pass anew, whose
reads are made once they may be. A queue operation that waits first is served once it can be, and not while its core may not issue
(R319): a push's items are in the ring, a pop's on their way to D. -/
def Obligations.HeldWordsEnd : Prop :=
  (
    ∀ (i : Nat) (s : State) (x : Watch) (c : Course), s.watch i = some x → s.runs x.core = true →
      s.course? x.core x.slot = some c → c.stamp = x.stamp → (get {} c.entries x.entry).valid = true → destOk x.word = true →
      (x.lanes.map (·.lane)).Nodup → (x.word.hints.uniform = true → x.lanes.length ≤ 1) → (∀ y ∈ x.lanes, y.lane < 32) →
      let wide := tyWide x.word.ty
      -- the fragment goes on with the words in D
      let goesOn (e : Instr) := ∃ t d, exec e s = .next t ∧ t.watches = s.watches.filter (fun y => y.id != i) ∧ t.mem = s.mem ∧
        t.course? x.core x.slot = some d ∧ (∀ y ∈ x.lanes, d.dest x.word wide y.lane = narrow wide y.val) ∧
        (∀ n L, L < 32 → (coversV x.word wide n && (x.lanes.map (·.lane)).contains L) = false → d.readV n L = c.readV n L) ∧
        d.p = c.p ∧ get {} d.entries x.entry =
          { get {} c.entries x.entry with pc := addPc (get {} c.entries x.entry).pc 12, held := false, began := none }
      -- the pass that has begun anew
      let anew : Watch := { x with reading := true, woken := false, at_ := s.clock,
                                   lanes := x.lanes.map (fun k => { k with got := false, bad := false }) }
      let begun : State := { s.sendClass x.core .waitaddr with watches := s.watches.map (fun y =>
        if y.id = i then { y with reading := true, woken := false, at_ := s.clock,
                                  lanes := y.lanes.map (fun k => { k with got := false, bad := false }) } else y) }
      (x.reading = true → (∀ y ∈ x.lanes, y.got = true ∧ y.bad = false) →
        ((∀ y ∈ x.lanes, y.val ≠ y.cmp) ∨ x.left = some 0 → goesOn (.waitaddrReread i)) ∧
        ((∃ y ∈ x.lanes, y.val = y.cmp) → x.left ≠ some 0 → exec (.waitaddrReread i) s =
          .next { s with watches := s.watches.map (fun y => if y.id = i then { y with reading := false } else y) }) ∧
        (x.left = some 0 → goesOn (.waitaddrTimeout i))) ∧
      (x.reading = false → x.lanes ≠ [] → begun.mayRead anew.asOp = false →
        (x.woken = true → exec (.waitaddrReread i) s = .next begun) ∧
        (x.left = some 0 → exec (.waitaddrTimeout i) s = .next begun)) ∧
      (x.reading = false → x.woken = false → exec (.waitaddrReread i) s = .next s)) ∧
  (
    ∀ (s : State) (team k : Nat) (t : Team) (x : QWait) (xs : List QWait) (f : Frag), lookup? s.teams team = some t →
      t.qwaits.filter (fun y => y.queue == k) = x :: xs →
      let u : State := { s with issuer := { core := t.core, slot := x.slot, entry := x.entry } }
      let w := x.word
      let q := s.queue t k
      let n := laneCount f.exec
      u.frag w = some f → f.c.stamp = x.stamp → x.entry = f.entry → f.c.team = team → w.imm.toNat % 16 = k →
      u.gated f w = false → f.exec ≠ 0 → w.hints.uniform = false →
      s.scratchSettled x.stamp = true → queueOk w t q n = true →
      let served := Instr.queueHeldOperationServed t.core team k
      (s.mayIssue t.core = false → exec served s = .next s) ∧
      (s.mayIssue t.core = true →
      (x.push = true → s.releasable f.core f.c.stamp 0 = true → n ≤ q.allow → q.count + n ≤ q.cap →
        ∃ v, exec served s = .next v ∧ v.mem = s.mem ∧
        (v.queue t k).head = q.head ∧ (v.queue t k).tail = (q.tail + n) % 65536 ∧ (v.queue t k).allow = q.allow - n ∧
        ∀ y ∈ (v.team team).qwaits, y.stamp ≠ x.stamp ∨ y.entry ≠ x.entry) ∧
      (x.push = false → n ≤ q.count → ∃ v vals, exec served s = .next v ∧ v.mem = s.mem ∧
        (∃ o ∈ v.ops, o.id = s.stamp ∧ o.kind = .qpop (destOf w).1 (tyWide w.ty) vals ∧ o.done = false ∧ o.core = f.core ∧
          o.slot = f.slot ∧ o.stamp = f.c.stamp) ∧
        vals.map (fun r => (r.lane, r.reg, r.val, r.poisoned, r.flags)) = (lanesOf f.exec).zipIdx.map (fun y =>
          (y.1, (destOf w).2,
           BitVec.ofNat 64 (s.spadNat t.core (t.base + q.base + q.bytes * ((q.head + y.2) % 65536 % q.cap)) q.bytes), false, 0)) ∧
        (v.queue t k).head = (q.head + n) % 65536 ∧ (v.queue t k).tail = q.tail ∧
        ∀ y ∈ (v.team team).qwaits, y.stamp ≠ x.stamp ∨ y.entry ≠ x.entry))) ∧
  (
    ∀ (s : State) (o : Op) (file : File) (wide : Bool) (r : Reply) (c : Course), s.Flying o →
      o.kind = .qpop file wide [r] → s.runs o.core = true → r.poisoned = false → r.flags = 0 → r.lane < 32 →
      (file = .y → 96 ≤ r.reg) → s.courseOf o.core o.slot o.stamp = some c → s.showsLater o.core o.slot o.stamp = false →
      ∃ t d, exec (.queueOperationComplete o.id) s = .next t ∧ t.mem = s.mem ∧ t.course? o.core o.slot = some d ∧
        d.holds file r.reg r.lane wide = narrow wide r.val ∧
        ∀ k j, k ≠ o.core ∨ j ≠ o.slot → t.course? k j = s.course? k j)

/-- R159 to R161, R265 to R267: a pool operation, lanes in ascending order, that comes to the switch of its sector, of its die or of
its home's die pairs with the longest-held opposite of its pool whose hold is not over, is held for its part of its window where
fewer than 32 are, or goes on; at the end of its hold it goes on. At its home it waits for the leases of the lines that it
writes, then moves one item between its slot and the descriptor's ring or stack and counts; where there is no room, or no item, it
only counts, and so it does at a malformed descriptor or where its item faults, which leave a fault record of KIND 3. R380: at a
poisoned descriptor it does neither, at a poisoned slot a push only counts and a pop takes the slot and gives 0. R355: one that a
neighbour refuses does nothing. The answer reaches the lane's predicate and, for a pop, its register. -/
def Obligations.PoolsRun : Prop :=
  (
    ∀ (s : State) (q : PoolOp), s.poolOp q.id = some q →
      let stage (n : Nat) (y : PoolOp) : PoolOp := if y.id = q.id then { y with stage := n } else y
      let leaves (y : PoolOp) : PoolOp := if y.id = q.id then { y with stage := y.onward } else y
      let half := (q.window + 1) / 2
      let arrives := Instr.poolSwitchArrival q.id
      -- both have come to the turn of their lanes: the earlier lanes of their instructions have been performed on the descriptor (R271)
      let paired (held : List PoolOp) : Prop := ∀ x, q.partner s.clock held = some x → x.id ≠ q.id →
        ((s.poolTurn q && s.poolTurn x) = false → exec arrives s = .next s) ∧
        (s.poolTurn q = true → s.poolTurn x = true → q.core ≠ peerCore → x.core ≠ peerCore →
        let item := if q.push then q.item else x.item
        ∃ t, exec arrives s = .next t ∧ t.mem = s.mem ∧ t.cores = s.cores ∧
          ∀ y ∈ [q, x], { y with stage := 6, ok := true, ans := if y.push then 0 else item } ∈ t.pool)
      let holds (n len : Nat) : Prop := exec arrives s = .next { s with pool := s.pool.filter (fun y => y.id != q.id) ++
        [{ q with stage := n, until_ := s.clock + len }] }
      (q.stage = 0 → s.poolMayGo q = true → s.runs q.core = true →
        let held := heldAt 1 (fun y => sectorOf y.core == sectorOf q.core) s
        paired held ∧
        (q.partner s.clock held = none → q.window = 0 ∨ 32 ≤ held.length →
          exec arrives s = .next { s with pool := s.pool.map (stage 2) }) ∧
        (q.partner s.clock held = none → 0 < q.window → held.length < 32 → holds 1 half)) ∧
      (q.stage = 2 →
        let held := heldAt 3 (fun y => dieOf y.core == dieOf q.core) s
        paired held ∧
        (q.partner s.clock held = none → q.window ≤ half ∨ 32 ≤ held.length →
          exec arrives s = .next { s with pool := s.pool.map leaves }) ∧
        (q.partner s.clock held = none → half < q.window → held.length < 32 → holds 3 (q.window - half))) ∧
      (q.stage = 4 →
        let held := heldAt 3 (fun y => dieOf y.core == homeDie q.pa) s
        paired held ∧
        (q.partner s.clock held = none → exec arrives s = .next { s with pool := s.pool.map (stage 5) })) ∧
      (q.stage = 1 → q.until_ ≤ s.clock →
        exec (.fretWindowExpiry q.id) s = .next { s with pool := s.pool.map (stage 2) }) ∧
      (q.stage = 3 → q.until_ ≤ s.clock →
        exec (.fretWindowExpiry q.id) s = .next { s with pool := s.pool.map leaves })) ∧
  (
    ∀ (s : State) (q : PoolOp) (p : Page), s.poolOp q.id = some q → q.stage = 5 → q.core ≠ peerCore →
      s.poolTurn q = true →
      let d := s.poolDesc q.pa
      let slot := if q.push then (if d.mode then d.tail else d.count) else (if d.mode then d.head else d.count - 1)
      let size := if q.wide || q.push then 8 else 4
      let full := if q.push then d.count = d.cap else d.count = 0
      let busy := (s.poolLines q).filter (fun l => !s.linesFree l || s.fetching l)
      let run := Instr.poolOpAtHome q.id
      -- a descriptor that an operation leaves: its ends and its counts
      let counted (t : State) : Prop := ∀ e, e = t.poolDesc q.pa →
        e.pushes = (if q.push then d.pushes + 1 else d.pushes) % 2 ^ 64 ∧
        e.pops = (if q.push then d.pops else d.pops + 1) % 2 ^ 64 ∧
        (e.mode, e.window, e.base, e.cap) = (d.mode, d.window, d.base, d.cap)
      let answered (t : State) (ok poisoned : Bool) (ans : W64) (info : Option (Bool × Nat)) : Prop :=
        ∃ lease, { q with stage := 6, ok, ans, poisoned, info, lease } ∈ t.pool
      (busy ≠ [] → (∀ x ∈ s.leaseWait, x.1 ≠ q.id) → exec run s = .next (s.awaitLease q.id busy)) ∧
      let beyond (t : State) : Prop := ∀ a, a < q.pa ∨ q.pa + 64 ≤ a → t.readByte a = s.readByte a
      let same (t : State) : Prop := ∀ e, e = t.poolDesc q.pa → (e.head, e.tail, e.count) = (d.head, d.tail, d.count)
      let took (t : State) : Prop := ∀ e, e = t.poolDesc q.pa → e.count = (if q.push then d.count + 1 else d.count - 1) ∧
        e.tail = (if q.push && d.mode then (d.tail + 1) % d.cap else d.tail) ∧
        e.head = (if !q.push && d.mode then (d.head + 1) % d.cap else d.head)
      -- the operation only counts, and its context gets a fault record
      let reports (code : Nat) : Prop := ∃ u, exec run s = .next (u.report q.asid
          { kind := 3, code, va := q.va, grid := q.gid, core := q.core, team := q.linear }) ∧
        counted u ∧ same u ∧ beyond u ∧ answered u false false 0 (some (d.mode, d.window))
      (d.bad = true ↔ d.cap = 0 ∨ d.cap < d.count ∨ (d.mode = true ∧ (d.cap ≤ d.head ∨ d.cap ≤ d.tail)) ∨ d.reserved = true ∨
        d.base % 8 ≠ 0) ∧
      (busy = [] → q.lost = true → ∃ t, exec run s = .next t ∧ t.mem = s.mem ∧ answered t false (!q.push) 0 none) ∧
      (busy = [] → q.lost = false → s.poisoned q.pa = true →
        ∃ t, exec run s = .next t ∧ t.mem = s.mem ∧ answered t false true 0 none) ∧
      (busy = [] → q.lost = false → s.poisoned q.pa = false → d.bad = true → reports 0x03) ∧
      (busy = [] → q.lost = false → s.poisoned q.pa = false → d.bad = false →
        (full → ∃ t, exec run s = .next t ∧ counted t ∧ answered t false false 0 (some (d.mode, d.window)) ∧
          same t ∧ beyond t) ∧
        (¬ full → 2 ^ 57 ≤ d.base + 8 * slot ∨ s.walk q.asid (d.base + 8 * slot) = .absent → reports 0x10) ∧
        (¬ full → d.base + 8 * slot < 2 ^ 57 → s.walk q.asid (d.base + 8 * slot) = .page p →
          (if q.push then p.write else p.read) = false → reports 0x11) ∧
        (¬ full → d.base + 8 * slot < 2 ^ 57 → s.walk q.asid (d.base + 8 * slot) = .page p →
          (if q.push then p.write else p.read) = true → s.poisoned p.pa = true →
          ∃ t, exec run s = .next t ∧ counted t ∧ beyond t ∧ answered t (!q.push) true 0 (some (d.mode, d.window)) ∧
            (q.push = true → same t) ∧ (q.push = false → took t)) ∧
        (¬ full → d.base + 8 * slot < 2 ^ 57 → s.walk q.asid (d.base + 8 * slot) = .page p →
          (if q.push then p.write else p.read) = true → s.poisoned p.pa = false → s.linkDown p.pa = false →
          p.pa + 8 ≤ q.pa ∨ q.pa + 64 ≤ p.pa →
          ∃ t, exec run s = .next t ∧ counted t ∧
            answered t true false (if q.push then 0 else BitVec.ofNat 64 (s.readNat p.pa size)) (some (d.mode, d.window)) ∧
            (q.push = true → t.readNat p.pa 8 = q.item.toNat) ∧ took t ∧
            ∀ a, (a < q.pa ∨ q.pa + 64 ≤ a) → (q.push = false ∨ a < p.pa ∨ p.pa + 8 ≤ a) → t.readByte a = s.readByte a))) ∧
  (
    ∀ (s : State) (o : Op) (pop : Bool) (c : Course), s.Flying o → o.kind = .pool pop → s.runs o.core = true →
      s.courseOf o.core o.slot o.stamp = some c → s.showsLater o.core o.slot o.stamp = false →
      let qs := s.pool.filter (fun q => q.op == o.id)
      (∀ q ∈ qs, q.stage = 6 ∧ q.poisoned = false ∧ q.lane < 32 ∧ q.core = o.core ∧ q.slot = o.slot ∧ q.stamp = o.stamp ∧
        q.push = !pop ∧ q.file ≠ .s ∧ (q.file = .y → 96 ≤ q.reg)) → qs.Pairwise (fun x y => x.lane ≠ y.lane) →
      ∃ t d, exec (.queueOperationComplete o.id) s = .next t ∧ t.mem = s.mem ∧
        t.pool = s.pool.filter (fun q => q.op != o.id) ∧ t.course? o.core o.slot = some d ∧
        (∀ q ∈ qs, (pop = true → d.holds q.file q.reg q.lane q.wide = narrow q.wide q.ans) ∧
          (q.pred ≠ 0 → (d.readP q.pred).getLsbD q.lane = q.ok)) ∧
        (∀ n L, L < 32 → (pop = true → ∀ q ∈ qs, q.lane = L → q.file = .v → apart n q.reg q.wide) →
          d.readV n L = c.readV n L) ∧
        d = { c with v := d.v, y := d.y, propMask := d.propMask, p := d.p, flags := d.flags, counts := d.counts } ∧
        (∀ L, L < 32 → d.readFlags L = c.readFlags L ||| s.raisedBy o L) ∧
        (∀ p ∈ t.ops, p.id = o.id → p.done = true) ∧
        ∀ k j, k ≠ o.core ∨ j ≠ o.slot → t.course? k j = s.course? k j)

/-- R190 to R192, R262, R263: ZLD and ZST act on the decoded blocks in the buffer, memory unchanged; a block that is not there is
decoded from its coded bits and enters it, in place of blocks of its sets. A block that is clean, or whose code is stored already,
leaves the buffer without a write, a changed one leaves the code of its elements in memory, once the leases of its lines are over.
ZFLUSH first decodes the blocks that it names and that are not there, then cleans one changed block after another, which stays with
the elements that its code decodes to. -/
def Obligations.ArraysPerform : Prop :=
  (
    ∀ (s : State) (o : Op) (as : List ZAccess) (E : ZAccess → ZEntry) (file : File) (c : Course), s.Flying o →
      o.kind = .zload file false as → s.mayPerformZ o = true → s.runs o.core = true →
      s.courseOf o.core o.slot o.stamp = some c → s.showsLater o.core o.slot o.stamp = false → file ≠ .s →
      (∀ a ∈ as, a.got = false ∧ s.zentry a.pa = some (E a) ∧ (E a).shape = a.shape ∧ a.lane < 32 ∧
        (file = .y → 96 ≤ a.reg)) → as.Pairwise (fun x y => x.lane ≠ y.lane) →
      ∃ t d, exec (.loadDataReturn { op := o.id }) s = .next t ∧ t.mem = s.mem ∧ (∀ pa, t.zentry pa = s.zentry pa) ∧
        t.course? o.core o.slot = some d ∧
        (∀ a ∈ as, d.holds file a.reg a.lane a.shape.wide = narrow a.shape.wide ((E a).elems.getD a.elem 0)) ∧
        d = { c with v := d.v, y := d.y, propMask := d.propMask, flags := d.flags, counts := d.counts } ∧
        ∀ L, L < 32 → d.readFlags L = c.readFlags L ||| s.raisedBy o L) ∧
  (
    ∀ (s : State) (o : Op) (a : ZAccess) (file : File) (c : Course), s.Flying o → o.kind = .zload file false [a] →
      s.mayPerformZ o = true → s.runs o.core = true → s.courseOf o.core o.slot o.stamp = some c → file ≠ .s → a.got = false →
      a.lane < 32 → (file = .y → 96 ≤ a.reg) → s.zentry a.pa = none → s.zvictims a.shape a.pa = [] →
      (∀ l ∈ a.shape.lines a.pa a.pa2, l ∉ s.poison) →
      let e : ZEntry := { pa := a.pa, pa2 := a.pa2, asid := o.asid, shape := a.shape,
                          elems := a.shape.decode (s.codedBits a.shape a.pa a.pa2), dirty := 0 }
      -- the ways that the block takes have room
      (((s.l2Reads (a.shape.lines a.pa a.pa2)).setZ e).zroom e).isSome = true →
      ∃ t d, exec (.loadDataReturn { op := o.id }) s = .next t ∧ t.mem = s.mem ∧ t.course? o.core o.slot = some d ∧
        d.holds file a.reg a.lane a.shape.wide = narrow a.shape.wide (e.elems.getD a.elem 0) ∧ t.zentry a.pa = some e) ∧
  (
    ∀ (s : State) (o : Op) (a : ZAccess) (e : ZEntry), s.Flying o → s.mayPerformZ o = true → s.zentry a.pa = some e →
      e.shape = a.shape → a.elem < e.elems.length → o.kind = .zstore [a] →
      ∃ t, exec (.storePerformed o.id {}) s = .next t ∧ t.mem = s.mem ∧ s.coursesKept t ∧
        t.zentry a.pa = some { e with elems := e.elems.set a.elem a.val, dirty := e.dirty ||| ((1#64) <<< a.elem) } ∧
        ∀ pa, pa ≠ a.pa → t.zentry pa = s.zentry pa) ∧
  (
    ∀ (s : State) (e : ZEntry), s.zentry e.pa = some e →
      let n := e.shape.bytes
      let gone := s.zbuf.filter (fun x => x.pa != e.pa)
      let waits := s.leaseWait.filter (fun x => !(x.1 == 0 && (e.shape.lines e.pa e.pa2).contains x.2))
      (s.zwrites e = false → exec (.blockBufferEviction e.pa) s = .next { s with zbuf := gone, leaseWait := waits }) ∧
      (s.zbusy e ≠ [] → (∀ x ∈ s.leaseWait, x.1 ≠ 0) →
        exec (.blockBufferEviction e.pa) s = .next (s.awaitLease 0 (s.zbusy e))) ∧
      (s.zwrites e = true → s.zbusy e = [] → e.pa % 4096 + n ≤ 4096 →
        (∀ l ∈ e.shape.lines e.pa e.pa2, l ∉ s.poison) →
        ∃ t, exec (.blockBufferEviction e.pa) s = .next t ∧ t.zbuf = gone ∧
          t.codedBits e.shape e.pa e.pa2 = e.shape.encode e.elems % 2 ^ (8 * n) ∧
          ∀ a, a < e.pa ∨ e.pa + n ≤ a → t.readByte a = s.readByte a)) ∧
  (
    ∀ (s : State) (o : Op) (rs : List ZRange), s.Flying o → o.kind = .zflush rs → s.mayPerformZ o = true →
      (∀ x ∈ s.leaseWait, x.1 ≠ o.id) →
      let run := Instr.storePerformed o.id {}
      let plain := ∀ r ∈ rs, r.opens = false
      (∀ e, e ∈ s.zDirty rs ↔ e ∈ s.zbuf ∧ e.dirty ≠ 0 ∧ ∃ r ∈ rs, r.shape = e.shape ∧ r.lo ≤ e.pa ∧ e.pa < r.lo + r.len) ∧
      (plain → s.zDirty rs = [] → ∃ t, exec run s = .next t ∧ t.mem = s.mem ∧ t.zbuf = s.zbuf ∧ s.coursesKept t ∧
        ∀ p ∈ t.ops, p.id = o.id → p.done = true) ∧
      (∀ e es, plain → s.zDirty rs = e :: es → s.zbusy e ≠ [] → exec run s = .next (s.awaitLease o.id (s.zbusy e))) ∧
      (∀ e es, plain → s.zDirty rs = e :: es → s.zbusy e = [] → s.zwrites e = true →
        let n := e.shape.bytes
        e.pa % 4096 + n ≤ 4096 → (∀ l ∈ e.shape.lines e.pa e.pa2, l ∉ s.poison) →
        ∃ t, exec run s = .next t ∧ t.codedBits e.shape e.pa e.pa2 = e.shape.encode e.elems % 2 ^ (8 * n) ∧
          t.zentry e.pa = some { e with elems := e.shape.decode (e.shape.encode e.elems), dirty := 0 } ∧ s.coursesKept t ∧
          (∀ pa, pa ≠ e.pa → t.zentry pa = s.zentry pa) ∧ (∃ p ∈ t.ops, p.id = o.id ∧ p.done = false) ∧
          ∀ a, a < e.pa ∨ e.pa + n ≤ a → t.readByte a = s.readByte a) ∧
      (∀ r qs, rs = r :: qs → r.opens = true → s.zentry r.lo = none → s.zvictims r.shape r.lo = [] →
        let e : ZEntry := { pa := r.lo, pa2 := r.pa2, asid := o.asid, shape := r.shape,
                            elems := r.shape.decode (s.codedBits r.shape r.lo r.pa2), dirty := 0 }
        (((s.l2Reads (r.shape.lines r.lo r.pa2)).setZ e).zroom e).isSome = true →
        ∃ t, exec run s = .next t ∧ t.mem = s.mem ∧ t.zentry r.lo = some e ∧ s.coursesKept t))

/-- R154, R198 to R202: a job begins once nothing earlier meets it; raw bytes pass from their source to the stage buffer and from it
to the destination, where the barrier counts them; a fault leaves the job waiting with its cause; an iteration arrives on its slot's
full barrier; a finished job leaves the table, its operation complete and its flags raised. The engine's bytes are counted down to 0 at
least, its arrival takes one from PENDING, and where both are 0 the phase completes; that an arrival at PENDING 0 changes nothing, and
that a barrier with EXPECTED 0 completes no phase, are the model's choices (logs 93, 104). -/
def Obligations.JobsRun : Prop :=
  (
    ∀ (b : Barrier) (n : Nat),
      b.countDown n = { b with bytes := (b.countDown n).bytes } ∧ (b.countDown n).bytes.toNat = b.bytes.toNat - n ∧
      b.engineArrive = { b with pending := if b.pending = 0 then 0 else b.pending - 1 }) ∧
  (
    ∀ (t : Team) (n : Nat) (g : Barrier → Barrier),
      let b := g (t.barrier n)
      (t.act n g).barrier n = (if b.expected ≠ 0 ∧ b.pending = 0 ∧ b.bytes = 0 then
        { b with phase := !b.phase, pending := b.expected, phases := b.phases + 1 } else b) ∧
      ∀ k, k ≠ n → (t.act n g).barrier k = t.barrier k) ∧
  ∀ (s : State) (j : Job), s.jobAt j.id = some j → s.jobRuns j false = true →
    let put (k : Job) (js : List Job) : List Job := js.map (fun x => if x.id = k.id then k else x)
    let going := j.state = .running ∧ s.slotFree j = true ∧ j.iterDone = false ∧ s.jobRuns j true = true
    let chunk := Instr.transferChunk { job := j.id }
    -- the cores of every team run, so that nothing is kept at a port
    let awake : Prop := ∀ p ∈ s.teams, s.runs p.2.core = true
    (j.state = .queued →
      (∀ k ∈ s.jobs, k.id < j.id → sectorOf k.core = sectorOf j.core → k.asid = j.asid → s.jobsMeet j k = false) →
      ∃ t, exec (.transferJobStart j.id) s = .next t ∧ t.jobs = put { j with state := .running } s.jobs ∧
        s.coursesKept t ∧ (awake → t.mem = s.mem)) ∧
    (∀ g : Nat → Nat, going → j.buffer = none → j.c.raw = true → j.c.sspace = false →
      let n := min (j.c.srclen - j.srcDone) 4096
      let parts := pieces (wrapVa (j.c.srcAt j.iter + j.srcDone)) n
      (∀ p ∈ parts, s.engPage j false p.1 = .ok (g p.1) ∧ s.poisoned (g p.1) = false ∧ (homeOf (g p.1)).package = true) →
      ∃ t, exec chunk s = .next t ∧ t.mem = s.mem ∧ t.poison = s.poison ∧ t.ctxs = s.ctxs ∧ t.teams = s.teams ∧ s.coursesKept t ∧
        t.jobs = put { j with
          srcDone := j.srcDone + n
          taken := []
          buffer := some (parts.flatMap (fun p => s.readBytes (g p.1) p.2)) } s.jobs) ∧
    (∀ e, going → j.buffer = none → j.c.raw = true → j.c.sspace = false → e.cause ≠ .poison →
      s.engRead j (wrapVa (j.c.srcAt j.iter + j.srcDone)) (min (j.c.srclen - j.srcDone) 4096) = .error e →
      ∃ t, exec chunk s = .next t ∧ s.coursesKept t ∧ t.teams = s.teams ∧
        t.jobs = put { j with state := .faulted, srcDone := j.chunkSrc, dstDone := j.chunkDst, taken := [], cause := some e.cause,
                              faultVa := e.va, stage := 0 } s.jobs) ∧
    (∀ bs, ∀ g : Nat → Nat, going → j.buffer = some bs → bs ≠ [] → j.c.last = 9 → j.c.has 3 = false →
      j.dstDone = j.chunkDst → j.dstDone + bs.length ≤ j.c.dstlen →
      let start := j.c.dst + j.dstDone
      let parts := pieces start bs.length
      (∀ p ∈ parts, s.engPage j true p.1 = .ok (g p.1) ∧ s.poisoned (g p.1) = false ∧ (homeOf (g p.1)).package = true ∧
        s.leaseOver (lineOf (g p.1)) = true) →
      parts.Pairwise (fun p r => g p.1 + p.2 ≤ g r.1 ∨ g r.1 + r.2 ≤ g p.1) →
      ∃ t, exec chunk s = .next t ∧ s.coursesKept t ∧
        (awake → (∀ p ∈ parts, ∀ k < p.2, some (t.readByte (g p.1 + k)) = bs[p.1 - start + k]?) ∧
          ∀ a, (∀ p ∈ parts, a < g p.1 ∨ g p.1 + p.2 ≤ a) → t.readByte a = s.readByte a) ∧
        t.jobs = put { j with dstDone := j.dstDone + bs.length, chunkDst := j.dstDone + bs.length, chunkSrc := j.srcDone,
                              buffer := none, moved := j.moved + bs.length } s.jobs ∧
        (awake → j.c.done = 1 → t.teams = adjust s.teams j.team (fun x => x.act j.c.doneb (·.countDown bs.length)))) ∧
    (j.state = .running → j.iterDone = true → j.iter + 1 < j.c.loop →
      ∃ t, exec (.copylIteration j.id) s = .next t ∧ s.coursesKept t ∧
        t.jobs = put { j with iter := j.iter + 1, srcDone := 0, dstDone := 0, chunkSrc := 0, chunkDst := 0 } s.jobs ∧
        (awake → t.mem = s.mem ∧
          t.teams = adjust s.teams j.team (fun x => x.act (j.c.fullb + j.iter % j.c.slots) Barrier.engineArrive))) ∧
    (∀ o c, j.state = .running → j.iterDone = true → j.c.loop = 0 ∨ j.iter + 1 = j.c.loop →
      s.Flying o → o.id = j.id → s.courseOf o.core o.slot o.stamp = some c →
      ∃ t d, exec (.transferJobComplete j.id) s = .next t ∧ (awake → t.mem = s.mem) ∧
        t.jobs = s.jobs.filter (fun k => k.id != j.id) ∧ (∀ o ∈ t.ops, o.id = j.id → o.done = true) ∧
        t.course? o.core o.slot = some d ∧ c.kept d ∧
        (awake → s.runs o.core = true → s.showsLater o.core o.slot o.stamp = false → o.flags = [] →
          s.ops.filter (fun p => p.stamp == o.stamp) = [o] → ∀ L, L < 32 → d.readFlags L = c.readFlags L ||| j.flags))

/-- R52 to R60, R170, R174 to R178, R180 to R183: the engine runs the head of its queue: an operation starts; a multiply-accumulate promotes
one chunk of one group of rows after another, each element getting the exact sum of the chunk's products times the scales in one
rounding (R54: a bad product gives NaN and INVALID, a quiet NaN none); completion takes an operation from the queue with its effect:
MZERO clears a tile, MLOAD and MSTORE move a tile or its side vectors, MSMAX takes one step of the softmax, a scratchpad drain adds a
tile and may clear it, PLANES writes an image that reads as the elements, a multiply-accumulate promotes its last chunk and counts
dropped rows. The flags of every element are raised in every strand. A global drain adds a tile to memory at its home, but for poisoned
lines. An operation that ran at 650 mV changes nothing else of its course (R64). -/
def Obligations.TilesRun : Prop :=
  (
    ∀ (c : Core) (o : TileOp) (m : MmacFmt) (g chunk i j : Nat),
      let n := min 128 (m.k - 128 * chunk)
      let a (q : Nat) := c.aVal o m i (128 * chunk + q)
      let b (q : Nat) := c.bElem m.bTy m.bPlanes (o.z + g * 256 * m.gstride + (128 * chunk + q) * m.pitch + j * m.eb)
      let f := fmtOf (if m.wide then .f64 else .f32)
      let sa := c.scaleAt m.aGran (o.base + m.aScale) chunk i
      let sb := c.scaleAt m.bGran (o.base + m.bScale + g * 256 * m.gstride) chunk j
      let acc := f.decode (c.elem m.wide o.d i j)
      let finite (x : Fp) : Prop := ∃ s k e, x = .fin s k e
      let total : ℚ := acc.val + ((List.range n).map (fun q => match a q with
        | some x => x.val * (b q).val
        | none => 0)).sum * sa.val * sb.val
      let r := c.macElem o m g chunk i j
      (finite acc → finite sa → finite sb → (∀ q < n, finite (b q) ∧ ∀ x, a q = some x → finite x) →
        (total = 0 → (r.1 = f.zero false ∨ r.1 = f.zero true) ∧ r.2 = Flags.none) ∧
        (total ≠ 0 → f.Rounds o.round o.sat total r)) ∧
      ((∃ q < n, ∃ x, a q = some x ∧ (x.isSnan = true ∨ (b q).isSnan = true ∨ x.zeroInf (b q) = true)) →
        r = (f.canonNan, Flags.invalid)) ∧
      (finite acc → finite sa → finite sb → (∀ q < n, ∀ x, a q = some x → (finite x ∨ x = .nan false) ∧
          (finite (b q) ∨ b q = .nan false)) →
        (∃ q < n, ∃ x, a q = some x ∧ (x.isNan = true ∨ (b q).isNan = true)) → r = (f.canonNan, Flags.none))) ∧
  (
    ∀ (c : Core) (t : Ty) (p cols at_ i k : Nat),
      let w := (fmtOf t).w
      let hb := headBytes t
      let h := leNat (c.readScratch (at_ + hb * (i * cols + k)) hb)
      let neg := h / 2 ^ (8 * hb - 1) % 2 == 1
      let cls := h / 2 ^ (8 * hb - 3) % 4
      let bit (x : Nat) := leNat (c.readScratch (at_ + 64 * cols * hb + x * 8 * cols + i * cols / 8 + k / 8) 1) / 2 ^ (k % 8) % 2
      let m := ((List.range w).map (fun x => bit x * 2 ^ x)).sum
      let e := c.imageElem t p cols at_ i k
      (cls = 1 → e = .inf neg) ∧ (cls = 2 → e = .nan false) ∧ (cls = 3 → e = .nan true) ∧
      (cls = 0 → e = .fin neg (roundPlanes w p m)
        ((max (h % (if hb = 1 then 32 else 2048)) 1 : Int) - (fmtOf t).bias - w + 1)) ∧
      (∀ x, p = 0 ∨ w ≤ p → roundPlanes w p x = x) ∧
      (∀ x, 0 < p → p < w → (roundPlanes w p x : Int) = roundInt .rne ((x : ℚ) / 2 ^ (w - p)) * 2 ^ (w - p))) ∧
  (
    ∀ (c : Core) (off chunk index : Nat),
      let word (k : Nat) : Fp := (fmtOf .f32).decode (BitVec.ofNat 64 (leNat (c.readScratch (off + 4 * k) 4)))
      (c.scaleAt 0 off chunk index).val = 1 ∧ c.scaleAt 1 off chunk index = word 0 ∧
      c.scaleAt 2 off chunk index = word (chunk * 64 + index) ∧ c.scaleAt 3 off chunk index = word chunk) ∧
  (
    ∀ (c : Core) (m : MmacFmt) (base i k col : Nat),
      let n := 2 ^ m.spn
      let slot (q : Nat) : Nat :=
        leNat (c.readScratch (base + m.metaOff + (i * (m.k / 16) + k / 16) * n / 2 + q / 2) 1) / 16 ^ (q % 2) % 16
      m.spn ≠ 0 → (c.sparseCol m base i k = some col ↔
        ∃ q < n, slot q = k % 16 ∧ col = k / 16 * n + q ∧ ∀ p < n, q < p → slot p ≠ k % 16)) ∧
  (
    ∀ (cnt : List Nat), (groupsOf 0 0 cnt).2 = cnt.sum ∧ ∀ g lo hi, (g, lo, hi) ∈ (groupsOf 0 0 cnt).1 ↔
      ∃ n, cnt[g]? = some n ∧ n ≠ 0 ∧ lo = (cnt.take g).sum ∧ lo < 64 ∧ hi = min (lo + n) 64) ∧
  ∀ (s : State) (k : Nat) (o : TileOp) (os : List TileOp), (s.core k).tileQ = o :: os →
    let c := s.core k
    let m := MmacFmt.ofBits o.fa o.exact
    let eb := tyBytes o.ty
    let wide := o.ty == .f64
    let mac := o.kind = .mac ∨ o.kind = .macSparse ∨ o.kind = .macGrouped
    let place (at_ pitch i j : Nat) : Nat := at_ + i * (if pitch = 0 then 64 * eb else 16 * pitch) + eb * j
    let word (at_ n : Nat) : W64 := BitVec.ofNat 64 (leNat (c.readScratch at_ n))
    -- what completes: the effect on the core, and flags that its course gets
    let ends (after : Core → Prop) (raises : Nat → Nat → Flags) := ∃ t, exec (.tileOperationComplete k) s = .next t ∧ t.mem = s.mem ∧
      (t.core k).tileQ = os ∧ after (t.core k) ∧ (∀ p ∈ t.ops, p.id = o.op → p.done = true) ∧
      (∀ n, n ≠ k → t.core n = s.core n) ∧ (o.slow = false → 650 ≤ c.mv → s.coursesKept t) ∧
      (t.ctx o.asid).ragged = (s.ctx o.asid).ragged + (if o.kind = .macGrouped ∧ 64 < o.groups.2 then 1 else 0) ∧
      ∀ x, s.courseOf k o.slot o.stamp = some x → ∃ d, t.course? k o.slot = some d ∧
        ∀ L i j, L < 32 → i < 64 → j < 64 → (x.readFlags L ||| raises i j) &&& ~~~ d.readFlags L = 0
    let others (w : Bool) (d : Core) := ∀ n i j, n ≠ o.d → (w = true → n ≠ o.d + 1) → i < 64 → j < 64 →
      d.elem false n i j = c.elem false n i j
    let sides (d : Core) := ∀ n i, n < 4 → i < 64 → d.rowMaxAt n i = c.rowMaxAt n i ∧ d.rowSumAt n i = c.rowSumAt n i
    let kept (d : Core) := (∀ n i j, i < 64 → j < 64 → d.elem false n i j = c.elem false n i j) ∧ sides d
    let summed (g lo hi ch : Nat) (d : Core) := others m.wide d ∧ sides d ∧ ∀ i j, i < 64 → j < 64 →
      d.elem m.wide o.d i j = if lo ≤ i ∧ i < hi then narrow m.wide (c.macElem o m g ch i j).1 else c.elem m.wide o.d i j
    let zeroed (d : Core) := ∀ n i j, n = o.d ∨ (wide = true ∧ n = o.d + 1) → i < 64 → j < 64 →
      d.elem false n i j = 0 ∧ d.rowMaxAt n i = negInf ∧ d.rowSumAt n i = 0
    (s.runs k = true → o.started = false → exec (.tileOperationStart k) s =
      .next (s.mapCore k (fun c => { c with tileQ := { o with started := true, slow := c.mv < 650 } :: os }))) ∧
    (∀ g lo hi ch xs, s.runs k = true → o.started = true → mac → o.chunksLeft = ((g, lo, hi), ch) :: xs → xs ≠ [] →
      ∃ t fl, exec (.tileOperationStart k) s = .next t ∧ t.mem = s.mem ∧ s.coursesKept t ∧ summed g lo hi ch (t.core k) ∧
        (t.core k).tileQ = { o with chunk := o.chunk + 1, flags := fl, slow := o.slow || decide (c.mv < 650) } :: os ∧
        ∀ n, n ≠ k → t.core n = s.core n) ∧
    (o.kind = .mac ∨ o.kind = .macSparse →
      o.chunksLeft = ((List.range m.chunks).map (fun ch => ((0, 0, 64), ch))).drop o.chunk) ∧
    (o.kind = .macGrouped → o.groups = groupsOf 0 0 o.counts ∧
      o.chunksLeft = (o.groups.1.flatMap (fun g => (List.range m.chunks).map (fun ch => (g, ch)))).drop o.chunk) ∧
    (s.runs k = true → o.started = true → (lookup? s.teams o.team).isSome = true →
      (∀ p ∈ s.ops, p.id = o.op → p.core = k) →
      (o.kind = .zero → ends (fun d => others false d ∧ ∀ i j, i < 64 → j < 64 →
        d.elem false o.d i j = 0 ∧ d.rowMaxAt o.d i = negInf ∧ d.rowSumAt o.d i = 0) (fun _ _ => 0)) ∧
      (o.kind = .load → o.imm.getLsbD 12 = false →
        let x (i j : Nat) := mloadElem o.ty (word (place o.x (o.imm.toNat % 4096) i j) eb)
        (∀ i j, (fmtOf (if wide then .f64 else .f32)).IsConverted .rne false
          ((fmtOf o.ty).decode (word (place o.x (o.imm.toNat % 4096) i j) eb)) (x i j)) ∧
        ends (fun d => others wide d ∧ sides d ∧ ∀ i j, i < 64 → j < 64 → d.elem wide o.d i j = narrow wide (x i j).1)
          (fun i j => (x i j).2)) ∧
      (o.kind = .load → o.imm.getLsbD 12 = true → ends (fun d => (∀ n i j, d.elem false n i j = c.elem false n i j) ∧
        ∀ i, i < 64 → (d.rowMaxAt o.d i).toNat = leNat (c.readScratch (o.x + 4 * i) 4) ∧
          (d.rowSumAt o.d i).toNat = leNat (c.readScratch (o.x + 256 + 4 * i) 4)) (fun _ _ => 0)) ∧
      (o.kind = .store → o.imm.getLsbD 12 = false → o.imm.toNat % 4096 = 0 ∨ 64 * eb ≤ 16 * (o.imm.toNat % 4096) →
        let src := fmtOf (if wide then .f64 else .f32)
        let f := fmtOf o.ty
        let x (i j : Nat) := src.decode (c.elem wide o.d i j)
        (∀ i j, (o.modx = false → f.IsConverted o.round o.sat (x i j) (mstoreElem o c i j)) ∧
          (o.modx = true → f.inf = true →
            f.IsQuotient o.round o.sat (x i j) (src.decode ((c.rowSumAt o.d i).setWidth 64)) (mstoreElem o c i j))) ∧
        ends (fun d => kept d ∧ ∀ i j, i < 64 → j < 64 →
          leNat (d.readScratch (place o.x (o.imm.toNat % 4096) i j) eb) = (mstoreElem o c i j).1.toNat % 2 ^ (8 * eb))
          (fun i j => (mstoreElem o c i j).2)) ∧
      (o.kind = .store → o.imm.getLsbD 12 = true → ends (fun d => kept d ∧ ∀ i, i < 64 →
        leNat (d.readScratch (o.x + 4 * i) 4) = (c.rowMaxAt o.d i).toNat ∧
        leNat (d.readScratch (o.x + 256 + 4 * i) 4) = (c.rowSumAt o.d i).toNat) (fun _ _ => 0)) ∧
      (∀ g lo hi ch, mac → o.chunksLeft = [((g, lo, hi), ch)] →
        ends (summed g lo hi ch) (fun i j => if lo ≤ i ∧ i < hi then (c.macElem o m g ch i j).2 else 0)) ∧
      (o.kind = .drainSpad → o.ty = .f32 ∨ o.ty = .f64 →
        o.imm.toNat / 2 % 4096 = 0 ∨ 64 * eb ≤ 16 * (o.imm.toNat / 2 % 4096) →
        let at_ := place o.x (o.imm.toNat / 2 % 4096)
        let f := fmtOf o.ty
        ends (fun d => (o.modx = true → zeroed d) ∧ (o.modx = false → kept d) ∧ others wide d ∧ ∀ i j, i < 64 → j < 64 →
          leNat (d.readScratch (at_ i j) eb) = (f.add o.round false (f.decode (word (at_ i j) eb))
            (f.decode (c.elem wide o.d i j))).1.toNat % 2 ^ (8 * eb)) (fun _ _ => 0)) ∧
      (o.kind = .planes → o.imm.toNat % 2 ^ 16 ≠ 0 →
        let n := o.imm.toNat % 2 ^ 16
        let cols := chunkCols (o.imm.toNat / 2 ^ 28 % 4)
        let elemAt (i q : Nat) := o.x + i * (16 * (o.imm.toNat / 2 ^ 16 % 4096)) + q * eb
        let len := ((n + cols - 1) / cols - 1) * imageStride o.ty cols + imageBytes o.ty cols
        (∀ i q, i < 64 → q < n → elemAt i q + eb ≤ o.z ∨ o.z + len ≤ elemAt i q) →
        ends (fun d => kept d ∧
          (∀ i q, i < 64 → q < n → d.imageElem o.ty 0 cols (o.z + q / cols * imageStride o.ty cols) i (q % cols) =
            (fmtOf o.ty).decode (word (elemAt i q) eb)) ∧
          ∀ a, a < o.z ∨ o.z + len ≤ a → get 0 d.scratch a = get 0 c.scratch a) (fun _ _ => 0)) ∧
      (o.kind = .smax → o.d ≠ o.a →
        let f := fmtOf .f32
        let is (P : W64 × Flags → Prop) (x : W64) : Prop := ∃ fl, P (x, fl)
        let side (x : W32) : W64 := x.setWidth 64
        let power (x y : W64) (e : W64) : Prop := ∃ z, is (f.IsSum .rne false (f.decode x) (f.decode y).neg) z ∧
          e = (TFn.exp2.apply .exact false .f32 .rne z).1
        ends (fun d => (∀ n i j, n ≠ o.d → n ≠ o.a → i < 64 → j < 64 → d.elem false n i j = c.elem false n i j) ∧
          ∀ i, i < 64 → ∃ (t p : Nat → W64) (mx mn alpha rs la l : W64),
            (∀ j, j < 64 → is (f.IsProduct .rne false (f.decode (c.elem false o.a i j)) (f.decode (o.imm.setWidth 64))) (t j)) ∧
            treeSum (fun x y => (fminmax f false x y).1) 6 ((List.range 64).map (fun j => some (t j))) = some mx ∧
            is (f.IsExtreme false (side (c.rowMaxAt o.d i)) mx) mn ∧
            (mn = side negInf → alpha = 0x3F800000 ∧ ∀ j, j < 64 → p j = 0) ∧
            (mn ≠ side negInf → power (side (c.rowMaxAt o.d i)) mn alpha ∧ ∀ j, j < 64 → power (t j) mn (p j)) ∧
            treeSum (fun x y => (f.add .rne false (f.decode x) (f.decode y)).1) 6 ((List.range 64).map (fun j => some (p j))) = some rs ∧
            is (f.IsProduct .rne false (f.decode (side (c.rowSumAt o.d i))) (f.decode alpha)) la ∧
            is (f.IsSum .rne false (f.decode la) (f.decode rs)) l ∧
            d.rowMaxAt o.d i = low32 mn ∧ d.rowSumAt o.d i = low32 l ∧
            ∀ j, j < 64 → d.elem false o.a i j = narrow false (p j) ∧
              ∃ x, is (f.IsProduct .rne false (f.decode (c.elem false o.d i j)) (f.decode alpha)) x ∧
                d.elem false o.d i j = narrow false x) (fun _ _ => 0))) ∧
    (∀ f, o.kind = .drain → o.started = true → o.drained = false → o.ty = .f32 ∨ o.ty = .f64 →
      o.frames = (List.range eb).map f → (∀ a b, a < eb → b < eb → f a % 4096 = 0 ∧ (a ≠ b → f a ≠ f b)) →
      (∀ l ∈ o.drainLines, s.leaseOver l = true) →
      let home (i j : Nat) : Nat := f ((64 * i + j) * eb / 4096) + (64 * i + j) * eb % 4096
      let bad := o.drainLines.filter (fun l => decide (l ∈ s.poison))
      ∃ t, exec (.globalDrainAtHome k) s = .next t ∧ s.coursesKept t ∧ t.poison = s.poison ∧
        (t.core k).tileQ = { o with drained := true } :: os ∧
        (o.modx = true → zeroed (t.core k)) ∧ (o.modx = false → kept (t.core k)) ∧
        (t.ctx o.asid).poisonCount.toNat = min ((s.ctx o.asid).poisonCount.toNat + bad.length) (2 ^ 32 - 1) ∧
        (∀ i j, i < 64 → j < 64 → lineOf (home i j) ∉ s.poison → t.readNat (home i j) eb = ((fmtOf o.ty).add o.round false
          ((fmtOf o.ty).decode (BitVec.ofNat 64 (s.readNat (home i j) eb))) ((fmtOf o.ty).decode (c.elem wide o.d i j))).1.toNat
            % 2 ^ (8 * eb)) ∧
        ∀ a, (∀ b < eb, a < f b ∨ f b + 4096 ≤ a) ∨ lineOf a ∈ s.poison → t.readByte a = s.readByte a) ∧
    (o.kind = .drain → o.started = true → o.drained = false → (∃ l ∈ o.drainLines, s.leaseOver l = false) →
      (∀ x ∈ s.leaseWait, x.1 ≠ o.op) → exec (.globalDrainAtHome k) s =
        .next (s.awaitLease o.op (o.drainLines.filter (fun l => !s.leaseOver l))))

/-- R222, R224, R229, R230, R232, R234, R235: a join takes its lanes back; a serialised fragment takes up its next group, and after
the last every lane held; a decided trap enters its handler once earlier work has completed; a killed team leaves its core, and
where its grid is killed every team of the grid and of the grids below it does. -/
def Obligations.FragmentsAndTeams : Prop :=
  (
    ∀ (s : State) (core slot n : Nat) (c : Course), s.course? core slot = some c → s.strictHeld c.stamp = false →
      let e := get {} c.entries n
      let inside := c.live.filter (c.inside n)
      (e.valid = true → inside ≠ [] → (∀ p ∈ inside, c.isWaiting p.1 = true ∧ p.2.pc = e.pc) →
        (c.entries.map (fun p => p.1)).Nodup →
        ∃ t d, exec (.fragmentFusion core slot n) s = .next t ∧ t.mem = s.mem ∧ t.course? core slot = some d ∧
          d = { c with entries := d.entries } ∧ (∀ p ∈ inside, (get {} d.entries p.1).valid = false) ∧
          ∀ m, (∀ p ∈ inside, p.1 ≠ m) → { get {} d.entries m with age := 0 } = { get {} c.entries m with age := 0 }) ∧
      (∀ r, (c.framesOf n).getLast? = some r → (lookup? c.entries n).isSome = true → e.valid = true → e.pc = r.rpc →
        ∃ t d, exec (.serialFrameAdvance core slot n) s = .next t ∧ t.mem = s.mem ∧ t.course? core slot = some d ∧
          d = { c with entries := d.entries, frames := d.frames } ∧
          (∀ m, m ≠ n → get {} d.entries m = get {} c.entries m) ∧
          (∀ g gs, r.pending = g :: gs → (get {} d.entries n).mask = g.mask ∧ (get {} d.entries n).pc = g.pc ∧
            (d.framesOf n).getLast? = some { r with pending := gs, held := r.held ||| e.mask }) ∧
          (r.pending = [] → (get {} d.entries n).mask = r.held ||| e.mask ∧ (get {} d.entries n).pc = r.rpc ∧
            d.framesOf n = (c.framesOf n).dropLast))) ∧
  (
    ∀ (s : State) (core slot : Nat) (c : Course) (x : TrapWait) (e : Entry), s.course? core slot = some c →
      c.trapWait = some x → lookup? c.entries x.entry = some e → s.outstanding c.stamp = false →
      ∃ t d, exec (.handlerEntry core slot) s = .next t ∧ t.mem = s.mem ∧ t.course? core slot = some d ∧
        d.trapCause = x.trap.cause.code ∧ d.trapPc = e.pc ∧ d.super = true ∧ d.trapWait = none ∧
        d.saved = some { entry := x.entry, mask := e.mask, pc := e.pc, frames := (c.framesOf x.entry).length } ∧
        (get {} d.entries x.entry).pc = addPc (s.ctx (s.grid c.grid).asid).handler 0 ∧
        (get {} d.entries x.entry).mask = e.mask ∧
        (d.v, d.y, d.s, d.p, d.flags, d.frames, d.counts) = (c.v, c.y, c.s, c.p, c.flags, c.frames, c.counts) ∧
        ∀ k j, k ≠ core ∨ j ≠ slot → t.course? k j = s.course? k j) ∧
  (
    ∀ (s : State) (team : Nat) (t : Team), lookup? s.teams team = some t →
      (∃ u, exec (.teamKill t.core (.one team)) s = .next u ∧ u.mem = s.mem ∧ lookup? u.teams team = none ∧
        (∀ j ∈ t.slots, u.course? t.core j = none) ∧ (∀ n, n ≠ team → lookup? u.teams n = lookup? s.teams n) ∧
        ∀ x ∈ (u.core t.core).tileQ, x.team ≠ team) ∧
      ∃ u, exec (.teamKill t.core (.gridOf team)) s = .next u ∧ u.mem = s.mem ∧
        (∀ p ∈ u.teams, p.2.grid ∉ s.family 10 [t.grid]) ∧ ∀ p ∈ u.teams, p ∈ s.teams)

/-! ### Events of the device -/

/-- R240, R247, R248, R251, R331, R332, R351, R352, R367: a requester's lookup and the walk that misses share; a read that misses in its
die's slice opens a combining entry or joins one of another cluster within 32 cycles, and the data that arrives answers the reads; a
class-3 read takes an entry of a switch on its way, or joins one whose read passed in the cycle of its issue or later; a line that
leaves L2 or an L1 leaves the bytes of memory as they were seen, what is deduplicated shares a copy equal to its line; a recall takes
every copy, and one that no one answers poisons the line; an evicted copy waits in its victim buffer for its grant. Which set a line
takes room in, and that any line may leave, are the model's choices (log 29). -/
def Obligations.CachesAndWalks : Prop :=
  ∀ (s : State) (line : Nat),
    let pa := 128 * line
    let home := homeDie pa
    -- the home's slice has few lines beside this one, so that L2 takes it
    let takes : Prop := ((s.sliceLines home (sliceOf pa)).filter (fun l => l != line)).length < 6
    let dirty (t : State) : Prop := lookup? t.l2 line = some Mesi.m
    let unkept (die : Nat) := s.kept.filter (fun k => k != 4 * line + die)
    let alone (asid va k : Nat) : Prop := (∀ e ∈ (s.core k).tlb, e.covers asid va = false) ∧
      ∀ e ∈ s.sectorTlb, e.1 = sectorOf k → e.2.covers asid va = false
    let misses (o : Op) : Prop := line ∈ o.missing ∧ s.combining o.id = false ∧ s.absorbed o.id = false ∧
      s.cached pa = true ∧ s.l1Hit o.core line = false ∧ s.authorityHolds o.core line = false ∧
      s.mayPerform o (o.kind.parts.2.filter (fun x => lineOf x.pa == line)) true = true
    let entryOf (die : Nat) := s.combines.find? (fun c => c.die == die && c.line == line)
    let onPath (core n l : Nat) : Bool :=
      let d := core / 512
      let h := homeDie (128 * l)
      n == core / 64 || n == 32 + d ||
        (h != d && (lookup? s.copies (4 * l + d)).isNone && (n == 36 + 4 * d + h || n == 32 + h))
    (∀ asid va cores p, s.walk asid va.toNat = .page p → (∀ k ∈ cores, s.runs k = true ∧ alone asid va.toNat k) →
      ∃ t, exec (.pageWalk asid va cores) s = .next t ∧ t.mem = s.mem ∧
        ∀ k ∈ cores, ∃ e ∈ (t.core k).tlb, e.covers asid va.toNat = true ∧ e.page va.toNat = p) ∧
    (∀ asid va k, (∃ e ∈ (s.core k).tlb, e.covers asid va.toNat = true) → exec (.pageWalk asid va [k]) s = .next s) ∧
    (∀ asid va k e, (∀ x ∈ (s.core k).tlb, x.covers asid va.toNat = false) → s.runs k = true →
      s.sectorTlb.find? (fun x => x.1 == sectorOf k && x.2.covers asid va.toNat) = some e →
      ∃ t, exec (.pageWalk asid va [k]) s = .next t ∧ t = { s with cores := t.cores } ∧ e.2 ∈ (t.core k).tlb) ∧
    (∀ asid va cores, (∀ p, s.walk asid va.toNat ≠ .page p) → (∀ k ∈ cores, alone asid va.toNat k) →
      ∃ t, exec (.pageWalk asid va cores) s = .next t ∧ t.mem = s.mem ∧ t.cores = s.cores ∧ t.sectorTlb = s.sectorTlb) ∧
    (∀ o ∈ s.readers, misses o → (∀ c ∈ s.combines, c.line ≠ line) →
      ∃ t, ∃ r ∈ s.readers, exec (.l2ReadMiss line) s = .next t ∧ misses r ∧
        t = { s with combines := s.combines ++ [{ die := authorityDie r.core line, line, since := s.clock, ops := [r.id] }],
                     counters := t.counters } ∧
        ∀ k, get 0 t.counters k = get 0 s.counters k +
          (if (homeOf pa).package = true ∧ authorityDie r.core line = home ∧ k = 0x13 * 2048 + home then 1 else 0)) ∧
    (∀ o cb, o ∈ s.readers → misses o → (∀ r ∈ s.readers, misses r → r = o) → entryOf (authorityDie o.core line) = some cb →
      let apart := (∀ i ∈ cb.ops, ∀ r, s.reader i = some r → r.core / 8 ≠ o.core / 8) ∧ ∀ f ∈ cb.fills, f.1 / 8 ≠ o.core / 8
      (s.clock < cb.since + 32 → apart → exec (.l2ReadMiss line) s = .next { s with
        combines := s.combines.map (fun x => if x = cb then { x with ops := x.ops ++ [o.id] } else x) }) ∧
      (cb.since + 32 ≤ s.clock ∨ ¬ apart → exec (.l2ReadMiss line) s = .next s)) ∧
    (∀ (cb : Combine) (o : Op) (ty : Ty) (ord : Order) (x : Access) (c : Course),
      s.combines.find? (fun y => y.line == line) = some cb → cb.ops = [o.id] → cb.fills = [] → s.Flying o →
      (∀ y ∈ s.watches, y.id ≠ o.id) → o.kind = .load .global .v ty ord [x] → x.got = false → lineOf x.pa = line →
      s.runs o.core = true → (∀ a ∈ s.absorbs, a.op ≠ o.id) → s.loadPoison o .global x = false →
      s.courseOf o.core o.slot o.stamp = some c → x.lane < 32 →
      ∃ t d, exec (.dramFillArrival line) s = .next t ∧ t.mem = s.mem ∧ t.combines = s.combines.filter (fun y => y != cb) ∧
        (takes → (lookup? t.l2 line).isSome = true) ∧ t.course? o.core o.slot = some d ∧
        d.readVal x.reg x.lane (tyWide ty) = narrow (tyWide ty) (extend ty (s.loadValue o .global x))) ∧
    (∀ (o : Op) (n : Nat) (file : File) (ty : Ty) (ord : Order) (xs : List Access), s.reader o.id = some o →
      o.kind = .load .global file ty ord xs → ord.class3 = true →
      o.missing.find? (fun l => onPath o.core n l &&
        !s.absorbs.any (fun a => a.line == l && ((a.switch == n && a.op == o.id) || a.joined.contains o.id))) = some line →
      let table := s.absorbs.filter (fun a => a.switch == n)
      let joins (a : Absorb) : Bool := a.line == line && a.asid == o.asid && decide (o.at_ ≤ a.passed) && a.op != o.id
      (∀ a, table.find? joins = some a → exec (.class3ReadSwitchPass o.id n) s = .next { s with
        absorbs := s.absorbs.map (fun y => if y = a then { y with joined := y.joined ++ [o.id] } else y) }) ∧
      (table.find? joins = none → table.length < 16 → exec (.class3ReadSwitchPass o.id n) s = .next { s with
        absorbs := s.absorbs ++ [{ switch := n, line, asid := o.asid, op := o.id, passed := s.clock }] }) ∧
      (table.find? joins = none → 16 ≤ table.length → exec (.class3ReadSwitchPass o.id n) s = .next s)) ∧
    (∀ x, lookup? s.l2 line = some x → (homeOf pa).package = true →
      let goes := s.leaseOver line = true ∧ get 0 s.directory line = 0 ∧
        (4 * line + home ∉ s.kept ∨ ∀ l ∈ s.setLines home (sliceOf pa) (setOf (line / 4)), 4 * l + home ∈ s.kept)
      (goes → x ≠ .m ∨ s.dedupFor line = none → ∃ t, exec (.l2Writeback line) s = .next t ∧
        t = { s with l2 := erase s.l2 line, kept := unkept home, softErrors := t.softErrors }) ∧
      (¬ goes → x = .m → ∃ t, exec (.l2Writeback line) s = .next t ∧ t.mem = s.mem ∧ lookup? t.l2 line = some .s) ∧
      (¬ goes → x ≠ .m → exec (.l2Writeback line) s = .next s) ∧
      (∀ asid, x = .m → s.dedupFor line = some asid → ∃ t, exec (.l2Writeback line) s = .next t ∧ t.mem = s.mem ∧
        (goes → lookup? t.l2 line = none) ∧
        (∀ k c, lookup? t.dedup line = some k → lookup? t.shared k = some c → c.data = s.readBytes pa 128) ∧
        (∀ k c, lookup? s.dedup line = none → lookup? s.hashes (tierOf line * 2 ^ 32 + (hashLine (s.readBytes pa 128)).toNat) = some k →
          lookup? s.shared k = some c → c.data = s.readBytes pa 128 → c.count < 65535 →
          lookup? t.dedup line = some k ∧ (lookup? t.shared k).map (fun y => y.count) = some (c.count + 1)))) ∧
    (∀ k c p, lookup? s.l2 line = none → lookup? s.cores k = some c → c.run = .running →
      c.privs.find? (fun y => y.line == line) = some p → (∀ q ∈ s.cores, q.1 ≠ k → ∀ y ∈ q.2.privs, y.line ≠ line) →
      (p.bytes.map (fun b => b.1)).Nodup → (∀ b ∈ p.bytes, lineOf b.1 = line) → line ∉ s.poison →
      ∃ t, exec (.l2Writeback line) s = .next t ∧ (∀ b ∈ p.bytes, t.readByte b.1 = b.2) ∧
        (∀ a, (∀ b ∈ p.bytes, b.1 ≠ a) → t.readByte a = s.readByte a) ∧ ∀ y ∈ (t.core k).privs, y.line ≠ line) ∧
    (s.recallFree line = true → s.heldElsewhere line = true →
      exec (.recall line) s = .next { s with recalls := s.recalls ++ [(line, s.clock)] }) ∧
    (s.recallFree line = false → s.leaseOver line = true → ∃ t, exec (.recall line) s = .next t ∧ t.mem = s.mem ∧
      t.heldElsewhere line = false ∧ t.recallFree line = true ∧ lookup? t.directory line = none ∧
      ∀ die < 4, lookup? s.copies (4 * line + die) = some .m → (lookup? s.l2 line).isSome = true → dirty t) ∧
    (∀ p, s.recalls.find? (fun y => y.1 == line) = some p → p.2 + 2 ^ 20 ≤ s.clock → line ∉ s.poison →
      ((∃ y ∈ s.copies, y.1 / 4 = line ∧ y.2 ≠ .s) ∨ ∃ v ∈ s.victims, v.line = line) →
      ∃ t, exec (.recallTimeout line) s = .next t ∧ line ∈ t.poison ∧ lookup? t.directory line = none ∧
        t.recallFree line = true ∧ (∀ k < 128, t.readByte (pa + k) = 0) ∧
        ∀ a, a < pa ∨ pa + 128 ≤ a → t.readByte a = s.readByte a) ∧
    (∀ die, (s.victims.filter (fun v => v.die == die && sliceOf (128 * v.line) == sliceOf pa)).length < 32 →
      s.leaseOver line = true →
      (home ≠ die → lookup? s.copies (4 * line + die) = some .m → exec (.victimWritebackRequest die line) s = .next { s with
        kept := unkept die, copies := erase s.copies (4 * line + die), victims := s.victims ++ [{ die, line, taken := false }] }) ∧
      (home = die → homeOf pa = .host → dirty s → get 0 s.directory line = 0 →
        exec (.victimWritebackRequest die line) s = .next { s with
          kept := unkept die, l2 := erase s.l2 line, victims := s.victims ++ [{ die, line, taken := false }] })) ∧
    (∀ die v, s.victims.find? (fun v => v.die == die && v.line == line) = some v →
      let left := s.victims.filter (fun y => y != v)
      (v.taken = true ∨ homeOf pa = .host → exec (.writebackGrant die line) s = .next { s with victims := left }) ∧
      (v.taken = false → (homeOf pa).package = true → ∃ t, exec (.writebackGrant die line) s = .next t ∧
        t.mem = s.mem ∧ ownOf (get 0 t.directory line) = 0 ∧ (takes → t.victims = left ∧ dirty t)))

/-- R269, R346, R347, R350 to R356, R367, R368, R371, R372: a snoop takes a host line from the device or leaves it clean, and a
back-invalidate ends the host's copies; a read of the host waits for no lease and changes no byte, and a copy that a port takes is
tracked, with OWN 2 where the entry was empty, which is the model's choice (logs 28, 92); a write of the host or of a neighbour inside
the aperture is performed at the home or noted as waiting, one outside it changes nothing, and a write that the host or a neighbour
makes to its own memory, which the event stands for (log 47), wakes the WAITADDR that watch it; links train and fall, and what is on its
way over a link that falls is refused; the loss of a host port poisons every line of which it holds a copy. -/
def Obligations.HostAndPeers : Prop :=
  ∀ (s : State) (line pa link : Nat) (bytes : List Byte),
    let at_ := 128 * line
    let here := lineOf pa
    let noted (l : Nat) : State := if (0, l) ∈ s.leaseWait then s else { s with leaseWait := s.leaseWait ++ [(0, l)] }
    let fits (n : Nat) := 0 < n ∧ pa % 128 + n ≤ 128
    let free := s.leaseOver here = true ∧ s.recallFree here = true ∧ ∀ x ∈ s.leaseWait, x.2 = here → x.1 = 0
    let wrote (bs : List Byte) (t : State) := (∀ k < bs.length, some (t.readByte (pa + k)) = bs[k]?) ∧
      (∀ a, a < pa ∨ pa + bs.length ≤ a → t.readByte a = s.readByte a) ∧ t.cores = s.cores
    let woke (l : Nat) (t : State) := ∀ x ∈ t.watches, (∃ y ∈ x.lanes, lineOf y.pa = l) → x.woken = true
    let inside (n : Nat) := (homeOf pa).package = true ∧ ∃ lo hi, lookup? s.apertures link = some (lo, hi) ∧ lo ≤ pa ∧ pa + n ≤ hi
    -- a read from outside: a copy in E or M elsewhere gives its data and becomes clean, and L2MISS counts a read of DRAM
    let read (l : Nat) (t : State) := t.mem = s.mem ∧ t.cores = s.cores ∧
      (ownOf (get 0 s.directory l) ≠ 0 → ∀ x ∈ t.copies, x.1 / 4 = l → x.2 = .s) ∧
      get 0 t.counters (0x13 * 2048 + homeDie (128 * l)) =
        get 0 s.counters (0x13 * 2048 + homeDie (128 * l)) + (if (lookup? s.l2 l).isNone then 1 else 0)
    -- a write from outside: performed, or noted as waiting, and dropped at a poisoned line that it does not cover
    let writes (i : Instr) (bs : List Byte) := fits bs.length →
      (free → s.poisoned pa = false ∨ bs.length = 128 → ∃ t, exec i s = .next t ∧ wrote bs t ∧ woke here t ∧ t.poisoned pa = false) ∧
      (free → s.poisoned pa = true → bs.length < 128 → ∃ t, exec i s = .next t ∧ t.mem = s.mem ∧ t.poison = s.poison) ∧
      (¬ free → exec i s = .next (noted here))
    let cut (x : Access) : Access := if homeOf x.pa = .peer link then
      { x with val := if x.got then 0 else x.val, bad := x.bad || x.got, lost := true } else x
    (homeOf at_ = .host → s.cached at_ = true →
      (s.leaseOver line = true → ∃ t, exec (.hostSnoop line false) s = .next t ∧ t.mem = s.mem ∧
        lookup? t.l2 line = none ∧ t.heldElsewhere line = false ∧ lookup? t.directory line = none ∧ (0, line) ∉ t.leaseWait ∧ woke line t) ∧
      (s.leaseOver line = false → exec (.hostSnoop line false) s = .next (noted line)) ∧
      ((lookup? s.l2 line).isSome = true ∨ s.heldElsewhere line = true →
        ∃ t, exec (.hostSnoop line true) s = .next t ∧ t.mem = s.mem ∧ (∀ x, lookup? t.l2 line = some x → x = .s) ∧
          (∀ x ∈ t.copies, x.1 / 4 = line → x.2 = .s) ∧ (∀ v ∈ t.victims, v.line = line → v.taken = true) ∧
          ownOf (get 0 t.directory line) = 0)) ∧
    (∀ e, e = get 0 s.directory line →
      (homeOf at_).package = true → e.toNat / 8 % 16 ≠ 0 →
      (s.leaseOver line = true → ∃ t, exec (.hostSnoop line false) s = .next t ∧
        t = { s with directory := t.directory, leaseWait := s.leaseWait.filter (fun x => x != (0, line)) } ∧
        (get 0 t.directory line).toNat = e.toNat % 8 + (if ownOf e = 1 then 256 else 0)) ∧
      (s.leaseOver line = false → exec (.hostSnoop line false) s = .next (noted line))) ∧
    (∀ n, (homeOf pa).package = true → fits n →
      (∃ t, exec (.hostRead pa n none) s = .next t ∧ read here t) ∧
      (∀ p < 4, p ∉ s.pcie →
        ((get 0 s.directory here).toNat / 2 ^ (3 + p) % 2 = 1 → exec (.hostRead pa n (some p)) s = .next s) ∧
        ((get 0 s.directory here).toNat / 2 ^ (3 + p) % 2 = 0 → ∃ t, exec (.hostRead pa n (some p)) s = .next t ∧ read here t ∧
          (get 0 t.directory here).toNat / 2 ^ (3 + p) % 2 = 1 ∧
          ownOf (get 0 t.directory here) = if get 0 s.directory here = 0 then 2 else 0))) ∧
    ((homeOf pa).package = true → writes (.hostWrite pa bytes) bytes) ∧
    (homeOf pa = .host → fits bytes.length →
      s.cached pa = false ∨ (lookup? s.l2 here = none ∧ s.heldElsewhere here = false) →
      ∃ t, exec (.hostWrite pa bytes) s = .next t ∧ wrote bytes t ∧ woke here t) ∧
    (∀ l, homeOf pa = .peer l → fits bytes.length → ∃ t, exec (.hostWrite pa bytes) s = .next t ∧ wrote bytes t ∧ woke here t) ∧
    (s.linkUp link = true →
      (inside bytes.length → writes (.peerAccessArrival link (.write pa bytes)) bytes) ∧
      (¬ inside bytes.length → exec (.peerAccessArrival link (.write pa bytes)) s = .next s) ∧
      (∀ n, inside n → fits n → ∃ t, exec (.peerAccessArrival link (.read pa n)) s = .next t ∧ read here t) ∧
      (∀ n, ¬ inside n → exec (.peerAccessArrival link (.read pa n)) s = .next s) ∧
      (∀ code ty rnd val cmp, let n := tyBytes ty
        let i : Instr := .peerAccessArrival link (.atomic pa code ty rnd val cmp)
        let r := rmwValue code ty rnd (extend ty (BitVec.ofNat 64 (s.readNat pa n))) { lane := 0, va := pa, pa, size := n, val, cmp }
        (¬ inside n ∨ s.poisoned pa = true → exec i s = .next s) ∧
        (∀ v, inside n → s.poisoned pa = false → r.1 = some v → writes i (leBytes n v.toNat)) ∧
        (inside n → s.poisoned pa = false → r.1 = none →
          (s.recallFree here = true → s.leaseOver here = true → ∃ t, exec i s = .next t ∧ t.mem = s.mem ∧
            ∀ x ∈ t.copies, x.1 / 4 ≠ here) ∧
          (s.recallFree here = false ∨ s.leaseOver here = false → exec i s = .next (noted here)))) ∧
      (∀ push asid wide item, let i : Instr := .peerAccessArrival link (.pool push pa asid wide item)
        (¬ inside 64 ∨ pa % 64 ≠ 0 → exec i s = .next s) ∧
        (inside 64 → pa % 64 = 0 → ∃ t q, exec i s = .next t ∧ t = { s with pool := s.pool ++ [q], stamp := s.stamp + 1 } ∧
          (q.push, q.pa, q.asid, q.wide, q.item, q.stage, q.window) = (push, pa, asid, wide, item, 4, 0))) ∧
      (inside 1 → ∃ t, exec (.peerAccessArrival link (.wake pa)) s = .next t ∧ t = { s with watches := t.watches } ∧ woke here t) ∧
      (¬ inside 1 → exec (.peerAccessArrival link (.wake pa)) s = .next s)) ∧
    (∃ t, exec (.linkTrainingLoss link) s = .next t ∧ t.links = s.links.filter (fun l => l != link) ∧ t.mem = s.mem ∧
      t.cores = s.cores ∧ (∀ o ∈ s.ops,
        (∀ f ty ord xs, o.kind = .load .global f ty ord xs → { o with kind := .load .global f ty ord (xs.map cut) } ∈ t.ops) ∧
        (∀ ord xs whole, o.kind = .store .global ord xs whole → { o with kind := .store .global ord (xs.map cut) whole } ∈ t.ops) ∧
        (∀ f code ty rnd ret ord xs, o.kind = .rmw .global f code ty rnd ret ord xs [] →
          { o with kind := .rmw .global f code ty rnd ret ord (xs.map cut) [] } ∈ t.ops)) ∧
      (∀ q ∈ s.pool, homeOf q.pa = .peer link → ∃ r ∈ t.pool, r.id = q.id ∧ r.lost = true ∧ (q.stage = 6 → r.ok = false ∧ r.ans = 0)) ∧
      t.watches = s.watches.map (fun x => { x with lanes := x.lanes.map cut })) ∧
    (link < 18 → s.linkUp link = false → (link ∉ s.mgmt.dead → exec (.linkTrained link) s = .next { s with links := s.links ++ [link] }) ∧
      (link ∈ s.mgmt.dead → exec (.linkTrained link) s = .next s)) ∧
    (link < 18 → ∃ t, exec (.linkFlitResend link) s = .next t ∧ t = { s with counters := t.counters } ∧
      ∀ k, get 0 t.counters k = get 0 s.counters k + (if k = 7 * 2048 + link then 1 else 0)) ∧
    (∀ die < 4, ∃ t, exec (.hostPortFatal die) s = .next t ∧ die ∈ t.fatal ∧ t.cores = s.cores ∧
      (∀ x ∈ s.directory, x.2.getLsbD (3 + die) = true → x.1 ∈ t.poison) ∧
      ∀ a, (∀ x ∈ s.directory, x.2.getLsbD (3 + die) = true → x.1 ≠ lineOf a) → t.readByte a = s.readByte a)

/-- R238, R308, R310 to R317, R319, R320, R322, R328, R348: LQTAIL submits; the next packet of a queue is decided by R310's checks in
their order, and an accepted one is a grid whose %grid no other live grid of the context has; its event word; its teams' admission with
their courses, barriers, zeroed scratchpad and token; its retirement with trace, signature and DONE; the budget, MODE, VTARGET and the
supply; and the host's writes of control registers. In which cycle the budget takes its step is the model's choice (log 63). -/
def Obligations.DispatcherRuns : Prop :=
  ∀ (s : State) (asid n : Nat) (v : W32),
    let c := s.ctx asid
    -- a launch decided after `u`, as `t` leaves it
    let settled (u t : State) (g : Grid) : Prop :=
      let d := u.decide g
      let r := d.2.2
      t.cores = r.cores ∧ (u.softErrors = [] → r.grids = u.grids ∧ r.cores = u.cores ∧ r.mem = u.mem) ∧
      (d.1 ≠ 0 → t.grids = r.grids) ∧
      (d.1 = 0 → ∃ h, t.grids = assign r.grids r.stamp h ∧ h.asid = asid ∧ h.packet = g.packet ∧
        h.exact = (r.ctx asid).mode.getLsbD 0 ∧ h.strict = (r.ctx asid).errCtl.getLsbD 0 ∧
        h.token = (if h.det then some 0 else none) ∧ h.prev = lookup? (r.ctx asid).lastGrid g.queueNo ∧
        (r.grids.length < 2 ^ 32 → ∀ p ∈ r.grids, p.2.asid = asid → p.2.gid ≠ h.gid)) ∧
      ∀ p, g.doneVa ≠ 0 → g.doneVa < 2 ^ 57 → g.doneVa % 8 = 0 → r.walk asid g.doneVa = .page p → p.write = true →
        p.pa % 128 = g.doneVa % 128 → r.poisoned p.pa = false →
        ∃ w : State, w.readNat p.pa 4 = d.1 ∧ t.mem = if d.1 = 0 then w.mem else (w.writeDone d.2.1 true d.1 0).mem
    (∀ q < 8, exec (.lqtail asid q v) s = .next (s.mapCtx asid (fun c =>
      { c with lqTail := assign c.lqTail q v, tails := c.tails ++ [(q, s.clock, v)] }))) ∧
    (∀ q < 8, ∀ x, c.state = 1 → get 0 c.lqHead q ≠ get 0 c.lqTail q →
      s.readNum asid ((get 0 c.lqBase q).toNat + 64 * ((get 0 c.lqHead q).toNat % c.lqSize.toNat)) 64 = some x →
      let u := s.touch asid ((get 0 c.lqBase q).toNat + 64 * ((get 0 c.lqHead q).toNat % c.lqSize.toNat)) 64 true
      let g : Grid := { asid, packet := BitVec.ofNat 512 x, queue := q, prio := q }
      -- a lower queue whose tail was written in the same cycle still holds packets of that write
      let waits := ∃ p < q, get 0 c.lqHead p ≠ get 0 c.lqTail p ∧ ∃ y ∈ c.tails, y.1 = p ∧ some y.2.1 = c.submitted q
      (waits → exec (.launchAcceptance asid q false) s = .next s) ∧
      (¬ waits → s.doneFree g = true → u.grids = s.grids ∧ u.cores = s.cores ∧ u.mem = s.mem ∧ ∃ t,
        exec (.launchAcceptance asid q false) s = .next t ∧ get 0 (t.ctx asid).lqHead q = get 0 c.lqHead q + 1 ∧ settled u t g)) ∧
    (∀ q k, c.state = 1 → c.children.find? (fun k => k.queue == q && k.status.isNone) = some k →
      let g : Grid := { asid, packet := k.packet, queue := q, child := true, prio := q, depth := (s.grid k.parent).depth + 1,
                        parent := some k.parent }
      let d := s.decide g
      ∀ x, s.doneFree g = true → d.2.2.runs k.core = true → d.2.2.courseOf k.core k.slot k.stamp = some x → k.lane < 32 → k.file ≠ .s →
      (k.file = .y → 96 ≤ k.reg) → ∃ t y, exec (.launchAcceptance asid q true) s = .next t ∧
        t.course? k.core k.slot = some y ∧ y.holds k.file k.reg k.lane false = BitVec.ofNat 64 d.1) ∧
    (∀ g, field g.packet 93 3 ≠ 0 ∨ (∃ a ∈ [g.kernelRecord, g.paramVa, g.extVa, g.eventVa, g.doneVa], 2 ^ 57 ≤ a) ∨
      g.kernelRecord % 32 ≠ 0 ∨ g.paramVa % 4 ≠ 0 ∨ g.extVa % 128 ≠ 0 ∨ g.eventVa % 4 ≠ 0 ∨ g.doneVa % 8 ≠ 0 ∨ g.lmask = 0 ∨
      g.gx = 0 ∨ g.gy = 0 ∨ g.gz = 0 ∨ 2 ^ 32 < g.teams ∨ 64 < g.paramCount ∨ 65536 < g.psize → (s.decide g).1 = 0x43) ∧
    (∀ g h u head rs w, s.readLaunch g = (some h, u) → u.readTrace h = (some (head, rs), w) →
      let full := (∀ k < 2048, w.grants h.asid k = true → h.capacity (w.core k) = 0) ∨ (w.ctx h.asid).privStride.toNat < 32 * h.psize
      let apart := h.cores = true ∧ w.holdsAll h head rs = false
      let old := h.det = true ∧ h.signature ≠ 0 ∧ h.signature / 2 ^ 60 ≠ 4
      (full → (s.decide g).1 = 0x41) ∧ (¬ full → apart → (s.decide g).1 = 0x42) ∧ (¬ full → ¬ apart → old → (s.decide g).1 = 0x47) ∧
      (¬ full → ¬ apart → ¬ old → (h.det = false → (s.decide g).1 = 0) ∧
        (h.det = true → h.ext = none → (s.decide g).1 = if h.tmode = 0 then 0 else 0x48) ∧
        (h.det = true → h.ext.isSome = true → h.traceLen < 16 + 8 * h.teams → (s.decide g).1 = 0x48))) ∧
    (∀ g x, lookup? s.grids n = some g → g.eventSeen = false → g.eventVa ≠ 0 → s.readNum g.asid g.eventVa 4 = some x →
      (g.eventVal ≤ x → ∃ t, exec (.eventWordReread n) s = .next t ∧ t.mem = s.mem ∧ t.cores = s.cores ∧
        t.grids = adjust s.grids n (fun g => { g with eventSeen := true })) ∧
      (x < g.eventVal → exec (.eventWordReread n) s = .next s)) ∧
    (∀ g team core rot p, lookup? s.grids n = some g → g.killed = false → g.left ≠ 0 → rot < 4 →
      (if g.replays then g.traceAllows team core rot = true else team = g.nextTeam) → s.dispatchable n g = true →
      s.grids.all (fun x => x.1 == n || !before x.1 x.2 n g || !s.wants x.1 x.2 core) = true →
      s.grids.any (fun x => x.1 != n && x.2.cores && x.2.nextTeam != 0 && x.2.left != 0 && !x.2.killed) = false →
      s.roomFor g core rot = some p → p.slots.Nodup → s.togetherOk g = true →
      let ready := g.exact = false ∨ (s.core core).mv = 650 ∧ (s.core core).change = none
      let u := s.placeTeam n team core rot p
      let cx := s.ctx g.asid
      (ready → u.togetherOk (u.grid n) = true →
      ∃ t x, exec (.teamAdmission n team core rot) s = .next t ∧ t.mem = s.mem ∧ lookup? t.teams s.stamp = some x ∧
        (x.grid, x.asid, x.linear, x.core, x.slots, x.base, x.size) = (n, g.asid, team, core, p.slots, p.base, g.scratch) ∧
        (∀ b < 16, ∀ e : BitVec 6, e = BitVec.ofNat 6 (field g.krec (160 + 6 * b) 6) →
          get {} x.barriers b = if e = 0 then {} else { expected := e, pending := e }) ∧
        (t.grid n).nextTeam = g.nextTeam + 1 ∧
        (∀ a, (p.base ≤ a ∧ a < p.base + min 256 g.scratch) ∨ (s.core core).lastCtx ≠ some g.asid →
          (t.core core).readScratch a 1 = [0]) ∧
        (∀ y ∈ p.slots.zipIdx, ∃ d, t.course? core y.1 = some d ∧ d.index = y.2 ∧ d.team = s.stamp ∧ d.launch = g.lmask ∧
          d.entries = [(0, { mask := g.lmask, valid := true, pc := BitVec.ofNat 64 g.entryPc })] ∧ d.v = [] ∧
          d.flags = [] ∧ d.super = false ∧ (d.det, d.strict, d.exact, d.psize) = (g.det, g.strict, g.exact, g.psize) ∧
          d.cbase = cx.privBase.toNat + (core * 16 + y.1) * cx.privStride.toNat ∧
          d.token = (team * 16 + y.2 != 0 && g.token == some (team * 16 + y.2)) ∧ ∀ i, d.readS i = g.params[i]?.getD 0)) ∧
      (¬ ready → exec (.teamAdmission n team core rot) s = .next (
        if (s.core core).change.any (fun x => x.2 == 650) = true then s
        else s.mapCore core (fun k => { k with change := some (s.clock + 2000, 650) })))) ∧
    (∀ g, lookup? s.grids n = some g → s.gridOver n g = true → s.gridWork n = false →
      let records := g.det = true ∧ g.tmode = 0 ∧ g.ext.isSome = true
      (∀ p, s.doneFree g = true → ¬ records → g.doneVa ≠ 0 → g.doneVa < 2 ^ 57 → g.doneVa % 8 = 0 →
        s.walk g.asid (g.doneVa + 4) = .page p → p.write = true → p.pa % 128 = (g.doneVa + 4) % 128 → s.poisoned p.pa = false →
        ∃ t, exec (.gridRetirement n) s = .next t ∧ t.grids = erase s.grids n ∧
          t.readNat p.pa 4 = (s.readNat p.pa 4 + 1) % 2 ^ 32 ∧
          ∀ a, a < p.pa ∨ p.pa + 4 ≤ a → t.readByte a = s.readByte a) ∧
      (∀ u w, records → g.doneVa = 0 → s.writeVia g.asid g.traceVa g.traceBytes = some u →
        u.writeVia g.asid (g.extVa + 80) (leBytes 8 g.sign) = some w →
        ∃ t, exec (.gridRetirement n) s = .next t ∧ t = { w with grids := erase s.grids n, oldCode := t.oldCode }) ∧
      (s.doneFree g = false → ∃ t, exec (.gridRetirement n) s = .next t ∧ t = { s with leaseWait := t.leaseWait })) ∧
    (∀ g, lookup? s.grids n = some g → s.gridOver n g = false ∨ s.gridWork n = true → exec (.gridRetirement n) s = .next s) ∧
    (c.eon = true → c.ticked = false → 8192 ≤ s.turn → exec (.energyBudgetTick asid) s = .next (s.mapCtx asid (fun c =>
      { c with budget := BitVec.ofNat 32 (min c.emax.toNat (c.budget.toNat - c.debit + c.erate.toNat)), debit := 0,
               ticked := true }))) ∧
    (c.eon = false ∨ c.ticked = true ∨ s.turn < 8192 → exec (.energyBudgetTick asid) s = .next s) ∧
    (v.toNat < 4 → exec (.mode asid v) s = .next (s.mapCtx asid (fun c =>
      let on := v.getLsbD 1 && !c.mode.getLsbD 1
      { c with mode := v, budget := if on then c.emax else c.budget, debit := if on then 0 else c.debit }))) ∧
    (4 ≤ v.toNat → exec (.mode asid v) s = .next s) ∧
    (exec (.vtarget asid v) s = .next (
      if 560 ≤ v.toNat ∧ v.toNat ≤ 650 ∧ v.toNat % 10 = 0 then s.mapCtx asid (fun c => { c with vtarget := v }) else s)) ∧
    ((s.teamsOn n = [] ∨ (∃ p ∈ s.teamsOn n, (s.grid p.2.grid).exact = true) ∨ (∃ p ∈ (s.core n).courses, p.2.exact = true) →
        s.wantedMv n = 650) ∧
      ∀ p ps, s.teamsOn n = p :: ps → (∀ q ∈ s.teamsOn n, (s.grid q.2.grid).exact = false) →
        (∀ q ∈ (s.core n).courses, q.2.exact = false) → s.wantedMv n = (s.ctx p.2.asid).vtarget.toNat) ∧
    (∀ at_ mv, (s.core n).change = some (at_, mv) →
      -- a tile operation that runs has run in part below 650 mV
      let slow (o : TileOp) : Bool := o.slow || (o.started && decide ((s.core n).mv < 650 ∨ mv < 650))
      let queue (os : List TileOp) := os.zipIdx.map (fun o => if o.2 = 0 then { o.1 with slow := slow o.1 } else o.1)
      (mv = 650 ∨ mv = s.wantedMv n → exec (.supplyChange n) s =
        .next (s.mapCore n (fun k => { k with mv, change := none, tileQ := queue k.tileQ }))) ∧
      (mv ≠ 650 → mv ≠ s.wantedMv n → exec (.supplyChange n) s =
        .next (s.mapCore n (fun k => { k with change := some (s.clock + 2000, s.wantedMv n) })))) ∧
    ((s.core n).change = none → exec (.supplyChange n) s = .next (if s.wantedMv n = (s.core n).mv then s else
      s.mapCore n (fun k => { k with change := some (s.clock + 2000, s.wantedMv n) }))) ∧
    (∀ i wide x, i < 0x1000 → ctlInfo i = some (.sv, wide) →
      let y : W64 := if wide then x else (low32 x).setWidth 64
      (ctlOk i y.toNat = true →
        exec (.registerWrite (.ctx asid (8 * i)) x) s = .next (s.mapCtx asid (fun c => if isTail i then
          { c.setCtl i y with tails := c.tails ++ [(i - 0x118, s.clock, low32 y)] } else c.setCtl i y))) ∧
      (ctlOk i y.toNat = false → exec (.registerWrite (.ctx asid (8 * i)) x) s = .next s)) ∧
    (∀ i wide x, ctlInfo i = some (.ro, wide) → exec (.registerWrite (.ctx asid (8 * i)) x) s = .next s) ∧
    (∀ x : W64, exec (.registerWrite (.ctx asid (8 * 0x204)) x) s = .next (
      if c.state = 0 ∧ (low32 x).toNat < 2 then s.mapCtx asid (fun c => { c with capRight := low32 x }) else s)) ∧
    (∀ x : W64, exec (.registerWrite (.ctx asid 0x8010) x) s = .next (s.mapCtx asid (fun c => { c with capCore := low32 x }))) ∧
    (∀ x : W64, exec (.registerWrite (.ctx asid 0x8018) x) s = .next (
      if x.toNat % 4096 = 0 then s.mapCtx asid (fun c => { c with capAddr := x }) else s)) ∧
    (∀ k < 32, ∀ x : W64, exec (.registerWrite (.ctx asid (8 * (0x220 + k))) x) s = .next (if c.state = 0 then
      s.mapCtx asid (fun c => { c with grants := assign c.grants k x }) else s))

/-- R213, R214, R238, R251, R327, R333, R334, R336, R339, R341 to R343, R348: the context commands; a core that a capture stops, what its
port keeps and the image that it streams; a restore that loads courses or moves those that stand stopped, or a release, which starts
the clock again; a binding that closes, and returned credits. What an image holds in the sections that the revision lays out is the
model's choice (logs 58, 65). -/
def Obligations.ContextsAndCores : Prop :=
  ∀ (s : State) (asid core : Nat),
    let c := s.ctx asid
    let k := s.core core
    let here := c.capCore.toNat
    let standing := ∃ n, (s.core here).run = .stopped n
    let arrives := ∀ r ∈ s.captures, r.target = core → r.arrived = false ∨ r.done = true
    let refused := s.mapCtx asid (fun c => { c with cmdStatus := 2 })
    let idle := c.cmdStatus ≠ 1
    let mayName := c.state = 1 ∧ here < 2048 ∧ s.grants asid here = true
    let silent := ∀ x ∈ s.xwaits, x.core = core → x.ans = none
    let seen (p : Nat × Course) := (p.1, p.2.v, p.2.y, p.2.s, p.2.p, p.2.entries)
    (c.cmdStatus = 1 → ∀ i ∈ [Instr.ctxcmdMakeLive asid, .ctxcmdCapture asid, .ctxcmdRelease asid], exec i s = .next s) ∧
    (idle → c.state = 0 → exec (.ctxcmdMakeLive asid) s = .next (s.mapCtx asid (fun c => { c with
      state := 1, cmdStatus := 0, budget := c.emax, debit := 0, poisonCount := 0, ragged := 0 }))) ∧
    (idle → c.state ≠ 0 → exec (.ctxcmdMakeLive asid) s = .next refused) ∧
    (idle → c.state = 0 → exec (.ctxcmdTearDown asid) s = .next refused) ∧
    (c.state = 2 ∨ (idle ∧ c.state = 1 ∧ s.stillCores asid = []) → s.quiet asid = true → (∀ e ∈ s.zbuf, e.dirty = 0) →
      ∃ t, exec (.ctxcmdTearDown asid) s = .next t ∧ t.mem = s.mem ∧ t.ctx asid = {} ∧ (∀ a, a ≠ asid → t.ctx a = s.ctx a) ∧
        (∀ j, s.runs j = true → ∀ e ∈ (t.core j).tlb, e.va < 2 ^ 64 → e.asid ≠ asid) ∧ (∀ j, (t.core j).lastCtx ≠ some asid) ∧
        ∀ p ∈ t.shared, p.2.asid = asid → p.2.count < 65535) ∧
    (c.state = 2 → s.quiet asid = false → exec (.ctxcmdTearDown asid) s = .next s) ∧
    (idle → c.state = 1 → s.grids.any (fun p => p.2.asid == asid) = true →
      ∃ t, exec (.ctxcmdTearDown asid) s = .next t ∧ (t.ctx asid).state = 2 ∧ (t.ctx asid).children = [] ∧
        ∀ n g, lookup? t.grids n = some g → g.asid = asid → g.killed = true) ∧
    (idle → mayName → ¬ standing → s.capturePages asid c.capAddr.toNat = true → exec (.ctxcmdCapture asid) s =
      .next (({ s with captures := s.captures ++ [{ target := here, asid, va := c.capAddr.toNat, origin := 2, who := none, via := none }]
                } : State).mapCtx asid (fun c => { c with cmdStatus := 1 }))) ∧
    (idle → mayName → ¬ standing → s.capturePages asid c.capAddr.toNat = false →
      ∃ t, exec (.ctxcmdCapture asid) s = .next t ∧ t.mem = s.mem ∧ t.captures = s.captures ∧ (t.ctx asid).cmdStatus = 2) ∧
    (idle → ¬ mayName ∨ standing → exec (.ctxcmdCapture asid) s = .next refused) ∧
    (idle → mayName → standing → exec (.ctxcmdRelease asid) s = .next (({ s with restores := s.restores ++
        [{ target := here, asid, va := c.capAddr.toNat, who := none, via := none, host := true }] } : State).mapCtx asid (fun c =>
          { c with cmdStatus := 1 }))) ∧
    (idle → ¬ mayName ∨ ¬ standing → exec (.ctxcmdRelease asid) s = .next refused) ∧
    (∀ r, s.captures.find? (fun r => r.target == core && !r.arrived) = some r →
      ∃ t, exec (.capoStop core) s = .next t ∧ t.mem = s.mem ∧ { r with arrived := true } ∈ t.captures ∧
        (k.run = .running → t.core core = { k with run := .stopped s.clock, heldFor := some r.asid, returned := [] }) ∧
        (k.run ≠ .running → t.cores = s.cores) ∧ ∀ j, j ≠ core → t.core j = s.core j) ∧
    (∀ o u, s.Flying o → o.core = core → (∀ x ∈ s.xwaits, x.id ≠ o.id) → (∀ x ∈ s.watches, x.id ≠ o.id) →
      (k.run = .running ∨ (∃ p ∈ k.parked, p.item = .answer o.id) → exec (.parkFlit o.id) s = .next s) ∧
      (k.run ≠ .running → (∀ p ∈ k.parked, p.item ≠ .answer o.id) →
        ((∃ file wide ord vals, o.kind = .reply file wide ord vals ∧ u = s) ∨
         (∃ sp file ty ord xs, o.kind = .load sp file ty ord xs ∧ sp ≠ .scratch ∧ (if xs.all (fun x => x.got) then u = s
            else s.mayRead o = true ∧ (sp = .global → ∀ x ∈ xs, x.got = true ∨ s.present core (lineOf x.pa) = true) ∧
              u = s.readAll o.id (fun _ => true)))) → u.portFlits core < 512 →
        ∃ t, exec (.parkFlit o.id) s = .next t ∧ t.mem = u.mem ∧ t.ops = u.ops ∧ t.core core = { u.core core with
          parked := (u.core core).parked ++ [{ seq := (u.core core).parkSeq + 1, item := .answer o.id }],
          parkSeq := (u.core core).parkSeq + 1 })) ∧
    (∀ id item a, (∃ x, s.xwaits.find? (fun x => x.id == id && x.ans.isSome) = some x ∧ x.core = core ∧ item = ParkItem.xchg id) ∨
        (∃ x, (∀ y ∈ s.xwaits, y.id ≠ id) ∧ s.watches.find? (fun x => x.id == id && x.woken) = some x ∧ x.core = core ∧ x.asid = a ∧
          item = ParkItem.wake id) →
      (k.run = .running ∨ (∃ p ∈ k.parked, p.item = item) → exec (.parkFlit id) s = .next s) ∧
      (k.run ≠ .running → (∀ p ∈ k.parked, p.item ≠ item) → s.portFlits core < 512 → exec (.parkFlit id) s =
        .next (s.mapCore core (fun k => { k with parked := k.parked ++ [{ seq := k.parkSeq + 1, item }], parkSeq := k.parkSeq + 1 }))) ∧
      (k.run ≠ .running → item = .wake id → 512 ≤ s.portFlits core → (s.ctx a).parkStride = 0 → exec (.parkFlit id) s = .next s)) ∧
    (∀ (r : CapReq) (g : Nat → Page) (n : Nat), s.captures.find? (fun r => r.target == core && r.arrived && !r.done) = some r →
      k.run = .stopped n → let parts := pieces r.va 0xF6000
      let free (l : Nat) : Prop := s.leaseOver l = true ∧ ∀ x ∈ s.leaseWait, x.2 = l → x.1 = 0
      (∀ p ∈ parts, s.translateFor r.via r.asid p.1 = .page (g p.1) ∧ (g p.1).write = true ∧ (homeOf (g p.1).pa).package = true) →
      ((∃ p ∈ parts, ¬ free (lineOf (g p.1).pa)) →
        ∃ t, exec (.imageStreamComplete core) s = .next t ∧ t = { s with leaseWait := t.leaseWait }) ∧
      ((∀ p ∈ parts, free (lineOf (g p.1).pa)) → r.origin = 2 → ∃ t, exec (.imageStreamComplete core) s = .next t ∧
        r ∉ t.captures ∧ (t.ctx r.asid).cmdStatus = 0) ∧
      ((∀ p ∈ parts, free (lineOf (g p.1).pa)) → r.origin = 1 → r.who.isSome = true →
        parts.Pairwise (fun p q => (g p.1).pa + p.2 ≤ (g q.1).pa ∨ (g q.1).pa + q.2 ≤ (g p.1).pa) →
        let u := s.snapshot core n
        let image := u.2.image core (u.2.core core) u.1 r.asid r.origin n
        ∃ t, exec (.imageStreamComplete core) s = .next t ∧ { r with done := true } ∈ t.captures ∧ t.cores = s.cores ∧
          (∀ p ∈ parts, ∀ i < p.2, ∀ x, image[p.1 - r.va + i]? = some x → t.readByte ((g p.1).pa + i) = x) ∧
          ∀ a, (∀ p ∈ parts, a < (g p.1).pa ∨ (g p.1).pa + p.2 ≤ a) → t.readByte a = s.readByte a)) ∧
    (∀ r, s.restores.find? (fun r => r.target == core && r.status.isNone) = some r → arrives →
      (r.host = true → k.binding.isSome = true → exec (.restoreComplete core) s = .next s) ∧
      (r.host = true → k.binding = none → k.parked = [] → silent → ∃ t, exec (.restoreComplete core) s = .next t ∧
        (t.core core).run = .running ∧ (t.ctx r.asid).cmdStatus = 0) ∧
      (r.host = false → r.who.isSome = true → s.imageRead r.via r.asid r.va 0xF6000 = none → s.teamsOn core = [] → silent →
        ∃ t, exec (.restoreComplete core) s = .next t ∧ t.mem = s.mem ∧ (t.core core).run = .running ∧
          { r with status := some 0x52 } ∈ t.restores) ∧
      (∀ image, r.host = false → r.who.isSome = true → s.imageRead r.via r.asid r.va 0xF6000 = some image → silent →
        (∀ p ∈ s.ctxs, p.2.children = []) →
        let count := leNat (image.take 64) / 2 ^ 144 % 2 ^ 16
        let z := s.snapOf r.asid image
        let x := z.core.ofImage image
        let from_ := s.core z.num
        (r.held = false → z.parked = [] → (∀ y ∈ z.xwaits, y.ans = none) →
          ∃ t, exec (.restoreComplete core) s = .next t ∧ t.mem = s.mem ∧ (t.core core).run = .running ∧
            { r with status := some 0x50 } ∈ t.restores ∧
            (t.core core).courses.map seen = if count = 0 then [] else x.courses.map seen) ∧
        (r.held = true → s.stillHeld z = true → z.num ≠ core → count ≠ 0 → from_.parked = [] →
          (∀ y ∈ s.xwaits, y.ans = none) →
          let stamps := z.core.courses.map (fun p => p.2.stamp)
          ∃ t, exec (.restoreComplete core) s = .next t ∧ t.mem = s.mem ∧ (t.core core).run = .running ∧
            (t.core core).courses.map seen = x.courses.map seen ∧ (t.core core).tileQ = from_.tileQ ∧
            (t.core z.num).courses = [] ∧ (t.core z.num).binding = some core ∧
            (∀ o ∈ s.ops, o.done = false → o.stamp ∈ stamps → o.kind.memory = true → o.id ∈ (t.core z.num).bound) ∧
            ∀ j ∈ s.jobs, j.core = z.num ∨ j.stamp ∈ stamps → j.id ∈ (t.core z.num).bound))) ∧
    (∀ to_, k.binding = some to_ → arrives →
      ((∀ o ∈ s.ops, o.id ∈ k.bound → o.done = true) → (∀ j ∈ s.jobs, j.id ∉ k.bound) → silent →
        ∃ t, exec (.bindingClose core) s = .next t ∧ t.mem = s.mem ∧ (t.core core).run = .running ∧ (t.core core).binding = none) ∧
      ((∃ o ∈ s.ops, o.id ∈ k.bound ∧ o.done = false) ∨ (∃ j ∈ s.jobs, j.id ∈ k.bound) → exec (.bindingClose core) s = .next s)) ∧
    (∀ cls n, cls < 4 → exec (.creditReturn core cls n) s = .next (s.mapCore core (fun k =>
      if k.run = .running then { k with credits := assign k.credits cls (min 8 (get 8 k.credits cls + n)) }
      else { k with returned := assign k.returned cls (get 0 k.returned cls + n) })))

/-- R27, R316, R346, R355, R365, R366, R372 to R376: attestation; the reads of a scrub and what they make of an error in DRAM or in L2;
reset, power, boot with its spares, and recovery from the firmware slot; the management page; and the thermal limits, tested on what
the sensors give. What the report's signature, the sensors and the fuses hold is open (Config); that a boot brings what its test found,
the ports' modes, the ECAPs and the apertures as data, and how an image comes to the slot, are the model's choices (logs 6, 21). -/
def Obligations.FirmwareRuns : Prop :=
  ∀ (s : State) (version : W32),
    let m := s.mgmt
    let anew (up : Bool) : State := { State.reset with
      mgmt := { fwMin := m.fwMin, railsUp := up, fuses := m.fuses, dead := m.dead, logged := m.logged, slot := m.slot }
      agenda := s.agenda, free := s.free }
    -- the sensors are read, and firmware acts where some die is at or above a temperature, or where none is
    let acts (i : Instr) (celsius : Int) (hot : Bool) (f : Mgmt → Mgmt) := ∃ t, exec i s = .next t ∧
      t = { s with mgmt := t.mgmt, free := s.free + 1 } ∧ ∃ r : Mgmt, r = { m with temp := r.temp, power := r.power } ∧
        r.power.toNat ≤ 1800000 ∧
        let met := (∃ d < 4, 16 * celsius ≤ (r.temp.extractLsb' (16 * d) 16).toInt) ↔ hot = true
        (met → t.mgmt = f r) ∧ (¬ met → t.mgmt = r)
    let loggedAs (g : Mgmt) (row : Config.Fuse) := (g.logged.find? (fun p => p.1 = row)).map (fun p => p.2)
    let raised (t : State) (event die : Nat) := get 0 t.counters (event * 2048 + die) = get 0 s.counters (event * 2048 + die) + 1
    (exec (.attcmd 1) s = .next { s with mgmt := if m.state = 1 then
        { m with attStatus := 1, attNonce := m.nonce, attClock := s.clock } else { m with attStatus := 3 } }) ∧
    (∀ v, v ≠ 1 → exec (.attcmd v) s = .next s) ∧
    (m.attStatus = 1 → ∃ t, exec .attestationReportDone s = .next t ∧
      t = { s with mgmt := { m with attStatus := 2, report := t.mgmt.report }, free := s.free + 1 } ∧
      t.mgmt.report.extractLsb' 0 32 = 0x4C5A4154#32 ∧ t.mgmt.report.extractLsb' 32 16 = 4#16 ∧
      t.mgmt.report.extractLsb' 128 32 = m.fwVersion ∧ t.mgmt.report.extractLsb' 160 64 = BitVec.ofNat 64 m.attClock ∧
      t.mgmt.report.extractLsb' 640 256 = m.attNonce ∧ t.mgmt.report.extractLsb' 1664 384 = 0#384) ∧
    (m.attStatus ≠ 1 → exec .attestationReportDone s = .next s) ∧
    (∀ line, (homeOf (line * 128)).package = true → s.softErrors = [] → exec (.scrubRead line) s = .next s) ∧
    (∀ e pa l2, s.softErrors = [e] → e.spot.site = .line pa l2 → (homeOf (lineOf pa * 128)).package = true →
      let held := lookup? s.l2 (lineOf pa)
      (l2 = false → held.isSome = true → exec (.scrubRead (lineOf pa)) s = .next s) ∧
      (l2 = true ∨ held = none → ∃ t, exec (.scrubRead (lineOf pa)) s = .next t ∧ t.softErrors = [] ∧
        (e.bits ≤ 1 → t.mem = s.mem ∧ t.poison = s.poison ∧ raised t 1 (homeDie pa) ∧
          loggedAs t.mgmt e.spot.row = some ((loggedAs m e.spot.row).getD 0 + 1)) ∧
        (2 ≤ e.bits → l2 = false ∨ held = some .m → lineOf pa ∈ t.poison ∧ raised t 3 (homeDie pa)) ∧
        (2 ≤ e.bits → l2 = true → (held = some .s ∨ held = some .e) → t.mem = s.mem ∧ t.poison = s.poison ∧ raised t 2 (homeDie pa)))) ∧
    exec .deviceReset s = .next (anew m.railsUp) ∧
    exec .powerUp s = .next (if m.railsUp = true then s else anew true) ∧
    (∀ failed fenced pcie (setup : BootSetup), let i : Instr := .boot failed fenced pcie setup
      (m.railsUp = false ∨ m.state ≠ 0 → exec i s = .next s) ∧
      (m.railsUp = true → m.state = 0 → m.slot.1 = true → m.fwMin ≤ m.slot.2 → ∃ t new, exec i s = .next t ∧ t.mem = s.mem ∧
        t.pcie = pcie ∧ t.apertures = setup.apertures ∧ t.mgmt.power.toNat ≤ 1800000 ∧
        ((setup.ecaps.map (·.1)).Nodup → ∀ e ∈ setup.ecaps, (t.core e.1).ecapBoot = max 16 (min 64 e.2)) ∧
        (t.mgmt.state, t.mgmt.fwVersion, t.mgmt.logged, t.mgmt.slot) = (1, m.slot.2, [], m.slot) ∧
        t.mgmt.fwMin = (if m.fwMin ≤ setup.fwMin ∧ setup.fwMin ≤ m.slot.2 then setup.fwMin else m.fwMin) ∧
        (∀ k ∈ fenced, (t.core k).fenced = true) ∧
        -- spares replace what failed and what was corrected too often, while their unit has one
        t.mgmt.fuses = m.fuses ++ new ∧ (∀ x ∈ new, x ∈ failed ∨ ∃ p ∈ m.logged, p.1 = x ∧ 16 < p.2) ∧
        (∀ x ∈ new, (t.mgmt.fuses.filter (fun y => y.unit = x.unit)).length ≤
          match x.unit with | .sram _ _ => 2 | .dram _ _ => 8 | .lane _ => 1) ∧
        (∀ x, (x ∈ failed ∨ ∃ p ∈ m.logged, p.1 = x ∧ 16 < p.2) → x ∉ t.mgmt.fuses →
          match x.unit with
          | .lane l => l ∈ t.mgmt.dead
          | .sram d a => ∀ k, Config.arrayCore d a = some k → (t.core k).fenced = true
          | .dram _ _ => True) ∧
        ∀ d < 4, get 0 t.counters (8 * 2048 + d) = BitVec.ofNat 64 ((new.filter (fun x => unitDie x.unit == d)).length)) ∧
      (m.railsUp = true → m.state = 0 → m.slot.1 = false ∨ m.slot.2 < m.fwMin →
        exec i s = .next { s with mgmt := { m with state := 2 } })) ∧
    (∀ signed, exec (.firmwareRecovery signed version) s = .next (if m.state = 2 then
      { s with mgmt := { m with slot := (signed, version), state := if signed = true ∧ m.fwMin ≤ version then 0 else 2 } } else s)) ∧
    (∀ v : W64, exec (.registerWrite (.mgmt 0x30) v) s = .next (
      if cntselOk (low32 v).toNat = true then { s with mgmt := { m with cntSel := low32 v } } else s)) ∧
    (exec (.registerWrite (.mgmt 0x40) 1) s = exec (.attcmd 1) s) ∧
    (∀ k < 4, ∀ v : W64, ∃ t, exec (.registerWrite (.mgmt (0x100 + 8 * k)) v) s = .next t ∧
      t = { s with mgmt := { m with nonce := t.mgmt.nonce } } ∧ t.mgmt.nonce.extractLsb' (64 * k) 64 = v ∧
      ∀ j < 4, j ≠ k → t.mgmt.nonce.extractLsb' (64 * j) 64 = m.nonce.extractLsb' (64 * j) 64) ∧
    (m.throttle = false → acts .throttleEntry 100 true (fun x => { x with throttle := true })) ∧
    (m.throttle = true → exec .throttleEntry s = .next s ∧ ∀ k, s.ecap k = min 16 (s.core k).ecapBoot) ∧
    (m.throttle = true → acts .throttleExit 95 false (fun x => { x with throttle := false, stalled := false })) ∧
    (m.throttle = false → exec .throttleExit s = .next s ∧ ∀ k, s.ecap k = (s.core k).ecapBoot) ∧
    (m.stalled = false → acts .thermalIssueStall 105 true (fun x => { x with stalled := true })) ∧
    (m.railsUp = true → acts .thermalShutdown 110 true (fun x => { x with state := 3, railsUp := false })) ∧
    (m.railsUp = true → exec .powerDown s = .next { s with mgmt := { m with railsUp := false } }) ∧
    (m.railsUp = false → ∀ i ∈ [Instr.thermalShutdown, .powerDown], exec i s = .next s) ∧
    (∀ spot bits, exec (.softError spot bits) s = .next (
      if bits = 0 then s else { s with softErrors := s.softErrors ++ [{ spot, bits }] }))
end

