-- ==== Sys2Proof/Laws/Cells.lean ====
section
/-! SUPPORT. Data by key: what a read finds after a write, and that every operation keeps the canonical form. -/

namespace Sys2Proof.Machine

variable {α : Type}

/-! ### Reads after writes -/

@[simp] theorem get_nil (d : α) (k : Nat) : get d ([] : List (Nat × α)) k = d := rfl

theorem lookup?_assign (m : List (Nat × α)) (a b : Nat) (x : α) :
    lookup? (assign m a x) b = if b = a then some x else lookup? m b := by
  induction m with
  | nil =>
    by_cases h : a = b
    · simp [assign, lookup?, h]
    · simp [assign, lookup?, h, Ne.symm h]
  | cons p t ih =>
    obtain ⟨k, v⟩ := p
    by_cases h : a = b
    · subst h
      by_cases h1 : a < k
      · simp [assign, h1, lookup?]
      · by_cases h2 : a = k
        · simp [assign, h2, lookup?]
        · simp [assign, h1, h2, lookup?, Ne.symm h2, ih]
    · have h' : b ≠ a := Ne.symm h
      by_cases h1 : a < k
      · simp [assign, h1, lookup?, h, h']
      · by_cases h2 : a = k
        · subst h2; simp [assign, lookup?, h, h']
        · simp [assign, h1, h2, lookup?, ih, h']

theorem lookup?_erase (m : List (Nat × α)) (a b : Nat) :
    lookup? (erase m a) b = if b = a then none else lookup? m b := by
  induction m with
  | nil => simp [erase, lookup?]
  | cons p t ih =>
    obtain ⟨k, v⟩ := p
    by_cases h : k = a
    · subst h
      by_cases h' : k = b
      · subst h'; simp [erase, ih]
      · simp [erase, ih, lookup?, h']
    · by_cases h' : k = b
      · subst h'; simp [erase, lookup?, h]
      · simp [erase, h, lookup?, ih, h']

theorem get_assign (d : α) (m : List (Nat × α)) (a b : Nat) (x : α) :
    get d (assign m a x) b = if b = a then x else get d m b := by
  by_cases h : b = a <;> simp [get, lookup?_assign, h]

theorem get_erase (d : α) (m : List (Nat × α)) (a b : Nat) :
    get d (erase m a) b = if b = a then d else get d m b := by
  by_cases h : b = a <;> simp [get, lookup?_erase, h]

theorem get_put [DecidableEq α] (d : α) (m : List (Nat × α)) (a b : Nat) (x : α) :
    get d (put d m a x) b = if b = a then x else get d m b := by
  by_cases hx : x = d
  · subst hx; simp [put, get_erase]
  · simp [put, hx, get_assign]

@[simp] theorem get_put_same [DecidableEq α] (d : α) (m : List (Nat × α)) (a : Nat) (x : α) :
    get d (put d m a x) a = x := by simp [get_put]

theorem get_put_other [DecidableEq α] (d : α) (m : List (Nat × α)) {a b : Nat} (x : α) (h : b ≠ a) :
    get d (put d m a x) b = get d m b := by simp [get_put, h]

theorem get_putAll [DecidableEq α] (d : α) (xs : List α) (m : List (Nat × α)) (k b : Nat) :
    get d (putAll d m k xs) b = if k ≤ b ∧ b < k + xs.length then xs.getD (b - k) d else get d m b := by
  induction xs generalizing m k with
  | nil => rw [putAll, if_neg (by simp)]
  | cons x t ih =>
    rw [putAll, ih, List.length_cons]
    by_cases h1 : k + 1 ≤ b ∧ b < k + 1 + t.length
    · obtain ⟨n, hn⟩ : ∃ n, b - k = n + 1 := ⟨b - k - 1, by omega⟩
      have e : b - (k + 1) = n := by omega
      rw [if_pos h1, if_pos (by omega), e, hn]
      simp
    · rw [if_neg h1, get_put]
      by_cases h2 : b = k
      · subst h2; simp
      · rw [if_neg h2, if_neg (by omega)]

/-- Outside the keys written, a write leaves every read as it was. -/
theorem get_putAll_outside [DecidableEq α] (d : α) (xs : List α) (m : List (Nat × α)) {k b : Nat}
    (h : b < k ∨ k + xs.length ≤ b) : get d (putAll d m k xs) b = get d m b := by
  rw [get_putAll, if_neg (by omega)]

/-- A read of what has just been written. -/
theorem getAll_putAll [DecidableEq α] (d : α) (xs : List α) (m : List (Nat × α)) (k : Nat) :
    getAll d (putAll d m k xs) k xs.length = xs := by
  apply List.ext_getElem
  · simp [getAll]
  · intro i h1 h2
    simp [getAll, get_putAll, h2]

theorem lookup?_filter (m : List (Nat × α)) (q : Nat → Bool) (b : Nat) :
    lookup? (m.filter (fun p => q p.1)) b = if q b then lookup? m b else none := by
  induction m with
  | nil => simp [lookup?]
  | cons p t ih =>
    obtain ⟨k, v⟩ := p
    by_cases hk : q k
    · simp only [List.filter_cons, hk, if_true, lookup?, ih]
      by_cases h : k = b
      · subst h; simp [hk]
      · simp [h]
    · simp only [List.filter_cons, hk, lookup?]
      by_cases h : k = b
      · subst h; simp [hk, ih]
      · simp [h, ih]

theorem get_eraseRange (d : α) (m : List (Nat × α)) (lo hi b : Nat) :
    get d (eraseRange m lo hi) b = if lo ≤ b ∧ b < hi then d else get d m b := by
  have h := lookup?_filter m (fun k => decide (k < lo) || decide (hi ≤ k)) b
  simp only [get, eraseRange] at *
  rw [h]
  by_cases h1 : lo ≤ b ∧ b < hi
  · rw [if_pos h1, if_neg (by simp; omega)]; rfl
  · rw [if_neg h1, if_pos (by simp; omega)]

/-! ### The canonical form -/

theorem mem_assign {m : List (Nat × α)} {a : Nat} {x : α} {p : Nat × α} (h : p ∈ assign m a x) :
    p = (a, x) ∨ p ∈ m := by
  induction m with
  | nil => simpa [assign] using h
  | cons q t ih =>
    obtain ⟨k, v⟩ := q
    simp only [assign] at h
    split at h
    · simpa using h
    · split at h
      · rcases List.mem_cons.mp h with h | h
        · exact .inl h
        · exact .inr (List.mem_cons_of_mem _ h)
      · rcases List.mem_cons.mp h with h | h
        · exact .inr (by simp [h])
        · rcases ih h with h | h
          · exact .inl h
          · exact .inr (List.mem_cons_of_mem _ h)

theorem sorted_assign {m : List (Nat × α)} (h : Sorted m) (a : Nat) (x : α) : Sorted (assign m a x) := by
  induction m with
  | nil => simp [assign, Sorted]
  | cons q t ih =>
    obtain ⟨k, v⟩ := q
    obtain ⟨h1, h2⟩ := List.pairwise_cons.mp h
    simp only [assign]
    split
    · rename_i hk
      refine List.pairwise_cons.mpr ⟨fun p hp => ?_, h⟩
      rcases List.mem_cons.mp hp with rfl | hp
      · exact hk
      · exact lt_trans hk (h1 p hp)
    · split
      · rename_i hk hk'
        subst hk'
        exact List.pairwise_cons.mpr ⟨h1, h2⟩
      · refine List.pairwise_cons.mpr ⟨fun p hp => ?_, ih h2⟩
        rcases mem_assign hp with rfl | hp
        · show k < a; omega
        · exact h1 p hp

theorem erase_eq_filter (m : List (Nat × α)) (a : Nat) : erase m a = m.filter (fun p => p.1 ≠ a) := by
  induction m with
  | nil => rfl
  | cons q t ih =>
    obtain ⟨k, v⟩ := q
    by_cases h : k = a <;> simp [erase, h, ih]

theorem canonical_filter (d : α) {m : List (Nat × α)} (h : Canonical d m) (q : Nat × α → Bool) : Canonical d (m.filter q) :=
  ⟨h.1.sublist List.filter_sublist, fun p hp => h.2 p (List.mem_of_mem_filter hp)⟩

theorem canonical_nil (d : α) : Canonical d ([] : List (Nat × α)) := by simp [Canonical, Sorted]

theorem canonical_put [DecidableEq α] (d : α) {m : List (Nat × α)} (h : Canonical d m) (a : Nat) (x : α) :
    Canonical d (put d m a x) := by
  unfold put
  split
  · rw [erase_eq_filter]; exact canonical_filter d h _
  · rename_i hx
    refine ⟨sorted_assign h.1 a x, fun p hp => ?_⟩
    rcases mem_assign hp with rfl | hp
    · exact hx
    · exact h.2 p hp

theorem canonical_putAll [DecidableEq α] (d : α) (xs : List α) {m : List (Nat × α)} (h : Canonical d m) (k : Nat) :
    Canonical d (putAll d m k xs) := by
  induction xs generalizing m k with
  | nil => exact h
  | cons x t ih => exact ih (canonical_put d h k x) (k + 1)

theorem canonical_eraseRange (d : α) {m : List (Nat × α)} (h : Canonical d m) (lo hi : Nat) :
    Canonical d (eraseRange m lo hi) := canonical_filter d h _

theorem canonical_ofSeq [DecidableEq α] (d : α) (xs : List α) :
    Canonical d (ofSeq d xs) ∧ ∀ p ∈ ofSeq d xs, p.1 < xs.length := by
  unfold ofSeq
  refine ⟨⟨?_, ?_⟩, ?_⟩
  · unfold Sorted
    rw [List.pairwise_map]
    refine List.Pairwise.sublist List.filter_sublist ?_
    rw [List.pairwise_iff_getElem]
    intro i j hi hj hij
    simpa using hij
  · intro p hp
    simp only [List.mem_map, List.mem_filter] at hp
    obtain ⟨q, ⟨_, hq⟩, rfl⟩ := hp
    simpa using hq
  · intro p hp
    simp only [List.mem_map, List.mem_filter] at hp
    obtain ⟨q, ⟨hq, _⟩, rfl⟩ := hp
    have := List.snd_lt_of_mem_zipIdx hq
    simpa using this

theorem canonical_putBlock [DecidableEq α] (d : α) {m : List (Nat × α)} (h : Canonical d m) (k : Nat) (xs : List α) :
    Canonical d (putBlock d m k xs) := by
  obtain ⟨⟨s1, s2⟩, s3⟩ := canonical_ofSeq d xs
  refine ⟨?_, ?_⟩
  · unfold putBlock Sorted
    rw [List.pairwise_append, List.pairwise_append]
    refine ⟨⟨h.1.sublist List.filter_sublist, ?_, ?_⟩, h.1.sublist List.filter_sublist, ?_⟩
    · rw [List.pairwise_map]
      exact s1.imp (by intro a b hab; simpa using hab)
    · intro p hp q hq
      simp only [List.mem_filter, List.mem_map] at hp hq
      obtain ⟨r, hr, rfl⟩ := hq
      have := of_decide_eq_true hp.2
      show p.1 < k + r.1; omega
    · intro p hp q hq
      have hq' : k + xs.length ≤ q.1 := by simpa using (List.mem_filter.mp hq).2
      rcases List.mem_append.mp hp with hp | hp
      · have : p.1 < k := by simpa using (List.mem_filter.mp hp).2
        omega
      · obtain ⟨r, hr, rfl⟩ := List.mem_map.mp hp
        have := s3 r hr
        show k + r.1 < q.1; omega
  · intro p hp
    unfold putBlock at hp
    rcases List.mem_append.mp hp with hp | hp
    · rcases List.mem_append.mp hp with hp | hp
      · exact h.2 p (List.mem_of_mem_filter hp)
      · obtain ⟨r, hr, rfl⟩ := List.mem_map.mp hp
        exact s2 r hr
    · exact h.2 p (List.mem_of_mem_filter hp)

end Sys2Proof.Machine
end

