-- ==== Sys2Proof/Laws/Exec.lean ====
section
/-! SUPPORT. The meaning of every instruction word is the issue of that word with a body of its own. -/

namespace Sys2Proof.Machine

open Sys2Proof.Encoding

theorem execNop_word (w : Fields) (s : State) : ∃ body, execNop w s = issueWord w s body := by
  unfold execNop; exact ⟨_, rfl⟩
theorem execBra_word (w : Fields) (s : State) : ∃ body, execBra w s = issueWord w s body := by
  unfold execBra; exact ⟨_, rfl⟩
theorem execBrx_word (w : Fields) (s : State) : ∃ body, execBrx w s = issueWord w s body := by
  unfold execBrx; exact ⟨_, rfl⟩
theorem execCall_word (w : Fields) (s : State) : ∃ body, execCall w s = issueWord w s body := by
  unfold execCall; exact ⟨_, rfl⟩
theorem execCallInd_word (w : Fields) (s : State) : ∃ body, execCallInd w s = issueWord w s body := by
  unfold execCallInd; exact ⟨_, rfl⟩
theorem execRet_word (w : Fields) (s : State) : ∃ body, execRet w s = issueWord w s body := by
  unfold execRet; exact ⟨_, rfl⟩
theorem execRetTrap_word (w : Fields) (s : State) : ∃ body, execRetTrap w s = issueWord w s body := by
  unfold execRetTrap; exact ⟨_, rfl⟩
theorem execExit_word (w : Fields) (s : State) : ∃ body, execExit w s = issueWord w s body := by
  unfold execExit; exact ⟨_, rfl⟩
theorem execTrap_word (w : Fields) (s : State) : ∃ body, execTrap w s = issueWord w s body := by
  unfold execTrap; exact ⟨_, rfl⟩
theorem execBkpt_word (w : Fields) (s : State) : ∃ body, execBkpt w s = issueWord w s body := by
  unfold execBkpt; exact ⟨_, rfl⟩
theorem execYield_word (w : Fields) (s : State) :
    ∃ body, execYield w s = issueWord { w with hints := { w.hints with yield := true } } s body := ⟨_, rfl⟩
theorem execLaunch_word (w : Fields) (s : State) : ∃ body, execLaunch w s = issueWord w s body := by
  unfold execLaunch; exact ⟨_, rfl⟩
theorem execPhase_word (w : Fields) (s : State) : ∃ body, execPhase w s = issueWord w s body := by
  unfold execPhase; exact ⟨_, rfl⟩
theorem execTokpass_word (w : Fields) (s : State) : ∃ body, execTokpass w s = issueWord w s body := by
  unfold execTokpass; exact ⟨_, rfl⟩
theorem execSread_word (w : Fields) (s : State) : ∃ body, execSread w s = issueWord w s body := by
  unfold execSread; exact ⟨_, rfl⟩
theorem execSreadCtl_word (w : Fields) (s : State) : ∃ body, execSreadCtl w s = issueWord w s body := by
  unfold execSreadCtl; exact ⟨_, rfl⟩
theorem execSwrite_word (w : Fields) (s : State) : ∃ body, execSwrite w s = issueWord w s body := by
  unfold execSwrite; exact ⟨_, rfl⟩
theorem execSwriteCtl_word (w : Fields) (s : State) : ∃ body, execSwriteCtl w s = issueWord w s body := by
  unfold execSwriteCtl; exact ⟨_, rfl⟩
theorem execCapture_word (w : Fields) (s : State) : ∃ body, execCapture w s = issueWord w s body := by
  unfold execCapture; exact ⟨_, rfl⟩
theorem execRestore_word (w : Fields) (s : State) : ∃ body, execRestore w s = issueWord w s body := by
  unfold execRestore; exact ⟨_, rfl⟩
theorem execTlbinvPage_word (w : Fields) (s : State) : ∃ body, execTlbinvPage w s = issueWord w s body := by
  unfold execTlbinvPage tlbinv; exact ⟨_, rfl⟩
theorem execTlbinvRange_word (w : Fields) (s : State) : ∃ body, execTlbinvRange w s = issueWord w s body := by
  unfold execTlbinvRange tlbinv; exact ⟨_, rfl⟩
theorem execTlbinvAll_word (w : Fields) (s : State) : ∃ body, execTlbinvAll w s = issueWord w s body := by
  unfold execTlbinvAll tlbinv; exact ⟨_, rfl⟩
theorem execPoisonclr_word (w : Fields) (s : State) : ∃ body, execPoisonclr w s = issueWord w s body := by
  unfold execPoisonclr; exact ⟨_, rfl⟩
theorem execAdd_word (w : Fields) (s : State) : ∃ body, execAdd w s = issueWord w s body := by
  unfold execAdd binary; exact ⟨_, rfl⟩
theorem execSub_word (w : Fields) (s : State) : ∃ body, execSub w s = issueWord w s body := by
  unfold execSub binary; exact ⟨_, rfl⟩
theorem execMul_word (w : Fields) (s : State) : ∃ body, execMul w s = issueWord w s body := by
  unfold execMul binary; exact ⟨_, rfl⟩
theorem execMulhi_word (w : Fields) (s : State) : ∃ body, execMulhi w s = issueWord w s body := by
  unfold execMulhi binary; exact ⟨_, rfl⟩
theorem execMad_word (w : Fields) (s : State) : ∃ body, execMad w s = issueWord w s body := by
  unfold execMad ternary; exact ⟨_, rfl⟩
theorem execDiv_word (w : Fields) (s : State) : ∃ body, execDiv w s = issueWord w s body := by
  unfold execDiv binary; exact ⟨_, rfl⟩
theorem execRem_word (w : Fields) (s : State) : ∃ body, execRem w s = issueWord w s body := by
  unfold execRem binary; exact ⟨_, rfl⟩
theorem execMin_word (w : Fields) (s : State) : ∃ body, execMin w s = issueWord w s body := by
  unfold execMin binary; exact ⟨_, rfl⟩
theorem execMax_word (w : Fields) (s : State) : ∃ body, execMax w s = issueWord w s body := by
  unfold execMax binary; exact ⟨_, rfl⟩
theorem execAbs_word (w : Fields) (s : State) : ∃ body, execAbs w s = issueWord w s body := by
  unfold execAbs unary; exact ⟨_, rfl⟩
theorem execNeg_word (w : Fields) (s : State) : ∃ body, execNeg w s = issueWord w s body := by
  unfold execNeg unary; exact ⟨_, rfl⟩
theorem execAnd_word (w : Fields) (s : State) : ∃ body, execAnd w s = issueWord w s body := by
  unfold execAnd binary; exact ⟨_, rfl⟩
theorem execOr_word (w : Fields) (s : State) : ∃ body, execOr w s = issueWord w s body := by
  unfold execOr binary; exact ⟨_, rfl⟩
theorem execXor_word (w : Fields) (s : State) : ∃ body, execXor w s = issueWord w s body := by
  unfold execXor binary; exact ⟨_, rfl⟩
theorem execNot_word (w : Fields) (s : State) : ∃ body, execNot w s = issueWord w s body := by
  unfold execNot unary; exact ⟨_, rfl⟩
theorem execShl_word (w : Fields) (s : State) : ∃ body, execShl w s = issueWord w s body := by
  unfold execShl shifty; exact ⟨_, rfl⟩
theorem execShr_word (w : Fields) (s : State) : ∃ body, execShr w s = issueWord w s body := by
  unfold execShr shifty; exact ⟨_, rfl⟩
theorem execSar_word (w : Fields) (s : State) : ∃ body, execSar w s = issueWord w s body := by
  unfold execSar shifty; exact ⟨_, rfl⟩
theorem execRot_word (w : Fields) (s : State) : ∃ body, execRot w s = issueWord w s body := by
  unfold execRot shifty; exact ⟨_, rfl⟩
theorem execClz_word (w : Fields) (s : State) : ∃ body, execClz w s = issueWord w s body := by
  unfold execClz; exact ⟨_, rfl⟩
theorem execPopc_word (w : Fields) (s : State) : ∃ body, execPopc w s = issueWord w s body := by
  unfold execPopc; exact ⟨_, rfl⟩
theorem execBrev_word (w : Fields) (s : State) : ∃ body, execBrev w s = issueWord w s body := by
  unfold execBrev unary; exact ⟨_, rfl⟩
theorem execBfx_word (w : Fields) (s : State) : ∃ body, execBfx w s = issueWord w s body := by
  unfold execBfx shifty; exact ⟨_, rfl⟩
theorem execBfi_word (w : Fields) (s : State) : ∃ body, execBfi w s = issueWord w s body := by
  unfold execBfi; exact ⟨_, rfl⟩
theorem execLea_word (w : Fields) (s : State) : ∃ body, execLea w s = issueWord w s body := by
  unfold execLea; exact ⟨_, rfl⟩
theorem execSel_word (w : Fields) (s : State) : ∃ body, execSel w s = issueWord w s body := by
  unfold execSel; exact ⟨_, rfl⟩
theorem execCmp_word (w : Fields) (s : State) : ∃ body, execCmp w s = issueWord w s body := by
  unfold execCmp; exact ⟨_, rfl⟩
theorem execMov_word (w : Fields) (s : State) : ∃ body, execMov w s = issueWord w s body := by
  unfold execMov unary; exact ⟨_, rfl⟩
theorem execAddmin_word (w : Fields) (s : State) : ∃ body, execAddmin w s = issueWord w s body := by
  unfold execAddmin ternary; exact ⟨_, rfl⟩
theorem execFadd_word (w : Fields) (s : State) : ∃ body, execFadd w s = issueWord w s body := by
  unfold execFadd fbinary; exact ⟨_, rfl⟩
theorem execFsub_word (w : Fields) (s : State) : ∃ body, execFsub w s = issueWord w s body := by
  unfold execFsub fbinary; exact ⟨_, rfl⟩
theorem execFmul_word (w : Fields) (s : State) : ∃ body, execFmul w s = issueWord w s body := by
  unfold execFmul fbinary; exact ⟨_, rfl⟩
theorem execFfma_word (w : Fields) (s : State) : ∃ body, execFfma w s = issueWord w s body := by
  unfold execFfma; exact ⟨_, rfl⟩
theorem execFmin_word (w : Fields) (s : State) : ∃ body, execFmin w s = issueWord w s body := by
  unfold execFmin fbinary; exact ⟨_, rfl⟩
theorem execFmax_word (w : Fields) (s : State) : ∃ body, execFmax w s = issueWord w s body := by
  unfold execFmax fbinary; exact ⟨_, rfl⟩
theorem execFabs_word (w : Fields) (s : State) : ∃ body, execFabs w s = issueWord w s body := by
  unfold execFabs funary; exact ⟨_, rfl⟩
theorem execFneg_word (w : Fields) (s : State) : ∃ body, execFneg w s = issueWord w s body := by
  unfold execFneg funary; exact ⟨_, rfl⟩
theorem execFcmp_word (w : Fields) (s : State) : ∃ body, execFcmp w s = issueWord w s body := by
  unfold execFcmp; exact ⟨_, rfl⟩
theorem execFclass_word (w : Fields) (s : State) : ∃ body, execFclass w s = issueWord w s body := by
  unfold execFclass; exact ⟨_, rfl⟩
theorem execFdiv_word (w : Fields) (s : State) : ∃ body, execFdiv w s = issueWord w s body := by
  unfold execFdiv fbinary; exact ⟨_, rfl⟩
theorem execFsqrt_word (w : Fields) (s : State) : ∃ body, execFsqrt w s = issueWord w s body := by
  unfold execFsqrt funary; exact ⟨_, rfl⟩
theorem execFrnd_word (w : Fields) (s : State) : ∃ body, execFrnd w s = issueWord w s body := by
  unfold execFrnd funary; exact ⟨_, rfl⟩
theorem execFscale_word (w : Fields) (s : State) : ∃ body, execFscale w s = issueWord w s body := by
  unfold execFscale; exact ⟨_, rfl⟩
theorem execFaddmin_word (w : Fields) (s : State) : ∃ body, execFaddmin w s = issueWord w s body := by
  unfold execFaddmin; exact ⟨_, rfl⟩
theorem execFdot4_word (w : Fields) (s : State) : ∃ body, execFdot4 w s = issueWord w s body := by
  unfold execFdot4; exact ⟨_, rfl⟩
theorem execFrcpAuto_word (w : Fields) (s : State) : ∃ body, execFrcpAuto w s = issueWord w s body := by
  unfold execFrcpAuto transcendental; exact ⟨_, rfl⟩
theorem execFrsqAuto_word (w : Fields) (s : State) : ∃ body, execFrsqAuto w s = issueWord w s body := by
  unfold execFrsqAuto transcendental; exact ⟨_, rfl⟩
theorem execFexp2Auto_word (w : Fields) (s : State) : ∃ body, execFexp2Auto w s = issueWord w s body := by
  unfold execFexp2Auto transcendental; exact ⟨_, rfl⟩
theorem execFlog2Auto_word (w : Fields) (s : State) : ∃ body, execFlog2Auto w s = issueWord w s body := by
  unfold execFlog2Auto transcendental; exact ⟨_, rfl⟩
theorem execFsinAuto_word (w : Fields) (s : State) : ∃ body, execFsinAuto w s = issueWord w s body := by
  unfold execFsinAuto transcendental; exact ⟨_, rfl⟩
theorem execFcosAuto_word (w : Fields) (s : State) : ∃ body, execFcosAuto w s = issueWord w s body := by
  unfold execFcosAuto transcendental; exact ⟨_, rfl⟩
theorem execFrcpFast_word (w : Fields) (s : State) : ∃ body, execFrcpFast w s = issueWord w s body := by
  unfold execFrcpFast transcendental; exact ⟨_, rfl⟩
theorem execFrsqFast_word (w : Fields) (s : State) : ∃ body, execFrsqFast w s = issueWord w s body := by
  unfold execFrsqFast transcendental; exact ⟨_, rfl⟩
theorem execFexp2Fast_word (w : Fields) (s : State) : ∃ body, execFexp2Fast w s = issueWord w s body := by
  unfold execFexp2Fast transcendental; exact ⟨_, rfl⟩
theorem execFlog2Fast_word (w : Fields) (s : State) : ∃ body, execFlog2Fast w s = issueWord w s body := by
  unfold execFlog2Fast transcendental; exact ⟨_, rfl⟩
theorem execFsinFast_word (w : Fields) (s : State) : ∃ body, execFsinFast w s = issueWord w s body := by
  unfold execFsinFast transcendental; exact ⟨_, rfl⟩
theorem execFcosFast_word (w : Fields) (s : State) : ∃ body, execFcosFast w s = issueWord w s body := by
  unfold execFcosFast transcendental; exact ⟨_, rfl⟩
theorem execFrcpExact_word (w : Fields) (s : State) : ∃ body, execFrcpExact w s = issueWord w s body := by
  unfold execFrcpExact transcendental; exact ⟨_, rfl⟩
theorem execFrsqExact_word (w : Fields) (s : State) : ∃ body, execFrsqExact w s = issueWord w s body := by
  unfold execFrsqExact transcendental; exact ⟨_, rfl⟩
theorem execFexp2Exact_word (w : Fields) (s : State) : ∃ body, execFexp2Exact w s = issueWord w s body := by
  unfold execFexp2Exact transcendental; exact ⟨_, rfl⟩
theorem execFlog2Exact_word (w : Fields) (s : State) : ∃ body, execFlog2Exact w s = issueWord w s body := by
  unfold execFlog2Exact transcendental; exact ⟨_, rfl⟩
theorem execFsinExact_word (w : Fields) (s : State) : ∃ body, execFsinExact w s = issueWord w s body := by
  unfold execFsinExact transcendental; exact ⟨_, rfl⟩
theorem execFcosExact_word (w : Fields) (s : State) : ∃ body, execFcosExact w s = issueWord w s body := by
  unfold execFcosExact transcendental; exact ⟨_, rfl⟩
theorem execCvt_word (w : Fields) (s : State) : ∃ body, execCvt w s = issueWord w s body := by
  unfold execCvt; exact ⟨_, rfl⟩
theorem execPack_word (w : Fields) (s : State) : ∃ body, execPack w s = issueWord w s body := by
  unfold execPack; exact ⟨_, rfl⟩
theorem execUnpack_word (w : Fields) (s : State) : ∃ body, execUnpack w s = issueWord w s body := by
  unfold execUnpack; exact ⟨_, rfl⟩
theorem execPand_word (w : Fields) (s : State) : ∃ body, execPand w s = issueWord w s body := by
  unfold execPand predOp; exact ⟨_, rfl⟩
theorem execPor_word (w : Fields) (s : State) : ∃ body, execPor w s = issueWord w s body := by
  unfold execPor predOp; exact ⟨_, rfl⟩
theorem execPxor_word (w : Fields) (s : State) : ∃ body, execPxor w s = issueWord w s body := by
  unfold execPxor predOp; exact ⟨_, rfl⟩
theorem execPnot_word (w : Fields) (s : State) : ∃ body, execPnot w s = issueWord w s body := by
  unfold execPnot predOp; exact ⟨_, rfl⟩
theorem execPmov_word (w : Fields) (s : State) : ∃ body, execPmov w s = issueWord w s body := by
  unfold execPmov predOp; exact ⟨_, rfl⟩
theorem execPcount_word (w : Fields) (s : State) : ∃ body, execPcount w s = issueWord w s body := by
  unfold execPcount; exact ⟨_, rfl⟩
theorem execLshup_word (w : Fields) (s : State) : ∃ body, execLshup w s = issueWord w s body := by
  unfold execLshup fromLane; exact ⟨_, rfl⟩
theorem execLshdn_word (w : Fields) (s : State) : ∃ body, execLshdn w s = issueWord w s body := by
  unfold execLshdn fromLane; exact ⟨_, rfl⟩
theorem execShfl_word (w : Fields) (s : State) : ∃ body, execShfl w s = issueWord w s body := by
  unfold execShfl fromLane; exact ⟨_, rfl⟩
theorem execVote_word (w : Fields) (s : State) : ∃ body, execVote w s = issueWord w s body := by
  unfold execVote; exact ⟨_, rfl⟩
theorem execElect_word (w : Fields) (s : State) : ∃ body, execElect w s = issueWord w s body := by
  unfold execElect predOp; exact ⟨_, rfl⟩
theorem execRedux_word (w : Fields) (s : State) : ∃ body, execRedux w s = issueWord w s body := by
  unfold execRedux; exact ⟨_, rfl⟩
theorem execXchg_word (w : Fields) (s : State) : ∃ body, execXchg w s = issueWord w s body := by
  unfold execXchg; exact ⟨_, rfl⟩
theorem execLd_word (w : Fields) (s : State) : ∃ body, execLd w s = issueWord w s body := by
  unfold execLd loadGlobal; exact ⟨_, rfl⟩
theorem execSt_word (w : Fields) (s : State) : ∃ body, execSt w s = issueWord w s body := by
  unfold execSt; exact ⟨_, rfl⟩
theorem execLds_word (w : Fields) (s : State) : ∃ body, execLds w s = issueWord w s body := by
  unfold execLds; exact ⟨_, rfl⟩
theorem execSts_word (w : Fields) (s : State) : ∃ body, execSts w s = issueWord w s body := by
  unfold execSts; exact ⟨_, rfl⟩
theorem execLdp_word (w : Fields) (s : State) : ∃ body, execLdp w s = issueWord w s body := by
  unfold execLdp; exact ⟨_, rfl⟩
theorem execStp_word (w : Fields) (s : State) : ∃ body, execStp w s = issueWord w s body := by
  unfold execStp; exact ⟨_, rfl⟩
theorem execLdu_word (w : Fields) (s : State) : ∃ body, execLdu w s = issueWord w s body := by
  unfold execLdu loadGlobal; exact ⟨_, rfl⟩
theorem execPref_word (w : Fields) (s : State) : ∃ body, execPref w s = issueWord w s body := by
  unfold execPref; exact ⟨_, rfl⟩
theorem execAtom_word (w : Fields) (s : State) : ∃ body, execAtom w s = issueWord w s body := by
  unfold execAtom atomic; exact ⟨_, rfl⟩
theorem execRed_word (w : Fields) (s : State) : ∃ body, execRed w s = issueWord w s body := by
  unfold execRed atomic; exact ⟨_, rfl⟩
theorem execFence_word (w : Fields) (s : State) : ∃ body, execFence w s = issueWord w s body := by
  unfold execFence; exact ⟨_, rfl⟩
theorem execBinit_word (w : Fields) (s : State) : ∃ body, execBinit w s = issueWord w s body := by
  unfold execBinit; exact ⟨_, rfl⟩
theorem execBarrive_word (w : Fields) (s : State) : ∃ body, execBarrive w s = issueWord w s body := by
  unfold execBarrive; exact ⟨_, rfl⟩
theorem execBwait_word (w : Fields) (s : State) : ∃ body, execBwait w s = issueWord w s body := by
  unfold execBwait; exact ⟨_, rfl⟩
theorem execBexpect_word (w : Fields) (s : State) : ∃ body, execBexpect w s = issueWord w s body := by
  unfold execBexpect; exact ⟨_, rfl⟩
theorem execBflags_word (w : Fields) (s : State) : ∃ body, execBflags w s = issueWord w s body := by
  unfold execBflags; exact ⟨_, rfl⟩
theorem execQpush_word (w : Fields) (s : State) : ∃ body, execQpush w s = issueWord w s body := by
  unfold execQpush; exact ⟨_, rfl⟩
theorem execQpop_word (w : Fields) (s : State) : ∃ body, execQpop w s = issueWord w s body := by
  unfold execQpop; exact ⟨_, rfl⟩
theorem execGpush_word (w : Fields) (s : State) : ∃ body, execGpush w s = issueWord w s body := by
  unfold execGpush poolIssue; exact ⟨_, rfl⟩
theorem execGpop_word (w : Fields) (s : State) : ∃ body, execGpop w s = issueWord w s body := by
  unfold execGpop poolIssue; exact ⟨_, rfl⟩
theorem execWait_word (w : Fields) (s : State) : ∃ body, execWait w s = issueWord w s body := by
  unfold execWait; exact ⟨_, rfl⟩
theorem execWaitr_word (w : Fields) (s : State) : ∃ body, execWaitr w s = issueWord w s body := by
  unfold execWaitr; exact ⟨_, rfl⟩
theorem execWaitaddr_word (w : Fields) (s : State) : ∃ body, execWaitaddr w s = issueWord w s body := by
  unfold execWaitaddr; exact ⟨_, rfl⟩
theorem execWake_word (w : Fields) (s : State) : ∃ body, execWake w s = issueWord w s body := by
  unfold execWake; exact ⟨_, rfl⟩
theorem execZld_word (w : Fields) (s : State) : ∃ body, execZld w s = issueWord w s body := by
  unfold execZld; exact ⟨_, rfl⟩
theorem execZst_word (w : Fields) (s : State) : ∃ body, execZst w s = issueWord w s body := by
  unfold execZst; exact ⟨_, rfl⟩
theorem execZldb_word (w : Fields) (s : State) : ∃ body, execZldb w s = issueWord w s body := by
  unfold execZldb; exact ⟨_, rfl⟩
theorem execZstb_word (w : Fields) (s : State) : ∃ body, execZstb w s = issueWord w s body := by
  unfold execZstb; exact ⟨_, rfl⟩
theorem execZflush_word (w : Fields) (s : State) : ∃ body, execZflush w s = issueWord w s body := by
  unfold execZflush; exact ⟨_, rfl⟩
theorem execZflushAll_word (w : Fields) (s : State) : ∃ body, execZflushAll w s = issueWord w s body := by
  unfold execZflushAll; exact ⟨_, rfl⟩
theorem execCopy_word (w : Fields) (s : State) : ∃ body, execCopy w s = issueWord w s body := by
  unfold execCopy copy; exact ⟨_, rfl⟩
theorem execCopyl_word (w : Fields) (s : State) : ∃ body, execCopyl w s = issueWord w s body := by
  unfold execCopyl copy; exact ⟨_, rfl⟩
theorem execMzero_word (w : Fields) (s : State) : ∃ body, execMzero w s = issueWord w s body := by
  unfold execMzero; exact ⟨_, rfl⟩
theorem execMload_word (w : Fields) (s : State) : ∃ body, execMload w s = issueWord w s body := by
  unfold execMload; exact ⟨_, rfl⟩
theorem execMstore_word (w : Fields) (s : State) : ∃ body, execMstore w s = issueWord w s body := by
  unfold execMstore; exact ⟨_, rfl⟩
theorem execMmac_word (w : Fields) (s : State) : ∃ body, execMmac w s = issueWord w s body := by
  unfold execMmac mmac; exact ⟨_, rfl⟩
theorem execMmacs_word (w : Fields) (s : State) : ∃ body, execMmacs w s = issueWord w s body := by
  unfold execMmacs mmac; exact ⟨_, rfl⟩
theorem execMmacg_word (w : Fields) (s : State) : ∃ body, execMmacg w s = issueWord w s body := by
  unfold execMmacg mmac; exact ⟨_, rfl⟩
theorem execMsmax_word (w : Fields) (s : State) : ∃ body, execMsmax w s = issueWord w s body := by
  unfold execMsmax; exact ⟨_, rfl⟩
theorem execMdrain_word (w : Fields) (s : State) : ∃ body, execMdrain w s = issueWord w s body := by
  unfold execMdrain; exact ⟨_, rfl⟩
theorem execMdrainSpad_word (w : Fields) (s : State) : ∃ body, execMdrainSpad w s = issueWord w s body := by
  unfold execMdrainSpad; exact ⟨_, rfl⟩
theorem execPlanes_word (w : Fields) (s : State) : ∃ body, execPlanes w s = issueWord w s body := by
  unfold execPlanes; exact ⟨_, rfl⟩
theorem execProp_word (w : Fields) (s : State) : ∃ body, execProp w s = issueWord w s body := by
  unfold execProp; exact ⟨_, rfl⟩
theorem execAccept_word (w : Fields) (s : State) : ∃ body, execAccept w s = issueWord w s body := by
  unfold execAccept; exact ⟨_, rfl⟩
theorem execPdrop_word (w : Fields) (s : State) : ∃ body, execPdrop w s = issueWord w s body := by
  unfold execPdrop; exact ⟨_, rfl⟩
theorem execPeek_word (w : Fields) (s : State) : ∃ body, execPeek w s = issueWord w s body := by
  unfold execPeek; exact ⟨_, rfl⟩
theorem execRng_word (w : Fields) (s : State) : ∃ body, execRng w s = issueWord w s body := by
  unfold execRng; exact ⟨_, rfl⟩
theorem execRngf_word (w : Fields) (s : State) : ∃ body, execRngf w s = issueWord w s body := by
  unfold execRngf; exact ⟨_, rfl⟩

/-- YIELD issues as a word that carries YIELD (R95); every other word issues as it stands. -/
theorem exec_word {i : Instr} {code : Nat} {w : Fields} (h : wordOf i = some (code, w)) (s : State) :
    ∃ v body, exec i s = issueWord v s body ∧ (v = w ∨ v = { w with hints := { w.hints with yield := true } }) := by
  cases i
  case nop f => cases h; exact let ⟨b, e⟩ := execNop_word w s; ⟨_, b, e, .inl rfl⟩
  case bra f => cases h; exact let ⟨b, e⟩ := execBra_word w s; ⟨_, b, e, .inl rfl⟩
  case brx f => cases h; exact let ⟨b, e⟩ := execBrx_word w s; ⟨_, b, e, .inl rfl⟩
  case call f => cases h; exact let ⟨b, e⟩ := execCall_word w s; ⟨_, b, e, .inl rfl⟩
  case callInd f => cases h; exact let ⟨b, e⟩ := execCallInd_word w s; ⟨_, b, e, .inl rfl⟩
  case ret f => cases h; exact let ⟨b, e⟩ := execRet_word w s; ⟨_, b, e, .inl rfl⟩
  case retTrap f => cases h; exact let ⟨b, e⟩ := execRetTrap_word w s; ⟨_, b, e, .inl rfl⟩
  case exit f => cases h; exact let ⟨b, e⟩ := execExit_word w s; ⟨_, b, e, .inl rfl⟩
  case trap f => cases h; exact let ⟨b, e⟩ := execTrap_word w s; ⟨_, b, e, .inl rfl⟩
  case bkpt f => cases h; exact let ⟨b, e⟩ := execBkpt_word w s; ⟨_, b, e, .inl rfl⟩
  case yield f => cases h; exact let ⟨b, e⟩ := execYield_word w s; ⟨_, b, e, .inr rfl⟩
  case launch f => cases h; exact let ⟨b, e⟩ := execLaunch_word w s; ⟨_, b, e, .inl rfl⟩
  case phase f => cases h; exact let ⟨b, e⟩ := execPhase_word w s; ⟨_, b, e, .inl rfl⟩
  case tokpass f => cases h; exact let ⟨b, e⟩ := execTokpass_word w s; ⟨_, b, e, .inl rfl⟩
  case sread f => cases h; exact let ⟨b, e⟩ := execSread_word w s; ⟨_, b, e, .inl rfl⟩
  case sreadCtl f => cases h; exact let ⟨b, e⟩ := execSreadCtl_word w s; ⟨_, b, e, .inl rfl⟩
  case swrite f => cases h; exact let ⟨b, e⟩ := execSwrite_word w s; ⟨_, b, e, .inl rfl⟩
  case swriteCtl f => cases h; exact let ⟨b, e⟩ := execSwriteCtl_word w s; ⟨_, b, e, .inl rfl⟩
  case capture f => cases h; exact let ⟨b, e⟩ := execCapture_word w s; ⟨_, b, e, .inl rfl⟩
  case restore f => cases h; exact let ⟨b, e⟩ := execRestore_word w s; ⟨_, b, e, .inl rfl⟩
  case tlbinvPage f => cases h; exact let ⟨b, e⟩ := execTlbinvPage_word w s; ⟨_, b, e, .inl rfl⟩
  case tlbinvRange f => cases h; exact let ⟨b, e⟩ := execTlbinvRange_word w s; ⟨_, b, e, .inl rfl⟩
  case tlbinvAll f => cases h; exact let ⟨b, e⟩ := execTlbinvAll_word w s; ⟨_, b, e, .inl rfl⟩
  case poisonclr f => cases h; exact let ⟨b, e⟩ := execPoisonclr_word w s; ⟨_, b, e, .inl rfl⟩
  case add f => cases h; exact let ⟨b, e⟩ := execAdd_word w s; ⟨_, b, e, .inl rfl⟩
  case sub f => cases h; exact let ⟨b, e⟩ := execSub_word w s; ⟨_, b, e, .inl rfl⟩
  case mul f => cases h; exact let ⟨b, e⟩ := execMul_word w s; ⟨_, b, e, .inl rfl⟩
  case mulhi f => cases h; exact let ⟨b, e⟩ := execMulhi_word w s; ⟨_, b, e, .inl rfl⟩
  case mad f => cases h; exact let ⟨b, e⟩ := execMad_word w s; ⟨_, b, e, .inl rfl⟩
  case div f => cases h; exact let ⟨b, e⟩ := execDiv_word w s; ⟨_, b, e, .inl rfl⟩
  case rem f => cases h; exact let ⟨b, e⟩ := execRem_word w s; ⟨_, b, e, .inl rfl⟩
  case min f => cases h; exact let ⟨b, e⟩ := execMin_word w s; ⟨_, b, e, .inl rfl⟩
  case max f => cases h; exact let ⟨b, e⟩ := execMax_word w s; ⟨_, b, e, .inl rfl⟩
  case abs f => cases h; exact let ⟨b, e⟩ := execAbs_word w s; ⟨_, b, e, .inl rfl⟩
  case neg f => cases h; exact let ⟨b, e⟩ := execNeg_word w s; ⟨_, b, e, .inl rfl⟩
  case and f => cases h; exact let ⟨b, e⟩ := execAnd_word w s; ⟨_, b, e, .inl rfl⟩
  case or f => cases h; exact let ⟨b, e⟩ := execOr_word w s; ⟨_, b, e, .inl rfl⟩
  case xor f => cases h; exact let ⟨b, e⟩ := execXor_word w s; ⟨_, b, e, .inl rfl⟩
  case not f => cases h; exact let ⟨b, e⟩ := execNot_word w s; ⟨_, b, e, .inl rfl⟩
  case shl f => cases h; exact let ⟨b, e⟩ := execShl_word w s; ⟨_, b, e, .inl rfl⟩
  case shr f => cases h; exact let ⟨b, e⟩ := execShr_word w s; ⟨_, b, e, .inl rfl⟩
  case sar f => cases h; exact let ⟨b, e⟩ := execSar_word w s; ⟨_, b, e, .inl rfl⟩
  case rot f => cases h; exact let ⟨b, e⟩ := execRot_word w s; ⟨_, b, e, .inl rfl⟩
  case clz f => cases h; exact let ⟨b, e⟩ := execClz_word w s; ⟨_, b, e, .inl rfl⟩
  case popc f => cases h; exact let ⟨b, e⟩ := execPopc_word w s; ⟨_, b, e, .inl rfl⟩
  case brev f => cases h; exact let ⟨b, e⟩ := execBrev_word w s; ⟨_, b, e, .inl rfl⟩
  case bfx f => cases h; exact let ⟨b, e⟩ := execBfx_word w s; ⟨_, b, e, .inl rfl⟩
  case bfi f => cases h; exact let ⟨b, e⟩ := execBfi_word w s; ⟨_, b, e, .inl rfl⟩
  case lea f => cases h; exact let ⟨b, e⟩ := execLea_word w s; ⟨_, b, e, .inl rfl⟩
  case sel f => cases h; exact let ⟨b, e⟩ := execSel_word w s; ⟨_, b, e, .inl rfl⟩
  case cmp f => cases h; exact let ⟨b, e⟩ := execCmp_word w s; ⟨_, b, e, .inl rfl⟩
  case mov f => cases h; exact let ⟨b, e⟩ := execMov_word w s; ⟨_, b, e, .inl rfl⟩
  case addmin f => cases h; exact let ⟨b, e⟩ := execAddmin_word w s; ⟨_, b, e, .inl rfl⟩
  case fadd f => cases h; exact let ⟨b, e⟩ := execFadd_word w s; ⟨_, b, e, .inl rfl⟩
  case fsub f => cases h; exact let ⟨b, e⟩ := execFsub_word w s; ⟨_, b, e, .inl rfl⟩
  case fmul f => cases h; exact let ⟨b, e⟩ := execFmul_word w s; ⟨_, b, e, .inl rfl⟩
  case ffma f => cases h; exact let ⟨b, e⟩ := execFfma_word w s; ⟨_, b, e, .inl rfl⟩
  case fmin f => cases h; exact let ⟨b, e⟩ := execFmin_word w s; ⟨_, b, e, .inl rfl⟩
  case fmax f => cases h; exact let ⟨b, e⟩ := execFmax_word w s; ⟨_, b, e, .inl rfl⟩
  case fabs f => cases h; exact let ⟨b, e⟩ := execFabs_word w s; ⟨_, b, e, .inl rfl⟩
  case fneg f => cases h; exact let ⟨b, e⟩ := execFneg_word w s; ⟨_, b, e, .inl rfl⟩
  case fcmp f => cases h; exact let ⟨b, e⟩ := execFcmp_word w s; ⟨_, b, e, .inl rfl⟩
  case fclass f => cases h; exact let ⟨b, e⟩ := execFclass_word w s; ⟨_, b, e, .inl rfl⟩
  case fdiv f => cases h; exact let ⟨b, e⟩ := execFdiv_word w s; ⟨_, b, e, .inl rfl⟩
  case fsqrt f => cases h; exact let ⟨b, e⟩ := execFsqrt_word w s; ⟨_, b, e, .inl rfl⟩
  case frnd f => cases h; exact let ⟨b, e⟩ := execFrnd_word w s; ⟨_, b, e, .inl rfl⟩
  case fscale f => cases h; exact let ⟨b, e⟩ := execFscale_word w s; ⟨_, b, e, .inl rfl⟩
  case faddmin f => cases h; exact let ⟨b, e⟩ := execFaddmin_word w s; ⟨_, b, e, .inl rfl⟩
  case fdot4 f => cases h; exact let ⟨b, e⟩ := execFdot4_word w s; ⟨_, b, e, .inl rfl⟩
  case frcpAuto f => cases h; exact let ⟨b, e⟩ := execFrcpAuto_word w s; ⟨_, b, e, .inl rfl⟩
  case frsqAuto f => cases h; exact let ⟨b, e⟩ := execFrsqAuto_word w s; ⟨_, b, e, .inl rfl⟩
  case fexp2Auto f => cases h; exact let ⟨b, e⟩ := execFexp2Auto_word w s; ⟨_, b, e, .inl rfl⟩
  case flog2Auto f => cases h; exact let ⟨b, e⟩ := execFlog2Auto_word w s; ⟨_, b, e, .inl rfl⟩
  case fsinAuto f => cases h; exact let ⟨b, e⟩ := execFsinAuto_word w s; ⟨_, b, e, .inl rfl⟩
  case fcosAuto f => cases h; exact let ⟨b, e⟩ := execFcosAuto_word w s; ⟨_, b, e, .inl rfl⟩
  case frcpFast f => cases h; exact let ⟨b, e⟩ := execFrcpFast_word w s; ⟨_, b, e, .inl rfl⟩
  case frsqFast f => cases h; exact let ⟨b, e⟩ := execFrsqFast_word w s; ⟨_, b, e, .inl rfl⟩
  case fexp2Fast f => cases h; exact let ⟨b, e⟩ := execFexp2Fast_word w s; ⟨_, b, e, .inl rfl⟩
  case flog2Fast f => cases h; exact let ⟨b, e⟩ := execFlog2Fast_word w s; ⟨_, b, e, .inl rfl⟩
  case fsinFast f => cases h; exact let ⟨b, e⟩ := execFsinFast_word w s; ⟨_, b, e, .inl rfl⟩
  case fcosFast f => cases h; exact let ⟨b, e⟩ := execFcosFast_word w s; ⟨_, b, e, .inl rfl⟩
  case frcpExact f => cases h; exact let ⟨b, e⟩ := execFrcpExact_word w s; ⟨_, b, e, .inl rfl⟩
  case frsqExact f => cases h; exact let ⟨b, e⟩ := execFrsqExact_word w s; ⟨_, b, e, .inl rfl⟩
  case fexp2Exact f => cases h; exact let ⟨b, e⟩ := execFexp2Exact_word w s; ⟨_, b, e, .inl rfl⟩
  case flog2Exact f => cases h; exact let ⟨b, e⟩ := execFlog2Exact_word w s; ⟨_, b, e, .inl rfl⟩
  case fsinExact f => cases h; exact let ⟨b, e⟩ := execFsinExact_word w s; ⟨_, b, e, .inl rfl⟩
  case fcosExact f => cases h; exact let ⟨b, e⟩ := execFcosExact_word w s; ⟨_, b, e, .inl rfl⟩
  case cvt f => cases h; exact let ⟨b, e⟩ := execCvt_word w s; ⟨_, b, e, .inl rfl⟩
  case pack f => cases h; exact let ⟨b, e⟩ := execPack_word w s; ⟨_, b, e, .inl rfl⟩
  case unpack f => cases h; exact let ⟨b, e⟩ := execUnpack_word w s; ⟨_, b, e, .inl rfl⟩
  case pand f => cases h; exact let ⟨b, e⟩ := execPand_word w s; ⟨_, b, e, .inl rfl⟩
  case por f => cases h; exact let ⟨b, e⟩ := execPor_word w s; ⟨_, b, e, .inl rfl⟩
  case pxor f => cases h; exact let ⟨b, e⟩ := execPxor_word w s; ⟨_, b, e, .inl rfl⟩
  case pnot f => cases h; exact let ⟨b, e⟩ := execPnot_word w s; ⟨_, b, e, .inl rfl⟩
  case pmov f => cases h; exact let ⟨b, e⟩ := execPmov_word w s; ⟨_, b, e, .inl rfl⟩
  case pcount f => cases h; exact let ⟨b, e⟩ := execPcount_word w s; ⟨_, b, e, .inl rfl⟩
  case lshup f => cases h; exact let ⟨b, e⟩ := execLshup_word w s; ⟨_, b, e, .inl rfl⟩
  case lshdn f => cases h; exact let ⟨b, e⟩ := execLshdn_word w s; ⟨_, b, e, .inl rfl⟩
  case shfl f => cases h; exact let ⟨b, e⟩ := execShfl_word w s; ⟨_, b, e, .inl rfl⟩
  case vote f => cases h; exact let ⟨b, e⟩ := execVote_word w s; ⟨_, b, e, .inl rfl⟩
  case elect f => cases h; exact let ⟨b, e⟩ := execElect_word w s; ⟨_, b, e, .inl rfl⟩
  case redux f => cases h; exact let ⟨b, e⟩ := execRedux_word w s; ⟨_, b, e, .inl rfl⟩
  case xchg f => cases h; exact let ⟨b, e⟩ := execXchg_word w s; ⟨_, b, e, .inl rfl⟩
  case ld f => cases h; exact let ⟨b, e⟩ := execLd_word w s; ⟨_, b, e, .inl rfl⟩
  case st f => cases h; exact let ⟨b, e⟩ := execSt_word w s; ⟨_, b, e, .inl rfl⟩
  case lds f => cases h; exact let ⟨b, e⟩ := execLds_word w s; ⟨_, b, e, .inl rfl⟩
  case sts f => cases h; exact let ⟨b, e⟩ := execSts_word w s; ⟨_, b, e, .inl rfl⟩
  case ldp f => cases h; exact let ⟨b, e⟩ := execLdp_word w s; ⟨_, b, e, .inl rfl⟩
  case stp f => cases h; exact let ⟨b, e⟩ := execStp_word w s; ⟨_, b, e, .inl rfl⟩
  case ldu f => cases h; exact let ⟨b, e⟩ := execLdu_word w s; ⟨_, b, e, .inl rfl⟩
  case pref f => cases h; exact let ⟨b, e⟩ := execPref_word w s; ⟨_, b, e, .inl rfl⟩
  case atom f => cases h; exact let ⟨b, e⟩ := execAtom_word w s; ⟨_, b, e, .inl rfl⟩
  case red f => cases h; exact let ⟨b, e⟩ := execRed_word w s; ⟨_, b, e, .inl rfl⟩
  case fence f => cases h; exact let ⟨b, e⟩ := execFence_word w s; ⟨_, b, e, .inl rfl⟩
  case binit f => cases h; exact let ⟨b, e⟩ := execBinit_word w s; ⟨_, b, e, .inl rfl⟩
  case barrive f => cases h; exact let ⟨b, e⟩ := execBarrive_word w s; ⟨_, b, e, .inl rfl⟩
  case bwait f => cases h; exact let ⟨b, e⟩ := execBwait_word w s; ⟨_, b, e, .inl rfl⟩
  case bexpect f => cases h; exact let ⟨b, e⟩ := execBexpect_word w s; ⟨_, b, e, .inl rfl⟩
  case bflags f => cases h; exact let ⟨b, e⟩ := execBflags_word w s; ⟨_, b, e, .inl rfl⟩
  case qpush f => cases h; exact let ⟨b, e⟩ := execQpush_word w s; ⟨_, b, e, .inl rfl⟩
  case qpop f => cases h; exact let ⟨b, e⟩ := execQpop_word w s; ⟨_, b, e, .inl rfl⟩
  case gpush f => cases h; exact let ⟨b, e⟩ := execGpush_word w s; ⟨_, b, e, .inl rfl⟩
  case gpop f => cases h; exact let ⟨b, e⟩ := execGpop_word w s; ⟨_, b, e, .inl rfl⟩
  case wait f => cases h; exact let ⟨b, e⟩ := execWait_word w s; ⟨_, b, e, .inl rfl⟩
  case waitr f => cases h; exact let ⟨b, e⟩ := execWaitr_word w s; ⟨_, b, e, .inl rfl⟩
  case waitaddr f => cases h; exact let ⟨b, e⟩ := execWaitaddr_word w s; ⟨_, b, e, .inl rfl⟩
  case wake f => cases h; exact let ⟨b, e⟩ := execWake_word w s; ⟨_, b, e, .inl rfl⟩
  case zld f => cases h; exact let ⟨b, e⟩ := execZld_word w s; ⟨_, b, e, .inl rfl⟩
  case zst f => cases h; exact let ⟨b, e⟩ := execZst_word w s; ⟨_, b, e, .inl rfl⟩
  case zldb f => cases h; exact let ⟨b, e⟩ := execZldb_word w s; ⟨_, b, e, .inl rfl⟩
  case zstb f => cases h; exact let ⟨b, e⟩ := execZstb_word w s; ⟨_, b, e, .inl rfl⟩
  case zflush f => cases h; exact let ⟨b, e⟩ := execZflush_word w s; ⟨_, b, e, .inl rfl⟩
  case zflushAll f => cases h; exact let ⟨b, e⟩ := execZflushAll_word w s; ⟨_, b, e, .inl rfl⟩
  case copy f => cases h; exact let ⟨b, e⟩ := execCopy_word w s; ⟨_, b, e, .inl rfl⟩
  case copyl f => cases h; exact let ⟨b, e⟩ := execCopyl_word w s; ⟨_, b, e, .inl rfl⟩
  case mzero f => cases h; exact let ⟨b, e⟩ := execMzero_word w s; ⟨_, b, e, .inl rfl⟩
  case mload f => cases h; exact let ⟨b, e⟩ := execMload_word w s; ⟨_, b, e, .inl rfl⟩
  case mstore f => cases h; exact let ⟨b, e⟩ := execMstore_word w s; ⟨_, b, e, .inl rfl⟩
  case mmac f => cases h; exact let ⟨b, e⟩ := execMmac_word w s; ⟨_, b, e, .inl rfl⟩
  case mmacs f => cases h; exact let ⟨b, e⟩ := execMmacs_word w s; ⟨_, b, e, .inl rfl⟩
  case mmacg f => cases h; exact let ⟨b, e⟩ := execMmacg_word w s; ⟨_, b, e, .inl rfl⟩
  case msmax f => cases h; exact let ⟨b, e⟩ := execMsmax_word w s; ⟨_, b, e, .inl rfl⟩
  case mdrain f => cases h; exact let ⟨b, e⟩ := execMdrain_word w s; ⟨_, b, e, .inl rfl⟩
  case mdrainSpad f => cases h; exact let ⟨b, e⟩ := execMdrainSpad_word w s; ⟨_, b, e, .inl rfl⟩
  case planes f => cases h; exact let ⟨b, e⟩ := execPlanes_word w s; ⟨_, b, e, .inl rfl⟩
  case prop f => cases h; exact let ⟨b, e⟩ := execProp_word w s; ⟨_, b, e, .inl rfl⟩
  case accept f => cases h; exact let ⟨b, e⟩ := execAccept_word w s; ⟨_, b, e, .inl rfl⟩
  case pdrop f => cases h; exact let ⟨b, e⟩ := execPdrop_word w s; ⟨_, b, e, .inl rfl⟩
  case peek f => cases h; exact let ⟨b, e⟩ := execPeek_word w s; ⟨_, b, e, .inl rfl⟩
  case rng f => cases h; exact let ⟨b, e⟩ := execRng_word w s; ⟨_, b, e, .inl rfl⟩
  case rngf f => cases h; exact let ⟨b, e⟩ := execRngf_word w s; ⟨_, b, e, .inl rfl⟩
  all_goals cases h

end Sys2Proof.Machine
end

