-- ==== Sys2Proof/Laws/State.lean ====
section
/-! SUPPORT. The fields of the state, of a course and of a core after each update: one lemma for each field of each update. -/

namespace Sys2Proof.Machine

/-! ### The device -/

@[simp] theorem State.setCore_clock (s : State) (k : Nat) (c : Core) : (s.setCore k c).clock = s.clock := rfl
@[simp] theorem State.setCore_mem (s : State) (k : Nat) (c : Core) : (s.setCore k c).mem = s.mem := rfl
@[simp] theorem State.setCore_poison (s : State) (k : Nat) (c : Core) : (s.setCore k c).poison = s.poison := rfl
@[simp] theorem State.setCore_lmax (s : State) (k : Nat) (c : Core) : (s.setCore k c).lmax = s.lmax := rfl
@[simp] theorem State.setCore_wmax (s : State) (k : Nat) (c : Core) : (s.setCore k c).wmax = s.wmax := rfl
@[simp] theorem State.setCore_ctxs (s : State) (k : Nat) (c : Core) : (s.setCore k c).ctxs = s.ctxs := rfl
@[simp] theorem State.setCore_teams (s : State) (k : Nat) (c : Core) : (s.setCore k c).teams = s.teams := rfl
@[simp] theorem State.setCore_grids (s : State) (k : Nat) (c : Core) : (s.setCore k c).grids = s.grids := rfl
@[simp] theorem State.setCore_sectorTlb (s : State) (k : Nat) (c : Core) : (s.setCore k c).sectorTlb = s.sectorTlb := rfl
@[simp] theorem State.setCore_ops (s : State) (k : Nat) (c : Core) : (s.setCore k c).ops = s.ops := rfl
@[simp] theorem State.setCore_leaseWait (s : State) (k : Nat) (c : Core) : (s.setCore k c).leaseWait = s.leaseWait := rfl
@[simp] theorem State.setCore_pool (s : State) (k : Nat) (c : Core) : (s.setCore k c).pool = s.pool := rfl
@[simp] theorem State.setCore_pairs (s : State) (k : Nat) (c : Core) : (s.setCore k c).pairs = s.pairs := rfl
@[simp] theorem State.setCore_xwaits (s : State) (k : Nat) (c : Core) : (s.setCore k c).xwaits = s.xwaits := rfl
@[simp] theorem State.setCore_watches (s : State) (k : Nat) (c : Core) : (s.setCore k c).watches = s.watches := rfl
@[simp] theorem State.setCore_jobs (s : State) (k : Nat) (c : Core) : (s.setCore k c).jobs = s.jobs := rfl
@[simp] theorem State.setCore_zbuf (s : State) (k : Nat) (c : Core) : (s.setCore k c).zbuf = s.zbuf := rfl
@[simp] theorem State.setCore_l2 (s : State) (k : Nat) (c : Core) : (s.setCore k c).l2 = s.l2 := rfl
@[simp] theorem State.setCore_copies (s : State) (k : Nat) (c : Core) : (s.setCore k c).copies = s.copies := rfl
@[simp] theorem State.setCore_uses (s : State) (k : Nat) (c : Core) : (s.setCore k c).uses = s.uses := rfl
@[simp] theorem State.setCore_kept (s : State) (k : Nat) (c : Core) : (s.setCore k c).kept = s.kept := rfl
@[simp] theorem State.setCore_directory (s : State) (k : Nat) (c : Core) : (s.setCore k c).directory = s.directory := rfl
@[simp] theorem State.setCore_victims (s : State) (k : Nat) (c : Core) : (s.setCore k c).victims = s.victims := rfl
@[simp] theorem State.setCore_combines (s : State) (k : Nat) (c : Core) : (s.setCore k c).combines = s.combines := rfl
@[simp] theorem State.setCore_absorbs (s : State) (k : Nat) (c : Core) : (s.setCore k c).absorbs = s.absorbs := rfl
@[simp] theorem State.setCore_recalls (s : State) (k : Nat) (c : Core) : (s.setCore k c).recalls = s.recalls := rfl
@[simp] theorem State.setCore_dedup (s : State) (k : Nat) (c : Core) : (s.setCore k c).dedup = s.dedup := rfl
@[simp] theorem State.setCore_shared (s : State) (k : Nat) (c : Core) : (s.setCore k c).shared = s.shared := rfl
@[simp] theorem State.setCore_hashes (s : State) (k : Nat) (c : Core) : (s.setCore k c).hashes = s.hashes := rfl
@[simp] theorem State.setCore_softErrors (s : State) (k : Nat) (c : Core) : (s.setCore k c).softErrors = s.softErrors := rfl
@[simp] theorem State.setCore_oldCode (s : State) (k : Nat) (c : Core) : (s.setCore k c).oldCode = s.oldCode := rfl
@[simp] theorem State.setCore_icache (s : State) (k : Nat) (c : Core) : (s.setCore k c).icache = s.icache := rfl
@[simp] theorem State.setCore_counters (s : State) (k : Nat) (c : Core) : (s.setCore k c).counters = s.counters := rfl
@[simp] theorem State.setCore_links (s : State) (k : Nat) (c : Core) : (s.setCore k c).links = s.links := rfl
@[simp] theorem State.setCore_apertures (s : State) (k : Nat) (c : Core) : (s.setCore k c).apertures = s.apertures := rfl
@[simp] theorem State.setCore_fatal (s : State) (k : Nat) (c : Core) : (s.setCore k c).fatal = s.fatal := rfl
@[simp] theorem State.setCore_pcie (s : State) (k : Nat) (c : Core) : (s.setCore k c).pcie = s.pcie := rfl
@[simp] theorem State.setCore_captures (s : State) (k : Nat) (c : Core) : (s.setCore k c).captures = s.captures := rfl
@[simp] theorem State.setCore_restores (s : State) (k : Nat) (c : Core) : (s.setCore k c).restores = s.restores := rfl
@[simp] theorem State.setCore_snaps (s : State) (k : Nat) (c : Core) : (s.setCore k c).snaps = s.snaps := rfl
@[simp] theorem State.setCore_tlbinvAt (s : State) (k : Nat) (c : Core) : (s.setCore k c).tlbinvAt = s.tlbinvAt := rfl
@[simp] theorem State.setCore_mgmt (s : State) (k : Nat) (c : Core) : (s.setCore k c).mgmt = s.mgmt := rfl
@[simp] theorem State.setCore_agenda (s : State) (k : Nat) (c : Core) : (s.setCore k c).agenda = s.agenda := rfl
@[simp] theorem State.setCore_turn (s : State) (k : Nat) (c : Core) : (s.setCore k c).turn = s.turn := rfl
@[simp] theorem State.setCore_issuer (s : State) (k : Nat) (c : Core) : (s.setCore k c).issuer = s.issuer := rfl
@[simp] theorem State.setCore_free (s : State) (k : Nat) (c : Core) : (s.setCore k c).free = s.free := rfl
@[simp] theorem State.setCore_stamp (s : State) (k : Nat) (c : Core) : (s.setCore k c).stamp = s.stamp := rfl
@[simp] theorem State.mapCore_clock (s : State) (k : Nat) (f : Core → Core) : (s.mapCore k f).clock = s.clock := rfl
@[simp] theorem State.mapCore_mem (s : State) (k : Nat) (f : Core → Core) : (s.mapCore k f).mem = s.mem := rfl
@[simp] theorem State.mapCore_poison (s : State) (k : Nat) (f : Core → Core) : (s.mapCore k f).poison = s.poison := rfl
@[simp] theorem State.mapCore_lmax (s : State) (k : Nat) (f : Core → Core) : (s.mapCore k f).lmax = s.lmax := rfl
@[simp] theorem State.mapCore_wmax (s : State) (k : Nat) (f : Core → Core) : (s.mapCore k f).wmax = s.wmax := rfl
@[simp] theorem State.mapCore_ctxs (s : State) (k : Nat) (f : Core → Core) : (s.mapCore k f).ctxs = s.ctxs := rfl
@[simp] theorem State.mapCore_teams (s : State) (k : Nat) (f : Core → Core) : (s.mapCore k f).teams = s.teams := rfl
@[simp] theorem State.mapCore_grids (s : State) (k : Nat) (f : Core → Core) : (s.mapCore k f).grids = s.grids := rfl
@[simp] theorem State.mapCore_sectorTlb (s : State) (k : Nat) (f : Core → Core) : (s.mapCore k f).sectorTlb = s.sectorTlb := rfl
@[simp] theorem State.mapCore_ops (s : State) (k : Nat) (f : Core → Core) : (s.mapCore k f).ops = s.ops := rfl
@[simp] theorem State.mapCore_leaseWait (s : State) (k : Nat) (f : Core → Core) : (s.mapCore k f).leaseWait = s.leaseWait := rfl
@[simp] theorem State.mapCore_pool (s : State) (k : Nat) (f : Core → Core) : (s.mapCore k f).pool = s.pool := rfl
@[simp] theorem State.mapCore_pairs (s : State) (k : Nat) (f : Core → Core) : (s.mapCore k f).pairs = s.pairs := rfl
@[simp] theorem State.mapCore_xwaits (s : State) (k : Nat) (f : Core → Core) : (s.mapCore k f).xwaits = s.xwaits := rfl
@[simp] theorem State.mapCore_watches (s : State) (k : Nat) (f : Core → Core) : (s.mapCore k f).watches = s.watches := rfl
@[simp] theorem State.mapCore_jobs (s : State) (k : Nat) (f : Core → Core) : (s.mapCore k f).jobs = s.jobs := rfl
@[simp] theorem State.mapCore_zbuf (s : State) (k : Nat) (f : Core → Core) : (s.mapCore k f).zbuf = s.zbuf := rfl
@[simp] theorem State.mapCore_l2 (s : State) (k : Nat) (f : Core → Core) : (s.mapCore k f).l2 = s.l2 := rfl
@[simp] theorem State.mapCore_copies (s : State) (k : Nat) (f : Core → Core) : (s.mapCore k f).copies = s.copies := rfl
@[simp] theorem State.mapCore_uses (s : State) (k : Nat) (f : Core → Core) : (s.mapCore k f).uses = s.uses := rfl
@[simp] theorem State.mapCore_kept (s : State) (k : Nat) (f : Core → Core) : (s.mapCore k f).kept = s.kept := rfl
@[simp] theorem State.mapCore_directory (s : State) (k : Nat) (f : Core → Core) : (s.mapCore k f).directory = s.directory := rfl
@[simp] theorem State.mapCore_victims (s : State) (k : Nat) (f : Core → Core) : (s.mapCore k f).victims = s.victims := rfl
@[simp] theorem State.mapCore_combines (s : State) (k : Nat) (f : Core → Core) : (s.mapCore k f).combines = s.combines := rfl
@[simp] theorem State.mapCore_absorbs (s : State) (k : Nat) (f : Core → Core) : (s.mapCore k f).absorbs = s.absorbs := rfl
@[simp] theorem State.mapCore_recalls (s : State) (k : Nat) (f : Core → Core) : (s.mapCore k f).recalls = s.recalls := rfl
@[simp] theorem State.mapCore_dedup (s : State) (k : Nat) (f : Core → Core) : (s.mapCore k f).dedup = s.dedup := rfl
@[simp] theorem State.mapCore_shared (s : State) (k : Nat) (f : Core → Core) : (s.mapCore k f).shared = s.shared := rfl
@[simp] theorem State.mapCore_hashes (s : State) (k : Nat) (f : Core → Core) : (s.mapCore k f).hashes = s.hashes := rfl
@[simp] theorem State.mapCore_softErrors (s : State) (k : Nat) (f : Core → Core) : (s.mapCore k f).softErrors = s.softErrors := rfl
@[simp] theorem State.mapCore_oldCode (s : State) (k : Nat) (f : Core → Core) : (s.mapCore k f).oldCode = s.oldCode := rfl
@[simp] theorem State.mapCore_icache (s : State) (k : Nat) (f : Core → Core) : (s.mapCore k f).icache = s.icache := rfl
@[simp] theorem State.mapCore_counters (s : State) (k : Nat) (f : Core → Core) : (s.mapCore k f).counters = s.counters := rfl
@[simp] theorem State.mapCore_links (s : State) (k : Nat) (f : Core → Core) : (s.mapCore k f).links = s.links := rfl
@[simp] theorem State.mapCore_apertures (s : State) (k : Nat) (f : Core → Core) : (s.mapCore k f).apertures = s.apertures := rfl
@[simp] theorem State.mapCore_fatal (s : State) (k : Nat) (f : Core → Core) : (s.mapCore k f).fatal = s.fatal := rfl
@[simp] theorem State.mapCore_pcie (s : State) (k : Nat) (f : Core → Core) : (s.mapCore k f).pcie = s.pcie := rfl
@[simp] theorem State.mapCore_captures (s : State) (k : Nat) (f : Core → Core) : (s.mapCore k f).captures = s.captures := rfl
@[simp] theorem State.mapCore_restores (s : State) (k : Nat) (f : Core → Core) : (s.mapCore k f).restores = s.restores := rfl
@[simp] theorem State.mapCore_snaps (s : State) (k : Nat) (f : Core → Core) : (s.mapCore k f).snaps = s.snaps := rfl
@[simp] theorem State.mapCore_tlbinvAt (s : State) (k : Nat) (f : Core → Core) : (s.mapCore k f).tlbinvAt = s.tlbinvAt := rfl
@[simp] theorem State.mapCore_mgmt (s : State) (k : Nat) (f : Core → Core) : (s.mapCore k f).mgmt = s.mgmt := rfl
@[simp] theorem State.mapCore_agenda (s : State) (k : Nat) (f : Core → Core) : (s.mapCore k f).agenda = s.agenda := rfl
@[simp] theorem State.mapCore_turn (s : State) (k : Nat) (f : Core → Core) : (s.mapCore k f).turn = s.turn := rfl
@[simp] theorem State.mapCore_issuer (s : State) (k : Nat) (f : Core → Core) : (s.mapCore k f).issuer = s.issuer := rfl
@[simp] theorem State.mapCore_free (s : State) (k : Nat) (f : Core → Core) : (s.mapCore k f).free = s.free := rfl
@[simp] theorem State.mapCore_stamp (s : State) (k : Nat) (f : Core → Core) : (s.mapCore k f).stamp = s.stamp := rfl
@[simp] theorem State.setCtx_clock (s : State) (k : Nat) (c : Ctx) : (s.setCtx k c).clock = s.clock := rfl
@[simp] theorem State.setCtx_mem (s : State) (k : Nat) (c : Ctx) : (s.setCtx k c).mem = s.mem := rfl
@[simp] theorem State.setCtx_poison (s : State) (k : Nat) (c : Ctx) : (s.setCtx k c).poison = s.poison := rfl
@[simp] theorem State.setCtx_lmax (s : State) (k : Nat) (c : Ctx) : (s.setCtx k c).lmax = s.lmax := rfl
@[simp] theorem State.setCtx_wmax (s : State) (k : Nat) (c : Ctx) : (s.setCtx k c).wmax = s.wmax := rfl
@[simp] theorem State.setCtx_cores (s : State) (k : Nat) (c : Ctx) : (s.setCtx k c).cores = s.cores := rfl
@[simp] theorem State.setCtx_teams (s : State) (k : Nat) (c : Ctx) : (s.setCtx k c).teams = s.teams := rfl
@[simp] theorem State.setCtx_grids (s : State) (k : Nat) (c : Ctx) : (s.setCtx k c).grids = s.grids := rfl
@[simp] theorem State.setCtx_sectorTlb (s : State) (k : Nat) (c : Ctx) : (s.setCtx k c).sectorTlb = s.sectorTlb := rfl
@[simp] theorem State.setCtx_ops (s : State) (k : Nat) (c : Ctx) : (s.setCtx k c).ops = s.ops := rfl
@[simp] theorem State.setCtx_leaseWait (s : State) (k : Nat) (c : Ctx) : (s.setCtx k c).leaseWait = s.leaseWait := rfl
@[simp] theorem State.setCtx_pool (s : State) (k : Nat) (c : Ctx) : (s.setCtx k c).pool = s.pool := rfl
@[simp] theorem State.setCtx_pairs (s : State) (k : Nat) (c : Ctx) : (s.setCtx k c).pairs = s.pairs := rfl
@[simp] theorem State.setCtx_xwaits (s : State) (k : Nat) (c : Ctx) : (s.setCtx k c).xwaits = s.xwaits := rfl
@[simp] theorem State.setCtx_watches (s : State) (k : Nat) (c : Ctx) : (s.setCtx k c).watches = s.watches := rfl
@[simp] theorem State.setCtx_jobs (s : State) (k : Nat) (c : Ctx) : (s.setCtx k c).jobs = s.jobs := rfl
@[simp] theorem State.setCtx_zbuf (s : State) (k : Nat) (c : Ctx) : (s.setCtx k c).zbuf = s.zbuf := rfl
@[simp] theorem State.setCtx_l2 (s : State) (k : Nat) (c : Ctx) : (s.setCtx k c).l2 = s.l2 := rfl
@[simp] theorem State.setCtx_copies (s : State) (k : Nat) (c : Ctx) : (s.setCtx k c).copies = s.copies := rfl
@[simp] theorem State.setCtx_uses (s : State) (k : Nat) (c : Ctx) : (s.setCtx k c).uses = s.uses := rfl
@[simp] theorem State.setCtx_kept (s : State) (k : Nat) (c : Ctx) : (s.setCtx k c).kept = s.kept := rfl
@[simp] theorem State.setCtx_directory (s : State) (k : Nat) (c : Ctx) : (s.setCtx k c).directory = s.directory := rfl
@[simp] theorem State.setCtx_victims (s : State) (k : Nat) (c : Ctx) : (s.setCtx k c).victims = s.victims := rfl
@[simp] theorem State.setCtx_combines (s : State) (k : Nat) (c : Ctx) : (s.setCtx k c).combines = s.combines := rfl
@[simp] theorem State.setCtx_absorbs (s : State) (k : Nat) (c : Ctx) : (s.setCtx k c).absorbs = s.absorbs := rfl
@[simp] theorem State.setCtx_recalls (s : State) (k : Nat) (c : Ctx) : (s.setCtx k c).recalls = s.recalls := rfl
@[simp] theorem State.setCtx_dedup (s : State) (k : Nat) (c : Ctx) : (s.setCtx k c).dedup = s.dedup := rfl
@[simp] theorem State.setCtx_shared (s : State) (k : Nat) (c : Ctx) : (s.setCtx k c).shared = s.shared := rfl
@[simp] theorem State.setCtx_hashes (s : State) (k : Nat) (c : Ctx) : (s.setCtx k c).hashes = s.hashes := rfl
@[simp] theorem State.setCtx_softErrors (s : State) (k : Nat) (c : Ctx) : (s.setCtx k c).softErrors = s.softErrors := rfl
@[simp] theorem State.setCtx_oldCode (s : State) (k : Nat) (c : Ctx) : (s.setCtx k c).oldCode = s.oldCode := rfl
@[simp] theorem State.setCtx_icache (s : State) (k : Nat) (c : Ctx) : (s.setCtx k c).icache = s.icache := rfl
@[simp] theorem State.setCtx_counters (s : State) (k : Nat) (c : Ctx) : (s.setCtx k c).counters = s.counters := rfl
@[simp] theorem State.setCtx_links (s : State) (k : Nat) (c : Ctx) : (s.setCtx k c).links = s.links := rfl
@[simp] theorem State.setCtx_apertures (s : State) (k : Nat) (c : Ctx) : (s.setCtx k c).apertures = s.apertures := rfl
@[simp] theorem State.setCtx_fatal (s : State) (k : Nat) (c : Ctx) : (s.setCtx k c).fatal = s.fatal := rfl
@[simp] theorem State.setCtx_pcie (s : State) (k : Nat) (c : Ctx) : (s.setCtx k c).pcie = s.pcie := rfl
@[simp] theorem State.setCtx_captures (s : State) (k : Nat) (c : Ctx) : (s.setCtx k c).captures = s.captures := rfl
@[simp] theorem State.setCtx_restores (s : State) (k : Nat) (c : Ctx) : (s.setCtx k c).restores = s.restores := rfl
@[simp] theorem State.setCtx_snaps (s : State) (k : Nat) (c : Ctx) : (s.setCtx k c).snaps = s.snaps := rfl
@[simp] theorem State.setCtx_tlbinvAt (s : State) (k : Nat) (c : Ctx) : (s.setCtx k c).tlbinvAt = s.tlbinvAt := rfl
@[simp] theorem State.setCtx_mgmt (s : State) (k : Nat) (c : Ctx) : (s.setCtx k c).mgmt = s.mgmt := rfl
@[simp] theorem State.setCtx_agenda (s : State) (k : Nat) (c : Ctx) : (s.setCtx k c).agenda = s.agenda := rfl
@[simp] theorem State.setCtx_turn (s : State) (k : Nat) (c : Ctx) : (s.setCtx k c).turn = s.turn := rfl
@[simp] theorem State.setCtx_issuer (s : State) (k : Nat) (c : Ctx) : (s.setCtx k c).issuer = s.issuer := rfl
@[simp] theorem State.setCtx_free (s : State) (k : Nat) (c : Ctx) : (s.setCtx k c).free = s.free := rfl
@[simp] theorem State.setCtx_stamp (s : State) (k : Nat) (c : Ctx) : (s.setCtx k c).stamp = s.stamp := rfl
@[simp] theorem State.mapCtx_clock (s : State) (k : Nat) (f : Ctx → Ctx) : (s.mapCtx k f).clock = s.clock := rfl
@[simp] theorem State.mapCtx_mem (s : State) (k : Nat) (f : Ctx → Ctx) : (s.mapCtx k f).mem = s.mem := rfl
@[simp] theorem State.mapCtx_poison (s : State) (k : Nat) (f : Ctx → Ctx) : (s.mapCtx k f).poison = s.poison := rfl
@[simp] theorem State.mapCtx_lmax (s : State) (k : Nat) (f : Ctx → Ctx) : (s.mapCtx k f).lmax = s.lmax := rfl
@[simp] theorem State.mapCtx_wmax (s : State) (k : Nat) (f : Ctx → Ctx) : (s.mapCtx k f).wmax = s.wmax := rfl
@[simp] theorem State.mapCtx_cores (s : State) (k : Nat) (f : Ctx → Ctx) : (s.mapCtx k f).cores = s.cores := rfl
@[simp] theorem State.mapCtx_teams (s : State) (k : Nat) (f : Ctx → Ctx) : (s.mapCtx k f).teams = s.teams := rfl
@[simp] theorem State.mapCtx_grids (s : State) (k : Nat) (f : Ctx → Ctx) : (s.mapCtx k f).grids = s.grids := rfl
@[simp] theorem State.mapCtx_sectorTlb (s : State) (k : Nat) (f : Ctx → Ctx) : (s.mapCtx k f).sectorTlb = s.sectorTlb := rfl
@[simp] theorem State.mapCtx_ops (s : State) (k : Nat) (f : Ctx → Ctx) : (s.mapCtx k f).ops = s.ops := rfl
@[simp] theorem State.mapCtx_leaseWait (s : State) (k : Nat) (f : Ctx → Ctx) : (s.mapCtx k f).leaseWait = s.leaseWait := rfl
@[simp] theorem State.mapCtx_pool (s : State) (k : Nat) (f : Ctx → Ctx) : (s.mapCtx k f).pool = s.pool := rfl
@[simp] theorem State.mapCtx_pairs (s : State) (k : Nat) (f : Ctx → Ctx) : (s.mapCtx k f).pairs = s.pairs := rfl
@[simp] theorem State.mapCtx_xwaits (s : State) (k : Nat) (f : Ctx → Ctx) : (s.mapCtx k f).xwaits = s.xwaits := rfl
@[simp] theorem State.mapCtx_watches (s : State) (k : Nat) (f : Ctx → Ctx) : (s.mapCtx k f).watches = s.watches := rfl
@[simp] theorem State.mapCtx_jobs (s : State) (k : Nat) (f : Ctx → Ctx) : (s.mapCtx k f).jobs = s.jobs := rfl
@[simp] theorem State.mapCtx_zbuf (s : State) (k : Nat) (f : Ctx → Ctx) : (s.mapCtx k f).zbuf = s.zbuf := rfl
@[simp] theorem State.mapCtx_l2 (s : State) (k : Nat) (f : Ctx → Ctx) : (s.mapCtx k f).l2 = s.l2 := rfl
@[simp] theorem State.mapCtx_copies (s : State) (k : Nat) (f : Ctx → Ctx) : (s.mapCtx k f).copies = s.copies := rfl
@[simp] theorem State.mapCtx_uses (s : State) (k : Nat) (f : Ctx → Ctx) : (s.mapCtx k f).uses = s.uses := rfl
@[simp] theorem State.mapCtx_kept (s : State) (k : Nat) (f : Ctx → Ctx) : (s.mapCtx k f).kept = s.kept := rfl
@[simp] theorem State.mapCtx_directory (s : State) (k : Nat) (f : Ctx → Ctx) : (s.mapCtx k f).directory = s.directory := rfl
@[simp] theorem State.mapCtx_victims (s : State) (k : Nat) (f : Ctx → Ctx) : (s.mapCtx k f).victims = s.victims := rfl
@[simp] theorem State.mapCtx_combines (s : State) (k : Nat) (f : Ctx → Ctx) : (s.mapCtx k f).combines = s.combines := rfl
@[simp] theorem State.mapCtx_absorbs (s : State) (k : Nat) (f : Ctx → Ctx) : (s.mapCtx k f).absorbs = s.absorbs := rfl
@[simp] theorem State.mapCtx_recalls (s : State) (k : Nat) (f : Ctx → Ctx) : (s.mapCtx k f).recalls = s.recalls := rfl
@[simp] theorem State.mapCtx_dedup (s : State) (k : Nat) (f : Ctx → Ctx) : (s.mapCtx k f).dedup = s.dedup := rfl
@[simp] theorem State.mapCtx_shared (s : State) (k : Nat) (f : Ctx → Ctx) : (s.mapCtx k f).shared = s.shared := rfl
@[simp] theorem State.mapCtx_hashes (s : State) (k : Nat) (f : Ctx → Ctx) : (s.mapCtx k f).hashes = s.hashes := rfl
@[simp] theorem State.mapCtx_softErrors (s : State) (k : Nat) (f : Ctx → Ctx) : (s.mapCtx k f).softErrors = s.softErrors := rfl
@[simp] theorem State.mapCtx_oldCode (s : State) (k : Nat) (f : Ctx → Ctx) : (s.mapCtx k f).oldCode = s.oldCode := rfl
@[simp] theorem State.mapCtx_icache (s : State) (k : Nat) (f : Ctx → Ctx) : (s.mapCtx k f).icache = s.icache := rfl
@[simp] theorem State.mapCtx_counters (s : State) (k : Nat) (f : Ctx → Ctx) : (s.mapCtx k f).counters = s.counters := rfl
@[simp] theorem State.mapCtx_links (s : State) (k : Nat) (f : Ctx → Ctx) : (s.mapCtx k f).links = s.links := rfl
@[simp] theorem State.mapCtx_apertures (s : State) (k : Nat) (f : Ctx → Ctx) : (s.mapCtx k f).apertures = s.apertures := rfl
@[simp] theorem State.mapCtx_fatal (s : State) (k : Nat) (f : Ctx → Ctx) : (s.mapCtx k f).fatal = s.fatal := rfl
@[simp] theorem State.mapCtx_pcie (s : State) (k : Nat) (f : Ctx → Ctx) : (s.mapCtx k f).pcie = s.pcie := rfl
@[simp] theorem State.mapCtx_captures (s : State) (k : Nat) (f : Ctx → Ctx) : (s.mapCtx k f).captures = s.captures := rfl
@[simp] theorem State.mapCtx_restores (s : State) (k : Nat) (f : Ctx → Ctx) : (s.mapCtx k f).restores = s.restores := rfl
@[simp] theorem State.mapCtx_snaps (s : State) (k : Nat) (f : Ctx → Ctx) : (s.mapCtx k f).snaps = s.snaps := rfl
@[simp] theorem State.mapCtx_tlbinvAt (s : State) (k : Nat) (f : Ctx → Ctx) : (s.mapCtx k f).tlbinvAt = s.tlbinvAt := rfl
@[simp] theorem State.mapCtx_mgmt (s : State) (k : Nat) (f : Ctx → Ctx) : (s.mapCtx k f).mgmt = s.mgmt := rfl
@[simp] theorem State.mapCtx_agenda (s : State) (k : Nat) (f : Ctx → Ctx) : (s.mapCtx k f).agenda = s.agenda := rfl
@[simp] theorem State.mapCtx_turn (s : State) (k : Nat) (f : Ctx → Ctx) : (s.mapCtx k f).turn = s.turn := rfl
@[simp] theorem State.mapCtx_issuer (s : State) (k : Nat) (f : Ctx → Ctx) : (s.mapCtx k f).issuer = s.issuer := rfl
@[simp] theorem State.mapCtx_free (s : State) (k : Nat) (f : Ctx → Ctx) : (s.mapCtx k f).free = s.free := rfl
@[simp] theorem State.mapCtx_stamp (s : State) (k : Nat) (f : Ctx → Ctx) : (s.mapCtx k f).stamp = s.stamp := rfl
@[simp] theorem State.setGrid_clock (s : State) (k : Nat) (g : Grid) : (s.setGrid k g).clock = s.clock := rfl
@[simp] theorem State.setGrid_mem (s : State) (k : Nat) (g : Grid) : (s.setGrid k g).mem = s.mem := rfl
@[simp] theorem State.setGrid_poison (s : State) (k : Nat) (g : Grid) : (s.setGrid k g).poison = s.poison := rfl
@[simp] theorem State.setGrid_lmax (s : State) (k : Nat) (g : Grid) : (s.setGrid k g).lmax = s.lmax := rfl
@[simp] theorem State.setGrid_wmax (s : State) (k : Nat) (g : Grid) : (s.setGrid k g).wmax = s.wmax := rfl
@[simp] theorem State.setGrid_cores (s : State) (k : Nat) (g : Grid) : (s.setGrid k g).cores = s.cores := rfl
@[simp] theorem State.setGrid_ctxs (s : State) (k : Nat) (g : Grid) : (s.setGrid k g).ctxs = s.ctxs := rfl
@[simp] theorem State.setGrid_teams (s : State) (k : Nat) (g : Grid) : (s.setGrid k g).teams = s.teams := rfl
@[simp] theorem State.setGrid_sectorTlb (s : State) (k : Nat) (g : Grid) : (s.setGrid k g).sectorTlb = s.sectorTlb := rfl
@[simp] theorem State.setGrid_ops (s : State) (k : Nat) (g : Grid) : (s.setGrid k g).ops = s.ops := rfl
@[simp] theorem State.setGrid_leaseWait (s : State) (k : Nat) (g : Grid) : (s.setGrid k g).leaseWait = s.leaseWait := rfl
@[simp] theorem State.setGrid_pool (s : State) (k : Nat) (g : Grid) : (s.setGrid k g).pool = s.pool := rfl
@[simp] theorem State.setGrid_pairs (s : State) (k : Nat) (g : Grid) : (s.setGrid k g).pairs = s.pairs := rfl
@[simp] theorem State.setGrid_xwaits (s : State) (k : Nat) (g : Grid) : (s.setGrid k g).xwaits = s.xwaits := rfl
@[simp] theorem State.setGrid_watches (s : State) (k : Nat) (g : Grid) : (s.setGrid k g).watches = s.watches := rfl
@[simp] theorem State.setGrid_jobs (s : State) (k : Nat) (g : Grid) : (s.setGrid k g).jobs = s.jobs := rfl
@[simp] theorem State.setGrid_zbuf (s : State) (k : Nat) (g : Grid) : (s.setGrid k g).zbuf = s.zbuf := rfl
@[simp] theorem State.setGrid_l2 (s : State) (k : Nat) (g : Grid) : (s.setGrid k g).l2 = s.l2 := rfl
@[simp] theorem State.setGrid_copies (s : State) (k : Nat) (g : Grid) : (s.setGrid k g).copies = s.copies := rfl
@[simp] theorem State.setGrid_uses (s : State) (k : Nat) (g : Grid) : (s.setGrid k g).uses = s.uses := rfl
@[simp] theorem State.setGrid_kept (s : State) (k : Nat) (g : Grid) : (s.setGrid k g).kept = s.kept := rfl
@[simp] theorem State.setGrid_directory (s : State) (k : Nat) (g : Grid) : (s.setGrid k g).directory = s.directory := rfl
@[simp] theorem State.setGrid_victims (s : State) (k : Nat) (g : Grid) : (s.setGrid k g).victims = s.victims := rfl
@[simp] theorem State.setGrid_combines (s : State) (k : Nat) (g : Grid) : (s.setGrid k g).combines = s.combines := rfl
@[simp] theorem State.setGrid_absorbs (s : State) (k : Nat) (g : Grid) : (s.setGrid k g).absorbs = s.absorbs := rfl
@[simp] theorem State.setGrid_recalls (s : State) (k : Nat) (g : Grid) : (s.setGrid k g).recalls = s.recalls := rfl
@[simp] theorem State.setGrid_dedup (s : State) (k : Nat) (g : Grid) : (s.setGrid k g).dedup = s.dedup := rfl
@[simp] theorem State.setGrid_shared (s : State) (k : Nat) (g : Grid) : (s.setGrid k g).shared = s.shared := rfl
@[simp] theorem State.setGrid_hashes (s : State) (k : Nat) (g : Grid) : (s.setGrid k g).hashes = s.hashes := rfl
@[simp] theorem State.setGrid_softErrors (s : State) (k : Nat) (g : Grid) : (s.setGrid k g).softErrors = s.softErrors := rfl
@[simp] theorem State.setGrid_oldCode (s : State) (k : Nat) (g : Grid) : (s.setGrid k g).oldCode = s.oldCode := rfl
@[simp] theorem State.setGrid_icache (s : State) (k : Nat) (g : Grid) : (s.setGrid k g).icache = s.icache := rfl
@[simp] theorem State.setGrid_counters (s : State) (k : Nat) (g : Grid) : (s.setGrid k g).counters = s.counters := rfl
@[simp] theorem State.setGrid_links (s : State) (k : Nat) (g : Grid) : (s.setGrid k g).links = s.links := rfl
@[simp] theorem State.setGrid_apertures (s : State) (k : Nat) (g : Grid) : (s.setGrid k g).apertures = s.apertures := rfl
@[simp] theorem State.setGrid_fatal (s : State) (k : Nat) (g : Grid) : (s.setGrid k g).fatal = s.fatal := rfl
@[simp] theorem State.setGrid_pcie (s : State) (k : Nat) (g : Grid) : (s.setGrid k g).pcie = s.pcie := rfl
@[simp] theorem State.setGrid_captures (s : State) (k : Nat) (g : Grid) : (s.setGrid k g).captures = s.captures := rfl
@[simp] theorem State.setGrid_restores (s : State) (k : Nat) (g : Grid) : (s.setGrid k g).restores = s.restores := rfl
@[simp] theorem State.setGrid_snaps (s : State) (k : Nat) (g : Grid) : (s.setGrid k g).snaps = s.snaps := rfl
@[simp] theorem State.setGrid_tlbinvAt (s : State) (k : Nat) (g : Grid) : (s.setGrid k g).tlbinvAt = s.tlbinvAt := rfl
@[simp] theorem State.setGrid_mgmt (s : State) (k : Nat) (g : Grid) : (s.setGrid k g).mgmt = s.mgmt := rfl
@[simp] theorem State.setGrid_agenda (s : State) (k : Nat) (g : Grid) : (s.setGrid k g).agenda = s.agenda := rfl
@[simp] theorem State.setGrid_turn (s : State) (k : Nat) (g : Grid) : (s.setGrid k g).turn = s.turn := rfl
@[simp] theorem State.setGrid_issuer (s : State) (k : Nat) (g : Grid) : (s.setGrid k g).issuer = s.issuer := rfl
@[simp] theorem State.setGrid_free (s : State) (k : Nat) (g : Grid) : (s.setGrid k g).free = s.free := rfl
@[simp] theorem State.setGrid_stamp (s : State) (k : Nat) (g : Grid) : (s.setGrid k g).stamp = s.stamp := rfl
@[simp] theorem State.mapGrid_clock (s : State) (k : Nat) (f : Grid → Grid) : (s.mapGrid k f).clock = s.clock := rfl
@[simp] theorem State.mapGrid_mem (s : State) (k : Nat) (f : Grid → Grid) : (s.mapGrid k f).mem = s.mem := rfl
@[simp] theorem State.mapGrid_poison (s : State) (k : Nat) (f : Grid → Grid) : (s.mapGrid k f).poison = s.poison := rfl
@[simp] theorem State.mapGrid_lmax (s : State) (k : Nat) (f : Grid → Grid) : (s.mapGrid k f).lmax = s.lmax := rfl
@[simp] theorem State.mapGrid_wmax (s : State) (k : Nat) (f : Grid → Grid) : (s.mapGrid k f).wmax = s.wmax := rfl
@[simp] theorem State.mapGrid_cores (s : State) (k : Nat) (f : Grid → Grid) : (s.mapGrid k f).cores = s.cores := rfl
@[simp] theorem State.mapGrid_ctxs (s : State) (k : Nat) (f : Grid → Grid) : (s.mapGrid k f).ctxs = s.ctxs := rfl
@[simp] theorem State.mapGrid_teams (s : State) (k : Nat) (f : Grid → Grid) : (s.mapGrid k f).teams = s.teams := rfl
@[simp] theorem State.mapGrid_sectorTlb (s : State) (k : Nat) (f : Grid → Grid) : (s.mapGrid k f).sectorTlb = s.sectorTlb := rfl
@[simp] theorem State.mapGrid_ops (s : State) (k : Nat) (f : Grid → Grid) : (s.mapGrid k f).ops = s.ops := rfl
@[simp] theorem State.mapGrid_leaseWait (s : State) (k : Nat) (f : Grid → Grid) : (s.mapGrid k f).leaseWait = s.leaseWait := rfl
@[simp] theorem State.mapGrid_pool (s : State) (k : Nat) (f : Grid → Grid) : (s.mapGrid k f).pool = s.pool := rfl
@[simp] theorem State.mapGrid_pairs (s : State) (k : Nat) (f : Grid → Grid) : (s.mapGrid k f).pairs = s.pairs := rfl
@[simp] theorem State.mapGrid_xwaits (s : State) (k : Nat) (f : Grid → Grid) : (s.mapGrid k f).xwaits = s.xwaits := rfl
@[simp] theorem State.mapGrid_watches (s : State) (k : Nat) (f : Grid → Grid) : (s.mapGrid k f).watches = s.watches := rfl
@[simp] theorem State.mapGrid_jobs (s : State) (k : Nat) (f : Grid → Grid) : (s.mapGrid k f).jobs = s.jobs := rfl
@[simp] theorem State.mapGrid_zbuf (s : State) (k : Nat) (f : Grid → Grid) : (s.mapGrid k f).zbuf = s.zbuf := rfl
@[simp] theorem State.mapGrid_l2 (s : State) (k : Nat) (f : Grid → Grid) : (s.mapGrid k f).l2 = s.l2 := rfl
@[simp] theorem State.mapGrid_copies (s : State) (k : Nat) (f : Grid → Grid) : (s.mapGrid k f).copies = s.copies := rfl
@[simp] theorem State.mapGrid_uses (s : State) (k : Nat) (f : Grid → Grid) : (s.mapGrid k f).uses = s.uses := rfl
@[simp] theorem State.mapGrid_kept (s : State) (k : Nat) (f : Grid → Grid) : (s.mapGrid k f).kept = s.kept := rfl
@[simp] theorem State.mapGrid_directory (s : State) (k : Nat) (f : Grid → Grid) : (s.mapGrid k f).directory = s.directory := rfl
@[simp] theorem State.mapGrid_victims (s : State) (k : Nat) (f : Grid → Grid) : (s.mapGrid k f).victims = s.victims := rfl
@[simp] theorem State.mapGrid_combines (s : State) (k : Nat) (f : Grid → Grid) : (s.mapGrid k f).combines = s.combines := rfl
@[simp] theorem State.mapGrid_absorbs (s : State) (k : Nat) (f : Grid → Grid) : (s.mapGrid k f).absorbs = s.absorbs := rfl
@[simp] theorem State.mapGrid_recalls (s : State) (k : Nat) (f : Grid → Grid) : (s.mapGrid k f).recalls = s.recalls := rfl
@[simp] theorem State.mapGrid_dedup (s : State) (k : Nat) (f : Grid → Grid) : (s.mapGrid k f).dedup = s.dedup := rfl
@[simp] theorem State.mapGrid_shared (s : State) (k : Nat) (f : Grid → Grid) : (s.mapGrid k f).shared = s.shared := rfl
@[simp] theorem State.mapGrid_hashes (s : State) (k : Nat) (f : Grid → Grid) : (s.mapGrid k f).hashes = s.hashes := rfl
@[simp] theorem State.mapGrid_softErrors (s : State) (k : Nat) (f : Grid → Grid) : (s.mapGrid k f).softErrors = s.softErrors := rfl
@[simp] theorem State.mapGrid_oldCode (s : State) (k : Nat) (f : Grid → Grid) : (s.mapGrid k f).oldCode = s.oldCode := rfl
@[simp] theorem State.mapGrid_icache (s : State) (k : Nat) (f : Grid → Grid) : (s.mapGrid k f).icache = s.icache := rfl
@[simp] theorem State.mapGrid_counters (s : State) (k : Nat) (f : Grid → Grid) : (s.mapGrid k f).counters = s.counters := rfl
@[simp] theorem State.mapGrid_links (s : State) (k : Nat) (f : Grid → Grid) : (s.mapGrid k f).links = s.links := rfl
@[simp] theorem State.mapGrid_apertures (s : State) (k : Nat) (f : Grid → Grid) : (s.mapGrid k f).apertures = s.apertures := rfl
@[simp] theorem State.mapGrid_fatal (s : State) (k : Nat) (f : Grid → Grid) : (s.mapGrid k f).fatal = s.fatal := rfl
@[simp] theorem State.mapGrid_pcie (s : State) (k : Nat) (f : Grid → Grid) : (s.mapGrid k f).pcie = s.pcie := rfl
@[simp] theorem State.mapGrid_captures (s : State) (k : Nat) (f : Grid → Grid) : (s.mapGrid k f).captures = s.captures := rfl
@[simp] theorem State.mapGrid_restores (s : State) (k : Nat) (f : Grid → Grid) : (s.mapGrid k f).restores = s.restores := rfl
@[simp] theorem State.mapGrid_snaps (s : State) (k : Nat) (f : Grid → Grid) : (s.mapGrid k f).snaps = s.snaps := rfl
@[simp] theorem State.mapGrid_tlbinvAt (s : State) (k : Nat) (f : Grid → Grid) : (s.mapGrid k f).tlbinvAt = s.tlbinvAt := rfl
@[simp] theorem State.mapGrid_mgmt (s : State) (k : Nat) (f : Grid → Grid) : (s.mapGrid k f).mgmt = s.mgmt := rfl
@[simp] theorem State.mapGrid_agenda (s : State) (k : Nat) (f : Grid → Grid) : (s.mapGrid k f).agenda = s.agenda := rfl
@[simp] theorem State.mapGrid_turn (s : State) (k : Nat) (f : Grid → Grid) : (s.mapGrid k f).turn = s.turn := rfl
@[simp] theorem State.mapGrid_issuer (s : State) (k : Nat) (f : Grid → Grid) : (s.mapGrid k f).issuer = s.issuer := rfl
@[simp] theorem State.mapGrid_free (s : State) (k : Nat) (f : Grid → Grid) : (s.mapGrid k f).free = s.free := rfl
@[simp] theorem State.mapGrid_stamp (s : State) (k : Nat) (f : Grid → Grid) : (s.mapGrid k f).stamp = s.stamp := rfl
@[simp] theorem State.mapTeam_clock (s : State) (k : Nat) (f : Team → Team) : (s.mapTeam k f).clock = s.clock := rfl
@[simp] theorem State.mapTeam_mem (s : State) (k : Nat) (f : Team → Team) : (s.mapTeam k f).mem = s.mem := rfl
@[simp] theorem State.mapTeam_poison (s : State) (k : Nat) (f : Team → Team) : (s.mapTeam k f).poison = s.poison := rfl
@[simp] theorem State.mapTeam_lmax (s : State) (k : Nat) (f : Team → Team) : (s.mapTeam k f).lmax = s.lmax := rfl
@[simp] theorem State.mapTeam_wmax (s : State) (k : Nat) (f : Team → Team) : (s.mapTeam k f).wmax = s.wmax := rfl
@[simp] theorem State.mapTeam_cores (s : State) (k : Nat) (f : Team → Team) : (s.mapTeam k f).cores = s.cores := rfl
@[simp] theorem State.mapTeam_ctxs (s : State) (k : Nat) (f : Team → Team) : (s.mapTeam k f).ctxs = s.ctxs := rfl
@[simp] theorem State.mapTeam_grids (s : State) (k : Nat) (f : Team → Team) : (s.mapTeam k f).grids = s.grids := rfl
@[simp] theorem State.mapTeam_sectorTlb (s : State) (k : Nat) (f : Team → Team) : (s.mapTeam k f).sectorTlb = s.sectorTlb := rfl
@[simp] theorem State.mapTeam_ops (s : State) (k : Nat) (f : Team → Team) : (s.mapTeam k f).ops = s.ops := rfl
@[simp] theorem State.mapTeam_leaseWait (s : State) (k : Nat) (f : Team → Team) : (s.mapTeam k f).leaseWait = s.leaseWait := rfl
@[simp] theorem State.mapTeam_pool (s : State) (k : Nat) (f : Team → Team) : (s.mapTeam k f).pool = s.pool := rfl
@[simp] theorem State.mapTeam_pairs (s : State) (k : Nat) (f : Team → Team) : (s.mapTeam k f).pairs = s.pairs := rfl
@[simp] theorem State.mapTeam_xwaits (s : State) (k : Nat) (f : Team → Team) : (s.mapTeam k f).xwaits = s.xwaits := rfl
@[simp] theorem State.mapTeam_watches (s : State) (k : Nat) (f : Team → Team) : (s.mapTeam k f).watches = s.watches := rfl
@[simp] theorem State.mapTeam_jobs (s : State) (k : Nat) (f : Team → Team) : (s.mapTeam k f).jobs = s.jobs := rfl
@[simp] theorem State.mapTeam_zbuf (s : State) (k : Nat) (f : Team → Team) : (s.mapTeam k f).zbuf = s.zbuf := rfl
@[simp] theorem State.mapTeam_l2 (s : State) (k : Nat) (f : Team → Team) : (s.mapTeam k f).l2 = s.l2 := rfl
@[simp] theorem State.mapTeam_copies (s : State) (k : Nat) (f : Team → Team) : (s.mapTeam k f).copies = s.copies := rfl
@[simp] theorem State.mapTeam_uses (s : State) (k : Nat) (f : Team → Team) : (s.mapTeam k f).uses = s.uses := rfl
@[simp] theorem State.mapTeam_kept (s : State) (k : Nat) (f : Team → Team) : (s.mapTeam k f).kept = s.kept := rfl
@[simp] theorem State.mapTeam_directory (s : State) (k : Nat) (f : Team → Team) : (s.mapTeam k f).directory = s.directory := rfl
@[simp] theorem State.mapTeam_victims (s : State) (k : Nat) (f : Team → Team) : (s.mapTeam k f).victims = s.victims := rfl
@[simp] theorem State.mapTeam_combines (s : State) (k : Nat) (f : Team → Team) : (s.mapTeam k f).combines = s.combines := rfl
@[simp] theorem State.mapTeam_absorbs (s : State) (k : Nat) (f : Team → Team) : (s.mapTeam k f).absorbs = s.absorbs := rfl
@[simp] theorem State.mapTeam_recalls (s : State) (k : Nat) (f : Team → Team) : (s.mapTeam k f).recalls = s.recalls := rfl
@[simp] theorem State.mapTeam_dedup (s : State) (k : Nat) (f : Team → Team) : (s.mapTeam k f).dedup = s.dedup := rfl
@[simp] theorem State.mapTeam_shared (s : State) (k : Nat) (f : Team → Team) : (s.mapTeam k f).shared = s.shared := rfl
@[simp] theorem State.mapTeam_hashes (s : State) (k : Nat) (f : Team → Team) : (s.mapTeam k f).hashes = s.hashes := rfl
@[simp] theorem State.mapTeam_softErrors (s : State) (k : Nat) (f : Team → Team) : (s.mapTeam k f).softErrors = s.softErrors := rfl
@[simp] theorem State.mapTeam_oldCode (s : State) (k : Nat) (f : Team → Team) : (s.mapTeam k f).oldCode = s.oldCode := rfl
@[simp] theorem State.mapTeam_icache (s : State) (k : Nat) (f : Team → Team) : (s.mapTeam k f).icache = s.icache := rfl
@[simp] theorem State.mapTeam_counters (s : State) (k : Nat) (f : Team → Team) : (s.mapTeam k f).counters = s.counters := rfl
@[simp] theorem State.mapTeam_links (s : State) (k : Nat) (f : Team → Team) : (s.mapTeam k f).links = s.links := rfl
@[simp] theorem State.mapTeam_apertures (s : State) (k : Nat) (f : Team → Team) : (s.mapTeam k f).apertures = s.apertures := rfl
@[simp] theorem State.mapTeam_fatal (s : State) (k : Nat) (f : Team → Team) : (s.mapTeam k f).fatal = s.fatal := rfl
@[simp] theorem State.mapTeam_pcie (s : State) (k : Nat) (f : Team → Team) : (s.mapTeam k f).pcie = s.pcie := rfl
@[simp] theorem State.mapTeam_captures (s : State) (k : Nat) (f : Team → Team) : (s.mapTeam k f).captures = s.captures := rfl
@[simp] theorem State.mapTeam_restores (s : State) (k : Nat) (f : Team → Team) : (s.mapTeam k f).restores = s.restores := rfl
@[simp] theorem State.mapTeam_snaps (s : State) (k : Nat) (f : Team → Team) : (s.mapTeam k f).snaps = s.snaps := rfl
@[simp] theorem State.mapTeam_tlbinvAt (s : State) (k : Nat) (f : Team → Team) : (s.mapTeam k f).tlbinvAt = s.tlbinvAt := rfl
@[simp] theorem State.mapTeam_mgmt (s : State) (k : Nat) (f : Team → Team) : (s.mapTeam k f).mgmt = s.mgmt := rfl
@[simp] theorem State.mapTeam_agenda (s : State) (k : Nat) (f : Team → Team) : (s.mapTeam k f).agenda = s.agenda := rfl
@[simp] theorem State.mapTeam_turn (s : State) (k : Nat) (f : Team → Team) : (s.mapTeam k f).turn = s.turn := rfl
@[simp] theorem State.mapTeam_issuer (s : State) (k : Nat) (f : Team → Team) : (s.mapTeam k f).issuer = s.issuer := rfl
@[simp] theorem State.mapTeam_free (s : State) (k : Nat) (f : Team → Team) : (s.mapTeam k f).free = s.free := rfl
@[simp] theorem State.mapTeam_stamp (s : State) (k : Nat) (f : Team → Team) : (s.mapTeam k f).stamp = s.stamp := rfl
@[simp] theorem State.mapCourse_clock (s : State) (core slot : Nat) (f : Course → Course) : (s.mapCourse core slot f).clock = s.clock := rfl
@[simp] theorem State.mapCourse_mem (s : State) (core slot : Nat) (f : Course → Course) : (s.mapCourse core slot f).mem = s.mem := rfl
@[simp] theorem State.mapCourse_poison (s : State) (core slot : Nat) (f : Course → Course) : (s.mapCourse core slot f).poison = s.poison := rfl
@[simp] theorem State.mapCourse_lmax (s : State) (core slot : Nat) (f : Course → Course) : (s.mapCourse core slot f).lmax = s.lmax := rfl
@[simp] theorem State.mapCourse_wmax (s : State) (core slot : Nat) (f : Course → Course) : (s.mapCourse core slot f).wmax = s.wmax := rfl
@[simp] theorem State.mapCourse_ctxs (s : State) (core slot : Nat) (f : Course → Course) : (s.mapCourse core slot f).ctxs = s.ctxs := rfl
@[simp] theorem State.mapCourse_teams (s : State) (core slot : Nat) (f : Course → Course) : (s.mapCourse core slot f).teams = s.teams := rfl
@[simp] theorem State.mapCourse_grids (s : State) (core slot : Nat) (f : Course → Course) : (s.mapCourse core slot f).grids = s.grids := rfl
@[simp] theorem State.mapCourse_sectorTlb (s : State) (core slot : Nat) (f : Course → Course) : (s.mapCourse core slot f).sectorTlb = s.sectorTlb := rfl
@[simp] theorem State.mapCourse_ops (s : State) (core slot : Nat) (f : Course → Course) : (s.mapCourse core slot f).ops = s.ops := rfl
@[simp] theorem State.mapCourse_leaseWait (s : State) (core slot : Nat) (f : Course → Course) : (s.mapCourse core slot f).leaseWait = s.leaseWait := rfl
@[simp] theorem State.mapCourse_pool (s : State) (core slot : Nat) (f : Course → Course) : (s.mapCourse core slot f).pool = s.pool := rfl
@[simp] theorem State.mapCourse_pairs (s : State) (core slot : Nat) (f : Course → Course) : (s.mapCourse core slot f).pairs = s.pairs := rfl
@[simp] theorem State.mapCourse_xwaits (s : State) (core slot : Nat) (f : Course → Course) : (s.mapCourse core slot f).xwaits = s.xwaits := rfl
@[simp] theorem State.mapCourse_watches (s : State) (core slot : Nat) (f : Course → Course) : (s.mapCourse core slot f).watches = s.watches := rfl
@[simp] theorem State.mapCourse_jobs (s : State) (core slot : Nat) (f : Course → Course) : (s.mapCourse core slot f).jobs = s.jobs := rfl
@[simp] theorem State.mapCourse_zbuf (s : State) (core slot : Nat) (f : Course → Course) : (s.mapCourse core slot f).zbuf = s.zbuf := rfl
@[simp] theorem State.mapCourse_l2 (s : State) (core slot : Nat) (f : Course → Course) : (s.mapCourse core slot f).l2 = s.l2 := rfl
@[simp] theorem State.mapCourse_copies (s : State) (core slot : Nat) (f : Course → Course) : (s.mapCourse core slot f).copies = s.copies := rfl
@[simp] theorem State.mapCourse_uses (s : State) (core slot : Nat) (f : Course → Course) : (s.mapCourse core slot f).uses = s.uses := rfl
@[simp] theorem State.mapCourse_kept (s : State) (core slot : Nat) (f : Course → Course) : (s.mapCourse core slot f).kept = s.kept := rfl
@[simp] theorem State.mapCourse_directory (s : State) (core slot : Nat) (f : Course → Course) : (s.mapCourse core slot f).directory = s.directory := rfl
@[simp] theorem State.mapCourse_victims (s : State) (core slot : Nat) (f : Course → Course) : (s.mapCourse core slot f).victims = s.victims := rfl
@[simp] theorem State.mapCourse_combines (s : State) (core slot : Nat) (f : Course → Course) : (s.mapCourse core slot f).combines = s.combines := rfl
@[simp] theorem State.mapCourse_absorbs (s : State) (core slot : Nat) (f : Course → Course) : (s.mapCourse core slot f).absorbs = s.absorbs := rfl
@[simp] theorem State.mapCourse_recalls (s : State) (core slot : Nat) (f : Course → Course) : (s.mapCourse core slot f).recalls = s.recalls := rfl
@[simp] theorem State.mapCourse_dedup (s : State) (core slot : Nat) (f : Course → Course) : (s.mapCourse core slot f).dedup = s.dedup := rfl
@[simp] theorem State.mapCourse_shared (s : State) (core slot : Nat) (f : Course → Course) : (s.mapCourse core slot f).shared = s.shared := rfl
@[simp] theorem State.mapCourse_hashes (s : State) (core slot : Nat) (f : Course → Course) : (s.mapCourse core slot f).hashes = s.hashes := rfl
@[simp] theorem State.mapCourse_softErrors (s : State) (core slot : Nat) (f : Course → Course) : (s.mapCourse core slot f).softErrors = s.softErrors := rfl
@[simp] theorem State.mapCourse_oldCode (s : State) (core slot : Nat) (f : Course → Course) : (s.mapCourse core slot f).oldCode = s.oldCode := rfl
@[simp] theorem State.mapCourse_icache (s : State) (core slot : Nat) (f : Course → Course) : (s.mapCourse core slot f).icache = s.icache := rfl
@[simp] theorem State.mapCourse_counters (s : State) (core slot : Nat) (f : Course → Course) : (s.mapCourse core slot f).counters = s.counters := rfl
@[simp] theorem State.mapCourse_links (s : State) (core slot : Nat) (f : Course → Course) : (s.mapCourse core slot f).links = s.links := rfl
@[simp] theorem State.mapCourse_apertures (s : State) (core slot : Nat) (f : Course → Course) : (s.mapCourse core slot f).apertures = s.apertures := rfl
@[simp] theorem State.mapCourse_fatal (s : State) (core slot : Nat) (f : Course → Course) : (s.mapCourse core slot f).fatal = s.fatal := rfl
@[simp] theorem State.mapCourse_pcie (s : State) (core slot : Nat) (f : Course → Course) : (s.mapCourse core slot f).pcie = s.pcie := rfl
@[simp] theorem State.mapCourse_captures (s : State) (core slot : Nat) (f : Course → Course) : (s.mapCourse core slot f).captures = s.captures := rfl
@[simp] theorem State.mapCourse_restores (s : State) (core slot : Nat) (f : Course → Course) : (s.mapCourse core slot f).restores = s.restores := rfl
@[simp] theorem State.mapCourse_snaps (s : State) (core slot : Nat) (f : Course → Course) : (s.mapCourse core slot f).snaps = s.snaps := rfl
@[simp] theorem State.mapCourse_tlbinvAt (s : State) (core slot : Nat) (f : Course → Course) : (s.mapCourse core slot f).tlbinvAt = s.tlbinvAt := rfl
@[simp] theorem State.mapCourse_mgmt (s : State) (core slot : Nat) (f : Course → Course) : (s.mapCourse core slot f).mgmt = s.mgmt := rfl
@[simp] theorem State.mapCourse_agenda (s : State) (core slot : Nat) (f : Course → Course) : (s.mapCourse core slot f).agenda = s.agenda := rfl
@[simp] theorem State.mapCourse_turn (s : State) (core slot : Nat) (f : Course → Course) : (s.mapCourse core slot f).turn = s.turn := rfl
@[simp] theorem State.mapCourse_issuer (s : State) (core slot : Nat) (f : Course → Course) : (s.mapCourse core slot f).issuer = s.issuer := rfl
@[simp] theorem State.mapCourse_free (s : State) (core slot : Nat) (f : Course → Course) : (s.mapCourse core slot f).free = s.free := rfl
@[simp] theorem State.mapCourse_stamp (s : State) (core slot : Nat) (f : Course → Course) : (s.mapCourse core slot f).stamp = s.stamp := rfl
@[simp] theorem State.count_clock (s : State) (kind unit n : Nat) : (s.count kind unit n).clock = s.clock := rfl
@[simp] theorem State.count_mem (s : State) (kind unit n : Nat) : (s.count kind unit n).mem = s.mem := rfl
@[simp] theorem State.count_poison (s : State) (kind unit n : Nat) : (s.count kind unit n).poison = s.poison := rfl
@[simp] theorem State.count_lmax (s : State) (kind unit n : Nat) : (s.count kind unit n).lmax = s.lmax := rfl
@[simp] theorem State.count_wmax (s : State) (kind unit n : Nat) : (s.count kind unit n).wmax = s.wmax := rfl
@[simp] theorem State.count_cores (s : State) (kind unit n : Nat) : (s.count kind unit n).cores = s.cores := rfl
@[simp] theorem State.count_ctxs (s : State) (kind unit n : Nat) : (s.count kind unit n).ctxs = s.ctxs := rfl
@[simp] theorem State.count_teams (s : State) (kind unit n : Nat) : (s.count kind unit n).teams = s.teams := rfl
@[simp] theorem State.count_grids (s : State) (kind unit n : Nat) : (s.count kind unit n).grids = s.grids := rfl
@[simp] theorem State.count_sectorTlb (s : State) (kind unit n : Nat) : (s.count kind unit n).sectorTlb = s.sectorTlb := rfl
@[simp] theorem State.count_ops (s : State) (kind unit n : Nat) : (s.count kind unit n).ops = s.ops := rfl
@[simp] theorem State.count_leaseWait (s : State) (kind unit n : Nat) : (s.count kind unit n).leaseWait = s.leaseWait := rfl
@[simp] theorem State.count_pool (s : State) (kind unit n : Nat) : (s.count kind unit n).pool = s.pool := rfl
@[simp] theorem State.count_pairs (s : State) (kind unit n : Nat) : (s.count kind unit n).pairs = s.pairs := rfl
@[simp] theorem State.count_xwaits (s : State) (kind unit n : Nat) : (s.count kind unit n).xwaits = s.xwaits := rfl
@[simp] theorem State.count_watches (s : State) (kind unit n : Nat) : (s.count kind unit n).watches = s.watches := rfl
@[simp] theorem State.count_jobs (s : State) (kind unit n : Nat) : (s.count kind unit n).jobs = s.jobs := rfl
@[simp] theorem State.count_zbuf (s : State) (kind unit n : Nat) : (s.count kind unit n).zbuf = s.zbuf := rfl
@[simp] theorem State.count_l2 (s : State) (kind unit n : Nat) : (s.count kind unit n).l2 = s.l2 := rfl
@[simp] theorem State.count_copies (s : State) (kind unit n : Nat) : (s.count kind unit n).copies = s.copies := rfl
@[simp] theorem State.count_uses (s : State) (kind unit n : Nat) : (s.count kind unit n).uses = s.uses := rfl
@[simp] theorem State.count_kept (s : State) (kind unit n : Nat) : (s.count kind unit n).kept = s.kept := rfl
@[simp] theorem State.count_directory (s : State) (kind unit n : Nat) : (s.count kind unit n).directory = s.directory := rfl
@[simp] theorem State.count_victims (s : State) (kind unit n : Nat) : (s.count kind unit n).victims = s.victims := rfl
@[simp] theorem State.count_combines (s : State) (kind unit n : Nat) : (s.count kind unit n).combines = s.combines := rfl
@[simp] theorem State.count_absorbs (s : State) (kind unit n : Nat) : (s.count kind unit n).absorbs = s.absorbs := rfl
@[simp] theorem State.count_recalls (s : State) (kind unit n : Nat) : (s.count kind unit n).recalls = s.recalls := rfl
@[simp] theorem State.count_dedup (s : State) (kind unit n : Nat) : (s.count kind unit n).dedup = s.dedup := rfl
@[simp] theorem State.count_shared (s : State) (kind unit n : Nat) : (s.count kind unit n).shared = s.shared := rfl
@[simp] theorem State.count_hashes (s : State) (kind unit n : Nat) : (s.count kind unit n).hashes = s.hashes := rfl
@[simp] theorem State.count_softErrors (s : State) (kind unit n : Nat) : (s.count kind unit n).softErrors = s.softErrors := rfl
@[simp] theorem State.count_oldCode (s : State) (kind unit n : Nat) : (s.count kind unit n).oldCode = s.oldCode := rfl
@[simp] theorem State.count_icache (s : State) (kind unit n : Nat) : (s.count kind unit n).icache = s.icache := rfl
@[simp] theorem State.count_links (s : State) (kind unit n : Nat) : (s.count kind unit n).links = s.links := rfl
@[simp] theorem State.count_apertures (s : State) (kind unit n : Nat) : (s.count kind unit n).apertures = s.apertures := rfl
@[simp] theorem State.count_fatal (s : State) (kind unit n : Nat) : (s.count kind unit n).fatal = s.fatal := rfl
@[simp] theorem State.count_pcie (s : State) (kind unit n : Nat) : (s.count kind unit n).pcie = s.pcie := rfl
@[simp] theorem State.count_captures (s : State) (kind unit n : Nat) : (s.count kind unit n).captures = s.captures := rfl
@[simp] theorem State.count_restores (s : State) (kind unit n : Nat) : (s.count kind unit n).restores = s.restores := rfl
@[simp] theorem State.count_snaps (s : State) (kind unit n : Nat) : (s.count kind unit n).snaps = s.snaps := rfl
@[simp] theorem State.count_tlbinvAt (s : State) (kind unit n : Nat) : (s.count kind unit n).tlbinvAt = s.tlbinvAt := rfl
@[simp] theorem State.count_mgmt (s : State) (kind unit n : Nat) : (s.count kind unit n).mgmt = s.mgmt := rfl
@[simp] theorem State.count_agenda (s : State) (kind unit n : Nat) : (s.count kind unit n).agenda = s.agenda := rfl
@[simp] theorem State.count_turn (s : State) (kind unit n : Nat) : (s.count kind unit n).turn = s.turn := rfl
@[simp] theorem State.count_issuer (s : State) (kind unit n : Nat) : (s.count kind unit n).issuer = s.issuer := rfl
@[simp] theorem State.count_free (s : State) (kind unit n : Nat) : (s.count kind unit n).free = s.free := rfl
@[simp] theorem State.count_stamp (s : State) (kind unit n : Nat) : (s.count kind unit n).stamp = s.stamp := rfl
@[simp] theorem State.poisonRead_clock (s : State) (k n : Nat) : (s.poisonRead k n).clock = s.clock := rfl
@[simp] theorem State.poisonRead_mem (s : State) (k n : Nat) : (s.poisonRead k n).mem = s.mem := rfl
@[simp] theorem State.poisonRead_poison (s : State) (k n : Nat) : (s.poisonRead k n).poison = s.poison := rfl
@[simp] theorem State.poisonRead_lmax (s : State) (k n : Nat) : (s.poisonRead k n).lmax = s.lmax := rfl
@[simp] theorem State.poisonRead_wmax (s : State) (k n : Nat) : (s.poisonRead k n).wmax = s.wmax := rfl
@[simp] theorem State.poisonRead_cores (s : State) (k n : Nat) : (s.poisonRead k n).cores = s.cores := rfl
@[simp] theorem State.poisonRead_teams (s : State) (k n : Nat) : (s.poisonRead k n).teams = s.teams := rfl
@[simp] theorem State.poisonRead_grids (s : State) (k n : Nat) : (s.poisonRead k n).grids = s.grids := rfl
@[simp] theorem State.poisonRead_sectorTlb (s : State) (k n : Nat) : (s.poisonRead k n).sectorTlb = s.sectorTlb := rfl
@[simp] theorem State.poisonRead_ops (s : State) (k n : Nat) : (s.poisonRead k n).ops = s.ops := rfl
@[simp] theorem State.poisonRead_leaseWait (s : State) (k n : Nat) : (s.poisonRead k n).leaseWait = s.leaseWait := rfl
@[simp] theorem State.poisonRead_pool (s : State) (k n : Nat) : (s.poisonRead k n).pool = s.pool := rfl
@[simp] theorem State.poisonRead_pairs (s : State) (k n : Nat) : (s.poisonRead k n).pairs = s.pairs := rfl
@[simp] theorem State.poisonRead_xwaits (s : State) (k n : Nat) : (s.poisonRead k n).xwaits = s.xwaits := rfl
@[simp] theorem State.poisonRead_watches (s : State) (k n : Nat) : (s.poisonRead k n).watches = s.watches := rfl
@[simp] theorem State.poisonRead_jobs (s : State) (k n : Nat) : (s.poisonRead k n).jobs = s.jobs := rfl
@[simp] theorem State.poisonRead_zbuf (s : State) (k n : Nat) : (s.poisonRead k n).zbuf = s.zbuf := rfl
@[simp] theorem State.poisonRead_l2 (s : State) (k n : Nat) : (s.poisonRead k n).l2 = s.l2 := rfl
@[simp] theorem State.poisonRead_copies (s : State) (k n : Nat) : (s.poisonRead k n).copies = s.copies := rfl
@[simp] theorem State.poisonRead_uses (s : State) (k n : Nat) : (s.poisonRead k n).uses = s.uses := rfl
@[simp] theorem State.poisonRead_kept (s : State) (k n : Nat) : (s.poisonRead k n).kept = s.kept := rfl
@[simp] theorem State.poisonRead_directory (s : State) (k n : Nat) : (s.poisonRead k n).directory = s.directory := rfl
@[simp] theorem State.poisonRead_victims (s : State) (k n : Nat) : (s.poisonRead k n).victims = s.victims := rfl
@[simp] theorem State.poisonRead_combines (s : State) (k n : Nat) : (s.poisonRead k n).combines = s.combines := rfl
@[simp] theorem State.poisonRead_absorbs (s : State) (k n : Nat) : (s.poisonRead k n).absorbs = s.absorbs := rfl
@[simp] theorem State.poisonRead_recalls (s : State) (k n : Nat) : (s.poisonRead k n).recalls = s.recalls := rfl
@[simp] theorem State.poisonRead_dedup (s : State) (k n : Nat) : (s.poisonRead k n).dedup = s.dedup := rfl
@[simp] theorem State.poisonRead_shared (s : State) (k n : Nat) : (s.poisonRead k n).shared = s.shared := rfl
@[simp] theorem State.poisonRead_hashes (s : State) (k n : Nat) : (s.poisonRead k n).hashes = s.hashes := rfl
@[simp] theorem State.poisonRead_softErrors (s : State) (k n : Nat) : (s.poisonRead k n).softErrors = s.softErrors := rfl
@[simp] theorem State.poisonRead_oldCode (s : State) (k n : Nat) : (s.poisonRead k n).oldCode = s.oldCode := rfl
@[simp] theorem State.poisonRead_icache (s : State) (k n : Nat) : (s.poisonRead k n).icache = s.icache := rfl
@[simp] theorem State.poisonRead_counters (s : State) (k n : Nat) : (s.poisonRead k n).counters = s.counters := rfl
@[simp] theorem State.poisonRead_links (s : State) (k n : Nat) : (s.poisonRead k n).links = s.links := rfl
@[simp] theorem State.poisonRead_apertures (s : State) (k n : Nat) : (s.poisonRead k n).apertures = s.apertures := rfl
@[simp] theorem State.poisonRead_fatal (s : State) (k n : Nat) : (s.poisonRead k n).fatal = s.fatal := rfl
@[simp] theorem State.poisonRead_pcie (s : State) (k n : Nat) : (s.poisonRead k n).pcie = s.pcie := rfl
@[simp] theorem State.poisonRead_captures (s : State) (k n : Nat) : (s.poisonRead k n).captures = s.captures := rfl
@[simp] theorem State.poisonRead_restores (s : State) (k n : Nat) : (s.poisonRead k n).restores = s.restores := rfl
@[simp] theorem State.poisonRead_snaps (s : State) (k n : Nat) : (s.poisonRead k n).snaps = s.snaps := rfl
@[simp] theorem State.poisonRead_tlbinvAt (s : State) (k n : Nat) : (s.poisonRead k n).tlbinvAt = s.tlbinvAt := rfl
@[simp] theorem State.poisonRead_mgmt (s : State) (k n : Nat) : (s.poisonRead k n).mgmt = s.mgmt := rfl
@[simp] theorem State.poisonRead_agenda (s : State) (k n : Nat) : (s.poisonRead k n).agenda = s.agenda := rfl
@[simp] theorem State.poisonRead_turn (s : State) (k n : Nat) : (s.poisonRead k n).turn = s.turn := rfl
@[simp] theorem State.poisonRead_issuer (s : State) (k n : Nat) : (s.poisonRead k n).issuer = s.issuer := rfl
@[simp] theorem State.poisonRead_free (s : State) (k n : Nat) : (s.poisonRead k n).free = s.free := rfl
@[simp] theorem State.poisonRead_stamp (s : State) (k n : Nat) : (s.poisonRead k n).stamp = s.stamp := rfl
@[simp] theorem State.mapOp_clock (s : State) (k : Nat) (f : Op → Op) : (s.mapOp k f).clock = s.clock := rfl
@[simp] theorem State.mapOp_mem (s : State) (k : Nat) (f : Op → Op) : (s.mapOp k f).mem = s.mem := rfl
@[simp] theorem State.mapOp_poison (s : State) (k : Nat) (f : Op → Op) : (s.mapOp k f).poison = s.poison := rfl
@[simp] theorem State.mapOp_lmax (s : State) (k : Nat) (f : Op → Op) : (s.mapOp k f).lmax = s.lmax := rfl
@[simp] theorem State.mapOp_wmax (s : State) (k : Nat) (f : Op → Op) : (s.mapOp k f).wmax = s.wmax := rfl
@[simp] theorem State.mapOp_cores (s : State) (k : Nat) (f : Op → Op) : (s.mapOp k f).cores = s.cores := rfl
@[simp] theorem State.mapOp_ctxs (s : State) (k : Nat) (f : Op → Op) : (s.mapOp k f).ctxs = s.ctxs := rfl
@[simp] theorem State.mapOp_teams (s : State) (k : Nat) (f : Op → Op) : (s.mapOp k f).teams = s.teams := rfl
@[simp] theorem State.mapOp_grids (s : State) (k : Nat) (f : Op → Op) : (s.mapOp k f).grids = s.grids := rfl
@[simp] theorem State.mapOp_sectorTlb (s : State) (k : Nat) (f : Op → Op) : (s.mapOp k f).sectorTlb = s.sectorTlb := rfl
@[simp] theorem State.mapOp_leaseWait (s : State) (k : Nat) (f : Op → Op) : (s.mapOp k f).leaseWait = s.leaseWait := rfl
@[simp] theorem State.mapOp_pool (s : State) (k : Nat) (f : Op → Op) : (s.mapOp k f).pool = s.pool := rfl
@[simp] theorem State.mapOp_pairs (s : State) (k : Nat) (f : Op → Op) : (s.mapOp k f).pairs = s.pairs := rfl
@[simp] theorem State.mapOp_xwaits (s : State) (k : Nat) (f : Op → Op) : (s.mapOp k f).xwaits = s.xwaits := rfl
@[simp] theorem State.mapOp_watches (s : State) (k : Nat) (f : Op → Op) : (s.mapOp k f).watches = s.watches := rfl
@[simp] theorem State.mapOp_jobs (s : State) (k : Nat) (f : Op → Op) : (s.mapOp k f).jobs = s.jobs := rfl
@[simp] theorem State.mapOp_zbuf (s : State) (k : Nat) (f : Op → Op) : (s.mapOp k f).zbuf = s.zbuf := rfl
@[simp] theorem State.mapOp_l2 (s : State) (k : Nat) (f : Op → Op) : (s.mapOp k f).l2 = s.l2 := rfl
@[simp] theorem State.mapOp_copies (s : State) (k : Nat) (f : Op → Op) : (s.mapOp k f).copies = s.copies := rfl
@[simp] theorem State.mapOp_uses (s : State) (k : Nat) (f : Op → Op) : (s.mapOp k f).uses = s.uses := rfl
@[simp] theorem State.mapOp_kept (s : State) (k : Nat) (f : Op → Op) : (s.mapOp k f).kept = s.kept := rfl
@[simp] theorem State.mapOp_directory (s : State) (k : Nat) (f : Op → Op) : (s.mapOp k f).directory = s.directory := rfl
@[simp] theorem State.mapOp_victims (s : State) (k : Nat) (f : Op → Op) : (s.mapOp k f).victims = s.victims := rfl
@[simp] theorem State.mapOp_combines (s : State) (k : Nat) (f : Op → Op) : (s.mapOp k f).combines = s.combines := rfl
@[simp] theorem State.mapOp_absorbs (s : State) (k : Nat) (f : Op → Op) : (s.mapOp k f).absorbs = s.absorbs := rfl
@[simp] theorem State.mapOp_recalls (s : State) (k : Nat) (f : Op → Op) : (s.mapOp k f).recalls = s.recalls := rfl
@[simp] theorem State.mapOp_dedup (s : State) (k : Nat) (f : Op → Op) : (s.mapOp k f).dedup = s.dedup := rfl
@[simp] theorem State.mapOp_shared (s : State) (k : Nat) (f : Op → Op) : (s.mapOp k f).shared = s.shared := rfl
@[simp] theorem State.mapOp_hashes (s : State) (k : Nat) (f : Op → Op) : (s.mapOp k f).hashes = s.hashes := rfl
@[simp] theorem State.mapOp_softErrors (s : State) (k : Nat) (f : Op → Op) : (s.mapOp k f).softErrors = s.softErrors := rfl
@[simp] theorem State.mapOp_oldCode (s : State) (k : Nat) (f : Op → Op) : (s.mapOp k f).oldCode = s.oldCode := rfl
@[simp] theorem State.mapOp_icache (s : State) (k : Nat) (f : Op → Op) : (s.mapOp k f).icache = s.icache := rfl
@[simp] theorem State.mapOp_counters (s : State) (k : Nat) (f : Op → Op) : (s.mapOp k f).counters = s.counters := rfl
@[simp] theorem State.mapOp_links (s : State) (k : Nat) (f : Op → Op) : (s.mapOp k f).links = s.links := rfl
@[simp] theorem State.mapOp_apertures (s : State) (k : Nat) (f : Op → Op) : (s.mapOp k f).apertures = s.apertures := rfl
@[simp] theorem State.mapOp_fatal (s : State) (k : Nat) (f : Op → Op) : (s.mapOp k f).fatal = s.fatal := rfl
@[simp] theorem State.mapOp_pcie (s : State) (k : Nat) (f : Op → Op) : (s.mapOp k f).pcie = s.pcie := rfl
@[simp] theorem State.mapOp_captures (s : State) (k : Nat) (f : Op → Op) : (s.mapOp k f).captures = s.captures := rfl
@[simp] theorem State.mapOp_restores (s : State) (k : Nat) (f : Op → Op) : (s.mapOp k f).restores = s.restores := rfl
@[simp] theorem State.mapOp_snaps (s : State) (k : Nat) (f : Op → Op) : (s.mapOp k f).snaps = s.snaps := rfl
@[simp] theorem State.mapOp_tlbinvAt (s : State) (k : Nat) (f : Op → Op) : (s.mapOp k f).tlbinvAt = s.tlbinvAt := rfl
@[simp] theorem State.mapOp_mgmt (s : State) (k : Nat) (f : Op → Op) : (s.mapOp k f).mgmt = s.mgmt := rfl
@[simp] theorem State.mapOp_agenda (s : State) (k : Nat) (f : Op → Op) : (s.mapOp k f).agenda = s.agenda := rfl
@[simp] theorem State.mapOp_turn (s : State) (k : Nat) (f : Op → Op) : (s.mapOp k f).turn = s.turn := rfl
@[simp] theorem State.mapOp_issuer (s : State) (k : Nat) (f : Op → Op) : (s.mapOp k f).issuer = s.issuer := rfl
@[simp] theorem State.mapOp_free (s : State) (k : Nat) (f : Op → Op) : (s.mapOp k f).free = s.free := rfl
@[simp] theorem State.mapOp_stamp (s : State) (k : Nat) (f : Op → Op) : (s.mapOp k f).stamp = s.stamp := rfl
@[simp] theorem State.writeByte_clock (s : State) (pa : Nat) (x : Byte) : (s.writeByte pa x).clock = s.clock := rfl
@[simp] theorem State.writeByte_poison (s : State) (pa : Nat) (x : Byte) : (s.writeByte pa x).poison = s.poison := rfl
@[simp] theorem State.writeByte_lmax (s : State) (pa : Nat) (x : Byte) : (s.writeByte pa x).lmax = s.lmax := rfl
@[simp] theorem State.writeByte_wmax (s : State) (pa : Nat) (x : Byte) : (s.writeByte pa x).wmax = s.wmax := rfl
@[simp] theorem State.writeByte_cores (s : State) (pa : Nat) (x : Byte) : (s.writeByte pa x).cores = s.cores := rfl
@[simp] theorem State.writeByte_ctxs (s : State) (pa : Nat) (x : Byte) : (s.writeByte pa x).ctxs = s.ctxs := rfl
@[simp] theorem State.writeByte_teams (s : State) (pa : Nat) (x : Byte) : (s.writeByte pa x).teams = s.teams := rfl
@[simp] theorem State.writeByte_grids (s : State) (pa : Nat) (x : Byte) : (s.writeByte pa x).grids = s.grids := rfl
@[simp] theorem State.writeByte_sectorTlb (s : State) (pa : Nat) (x : Byte) : (s.writeByte pa x).sectorTlb = s.sectorTlb := rfl
@[simp] theorem State.writeByte_ops (s : State) (pa : Nat) (x : Byte) : (s.writeByte pa x).ops = s.ops := rfl
@[simp] theorem State.writeByte_leaseWait (s : State) (pa : Nat) (x : Byte) : (s.writeByte pa x).leaseWait = s.leaseWait := rfl
@[simp] theorem State.writeByte_pool (s : State) (pa : Nat) (x : Byte) : (s.writeByte pa x).pool = s.pool := rfl
@[simp] theorem State.writeByte_pairs (s : State) (pa : Nat) (x : Byte) : (s.writeByte pa x).pairs = s.pairs := rfl
@[simp] theorem State.writeByte_xwaits (s : State) (pa : Nat) (x : Byte) : (s.writeByte pa x).xwaits = s.xwaits := rfl
@[simp] theorem State.writeByte_watches (s : State) (pa : Nat) (x : Byte) : (s.writeByte pa x).watches = s.watches := rfl
@[simp] theorem State.writeByte_jobs (s : State) (pa : Nat) (x : Byte) : (s.writeByte pa x).jobs = s.jobs := rfl
@[simp] theorem State.writeByte_zbuf (s : State) (pa : Nat) (x : Byte) : (s.writeByte pa x).zbuf = s.zbuf := rfl
@[simp] theorem State.writeByte_l2 (s : State) (pa : Nat) (x : Byte) : (s.writeByte pa x).l2 = s.l2 := rfl
@[simp] theorem State.writeByte_copies (s : State) (pa : Nat) (x : Byte) : (s.writeByte pa x).copies = s.copies := rfl
@[simp] theorem State.writeByte_uses (s : State) (pa : Nat) (x : Byte) : (s.writeByte pa x).uses = s.uses := rfl
@[simp] theorem State.writeByte_kept (s : State) (pa : Nat) (x : Byte) : (s.writeByte pa x).kept = s.kept := rfl
@[simp] theorem State.writeByte_directory (s : State) (pa : Nat) (x : Byte) : (s.writeByte pa x).directory = s.directory := rfl
@[simp] theorem State.writeByte_victims (s : State) (pa : Nat) (x : Byte) : (s.writeByte pa x).victims = s.victims := rfl
@[simp] theorem State.writeByte_combines (s : State) (pa : Nat) (x : Byte) : (s.writeByte pa x).combines = s.combines := rfl
@[simp] theorem State.writeByte_absorbs (s : State) (pa : Nat) (x : Byte) : (s.writeByte pa x).absorbs = s.absorbs := rfl
@[simp] theorem State.writeByte_recalls (s : State) (pa : Nat) (x : Byte) : (s.writeByte pa x).recalls = s.recalls := rfl
@[simp] theorem State.writeByte_dedup (s : State) (pa : Nat) (x : Byte) : (s.writeByte pa x).dedup = s.dedup := rfl
@[simp] theorem State.writeByte_shared (s : State) (pa : Nat) (x : Byte) : (s.writeByte pa x).shared = s.shared := rfl
@[simp] theorem State.writeByte_hashes (s : State) (pa : Nat) (x : Byte) : (s.writeByte pa x).hashes = s.hashes := rfl
@[simp] theorem State.writeByte_softErrors (s : State) (pa : Nat) (x : Byte) : (s.writeByte pa x).softErrors = s.softErrors := rfl
@[simp] theorem State.writeByte_oldCode (s : State) (pa : Nat) (x : Byte) : (s.writeByte pa x).oldCode = s.oldCode := rfl
@[simp] theorem State.writeByte_icache (s : State) (pa : Nat) (x : Byte) : (s.writeByte pa x).icache = s.icache := rfl
@[simp] theorem State.writeByte_counters (s : State) (pa : Nat) (x : Byte) : (s.writeByte pa x).counters = s.counters := rfl
@[simp] theorem State.writeByte_links (s : State) (pa : Nat) (x : Byte) : (s.writeByte pa x).links = s.links := rfl
@[simp] theorem State.writeByte_apertures (s : State) (pa : Nat) (x : Byte) : (s.writeByte pa x).apertures = s.apertures := rfl
@[simp] theorem State.writeByte_fatal (s : State) (pa : Nat) (x : Byte) : (s.writeByte pa x).fatal = s.fatal := rfl
@[simp] theorem State.writeByte_pcie (s : State) (pa : Nat) (x : Byte) : (s.writeByte pa x).pcie = s.pcie := rfl
@[simp] theorem State.writeByte_captures (s : State) (pa : Nat) (x : Byte) : (s.writeByte pa x).captures = s.captures := rfl
@[simp] theorem State.writeByte_restores (s : State) (pa : Nat) (x : Byte) : (s.writeByte pa x).restores = s.restores := rfl
@[simp] theorem State.writeByte_snaps (s : State) (pa : Nat) (x : Byte) : (s.writeByte pa x).snaps = s.snaps := rfl
@[simp] theorem State.writeByte_tlbinvAt (s : State) (pa : Nat) (x : Byte) : (s.writeByte pa x).tlbinvAt = s.tlbinvAt := rfl
@[simp] theorem State.writeByte_mgmt (s : State) (pa : Nat) (x : Byte) : (s.writeByte pa x).mgmt = s.mgmt := rfl
@[simp] theorem State.writeByte_agenda (s : State) (pa : Nat) (x : Byte) : (s.writeByte pa x).agenda = s.agenda := rfl
@[simp] theorem State.writeByte_turn (s : State) (pa : Nat) (x : Byte) : (s.writeByte pa x).turn = s.turn := rfl
@[simp] theorem State.writeByte_issuer (s : State) (pa : Nat) (x : Byte) : (s.writeByte pa x).issuer = s.issuer := rfl
@[simp] theorem State.writeByte_free (s : State) (pa : Nat) (x : Byte) : (s.writeByte pa x).free = s.free := rfl
@[simp] theorem State.writeByte_stamp (s : State) (pa : Nat) (x : Byte) : (s.writeByte pa x).stamp = s.stamp := rfl
@[simp] theorem State.clearPoison_clock (s : State) (l : Nat) : (s.clearPoison l).clock = s.clock := rfl
@[simp] theorem State.clearPoison_mem (s : State) (l : Nat) : (s.clearPoison l).mem = s.mem := rfl
@[simp] theorem State.clearPoison_lmax (s : State) (l : Nat) : (s.clearPoison l).lmax = s.lmax := rfl
@[simp] theorem State.clearPoison_wmax (s : State) (l : Nat) : (s.clearPoison l).wmax = s.wmax := rfl
@[simp] theorem State.clearPoison_cores (s : State) (l : Nat) : (s.clearPoison l).cores = s.cores := rfl
@[simp] theorem State.clearPoison_ctxs (s : State) (l : Nat) : (s.clearPoison l).ctxs = s.ctxs := rfl
@[simp] theorem State.clearPoison_teams (s : State) (l : Nat) : (s.clearPoison l).teams = s.teams := rfl
@[simp] theorem State.clearPoison_grids (s : State) (l : Nat) : (s.clearPoison l).grids = s.grids := rfl
@[simp] theorem State.clearPoison_sectorTlb (s : State) (l : Nat) : (s.clearPoison l).sectorTlb = s.sectorTlb := rfl
@[simp] theorem State.clearPoison_ops (s : State) (l : Nat) : (s.clearPoison l).ops = s.ops := rfl
@[simp] theorem State.clearPoison_leaseWait (s : State) (l : Nat) : (s.clearPoison l).leaseWait = s.leaseWait := rfl
@[simp] theorem State.clearPoison_pool (s : State) (l : Nat) : (s.clearPoison l).pool = s.pool := rfl
@[simp] theorem State.clearPoison_pairs (s : State) (l : Nat) : (s.clearPoison l).pairs = s.pairs := rfl
@[simp] theorem State.clearPoison_xwaits (s : State) (l : Nat) : (s.clearPoison l).xwaits = s.xwaits := rfl
@[simp] theorem State.clearPoison_watches (s : State) (l : Nat) : (s.clearPoison l).watches = s.watches := rfl
@[simp] theorem State.clearPoison_jobs (s : State) (l : Nat) : (s.clearPoison l).jobs = s.jobs := rfl
@[simp] theorem State.clearPoison_zbuf (s : State) (l : Nat) : (s.clearPoison l).zbuf = s.zbuf := rfl
@[simp] theorem State.clearPoison_l2 (s : State) (l : Nat) : (s.clearPoison l).l2 = s.l2 := rfl
@[simp] theorem State.clearPoison_copies (s : State) (l : Nat) : (s.clearPoison l).copies = s.copies := rfl
@[simp] theorem State.clearPoison_uses (s : State) (l : Nat) : (s.clearPoison l).uses = s.uses := rfl
@[simp] theorem State.clearPoison_kept (s : State) (l : Nat) : (s.clearPoison l).kept = s.kept := rfl
@[simp] theorem State.clearPoison_directory (s : State) (l : Nat) : (s.clearPoison l).directory = s.directory := rfl
@[simp] theorem State.clearPoison_victims (s : State) (l : Nat) : (s.clearPoison l).victims = s.victims := rfl
@[simp] theorem State.clearPoison_combines (s : State) (l : Nat) : (s.clearPoison l).combines = s.combines := rfl
@[simp] theorem State.clearPoison_absorbs (s : State) (l : Nat) : (s.clearPoison l).absorbs = s.absorbs := rfl
@[simp] theorem State.clearPoison_recalls (s : State) (l : Nat) : (s.clearPoison l).recalls = s.recalls := rfl
@[simp] theorem State.clearPoison_dedup (s : State) (l : Nat) : (s.clearPoison l).dedup = s.dedup := rfl
@[simp] theorem State.clearPoison_shared (s : State) (l : Nat) : (s.clearPoison l).shared = s.shared := rfl
@[simp] theorem State.clearPoison_hashes (s : State) (l : Nat) : (s.clearPoison l).hashes = s.hashes := rfl
@[simp] theorem State.clearPoison_softErrors (s : State) (l : Nat) : (s.clearPoison l).softErrors = s.softErrors := rfl
@[simp] theorem State.clearPoison_oldCode (s : State) (l : Nat) : (s.clearPoison l).oldCode = s.oldCode := rfl
@[simp] theorem State.clearPoison_icache (s : State) (l : Nat) : (s.clearPoison l).icache = s.icache := rfl
@[simp] theorem State.clearPoison_counters (s : State) (l : Nat) : (s.clearPoison l).counters = s.counters := rfl
@[simp] theorem State.clearPoison_links (s : State) (l : Nat) : (s.clearPoison l).links = s.links := rfl
@[simp] theorem State.clearPoison_apertures (s : State) (l : Nat) : (s.clearPoison l).apertures = s.apertures := rfl
@[simp] theorem State.clearPoison_fatal (s : State) (l : Nat) : (s.clearPoison l).fatal = s.fatal := rfl
@[simp] theorem State.clearPoison_pcie (s : State) (l : Nat) : (s.clearPoison l).pcie = s.pcie := rfl
@[simp] theorem State.clearPoison_captures (s : State) (l : Nat) : (s.clearPoison l).captures = s.captures := rfl
@[simp] theorem State.clearPoison_restores (s : State) (l : Nat) : (s.clearPoison l).restores = s.restores := rfl
@[simp] theorem State.clearPoison_snaps (s : State) (l : Nat) : (s.clearPoison l).snaps = s.snaps := rfl
@[simp] theorem State.clearPoison_tlbinvAt (s : State) (l : Nat) : (s.clearPoison l).tlbinvAt = s.tlbinvAt := rfl
@[simp] theorem State.clearPoison_mgmt (s : State) (l : Nat) : (s.clearPoison l).mgmt = s.mgmt := rfl
@[simp] theorem State.clearPoison_agenda (s : State) (l : Nat) : (s.clearPoison l).agenda = s.agenda := rfl
@[simp] theorem State.clearPoison_turn (s : State) (l : Nat) : (s.clearPoison l).turn = s.turn := rfl
@[simp] theorem State.clearPoison_issuer (s : State) (l : Nat) : (s.clearPoison l).issuer = s.issuer := rfl
@[simp] theorem State.clearPoison_free (s : State) (l : Nat) : (s.clearPoison l).free = s.free := rfl
@[simp] theorem State.clearPoison_stamp (s : State) (l : Nat) : (s.clearPoison l).stamp = s.stamp := rfl

theorem State.mapCourseOf_eq (s : State) (core slot n : Nat) (f : Course → Course) :
    s.mapCourseOf core slot n f = { s with cores := (s.mapCourseOf core slot n f).cores } := by
  unfold State.mapCourseOf; split <;> rfl

@[simp] theorem State.mapCourseOf_clock (s : State) (core slot n : Nat) (f : Course → Course) :
    (s.mapCourseOf core slot n f).clock = s.clock := by unfold State.mapCourseOf; split <;> rfl
@[simp] theorem State.mapCourseOf_mem (s : State) (core slot n : Nat) (f : Course → Course) :
    (s.mapCourseOf core slot n f).mem = s.mem := by unfold State.mapCourseOf; split <;> rfl
@[simp] theorem State.mapCourseOf_poison (s : State) (core slot n : Nat) (f : Course → Course) :
    (s.mapCourseOf core slot n f).poison = s.poison := by unfold State.mapCourseOf; split <;> rfl
@[simp] theorem State.mapCourseOf_lmax (s : State) (core slot n : Nat) (f : Course → Course) :
    (s.mapCourseOf core slot n f).lmax = s.lmax := by unfold State.mapCourseOf; split <;> rfl
@[simp] theorem State.mapCourseOf_wmax (s : State) (core slot n : Nat) (f : Course → Course) :
    (s.mapCourseOf core slot n f).wmax = s.wmax := by unfold State.mapCourseOf; split <;> rfl
@[simp] theorem State.mapCourseOf_ctxs (s : State) (core slot n : Nat) (f : Course → Course) :
    (s.mapCourseOf core slot n f).ctxs = s.ctxs := by unfold State.mapCourseOf; split <;> rfl
@[simp] theorem State.mapCourseOf_teams (s : State) (core slot n : Nat) (f : Course → Course) :
    (s.mapCourseOf core slot n f).teams = s.teams := by unfold State.mapCourseOf; split <;> rfl
@[simp] theorem State.mapCourseOf_grids (s : State) (core slot n : Nat) (f : Course → Course) :
    (s.mapCourseOf core slot n f).grids = s.grids := by unfold State.mapCourseOf; split <;> rfl
@[simp] theorem State.mapCourseOf_sectorTlb (s : State) (core slot n : Nat) (f : Course → Course) :
    (s.mapCourseOf core slot n f).sectorTlb = s.sectorTlb := by unfold State.mapCourseOf; split <;> rfl
@[simp] theorem State.mapCourseOf_ops (s : State) (core slot n : Nat) (f : Course → Course) :
    (s.mapCourseOf core slot n f).ops = s.ops := by unfold State.mapCourseOf; split <;> rfl
@[simp] theorem State.mapCourseOf_leaseWait (s : State) (core slot n : Nat) (f : Course → Course) :
    (s.mapCourseOf core slot n f).leaseWait = s.leaseWait := by unfold State.mapCourseOf; split <;> rfl
@[simp] theorem State.mapCourseOf_pool (s : State) (core slot n : Nat) (f : Course → Course) :
    (s.mapCourseOf core slot n f).pool = s.pool := by unfold State.mapCourseOf; split <;> rfl
@[simp] theorem State.mapCourseOf_pairs (s : State) (core slot n : Nat) (f : Course → Course) :
    (s.mapCourseOf core slot n f).pairs = s.pairs := by unfold State.mapCourseOf; split <;> rfl
@[simp] theorem State.mapCourseOf_xwaits (s : State) (core slot n : Nat) (f : Course → Course) :
    (s.mapCourseOf core slot n f).xwaits = s.xwaits := by unfold State.mapCourseOf; split <;> rfl
@[simp] theorem State.mapCourseOf_watches (s : State) (core slot n : Nat) (f : Course → Course) :
    (s.mapCourseOf core slot n f).watches = s.watches := by unfold State.mapCourseOf; split <;> rfl
@[simp] theorem State.mapCourseOf_jobs (s : State) (core slot n : Nat) (f : Course → Course) :
    (s.mapCourseOf core slot n f).jobs = s.jobs := by unfold State.mapCourseOf; split <;> rfl
@[simp] theorem State.mapCourseOf_zbuf (s : State) (core slot n : Nat) (f : Course → Course) :
    (s.mapCourseOf core slot n f).zbuf = s.zbuf := by unfold State.mapCourseOf; split <;> rfl
@[simp] theorem State.mapCourseOf_l2 (s : State) (core slot n : Nat) (f : Course → Course) :
    (s.mapCourseOf core slot n f).l2 = s.l2 := by unfold State.mapCourseOf; split <;> rfl
@[simp] theorem State.mapCourseOf_copies (s : State) (core slot n : Nat) (f : Course → Course) :
    (s.mapCourseOf core slot n f).copies = s.copies := by unfold State.mapCourseOf; split <;> rfl
@[simp] theorem State.mapCourseOf_uses (s : State) (core slot n : Nat) (f : Course → Course) :
    (s.mapCourseOf core slot n f).uses = s.uses := by unfold State.mapCourseOf; split <;> rfl
@[simp] theorem State.mapCourseOf_kept (s : State) (core slot n : Nat) (f : Course → Course) :
    (s.mapCourseOf core slot n f).kept = s.kept := by unfold State.mapCourseOf; split <;> rfl
@[simp] theorem State.mapCourseOf_directory (s : State) (core slot n : Nat) (f : Course → Course) :
    (s.mapCourseOf core slot n f).directory = s.directory := by unfold State.mapCourseOf; split <;> rfl
@[simp] theorem State.mapCourseOf_victims (s : State) (core slot n : Nat) (f : Course → Course) :
    (s.mapCourseOf core slot n f).victims = s.victims := by unfold State.mapCourseOf; split <;> rfl
@[simp] theorem State.mapCourseOf_combines (s : State) (core slot n : Nat) (f : Course → Course) :
    (s.mapCourseOf core slot n f).combines = s.combines := by unfold State.mapCourseOf; split <;> rfl
@[simp] theorem State.mapCourseOf_absorbs (s : State) (core slot n : Nat) (f : Course → Course) :
    (s.mapCourseOf core slot n f).absorbs = s.absorbs := by unfold State.mapCourseOf; split <;> rfl
@[simp] theorem State.mapCourseOf_recalls (s : State) (core slot n : Nat) (f : Course → Course) :
    (s.mapCourseOf core slot n f).recalls = s.recalls := by unfold State.mapCourseOf; split <;> rfl
@[simp] theorem State.mapCourseOf_dedup (s : State) (core slot n : Nat) (f : Course → Course) :
    (s.mapCourseOf core slot n f).dedup = s.dedup := by unfold State.mapCourseOf; split <;> rfl
@[simp] theorem State.mapCourseOf_shared (s : State) (core slot n : Nat) (f : Course → Course) :
    (s.mapCourseOf core slot n f).shared = s.shared := by unfold State.mapCourseOf; split <;> rfl
@[simp] theorem State.mapCourseOf_hashes (s : State) (core slot n : Nat) (f : Course → Course) :
    (s.mapCourseOf core slot n f).hashes = s.hashes := by unfold State.mapCourseOf; split <;> rfl
@[simp] theorem State.mapCourseOf_softErrors (s : State) (core slot n : Nat) (f : Course → Course) :
    (s.mapCourseOf core slot n f).softErrors = s.softErrors := by unfold State.mapCourseOf; split <;> rfl
@[simp] theorem State.mapCourseOf_oldCode (s : State) (core slot n : Nat) (f : Course → Course) :
    (s.mapCourseOf core slot n f).oldCode = s.oldCode := by unfold State.mapCourseOf; split <;> rfl
@[simp] theorem State.mapCourseOf_icache (s : State) (core slot n : Nat) (f : Course → Course) :
    (s.mapCourseOf core slot n f).icache = s.icache := by unfold State.mapCourseOf; split <;> rfl
@[simp] theorem State.mapCourseOf_counters (s : State) (core slot n : Nat) (f : Course → Course) :
    (s.mapCourseOf core slot n f).counters = s.counters := by unfold State.mapCourseOf; split <;> rfl
@[simp] theorem State.mapCourseOf_links (s : State) (core slot n : Nat) (f : Course → Course) :
    (s.mapCourseOf core slot n f).links = s.links := by unfold State.mapCourseOf; split <;> rfl
@[simp] theorem State.mapCourseOf_apertures (s : State) (core slot n : Nat) (f : Course → Course) :
    (s.mapCourseOf core slot n f).apertures = s.apertures := by unfold State.mapCourseOf; split <;> rfl
@[simp] theorem State.mapCourseOf_fatal (s : State) (core slot n : Nat) (f : Course → Course) :
    (s.mapCourseOf core slot n f).fatal = s.fatal := by unfold State.mapCourseOf; split <;> rfl
@[simp] theorem State.mapCourseOf_pcie (s : State) (core slot n : Nat) (f : Course → Course) :
    (s.mapCourseOf core slot n f).pcie = s.pcie := by unfold State.mapCourseOf; split <;> rfl
@[simp] theorem State.mapCourseOf_captures (s : State) (core slot n : Nat) (f : Course → Course) :
    (s.mapCourseOf core slot n f).captures = s.captures := by unfold State.mapCourseOf; split <;> rfl
@[simp] theorem State.mapCourseOf_restores (s : State) (core slot n : Nat) (f : Course → Course) :
    (s.mapCourseOf core slot n f).restores = s.restores := by unfold State.mapCourseOf; split <;> rfl
@[simp] theorem State.mapCourseOf_snaps (s : State) (core slot n : Nat) (f : Course → Course) :
    (s.mapCourseOf core slot n f).snaps = s.snaps := by unfold State.mapCourseOf; split <;> rfl
@[simp] theorem State.mapCourseOf_tlbinvAt (s : State) (core slot n : Nat) (f : Course → Course) :
    (s.mapCourseOf core slot n f).tlbinvAt = s.tlbinvAt := by unfold State.mapCourseOf; split <;> rfl
@[simp] theorem State.mapCourseOf_mgmt (s : State) (core slot n : Nat) (f : Course → Course) :
    (s.mapCourseOf core slot n f).mgmt = s.mgmt := by unfold State.mapCourseOf; split <;> rfl
@[simp] theorem State.mapCourseOf_agenda (s : State) (core slot n : Nat) (f : Course → Course) :
    (s.mapCourseOf core slot n f).agenda = s.agenda := by unfold State.mapCourseOf; split <;> rfl
@[simp] theorem State.mapCourseOf_turn (s : State) (core slot n : Nat) (f : Course → Course) :
    (s.mapCourseOf core slot n f).turn = s.turn := by unfold State.mapCourseOf; split <;> rfl
@[simp] theorem State.mapCourseOf_issuer (s : State) (core slot n : Nat) (f : Course → Course) :
    (s.mapCourseOf core slot n f).issuer = s.issuer := by unfold State.mapCourseOf; split <;> rfl
@[simp] theorem State.mapCourseOf_free (s : State) (core slot n : Nat) (f : Course → Course) :
    (s.mapCourseOf core slot n f).free = s.free := by unfold State.mapCourseOf; split <;> rfl
@[simp] theorem State.mapCourseOf_stamp (s : State) (core slot n : Nat) (f : Course → Course) :
    (s.mapCourseOf core slot n f).stamp = s.stamp := by unfold State.mapCourseOf; split <;> rfl

/-! ### A course -/

@[simp] theorem Course.writeV_stamp (c : Course) (n L : Nat) (x : W32) : (c.writeV n L x).stamp = c.stamp := rfl
@[simp] theorem Course.writeV_grid (c : Course) (n L : Nat) (x : W32) : (c.writeV n L x).grid = c.grid := rfl
@[simp] theorem Course.writeV_team (c : Course) (n L : Nat) (x : W32) : (c.writeV n L x).team = c.team := rfl
@[simp] theorem Course.writeV_index (c : Course) (n L : Nat) (x : W32) : (c.writeV n L x).index = c.index := rfl
@[simp] theorem Course.writeV_launch (c : Course) (n L : Nat) (x : W32) : (c.writeV n L x).launch = c.launch := rfl
@[simp] theorem Course.writeV_cbase (c : Course) (n L : Nat) (x : W32) : (c.writeV n L x).cbase = c.cbase := rfl
@[simp] theorem Course.writeV_psize (c : Course) (n L : Nat) (x : W32) : (c.writeV n L x).psize = c.psize := rfl
@[simp] theorem Course.writeV_y (c : Course) (n L : Nat) (x : W32) : (c.writeV n L x).y = c.y := rfl
@[simp] theorem Course.writeV_s (c : Course) (n L : Nat) (x : W32) : (c.writeV n L x).s = c.s := rfl
@[simp] theorem Course.writeV_p (c : Course) (n L : Nat) (x : W32) : (c.writeV n L x).p = c.p := rfl
@[simp] theorem Course.writeV_propMask (c : Course) (n L : Nat) (x : W32) : (c.writeV n L x).propMask = c.propMask := rfl
@[simp] theorem Course.writeV_propOpen (c : Course) (n L : Nat) (x : W32) : (c.writeV n L x).propOpen = c.propOpen := rfl
@[simp] theorem Course.writeV_flags (c : Course) (n L : Nat) (x : W32) : (c.writeV n L x).flags = c.flags := rfl
@[simp] theorem Course.writeV_accepts (c : Course) (n L : Nat) (x : W32) : (c.writeV n L x).accepts = c.accepts := rfl
@[simp] theorem Course.writeV_proposals (c : Course) (n L : Nat) (x : W32) : (c.writeV n L x).proposals = c.proposals := rfl
@[simp] theorem Course.writeV_entries (c : Course) (n L : Nat) (x : W32) : (c.writeV n L x).entries = c.entries := rfl
@[simp] theorem Course.writeV_frames (c : Course) (n L : Nat) (x : W32) : (c.writeV n L x).frames = c.frames := rfl
@[simp] theorem Course.writeV_counts (c : Course) (n L : Nat) (x : W32) : (c.writeV n L x).counts = c.counts := rfl
@[simp] theorem Course.writeV_phase (c : Course) (n L : Nat) (x : W32) : (c.writeV n L x).phase = c.phase := rfl
@[simp] theorem Course.writeV_trapCause (c : Course) (n L : Nat) (x : W32) : (c.writeV n L x).trapCause = c.trapCause := rfl
@[simp] theorem Course.writeV_trapPc (c : Course) (n L : Nat) (x : W32) : (c.writeV n L x).trapPc = c.trapPc := rfl
@[simp] theorem Course.writeV_replays (c : Course) (n L : Nat) (x : W32) : (c.writeV n L x).replays = c.replays := rfl
@[simp] theorem Course.writeV_trapVa (c : Course) (n L : Nat) (x : W32) : (c.writeV n L x).trapVa = c.trapVa := rfl
@[simp] theorem Course.writeV_trapInfo (c : Course) (n L : Nat) (x : W32) : (c.writeV n L x).trapInfo = c.trapInfo := rfl
@[simp] theorem Course.writeV_super (c : Course) (n L : Nat) (x : W32) : (c.writeV n L x).super = c.super := rfl
@[simp] theorem Course.writeV_token (c : Course) (n L : Nat) (x : W32) : (c.writeV n L x).token = c.token := rfl
@[simp] theorem Course.writeV_det (c : Course) (n L : Nat) (x : W32) : (c.writeV n L x).det = c.det := rfl
@[simp] theorem Course.writeV_strict (c : Course) (n L : Nat) (x : W32) : (c.writeV n L x).strict = c.strict := rfl
@[simp] theorem Course.writeV_exact (c : Course) (n L : Nat) (x : W32) : (c.writeV n L x).exact = c.exact := rfl
@[simp] theorem Course.writeV_saved (c : Course) (n L : Nat) (x : W32) : (c.writeV n L x).saved = c.saved := rfl
@[simp] theorem Course.writeV_trapWait (c : Course) (n L : Nat) (x : W32) : (c.writeV n L x).trapWait = c.trapWait := rfl
@[simp] theorem Course.writeV_nextIssue (c : Course) (n L : Nat) (x : W32) : (c.writeV n L x).nextIssue = c.nextIssue := rfl
@[simp] theorem Course.writeV_yieldAt (c : Course) (n L : Nat) (x : W32) : (c.writeV n L x).yieldAt = c.yieldAt := rfl
@[simp] theorem Course.writeV_pendingAt (c : Course) (n L : Nat) (x : W32) : (c.writeV n L x).pendingAt = c.pendingAt := rfl
@[simp] theorem Course.writeY_stamp (c : Course) (n L : Nat) (x : W32) : (c.writeY n L x).stamp = c.stamp := rfl
@[simp] theorem Course.writeY_grid (c : Course) (n L : Nat) (x : W32) : (c.writeY n L x).grid = c.grid := rfl
@[simp] theorem Course.writeY_team (c : Course) (n L : Nat) (x : W32) : (c.writeY n L x).team = c.team := rfl
@[simp] theorem Course.writeY_index (c : Course) (n L : Nat) (x : W32) : (c.writeY n L x).index = c.index := rfl
@[simp] theorem Course.writeY_launch (c : Course) (n L : Nat) (x : W32) : (c.writeY n L x).launch = c.launch := rfl
@[simp] theorem Course.writeY_cbase (c : Course) (n L : Nat) (x : W32) : (c.writeY n L x).cbase = c.cbase := rfl
@[simp] theorem Course.writeY_psize (c : Course) (n L : Nat) (x : W32) : (c.writeY n L x).psize = c.psize := rfl
@[simp] theorem Course.writeY_v (c : Course) (n L : Nat) (x : W32) : (c.writeY n L x).v = c.v := rfl
@[simp] theorem Course.writeY_s (c : Course) (n L : Nat) (x : W32) : (c.writeY n L x).s = c.s := rfl
@[simp] theorem Course.writeY_p (c : Course) (n L : Nat) (x : W32) : (c.writeY n L x).p = c.p := rfl
@[simp] theorem Course.writeY_propMask (c : Course) (n L : Nat) (x : W32) : (c.writeY n L x).propMask = c.propMask := rfl
@[simp] theorem Course.writeY_propOpen (c : Course) (n L : Nat) (x : W32) : (c.writeY n L x).propOpen = c.propOpen := rfl
@[simp] theorem Course.writeY_flags (c : Course) (n L : Nat) (x : W32) : (c.writeY n L x).flags = c.flags := rfl
@[simp] theorem Course.writeY_accepts (c : Course) (n L : Nat) (x : W32) : (c.writeY n L x).accepts = c.accepts := rfl
@[simp] theorem Course.writeY_proposals (c : Course) (n L : Nat) (x : W32) : (c.writeY n L x).proposals = c.proposals := rfl
@[simp] theorem Course.writeY_entries (c : Course) (n L : Nat) (x : W32) : (c.writeY n L x).entries = c.entries := rfl
@[simp] theorem Course.writeY_frames (c : Course) (n L : Nat) (x : W32) : (c.writeY n L x).frames = c.frames := rfl
@[simp] theorem Course.writeY_counts (c : Course) (n L : Nat) (x : W32) : (c.writeY n L x).counts = c.counts := rfl
@[simp] theorem Course.writeY_phase (c : Course) (n L : Nat) (x : W32) : (c.writeY n L x).phase = c.phase := rfl
@[simp] theorem Course.writeY_trapCause (c : Course) (n L : Nat) (x : W32) : (c.writeY n L x).trapCause = c.trapCause := rfl
@[simp] theorem Course.writeY_trapPc (c : Course) (n L : Nat) (x : W32) : (c.writeY n L x).trapPc = c.trapPc := rfl
@[simp] theorem Course.writeY_replays (c : Course) (n L : Nat) (x : W32) : (c.writeY n L x).replays = c.replays := rfl
@[simp] theorem Course.writeY_trapVa (c : Course) (n L : Nat) (x : W32) : (c.writeY n L x).trapVa = c.trapVa := rfl
@[simp] theorem Course.writeY_trapInfo (c : Course) (n L : Nat) (x : W32) : (c.writeY n L x).trapInfo = c.trapInfo := rfl
@[simp] theorem Course.writeY_super (c : Course) (n L : Nat) (x : W32) : (c.writeY n L x).super = c.super := rfl
@[simp] theorem Course.writeY_token (c : Course) (n L : Nat) (x : W32) : (c.writeY n L x).token = c.token := rfl
@[simp] theorem Course.writeY_det (c : Course) (n L : Nat) (x : W32) : (c.writeY n L x).det = c.det := rfl
@[simp] theorem Course.writeY_strict (c : Course) (n L : Nat) (x : W32) : (c.writeY n L x).strict = c.strict := rfl
@[simp] theorem Course.writeY_exact (c : Course) (n L : Nat) (x : W32) : (c.writeY n L x).exact = c.exact := rfl
@[simp] theorem Course.writeY_saved (c : Course) (n L : Nat) (x : W32) : (c.writeY n L x).saved = c.saved := rfl
@[simp] theorem Course.writeY_trapWait (c : Course) (n L : Nat) (x : W32) : (c.writeY n L x).trapWait = c.trapWait := rfl
@[simp] theorem Course.writeY_nextIssue (c : Course) (n L : Nat) (x : W32) : (c.writeY n L x).nextIssue = c.nextIssue := rfl
@[simp] theorem Course.writeY_yieldAt (c : Course) (n L : Nat) (x : W32) : (c.writeY n L x).yieldAt = c.yieldAt := rfl
@[simp] theorem Course.writeY_pendingAt (c : Course) (n L : Nat) (x : W32) : (c.writeY n L x).pendingAt = c.pendingAt := rfl
@[simp] theorem Course.writeS_stamp (c : Course) (n : Nat) (x : W32) : (c.writeS n x).stamp = c.stamp := rfl
@[simp] theorem Course.writeS_grid (c : Course) (n : Nat) (x : W32) : (c.writeS n x).grid = c.grid := rfl
@[simp] theorem Course.writeS_team (c : Course) (n : Nat) (x : W32) : (c.writeS n x).team = c.team := rfl
@[simp] theorem Course.writeS_index (c : Course) (n : Nat) (x : W32) : (c.writeS n x).index = c.index := rfl
@[simp] theorem Course.writeS_launch (c : Course) (n : Nat) (x : W32) : (c.writeS n x).launch = c.launch := rfl
@[simp] theorem Course.writeS_cbase (c : Course) (n : Nat) (x : W32) : (c.writeS n x).cbase = c.cbase := rfl
@[simp] theorem Course.writeS_psize (c : Course) (n : Nat) (x : W32) : (c.writeS n x).psize = c.psize := rfl
@[simp] theorem Course.writeS_v (c : Course) (n : Nat) (x : W32) : (c.writeS n x).v = c.v := rfl
@[simp] theorem Course.writeS_y (c : Course) (n : Nat) (x : W32) : (c.writeS n x).y = c.y := rfl
@[simp] theorem Course.writeS_p (c : Course) (n : Nat) (x : W32) : (c.writeS n x).p = c.p := rfl
@[simp] theorem Course.writeS_propMask (c : Course) (n : Nat) (x : W32) : (c.writeS n x).propMask = c.propMask := rfl
@[simp] theorem Course.writeS_propOpen (c : Course) (n : Nat) (x : W32) : (c.writeS n x).propOpen = c.propOpen := rfl
@[simp] theorem Course.writeS_flags (c : Course) (n : Nat) (x : W32) : (c.writeS n x).flags = c.flags := rfl
@[simp] theorem Course.writeS_accepts (c : Course) (n : Nat) (x : W32) : (c.writeS n x).accepts = c.accepts := rfl
@[simp] theorem Course.writeS_proposals (c : Course) (n : Nat) (x : W32) : (c.writeS n x).proposals = c.proposals := rfl
@[simp] theorem Course.writeS_entries (c : Course) (n : Nat) (x : W32) : (c.writeS n x).entries = c.entries := rfl
@[simp] theorem Course.writeS_frames (c : Course) (n : Nat) (x : W32) : (c.writeS n x).frames = c.frames := rfl
@[simp] theorem Course.writeS_counts (c : Course) (n : Nat) (x : W32) : (c.writeS n x).counts = c.counts := rfl
@[simp] theorem Course.writeS_phase (c : Course) (n : Nat) (x : W32) : (c.writeS n x).phase = c.phase := rfl
@[simp] theorem Course.writeS_trapCause (c : Course) (n : Nat) (x : W32) : (c.writeS n x).trapCause = c.trapCause := rfl
@[simp] theorem Course.writeS_trapPc (c : Course) (n : Nat) (x : W32) : (c.writeS n x).trapPc = c.trapPc := rfl
@[simp] theorem Course.writeS_replays (c : Course) (n : Nat) (x : W32) : (c.writeS n x).replays = c.replays := rfl
@[simp] theorem Course.writeS_trapVa (c : Course) (n : Nat) (x : W32) : (c.writeS n x).trapVa = c.trapVa := rfl
@[simp] theorem Course.writeS_trapInfo (c : Course) (n : Nat) (x : W32) : (c.writeS n x).trapInfo = c.trapInfo := rfl
@[simp] theorem Course.writeS_super (c : Course) (n : Nat) (x : W32) : (c.writeS n x).super = c.super := rfl
@[simp] theorem Course.writeS_token (c : Course) (n : Nat) (x : W32) : (c.writeS n x).token = c.token := rfl
@[simp] theorem Course.writeS_det (c : Course) (n : Nat) (x : W32) : (c.writeS n x).det = c.det := rfl
@[simp] theorem Course.writeS_strict (c : Course) (n : Nat) (x : W32) : (c.writeS n x).strict = c.strict := rfl
@[simp] theorem Course.writeS_exact (c : Course) (n : Nat) (x : W32) : (c.writeS n x).exact = c.exact := rfl
@[simp] theorem Course.writeS_saved (c : Course) (n : Nat) (x : W32) : (c.writeS n x).saved = c.saved := rfl
@[simp] theorem Course.writeS_trapWait (c : Course) (n : Nat) (x : W32) : (c.writeS n x).trapWait = c.trapWait := rfl
@[simp] theorem Course.writeS_nextIssue (c : Course) (n : Nat) (x : W32) : (c.writeS n x).nextIssue = c.nextIssue := rfl
@[simp] theorem Course.writeS_yieldAt (c : Course) (n : Nat) (x : W32) : (c.writeS n x).yieldAt = c.yieldAt := rfl
@[simp] theorem Course.writeS_pendingAt (c : Course) (n : Nat) (x : W32) : (c.writeS n x).pendingAt = c.pendingAt := rfl
@[simp] theorem Course.mapEntry_stamp (c : Course) (n : Nat) (g : Entry → Entry) : (c.mapEntry n g).stamp = c.stamp := rfl
@[simp] theorem Course.mapEntry_grid (c : Course) (n : Nat) (g : Entry → Entry) : (c.mapEntry n g).grid = c.grid := rfl
@[simp] theorem Course.mapEntry_team (c : Course) (n : Nat) (g : Entry → Entry) : (c.mapEntry n g).team = c.team := rfl
@[simp] theorem Course.mapEntry_index (c : Course) (n : Nat) (g : Entry → Entry) : (c.mapEntry n g).index = c.index := rfl
@[simp] theorem Course.mapEntry_launch (c : Course) (n : Nat) (g : Entry → Entry) : (c.mapEntry n g).launch = c.launch := rfl
@[simp] theorem Course.mapEntry_cbase (c : Course) (n : Nat) (g : Entry → Entry) : (c.mapEntry n g).cbase = c.cbase := rfl
@[simp] theorem Course.mapEntry_psize (c : Course) (n : Nat) (g : Entry → Entry) : (c.mapEntry n g).psize = c.psize := rfl
@[simp] theorem Course.mapEntry_v (c : Course) (n : Nat) (g : Entry → Entry) : (c.mapEntry n g).v = c.v := rfl
@[simp] theorem Course.mapEntry_y (c : Course) (n : Nat) (g : Entry → Entry) : (c.mapEntry n g).y = c.y := rfl
@[simp] theorem Course.mapEntry_s (c : Course) (n : Nat) (g : Entry → Entry) : (c.mapEntry n g).s = c.s := rfl
@[simp] theorem Course.mapEntry_p (c : Course) (n : Nat) (g : Entry → Entry) : (c.mapEntry n g).p = c.p := rfl
@[simp] theorem Course.mapEntry_propMask (c : Course) (n : Nat) (g : Entry → Entry) : (c.mapEntry n g).propMask = c.propMask := rfl
@[simp] theorem Course.mapEntry_propOpen (c : Course) (n : Nat) (g : Entry → Entry) : (c.mapEntry n g).propOpen = c.propOpen := rfl
@[simp] theorem Course.mapEntry_flags (c : Course) (n : Nat) (g : Entry → Entry) : (c.mapEntry n g).flags = c.flags := rfl
@[simp] theorem Course.mapEntry_accepts (c : Course) (n : Nat) (g : Entry → Entry) : (c.mapEntry n g).accepts = c.accepts := rfl
@[simp] theorem Course.mapEntry_proposals (c : Course) (n : Nat) (g : Entry → Entry) : (c.mapEntry n g).proposals = c.proposals := rfl
@[simp] theorem Course.mapEntry_frames (c : Course) (n : Nat) (g : Entry → Entry) : (c.mapEntry n g).frames = c.frames := rfl
@[simp] theorem Course.mapEntry_counts (c : Course) (n : Nat) (g : Entry → Entry) : (c.mapEntry n g).counts = c.counts := rfl
@[simp] theorem Course.mapEntry_phase (c : Course) (n : Nat) (g : Entry → Entry) : (c.mapEntry n g).phase = c.phase := rfl
@[simp] theorem Course.mapEntry_trapCause (c : Course) (n : Nat) (g : Entry → Entry) : (c.mapEntry n g).trapCause = c.trapCause := rfl
@[simp] theorem Course.mapEntry_trapPc (c : Course) (n : Nat) (g : Entry → Entry) : (c.mapEntry n g).trapPc = c.trapPc := rfl
@[simp] theorem Course.mapEntry_replays (c : Course) (n : Nat) (g : Entry → Entry) : (c.mapEntry n g).replays = c.replays := rfl
@[simp] theorem Course.mapEntry_trapVa (c : Course) (n : Nat) (g : Entry → Entry) : (c.mapEntry n g).trapVa = c.trapVa := rfl
@[simp] theorem Course.mapEntry_trapInfo (c : Course) (n : Nat) (g : Entry → Entry) : (c.mapEntry n g).trapInfo = c.trapInfo := rfl
@[simp] theorem Course.mapEntry_super (c : Course) (n : Nat) (g : Entry → Entry) : (c.mapEntry n g).super = c.super := rfl
@[simp] theorem Course.mapEntry_token (c : Course) (n : Nat) (g : Entry → Entry) : (c.mapEntry n g).token = c.token := rfl
@[simp] theorem Course.mapEntry_det (c : Course) (n : Nat) (g : Entry → Entry) : (c.mapEntry n g).det = c.det := rfl
@[simp] theorem Course.mapEntry_strict (c : Course) (n : Nat) (g : Entry → Entry) : (c.mapEntry n g).strict = c.strict := rfl
@[simp] theorem Course.mapEntry_exact (c : Course) (n : Nat) (g : Entry → Entry) : (c.mapEntry n g).exact = c.exact := rfl
@[simp] theorem Course.mapEntry_saved (c : Course) (n : Nat) (g : Entry → Entry) : (c.mapEntry n g).saved = c.saved := rfl
@[simp] theorem Course.mapEntry_trapWait (c : Course) (n : Nat) (g : Entry → Entry) : (c.mapEntry n g).trapWait = c.trapWait := rfl
@[simp] theorem Course.mapEntry_nextIssue (c : Course) (n : Nat) (g : Entry → Entry) : (c.mapEntry n g).nextIssue = c.nextIssue := rfl
@[simp] theorem Course.mapEntry_yieldAt (c : Course) (n : Nat) (g : Entry → Entry) : (c.mapEntry n g).yieldAt = c.yieldAt := rfl
@[simp] theorem Course.mapEntry_pendingAt (c : Course) (n : Nat) (g : Entry → Entry) : (c.mapEntry n g).pendingAt = c.pendingAt := rfl
@[simp] theorem Course.writeP_stamp (c : Course) (n : Nat) (m x : Mask) : (c.writeP n m x).stamp = c.stamp := by
  unfold Course.writeP; split <;> rfl
@[simp] theorem Course.writeP_grid (c : Course) (n : Nat) (m x : Mask) : (c.writeP n m x).grid = c.grid := by
  unfold Course.writeP; split <;> rfl
@[simp] theorem Course.writeP_team (c : Course) (n : Nat) (m x : Mask) : (c.writeP n m x).team = c.team := by
  unfold Course.writeP; split <;> rfl
@[simp] theorem Course.writeP_index (c : Course) (n : Nat) (m x : Mask) : (c.writeP n m x).index = c.index := by
  unfold Course.writeP; split <;> rfl
@[simp] theorem Course.writeP_launch (c : Course) (n : Nat) (m x : Mask) : (c.writeP n m x).launch = c.launch := by
  unfold Course.writeP; split <;> rfl
@[simp] theorem Course.writeP_cbase (c : Course) (n : Nat) (m x : Mask) : (c.writeP n m x).cbase = c.cbase := by
  unfold Course.writeP; split <;> rfl
@[simp] theorem Course.writeP_psize (c : Course) (n : Nat) (m x : Mask) : (c.writeP n m x).psize = c.psize := by
  unfold Course.writeP; split <;> rfl
@[simp] theorem Course.writeP_v (c : Course) (n : Nat) (m x : Mask) : (c.writeP n m x).v = c.v := by
  unfold Course.writeP; split <;> rfl
@[simp] theorem Course.writeP_y (c : Course) (n : Nat) (m x : Mask) : (c.writeP n m x).y = c.y := by
  unfold Course.writeP; split <;> rfl
@[simp] theorem Course.writeP_s (c : Course) (n : Nat) (m x : Mask) : (c.writeP n m x).s = c.s := by
  unfold Course.writeP; split <;> rfl
@[simp] theorem Course.writeP_propMask (c : Course) (n : Nat) (m x : Mask) : (c.writeP n m x).propMask = c.propMask := by
  unfold Course.writeP; split <;> rfl
@[simp] theorem Course.writeP_propOpen (c : Course) (n : Nat) (m x : Mask) : (c.writeP n m x).propOpen = c.propOpen := by
  unfold Course.writeP; split <;> rfl
@[simp] theorem Course.writeP_flags (c : Course) (n : Nat) (m x : Mask) : (c.writeP n m x).flags = c.flags := by
  unfold Course.writeP; split <;> rfl
@[simp] theorem Course.writeP_accepts (c : Course) (n : Nat) (m x : Mask) : (c.writeP n m x).accepts = c.accepts := by
  unfold Course.writeP; split <;> rfl
@[simp] theorem Course.writeP_proposals (c : Course) (n : Nat) (m x : Mask) : (c.writeP n m x).proposals = c.proposals := by
  unfold Course.writeP; split <;> rfl
@[simp] theorem Course.writeP_entries (c : Course) (n : Nat) (m x : Mask) : (c.writeP n m x).entries = c.entries := by
  unfold Course.writeP; split <;> rfl
@[simp] theorem Course.writeP_frames (c : Course) (n : Nat) (m x : Mask) : (c.writeP n m x).frames = c.frames := by
  unfold Course.writeP; split <;> rfl
@[simp] theorem Course.writeP_counts (c : Course) (n : Nat) (m x : Mask) : (c.writeP n m x).counts = c.counts := by
  unfold Course.writeP; split <;> rfl
@[simp] theorem Course.writeP_phase (c : Course) (n : Nat) (m x : Mask) : (c.writeP n m x).phase = c.phase := by
  unfold Course.writeP; split <;> rfl
@[simp] theorem Course.writeP_trapCause (c : Course) (n : Nat) (m x : Mask) : (c.writeP n m x).trapCause = c.trapCause := by
  unfold Course.writeP; split <;> rfl
@[simp] theorem Course.writeP_trapPc (c : Course) (n : Nat) (m x : Mask) : (c.writeP n m x).trapPc = c.trapPc := by
  unfold Course.writeP; split <;> rfl
@[simp] theorem Course.writeP_replays (c : Course) (n : Nat) (m x : Mask) : (c.writeP n m x).replays = c.replays := by
  unfold Course.writeP; split <;> rfl
@[simp] theorem Course.writeP_trapVa (c : Course) (n : Nat) (m x : Mask) : (c.writeP n m x).trapVa = c.trapVa := by
  unfold Course.writeP; split <;> rfl
@[simp] theorem Course.writeP_trapInfo (c : Course) (n : Nat) (m x : Mask) : (c.writeP n m x).trapInfo = c.trapInfo := by
  unfold Course.writeP; split <;> rfl
@[simp] theorem Course.writeP_super (c : Course) (n : Nat) (m x : Mask) : (c.writeP n m x).super = c.super := by
  unfold Course.writeP; split <;> rfl
@[simp] theorem Course.writeP_token (c : Course) (n : Nat) (m x : Mask) : (c.writeP n m x).token = c.token := by
  unfold Course.writeP; split <;> rfl
@[simp] theorem Course.writeP_det (c : Course) (n : Nat) (m x : Mask) : (c.writeP n m x).det = c.det := by
  unfold Course.writeP; split <;> rfl
@[simp] theorem Course.writeP_strict (c : Course) (n : Nat) (m x : Mask) : (c.writeP n m x).strict = c.strict := by
  unfold Course.writeP; split <;> rfl
@[simp] theorem Course.writeP_exact (c : Course) (n : Nat) (m x : Mask) : (c.writeP n m x).exact = c.exact := by
  unfold Course.writeP; split <;> rfl
@[simp] theorem Course.writeP_saved (c : Course) (n : Nat) (m x : Mask) : (c.writeP n m x).saved = c.saved := by
  unfold Course.writeP; split <;> rfl
@[simp] theorem Course.writeP_trapWait (c : Course) (n : Nat) (m x : Mask) : (c.writeP n m x).trapWait = c.trapWait := by
  unfold Course.writeP; split <;> rfl
@[simp] theorem Course.writeP_nextIssue (c : Course) (n : Nat) (m x : Mask) : (c.writeP n m x).nextIssue = c.nextIssue := by
  unfold Course.writeP; split <;> rfl
@[simp] theorem Course.writeP_yieldAt (c : Course) (n : Nat) (m x : Mask) : (c.writeP n m x).yieldAt = c.yieldAt := by
  unfold Course.writeP; split <;> rfl
@[simp] theorem Course.writeP_pendingAt (c : Course) (n : Nat) (m x : Mask) : (c.writeP n m x).pendingAt = c.pendingAt := by
  unfold Course.writeP; split <;> rfl
@[simp] theorem Course.raise_stamp (c : Course) (L : Nat) (x : BitVec 8) : (c.raise L x).stamp = c.stamp := by
  unfold Course.raise; split <;> rfl
@[simp] theorem Course.raise_grid (c : Course) (L : Nat) (x : BitVec 8) : (c.raise L x).grid = c.grid := by
  unfold Course.raise; split <;> rfl
@[simp] theorem Course.raise_team (c : Course) (L : Nat) (x : BitVec 8) : (c.raise L x).team = c.team := by
  unfold Course.raise; split <;> rfl
@[simp] theorem Course.raise_index (c : Course) (L : Nat) (x : BitVec 8) : (c.raise L x).index = c.index := by
  unfold Course.raise; split <;> rfl
@[simp] theorem Course.raise_launch (c : Course) (L : Nat) (x : BitVec 8) : (c.raise L x).launch = c.launch := by
  unfold Course.raise; split <;> rfl
@[simp] theorem Course.raise_cbase (c : Course) (L : Nat) (x : BitVec 8) : (c.raise L x).cbase = c.cbase := by
  unfold Course.raise; split <;> rfl
@[simp] theorem Course.raise_psize (c : Course) (L : Nat) (x : BitVec 8) : (c.raise L x).psize = c.psize := by
  unfold Course.raise; split <;> rfl
@[simp] theorem Course.raise_v (c : Course) (L : Nat) (x : BitVec 8) : (c.raise L x).v = c.v := by
  unfold Course.raise; split <;> rfl
@[simp] theorem Course.raise_y (c : Course) (L : Nat) (x : BitVec 8) : (c.raise L x).y = c.y := by
  unfold Course.raise; split <;> rfl
@[simp] theorem Course.raise_s (c : Course) (L : Nat) (x : BitVec 8) : (c.raise L x).s = c.s := by
  unfold Course.raise; split <;> rfl
@[simp] theorem Course.raise_p (c : Course) (L : Nat) (x : BitVec 8) : (c.raise L x).p = c.p := by
  unfold Course.raise; split <;> rfl
@[simp] theorem Course.raise_propMask (c : Course) (L : Nat) (x : BitVec 8) : (c.raise L x).propMask = c.propMask := by
  unfold Course.raise; split <;> rfl
@[simp] theorem Course.raise_propOpen (c : Course) (L : Nat) (x : BitVec 8) : (c.raise L x).propOpen = c.propOpen := by
  unfold Course.raise; split <;> rfl
@[simp] theorem Course.raise_accepts (c : Course) (L : Nat) (x : BitVec 8) : (c.raise L x).accepts = c.accepts := by
  unfold Course.raise; split <;> rfl
@[simp] theorem Course.raise_proposals (c : Course) (L : Nat) (x : BitVec 8) : (c.raise L x).proposals = c.proposals := by
  unfold Course.raise; split <;> rfl
@[simp] theorem Course.raise_entries (c : Course) (L : Nat) (x : BitVec 8) : (c.raise L x).entries = c.entries := by
  unfold Course.raise; split <;> rfl
@[simp] theorem Course.raise_frames (c : Course) (L : Nat) (x : BitVec 8) : (c.raise L x).frames = c.frames := by
  unfold Course.raise; split <;> rfl
@[simp] theorem Course.raise_counts (c : Course) (L : Nat) (x : BitVec 8) : (c.raise L x).counts = c.counts := by
  unfold Course.raise; split <;> rfl
@[simp] theorem Course.raise_phase (c : Course) (L : Nat) (x : BitVec 8) : (c.raise L x).phase = c.phase := by
  unfold Course.raise; split <;> rfl
@[simp] theorem Course.raise_trapCause (c : Course) (L : Nat) (x : BitVec 8) : (c.raise L x).trapCause = c.trapCause := by
  unfold Course.raise; split <;> rfl
@[simp] theorem Course.raise_trapPc (c : Course) (L : Nat) (x : BitVec 8) : (c.raise L x).trapPc = c.trapPc := by
  unfold Course.raise; split <;> rfl
@[simp] theorem Course.raise_replays (c : Course) (L : Nat) (x : BitVec 8) : (c.raise L x).replays = c.replays := by
  unfold Course.raise; split <;> rfl
@[simp] theorem Course.raise_trapVa (c : Course) (L : Nat) (x : BitVec 8) : (c.raise L x).trapVa = c.trapVa := by
  unfold Course.raise; split <;> rfl
@[simp] theorem Course.raise_trapInfo (c : Course) (L : Nat) (x : BitVec 8) : (c.raise L x).trapInfo = c.trapInfo := by
  unfold Course.raise; split <;> rfl
@[simp] theorem Course.raise_super (c : Course) (L : Nat) (x : BitVec 8) : (c.raise L x).super = c.super := by
  unfold Course.raise; split <;> rfl
@[simp] theorem Course.raise_token (c : Course) (L : Nat) (x : BitVec 8) : (c.raise L x).token = c.token := by
  unfold Course.raise; split <;> rfl
@[simp] theorem Course.raise_det (c : Course) (L : Nat) (x : BitVec 8) : (c.raise L x).det = c.det := by
  unfold Course.raise; split <;> rfl
@[simp] theorem Course.raise_strict (c : Course) (L : Nat) (x : BitVec 8) : (c.raise L x).strict = c.strict := by
  unfold Course.raise; split <;> rfl
@[simp] theorem Course.raise_exact (c : Course) (L : Nat) (x : BitVec 8) : (c.raise L x).exact = c.exact := by
  unfold Course.raise; split <;> rfl
@[simp] theorem Course.raise_saved (c : Course) (L : Nat) (x : BitVec 8) : (c.raise L x).saved = c.saved := by
  unfold Course.raise; split <;> rfl
@[simp] theorem Course.raise_trapWait (c : Course) (L : Nat) (x : BitVec 8) : (c.raise L x).trapWait = c.trapWait := by
  unfold Course.raise; split <;> rfl
@[simp] theorem Course.raise_nextIssue (c : Course) (L : Nat) (x : BitVec 8) : (c.raise L x).nextIssue = c.nextIssue := by
  unfold Course.raise; split <;> rfl
@[simp] theorem Course.raise_yieldAt (c : Course) (L : Nat) (x : BitVec 8) : (c.raise L x).yieldAt = c.yieldAt := by
  unfold Course.raise; split <;> rfl
@[simp] theorem Course.raise_pendingAt (c : Course) (L : Nat) (x : BitVec 8) : (c.raise L x).pendingAt = c.pendingAt := by
  unfold Course.raise; split <;> rfl
@[simp] theorem Course.writeVal_stamp (c : Course) (n L : Nat) (wide : Bool) (x : W64) : (c.writeVal n L wide x).stamp = c.stamp := by
  unfold Course.writeVal; split <;> rfl
@[simp] theorem Course.writeVal_grid (c : Course) (n L : Nat) (wide : Bool) (x : W64) : (c.writeVal n L wide x).grid = c.grid := by
  unfold Course.writeVal; split <;> rfl
@[simp] theorem Course.writeVal_team (c : Course) (n L : Nat) (wide : Bool) (x : W64) : (c.writeVal n L wide x).team = c.team := by
  unfold Course.writeVal; split <;> rfl
@[simp] theorem Course.writeVal_index (c : Course) (n L : Nat) (wide : Bool) (x : W64) : (c.writeVal n L wide x).index = c.index := by
  unfold Course.writeVal; split <;> rfl
@[simp] theorem Course.writeVal_launch (c : Course) (n L : Nat) (wide : Bool) (x : W64) : (c.writeVal n L wide x).launch = c.launch := by
  unfold Course.writeVal; split <;> rfl
@[simp] theorem Course.writeVal_cbase (c : Course) (n L : Nat) (wide : Bool) (x : W64) : (c.writeVal n L wide x).cbase = c.cbase := by
  unfold Course.writeVal; split <;> rfl
@[simp] theorem Course.writeVal_psize (c : Course) (n L : Nat) (wide : Bool) (x : W64) : (c.writeVal n L wide x).psize = c.psize := by
  unfold Course.writeVal; split <;> rfl
@[simp] theorem Course.writeVal_y (c : Course) (n L : Nat) (wide : Bool) (x : W64) : (c.writeVal n L wide x).y = c.y := by
  unfold Course.writeVal; split <;> rfl
@[simp] theorem Course.writeVal_s (c : Course) (n L : Nat) (wide : Bool) (x : W64) : (c.writeVal n L wide x).s = c.s := by
  unfold Course.writeVal; split <;> rfl
@[simp] theorem Course.writeVal_p (c : Course) (n L : Nat) (wide : Bool) (x : W64) : (c.writeVal n L wide x).p = c.p := by
  unfold Course.writeVal; split <;> rfl
@[simp] theorem Course.writeVal_propMask (c : Course) (n L : Nat) (wide : Bool) (x : W64) : (c.writeVal n L wide x).propMask = c.propMask := by
  unfold Course.writeVal; split <;> rfl
@[simp] theorem Course.writeVal_propOpen (c : Course) (n L : Nat) (wide : Bool) (x : W64) : (c.writeVal n L wide x).propOpen = c.propOpen := by
  unfold Course.writeVal; split <;> rfl
@[simp] theorem Course.writeVal_flags (c : Course) (n L : Nat) (wide : Bool) (x : W64) : (c.writeVal n L wide x).flags = c.flags := by
  unfold Course.writeVal; split <;> rfl
@[simp] theorem Course.writeVal_accepts (c : Course) (n L : Nat) (wide : Bool) (x : W64) : (c.writeVal n L wide x).accepts = c.accepts := by
  unfold Course.writeVal; split <;> rfl
@[simp] theorem Course.writeVal_proposals (c : Course) (n L : Nat) (wide : Bool) (x : W64) : (c.writeVal n L wide x).proposals = c.proposals := by
  unfold Course.writeVal; split <;> rfl
@[simp] theorem Course.writeVal_entries (c : Course) (n L : Nat) (wide : Bool) (x : W64) : (c.writeVal n L wide x).entries = c.entries := by
  unfold Course.writeVal; split <;> rfl
@[simp] theorem Course.writeVal_frames (c : Course) (n L : Nat) (wide : Bool) (x : W64) : (c.writeVal n L wide x).frames = c.frames := by
  unfold Course.writeVal; split <;> rfl
@[simp] theorem Course.writeVal_counts (c : Course) (n L : Nat) (wide : Bool) (x : W64) : (c.writeVal n L wide x).counts = c.counts := by
  unfold Course.writeVal; split <;> rfl
@[simp] theorem Course.writeVal_phase (c : Course) (n L : Nat) (wide : Bool) (x : W64) : (c.writeVal n L wide x).phase = c.phase := by
  unfold Course.writeVal; split <;> rfl
@[simp] theorem Course.writeVal_trapCause (c : Course) (n L : Nat) (wide : Bool) (x : W64) : (c.writeVal n L wide x).trapCause = c.trapCause := by
  unfold Course.writeVal; split <;> rfl
@[simp] theorem Course.writeVal_trapPc (c : Course) (n L : Nat) (wide : Bool) (x : W64) : (c.writeVal n L wide x).trapPc = c.trapPc := by
  unfold Course.writeVal; split <;> rfl
@[simp] theorem Course.writeVal_replays (c : Course) (n L : Nat) (wide : Bool) (x : W64) : (c.writeVal n L wide x).replays = c.replays := by
  unfold Course.writeVal; split <;> rfl
@[simp] theorem Course.writeVal_trapVa (c : Course) (n L : Nat) (wide : Bool) (x : W64) : (c.writeVal n L wide x).trapVa = c.trapVa := by
  unfold Course.writeVal; split <;> rfl
@[simp] theorem Course.writeVal_trapInfo (c : Course) (n L : Nat) (wide : Bool) (x : W64) : (c.writeVal n L wide x).trapInfo = c.trapInfo := by
  unfold Course.writeVal; split <;> rfl
@[simp] theorem Course.writeVal_super (c : Course) (n L : Nat) (wide : Bool) (x : W64) : (c.writeVal n L wide x).super = c.super := by
  unfold Course.writeVal; split <;> rfl
@[simp] theorem Course.writeVal_token (c : Course) (n L : Nat) (wide : Bool) (x : W64) : (c.writeVal n L wide x).token = c.token := by
  unfold Course.writeVal; split <;> rfl
@[simp] theorem Course.writeVal_det (c : Course) (n L : Nat) (wide : Bool) (x : W64) : (c.writeVal n L wide x).det = c.det := by
  unfold Course.writeVal; split <;> rfl
@[simp] theorem Course.writeVal_strict (c : Course) (n L : Nat) (wide : Bool) (x : W64) : (c.writeVal n L wide x).strict = c.strict := by
  unfold Course.writeVal; split <;> rfl
@[simp] theorem Course.writeVal_exact (c : Course) (n L : Nat) (wide : Bool) (x : W64) : (c.writeVal n L wide x).exact = c.exact := by
  unfold Course.writeVal; split <;> rfl
@[simp] theorem Course.writeVal_saved (c : Course) (n L : Nat) (wide : Bool) (x : W64) : (c.writeVal n L wide x).saved = c.saved := by
  unfold Course.writeVal; split <;> rfl
@[simp] theorem Course.writeVal_trapWait (c : Course) (n L : Nat) (wide : Bool) (x : W64) : (c.writeVal n L wide x).trapWait = c.trapWait := by
  unfold Course.writeVal; split <;> rfl
@[simp] theorem Course.writeVal_nextIssue (c : Course) (n L : Nat) (wide : Bool) (x : W64) : (c.writeVal n L wide x).nextIssue = c.nextIssue := by
  unfold Course.writeVal; split <;> rfl
@[simp] theorem Course.writeVal_yieldAt (c : Course) (n L : Nat) (wide : Bool) (x : W64) : (c.writeVal n L wide x).yieldAt = c.yieldAt := by
  unfold Course.writeVal; split <;> rfl
@[simp] theorem Course.writeVal_pendingAt (c : Course) (n L : Nat) (wide : Bool) (x : W64) : (c.writeVal n L wide x).pendingAt = c.pendingAt := by
  unfold Course.writeVal; split <;> rfl
@[simp] theorem Course.writeSVal_stamp (c : Course) (n : Nat) (wide : Bool) (x : W64) : (c.writeSVal n wide x).stamp = c.stamp := by
  unfold Course.writeSVal; split <;> rfl
@[simp] theorem Course.writeSVal_grid (c : Course) (n : Nat) (wide : Bool) (x : W64) : (c.writeSVal n wide x).grid = c.grid := by
  unfold Course.writeSVal; split <;> rfl
@[simp] theorem Course.writeSVal_team (c : Course) (n : Nat) (wide : Bool) (x : W64) : (c.writeSVal n wide x).team = c.team := by
  unfold Course.writeSVal; split <;> rfl
@[simp] theorem Course.writeSVal_index (c : Course) (n : Nat) (wide : Bool) (x : W64) : (c.writeSVal n wide x).index = c.index := by
  unfold Course.writeSVal; split <;> rfl
@[simp] theorem Course.writeSVal_launch (c : Course) (n : Nat) (wide : Bool) (x : W64) : (c.writeSVal n wide x).launch = c.launch := by
  unfold Course.writeSVal; split <;> rfl
@[simp] theorem Course.writeSVal_cbase (c : Course) (n : Nat) (wide : Bool) (x : W64) : (c.writeSVal n wide x).cbase = c.cbase := by
  unfold Course.writeSVal; split <;> rfl
@[simp] theorem Course.writeSVal_psize (c : Course) (n : Nat) (wide : Bool) (x : W64) : (c.writeSVal n wide x).psize = c.psize := by
  unfold Course.writeSVal; split <;> rfl
@[simp] theorem Course.writeSVal_v (c : Course) (n : Nat) (wide : Bool) (x : W64) : (c.writeSVal n wide x).v = c.v := by
  unfold Course.writeSVal; split <;> rfl
@[simp] theorem Course.writeSVal_y (c : Course) (n : Nat) (wide : Bool) (x : W64) : (c.writeSVal n wide x).y = c.y := by
  unfold Course.writeSVal; split <;> rfl
@[simp] theorem Course.writeSVal_p (c : Course) (n : Nat) (wide : Bool) (x : W64) : (c.writeSVal n wide x).p = c.p := by
  unfold Course.writeSVal; split <;> rfl
@[simp] theorem Course.writeSVal_propMask (c : Course) (n : Nat) (wide : Bool) (x : W64) : (c.writeSVal n wide x).propMask = c.propMask := by
  unfold Course.writeSVal; split <;> rfl
@[simp] theorem Course.writeSVal_propOpen (c : Course) (n : Nat) (wide : Bool) (x : W64) : (c.writeSVal n wide x).propOpen = c.propOpen := by
  unfold Course.writeSVal; split <;> rfl
@[simp] theorem Course.writeSVal_flags (c : Course) (n : Nat) (wide : Bool) (x : W64) : (c.writeSVal n wide x).flags = c.flags := by
  unfold Course.writeSVal; split <;> rfl
@[simp] theorem Course.writeSVal_accepts (c : Course) (n : Nat) (wide : Bool) (x : W64) : (c.writeSVal n wide x).accepts = c.accepts := by
  unfold Course.writeSVal; split <;> rfl
@[simp] theorem Course.writeSVal_proposals (c : Course) (n : Nat) (wide : Bool) (x : W64) : (c.writeSVal n wide x).proposals = c.proposals := by
  unfold Course.writeSVal; split <;> rfl
@[simp] theorem Course.writeSVal_entries (c : Course) (n : Nat) (wide : Bool) (x : W64) : (c.writeSVal n wide x).entries = c.entries := by
  unfold Course.writeSVal; split <;> rfl
@[simp] theorem Course.writeSVal_frames (c : Course) (n : Nat) (wide : Bool) (x : W64) : (c.writeSVal n wide x).frames = c.frames := by
  unfold Course.writeSVal; split <;> rfl
@[simp] theorem Course.writeSVal_counts (c : Course) (n : Nat) (wide : Bool) (x : W64) : (c.writeSVal n wide x).counts = c.counts := by
  unfold Course.writeSVal; split <;> rfl
@[simp] theorem Course.writeSVal_phase (c : Course) (n : Nat) (wide : Bool) (x : W64) : (c.writeSVal n wide x).phase = c.phase := by
  unfold Course.writeSVal; split <;> rfl
@[simp] theorem Course.writeSVal_trapCause (c : Course) (n : Nat) (wide : Bool) (x : W64) : (c.writeSVal n wide x).trapCause = c.trapCause := by
  unfold Course.writeSVal; split <;> rfl
@[simp] theorem Course.writeSVal_trapPc (c : Course) (n : Nat) (wide : Bool) (x : W64) : (c.writeSVal n wide x).trapPc = c.trapPc := by
  unfold Course.writeSVal; split <;> rfl
@[simp] theorem Course.writeSVal_replays (c : Course) (n : Nat) (wide : Bool) (x : W64) : (c.writeSVal n wide x).replays = c.replays := by
  unfold Course.writeSVal; split <;> rfl
@[simp] theorem Course.writeSVal_trapVa (c : Course) (n : Nat) (wide : Bool) (x : W64) : (c.writeSVal n wide x).trapVa = c.trapVa := by
  unfold Course.writeSVal; split <;> rfl
@[simp] theorem Course.writeSVal_trapInfo (c : Course) (n : Nat) (wide : Bool) (x : W64) : (c.writeSVal n wide x).trapInfo = c.trapInfo := by
  unfold Course.writeSVal; split <;> rfl
@[simp] theorem Course.writeSVal_super (c : Course) (n : Nat) (wide : Bool) (x : W64) : (c.writeSVal n wide x).super = c.super := by
  unfold Course.writeSVal; split <;> rfl
@[simp] theorem Course.writeSVal_token (c : Course) (n : Nat) (wide : Bool) (x : W64) : (c.writeSVal n wide x).token = c.token := by
  unfold Course.writeSVal; split <;> rfl
@[simp] theorem Course.writeSVal_det (c : Course) (n : Nat) (wide : Bool) (x : W64) : (c.writeSVal n wide x).det = c.det := by
  unfold Course.writeSVal; split <;> rfl
@[simp] theorem Course.writeSVal_strict (c : Course) (n : Nat) (wide : Bool) (x : W64) : (c.writeSVal n wide x).strict = c.strict := by
  unfold Course.writeSVal; split <;> rfl
@[simp] theorem Course.writeSVal_exact (c : Course) (n : Nat) (wide : Bool) (x : W64) : (c.writeSVal n wide x).exact = c.exact := by
  unfold Course.writeSVal; split <;> rfl
@[simp] theorem Course.writeSVal_saved (c : Course) (n : Nat) (wide : Bool) (x : W64) : (c.writeSVal n wide x).saved = c.saved := by
  unfold Course.writeSVal; split <;> rfl
@[simp] theorem Course.writeSVal_trapWait (c : Course) (n : Nat) (wide : Bool) (x : W64) : (c.writeSVal n wide x).trapWait = c.trapWait := by
  unfold Course.writeSVal; split <;> rfl
@[simp] theorem Course.writeSVal_nextIssue (c : Course) (n : Nat) (wide : Bool) (x : W64) : (c.writeSVal n wide x).nextIssue = c.nextIssue := by
  unfold Course.writeSVal; split <;> rfl
@[simp] theorem Course.writeSVal_yieldAt (c : Course) (n : Nat) (wide : Bool) (x : W64) : (c.writeSVal n wide x).yieldAt = c.yieldAt := by
  unfold Course.writeSVal; split <;> rfl
@[simp] theorem Course.writeSVal_pendingAt (c : Course) (n : Nat) (wide : Bool) (x : W64) : (c.writeSVal n wide x).pendingAt = c.pendingAt := by
  unfold Course.writeSVal; split <;> rfl
@[simp] theorem Course.writeShadow_stamp (c : Course) (n L : Nat) (wide : Bool) (x : W64) : (c.writeShadow n L wide x).stamp = c.stamp := by
  unfold Course.writeShadow; dsimp only; split <;> rfl
@[simp] theorem Course.writeShadow_grid (c : Course) (n L : Nat) (wide : Bool) (x : W64) : (c.writeShadow n L wide x).grid = c.grid := by
  unfold Course.writeShadow; dsimp only; split <;> rfl
@[simp] theorem Course.writeShadow_team (c : Course) (n L : Nat) (wide : Bool) (x : W64) : (c.writeShadow n L wide x).team = c.team := by
  unfold Course.writeShadow; dsimp only; split <;> rfl
@[simp] theorem Course.writeShadow_index (c : Course) (n L : Nat) (wide : Bool) (x : W64) : (c.writeShadow n L wide x).index = c.index := by
  unfold Course.writeShadow; dsimp only; split <;> rfl
@[simp] theorem Course.writeShadow_launch (c : Course) (n L : Nat) (wide : Bool) (x : W64) : (c.writeShadow n L wide x).launch = c.launch := by
  unfold Course.writeShadow; dsimp only; split <;> rfl
@[simp] theorem Course.writeShadow_cbase (c : Course) (n L : Nat) (wide : Bool) (x : W64) : (c.writeShadow n L wide x).cbase = c.cbase := by
  unfold Course.writeShadow; dsimp only; split <;> rfl
@[simp] theorem Course.writeShadow_psize (c : Course) (n L : Nat) (wide : Bool) (x : W64) : (c.writeShadow n L wide x).psize = c.psize := by
  unfold Course.writeShadow; dsimp only; split <;> rfl
@[simp] theorem Course.writeShadow_v (c : Course) (n L : Nat) (wide : Bool) (x : W64) : (c.writeShadow n L wide x).v = c.v := by
  unfold Course.writeShadow; dsimp only; split <;> rfl
@[simp] theorem Course.writeShadow_s (c : Course) (n L : Nat) (wide : Bool) (x : W64) : (c.writeShadow n L wide x).s = c.s := by
  unfold Course.writeShadow; dsimp only; split <;> rfl
@[simp] theorem Course.writeShadow_p (c : Course) (n L : Nat) (wide : Bool) (x : W64) : (c.writeShadow n L wide x).p = c.p := by
  unfold Course.writeShadow; dsimp only; split <;> rfl
@[simp] theorem Course.writeShadow_propOpen (c : Course) (n L : Nat) (wide : Bool) (x : W64) : (c.writeShadow n L wide x).propOpen = c.propOpen := by
  unfold Course.writeShadow; dsimp only; split <;> rfl
@[simp] theorem Course.writeShadow_flags (c : Course) (n L : Nat) (wide : Bool) (x : W64) : (c.writeShadow n L wide x).flags = c.flags := by
  unfold Course.writeShadow; dsimp only; split <;> rfl
@[simp] theorem Course.writeShadow_accepts (c : Course) (n L : Nat) (wide : Bool) (x : W64) : (c.writeShadow n L wide x).accepts = c.accepts := by
  unfold Course.writeShadow; dsimp only; split <;> rfl
@[simp] theorem Course.writeShadow_proposals (c : Course) (n L : Nat) (wide : Bool) (x : W64) : (c.writeShadow n L wide x).proposals = c.proposals := by
  unfold Course.writeShadow; dsimp only; split <;> rfl
@[simp] theorem Course.writeShadow_entries (c : Course) (n L : Nat) (wide : Bool) (x : W64) : (c.writeShadow n L wide x).entries = c.entries := by
  unfold Course.writeShadow; dsimp only; split <;> rfl
@[simp] theorem Course.writeShadow_frames (c : Course) (n L : Nat) (wide : Bool) (x : W64) : (c.writeShadow n L wide x).frames = c.frames := by
  unfold Course.writeShadow; dsimp only; split <;> rfl
@[simp] theorem Course.writeShadow_counts (c : Course) (n L : Nat) (wide : Bool) (x : W64) : (c.writeShadow n L wide x).counts = c.counts := by
  unfold Course.writeShadow; dsimp only; split <;> rfl
@[simp] theorem Course.writeShadow_phase (c : Course) (n L : Nat) (wide : Bool) (x : W64) : (c.writeShadow n L wide x).phase = c.phase := by
  unfold Course.writeShadow; dsimp only; split <;> rfl
@[simp] theorem Course.writeShadow_trapCause (c : Course) (n L : Nat) (wide : Bool) (x : W64) : (c.writeShadow n L wide x).trapCause = c.trapCause := by
  unfold Course.writeShadow; dsimp only; split <;> rfl
@[simp] theorem Course.writeShadow_trapPc (c : Course) (n L : Nat) (wide : Bool) (x : W64) : (c.writeShadow n L wide x).trapPc = c.trapPc := by
  unfold Course.writeShadow; dsimp only; split <;> rfl
@[simp] theorem Course.writeShadow_replays (c : Course) (n L : Nat) (wide : Bool) (x : W64) : (c.writeShadow n L wide x).replays = c.replays := by
  unfold Course.writeShadow; dsimp only; split <;> rfl
@[simp] theorem Course.writeShadow_trapVa (c : Course) (n L : Nat) (wide : Bool) (x : W64) : (c.writeShadow n L wide x).trapVa = c.trapVa := by
  unfold Course.writeShadow; dsimp only; split <;> rfl
@[simp] theorem Course.writeShadow_trapInfo (c : Course) (n L : Nat) (wide : Bool) (x : W64) : (c.writeShadow n L wide x).trapInfo = c.trapInfo := by
  unfold Course.writeShadow; dsimp only; split <;> rfl
@[simp] theorem Course.writeShadow_super (c : Course) (n L : Nat) (wide : Bool) (x : W64) : (c.writeShadow n L wide x).super = c.super := by
  unfold Course.writeShadow; dsimp only; split <;> rfl
@[simp] theorem Course.writeShadow_token (c : Course) (n L : Nat) (wide : Bool) (x : W64) : (c.writeShadow n L wide x).token = c.token := by
  unfold Course.writeShadow; dsimp only; split <;> rfl
@[simp] theorem Course.writeShadow_det (c : Course) (n L : Nat) (wide : Bool) (x : W64) : (c.writeShadow n L wide x).det = c.det := by
  unfold Course.writeShadow; dsimp only; split <;> rfl
@[simp] theorem Course.writeShadow_strict (c : Course) (n L : Nat) (wide : Bool) (x : W64) : (c.writeShadow n L wide x).strict = c.strict := by
  unfold Course.writeShadow; dsimp only; split <;> rfl
@[simp] theorem Course.writeShadow_exact (c : Course) (n L : Nat) (wide : Bool) (x : W64) : (c.writeShadow n L wide x).exact = c.exact := by
  unfold Course.writeShadow; dsimp only; split <;> rfl
@[simp] theorem Course.writeShadow_saved (c : Course) (n L : Nat) (wide : Bool) (x : W64) : (c.writeShadow n L wide x).saved = c.saved := by
  unfold Course.writeShadow; dsimp only; split <;> rfl
@[simp] theorem Course.writeShadow_trapWait (c : Course) (n L : Nat) (wide : Bool) (x : W64) : (c.writeShadow n L wide x).trapWait = c.trapWait := by
  unfold Course.writeShadow; dsimp only; split <;> rfl
@[simp] theorem Course.writeShadow_nextIssue (c : Course) (n L : Nat) (wide : Bool) (x : W64) : (c.writeShadow n L wide x).nextIssue = c.nextIssue := by
  unfold Course.writeShadow; dsimp only; split <;> rfl
@[simp] theorem Course.writeShadow_yieldAt (c : Course) (n L : Nat) (wide : Bool) (x : W64) : (c.writeShadow n L wide x).yieldAt = c.yieldAt := by
  unfold Course.writeShadow; dsimp only; split <;> rfl
@[simp] theorem Course.writeShadow_pendingAt (c : Course) (n L : Nat) (wide : Bool) (x : W64) : (c.writeShadow n L wide x).pendingAt = c.pendingAt := by
  unfold Course.writeShadow; dsimp only; split <;> rfl
@[simp] theorem Course.raiseIn_stamp (c : Course) (m : Mask) (x : BitVec 8) : (c.raiseIn m x).stamp = c.stamp := by
  unfold Course.raiseIn
  induction lanesOf m generalizing c with
  | nil => rfl
  | cons L t ih => rw [List.foldl_cons, ih, Course.raise_stamp]
@[simp] theorem Course.raiseIn_grid (c : Course) (m : Mask) (x : BitVec 8) : (c.raiseIn m x).grid = c.grid := by
  unfold Course.raiseIn
  induction lanesOf m generalizing c with
  | nil => rfl
  | cons L t ih => rw [List.foldl_cons, ih, Course.raise_grid]
@[simp] theorem Course.raiseIn_team (c : Course) (m : Mask) (x : BitVec 8) : (c.raiseIn m x).team = c.team := by
  unfold Course.raiseIn
  induction lanesOf m generalizing c with
  | nil => rfl
  | cons L t ih => rw [List.foldl_cons, ih, Course.raise_team]
@[simp] theorem Course.raiseIn_index (c : Course) (m : Mask) (x : BitVec 8) : (c.raiseIn m x).index = c.index := by
  unfold Course.raiseIn
  induction lanesOf m generalizing c with
  | nil => rfl
  | cons L t ih => rw [List.foldl_cons, ih, Course.raise_index]
@[simp] theorem Course.raiseIn_launch (c : Course) (m : Mask) (x : BitVec 8) : (c.raiseIn m x).launch = c.launch := by
  unfold Course.raiseIn
  induction lanesOf m generalizing c with
  | nil => rfl
  | cons L t ih => rw [List.foldl_cons, ih, Course.raise_launch]
@[simp] theorem Course.raiseIn_cbase (c : Course) (m : Mask) (x : BitVec 8) : (c.raiseIn m x).cbase = c.cbase := by
  unfold Course.raiseIn
  induction lanesOf m generalizing c with
  | nil => rfl
  | cons L t ih => rw [List.foldl_cons, ih, Course.raise_cbase]
@[simp] theorem Course.raiseIn_psize (c : Course) (m : Mask) (x : BitVec 8) : (c.raiseIn m x).psize = c.psize := by
  unfold Course.raiseIn
  induction lanesOf m generalizing c with
  | nil => rfl
  | cons L t ih => rw [List.foldl_cons, ih, Course.raise_psize]
@[simp] theorem Course.raiseIn_v (c : Course) (m : Mask) (x : BitVec 8) : (c.raiseIn m x).v = c.v := by
  unfold Course.raiseIn
  induction lanesOf m generalizing c with
  | nil => rfl
  | cons L t ih => rw [List.foldl_cons, ih, Course.raise_v]
@[simp] theorem Course.raiseIn_y (c : Course) (m : Mask) (x : BitVec 8) : (c.raiseIn m x).y = c.y := by
  unfold Course.raiseIn
  induction lanesOf m generalizing c with
  | nil => rfl
  | cons L t ih => rw [List.foldl_cons, ih, Course.raise_y]
@[simp] theorem Course.raiseIn_s (c : Course) (m : Mask) (x : BitVec 8) : (c.raiseIn m x).s = c.s := by
  unfold Course.raiseIn
  induction lanesOf m generalizing c with
  | nil => rfl
  | cons L t ih => rw [List.foldl_cons, ih, Course.raise_s]
@[simp] theorem Course.raiseIn_p (c : Course) (m : Mask) (x : BitVec 8) : (c.raiseIn m x).p = c.p := by
  unfold Course.raiseIn
  induction lanesOf m generalizing c with
  | nil => rfl
  | cons L t ih => rw [List.foldl_cons, ih, Course.raise_p]
@[simp] theorem Course.raiseIn_propMask (c : Course) (m : Mask) (x : BitVec 8) : (c.raiseIn m x).propMask = c.propMask := by
  unfold Course.raiseIn
  induction lanesOf m generalizing c with
  | nil => rfl
  | cons L t ih => rw [List.foldl_cons, ih, Course.raise_propMask]
@[simp] theorem Course.raiseIn_propOpen (c : Course) (m : Mask) (x : BitVec 8) : (c.raiseIn m x).propOpen = c.propOpen := by
  unfold Course.raiseIn
  induction lanesOf m generalizing c with
  | nil => rfl
  | cons L t ih => rw [List.foldl_cons, ih, Course.raise_propOpen]
@[simp] theorem Course.raiseIn_accepts (c : Course) (m : Mask) (x : BitVec 8) : (c.raiseIn m x).accepts = c.accepts := by
  unfold Course.raiseIn
  induction lanesOf m generalizing c with
  | nil => rfl
  | cons L t ih => rw [List.foldl_cons, ih, Course.raise_accepts]
@[simp] theorem Course.raiseIn_proposals (c : Course) (m : Mask) (x : BitVec 8) : (c.raiseIn m x).proposals = c.proposals := by
  unfold Course.raiseIn
  induction lanesOf m generalizing c with
  | nil => rfl
  | cons L t ih => rw [List.foldl_cons, ih, Course.raise_proposals]
@[simp] theorem Course.raiseIn_entries (c : Course) (m : Mask) (x : BitVec 8) : (c.raiseIn m x).entries = c.entries := by
  unfold Course.raiseIn
  induction lanesOf m generalizing c with
  | nil => rfl
  | cons L t ih => rw [List.foldl_cons, ih, Course.raise_entries]
@[simp] theorem Course.raiseIn_frames (c : Course) (m : Mask) (x : BitVec 8) : (c.raiseIn m x).frames = c.frames := by
  unfold Course.raiseIn
  induction lanesOf m generalizing c with
  | nil => rfl
  | cons L t ih => rw [List.foldl_cons, ih, Course.raise_frames]
@[simp] theorem Course.raiseIn_counts (c : Course) (m : Mask) (x : BitVec 8) : (c.raiseIn m x).counts = c.counts := by
  unfold Course.raiseIn
  induction lanesOf m generalizing c with
  | nil => rfl
  | cons L t ih => rw [List.foldl_cons, ih, Course.raise_counts]
@[simp] theorem Course.raiseIn_phase (c : Course) (m : Mask) (x : BitVec 8) : (c.raiseIn m x).phase = c.phase := by
  unfold Course.raiseIn
  induction lanesOf m generalizing c with
  | nil => rfl
  | cons L t ih => rw [List.foldl_cons, ih, Course.raise_phase]
@[simp] theorem Course.raiseIn_trapCause (c : Course) (m : Mask) (x : BitVec 8) : (c.raiseIn m x).trapCause = c.trapCause := by
  unfold Course.raiseIn
  induction lanesOf m generalizing c with
  | nil => rfl
  | cons L t ih => rw [List.foldl_cons, ih, Course.raise_trapCause]
@[simp] theorem Course.raiseIn_trapPc (c : Course) (m : Mask) (x : BitVec 8) : (c.raiseIn m x).trapPc = c.trapPc := by
  unfold Course.raiseIn
  induction lanesOf m generalizing c with
  | nil => rfl
  | cons L t ih => rw [List.foldl_cons, ih, Course.raise_trapPc]
@[simp] theorem Course.raiseIn_replays (c : Course) (m : Mask) (x : BitVec 8) : (c.raiseIn m x).replays = c.replays := by
  unfold Course.raiseIn
  induction lanesOf m generalizing c with
  | nil => rfl
  | cons L t ih => rw [List.foldl_cons, ih, Course.raise_replays]
@[simp] theorem Course.raiseIn_trapVa (c : Course) (m : Mask) (x : BitVec 8) : (c.raiseIn m x).trapVa = c.trapVa := by
  unfold Course.raiseIn
  induction lanesOf m generalizing c with
  | nil => rfl
  | cons L t ih => rw [List.foldl_cons, ih, Course.raise_trapVa]
@[simp] theorem Course.raiseIn_trapInfo (c : Course) (m : Mask) (x : BitVec 8) : (c.raiseIn m x).trapInfo = c.trapInfo := by
  unfold Course.raiseIn
  induction lanesOf m generalizing c with
  | nil => rfl
  | cons L t ih => rw [List.foldl_cons, ih, Course.raise_trapInfo]
@[simp] theorem Course.raiseIn_super (c : Course) (m : Mask) (x : BitVec 8) : (c.raiseIn m x).super = c.super := by
  unfold Course.raiseIn
  induction lanesOf m generalizing c with
  | nil => rfl
  | cons L t ih => rw [List.foldl_cons, ih, Course.raise_super]
@[simp] theorem Course.raiseIn_token (c : Course) (m : Mask) (x : BitVec 8) : (c.raiseIn m x).token = c.token := by
  unfold Course.raiseIn
  induction lanesOf m generalizing c with
  | nil => rfl
  | cons L t ih => rw [List.foldl_cons, ih, Course.raise_token]
@[simp] theorem Course.raiseIn_det (c : Course) (m : Mask) (x : BitVec 8) : (c.raiseIn m x).det = c.det := by
  unfold Course.raiseIn
  induction lanesOf m generalizing c with
  | nil => rfl
  | cons L t ih => rw [List.foldl_cons, ih, Course.raise_det]
@[simp] theorem Course.raiseIn_strict (c : Course) (m : Mask) (x : BitVec 8) : (c.raiseIn m x).strict = c.strict := by
  unfold Course.raiseIn
  induction lanesOf m generalizing c with
  | nil => rfl
  | cons L t ih => rw [List.foldl_cons, ih, Course.raise_strict]
@[simp] theorem Course.raiseIn_exact (c : Course) (m : Mask) (x : BitVec 8) : (c.raiseIn m x).exact = c.exact := by
  unfold Course.raiseIn
  induction lanesOf m generalizing c with
  | nil => rfl
  | cons L t ih => rw [List.foldl_cons, ih, Course.raise_exact]
@[simp] theorem Course.raiseIn_saved (c : Course) (m : Mask) (x : BitVec 8) : (c.raiseIn m x).saved = c.saved := by
  unfold Course.raiseIn
  induction lanesOf m generalizing c with
  | nil => rfl
  | cons L t ih => rw [List.foldl_cons, ih, Course.raise_saved]
@[simp] theorem Course.raiseIn_trapWait (c : Course) (m : Mask) (x : BitVec 8) : (c.raiseIn m x).trapWait = c.trapWait := by
  unfold Course.raiseIn
  induction lanesOf m generalizing c with
  | nil => rfl
  | cons L t ih => rw [List.foldl_cons, ih, Course.raise_trapWait]
@[simp] theorem Course.raiseIn_nextIssue (c : Course) (m : Mask) (x : BitVec 8) : (c.raiseIn m x).nextIssue = c.nextIssue := by
  unfold Course.raiseIn
  induction lanesOf m generalizing c with
  | nil => rfl
  | cons L t ih => rw [List.foldl_cons, ih, Course.raise_nextIssue]
@[simp] theorem Course.raiseIn_yieldAt (c : Course) (m : Mask) (x : BitVec 8) : (c.raiseIn m x).yieldAt = c.yieldAt := by
  unfold Course.raiseIn
  induction lanesOf m generalizing c with
  | nil => rfl
  | cons L t ih => rw [List.foldl_cons, ih, Course.raise_yieldAt]
@[simp] theorem Course.raiseIn_pendingAt (c : Course) (m : Mask) (x : BitVec 8) : (c.raiseIn m x).pendingAt = c.pendingAt := by
  unfold Course.raiseIn
  induction lanesOf m generalizing c with
  | nil => rfl
  | cons L t ih => rw [List.foldl_cons, ih, Course.raise_pendingAt]

end Sys2Proof.Machine
end

