-- ==== Sys2Proof/Laws/Issue.lean ====
section
/-! SUPPORT. What the issue of a word does, once for every word (R77 to R83). -/

namespace Sys2Proof.Machine

/-! ### Cores and courses -/

theorem lookup?_adjust {α : Type} (m : List (Nat × α)) (k b : Nat) (f : α → α) :
    lookup? (adjust m k f) b = if b = k then (lookup? m k).map f else lookup? m b := by
  unfold adjust
  cases h : lookup? m k with
  | none => by_cases hb : b = k <;> simp [hb, h]
  | some x => by_cases hb : b = k <;> simp [lookup?_assign, hb]

@[simp] theorem State.core_setCore (s : State) (k j : Nat) (c : Core) :
    (s.setCore k c).core j = if j = k then c else s.core j := by
  simp [State.core, State.setCore, get_assign]

@[simp] theorem State.core_mapCore (s : State) (k j : Nat) (f : Core → Core) :
    (s.mapCore k f).core j = if j = k then f (s.core k) else s.core j := by
  simp [State.mapCore]

@[simp] theorem State.ctx_mapCtx (s : State) (k j : Nat) (f : Ctx → Ctx) :
    (s.mapCtx k f).ctx j = if j = k then f (s.ctx k) else s.ctx j := by
  simp [State.ctx, State.mapCtx, State.setCtx, get_assign]

theorem State.course?_mapCourse (s : State) (core slot k j : Nat) (f : Course → Course) :
    (s.mapCourse core slot f).course? k j =
      if k = core ∧ j = slot then (s.course? core slot).map f else s.course? k j := by
  by_cases h : k = core
  · subst h
    by_cases h' : j = slot
    · subst h'; simp [State.course?, State.mapCourse, lookup?_adjust]
    · simp [State.course?, State.mapCourse, lookup?_adjust, h']
  · simp [State.course?, State.mapCourse, h]

theorem State.core_mapCourse (s : State) (core slot k : Nat) (f : Course → Course) :
    (s.mapCourse core slot f).core k = { s.core k with courses := ((s.mapCourse core slot f).core k).courses } := by
  by_cases h : k = core
  · subst h; simp [State.mapCourse]
  · simp [State.mapCourse, h]

theorem State.mapCourseOf_of_course (s : State) {core slot n : Nat} {c : Course} (f : Course → Course)
    (h : s.course? core slot = some c) (hn : c.stamp = n) : s.mapCourseOf core slot n f = s.mapCourse core slot f := by
  simp [State.mapCourseOf, State.courseOf, h, hn]

/-! ### Beside: what is left as it was -/

theorem State.Beside.refl (s : State) (f : Frag) : s.Beside s f :=
  ⟨rfl, fun _ _ => rfl, fun _ => rfl, fun _ _ _ => rfl, fun _ => rfl, fun _ h _ => h⟩

theorem State.Beside.trans {s t u : State} {f : Frag} (h : s.Beside t f) (h' : t.Beside u f) : s.Beside u f := by
  refine ⟨?_, fun k hk => ?_, fun k => ?_, fun k j hkj => ?_, fun a => ?_, fun o ho hd => h'.going o (h.going o ho hd) hd⟩
  · rw [h'.rest, h.rest]
  · rw [h'.counters k hk, h.counters k hk]
  · rw [h'.cores k, h.cores k]
  · rw [h'.courses k j hkj, h.courses k j hkj]
  · rw [h'.ctxs a, h.ctxs a]

theorem State.beside_mapCourse (s : State) (f : Frag) (g : Course → Course) :
    s.Beside (s.mapCourse f.core f.slot g) f := by
  refine ⟨rfl, fun _ _ => rfl, fun k => ?_, fun k j hkj => ?_, fun a => rfl, fun o ho _ => ho⟩
  · rw [State.core_mapCourse]
  · rw [State.course?_mapCourse, if_neg (by rintro ⟨rfl, rfl⟩; simp at hkj)]

theorem State.beside_mapCourseOf (s : State) (f : Frag) (n : Nat) (g : Course → Course) :
    s.Beside (s.mapCourseOf f.core f.slot n g) f := by
  unfold State.mapCourseOf
  split
  · exact s.beside_mapCourse f g
  · exact .refl s f

theorem State.beside_count (s : State) (f : Frag) (n : Nat) : s.Beside (s.count 0x10 f.core n) f :=
  ⟨rfl, fun k hk => by simp [State.count, get_assign, hk], fun _ => rfl, fun _ _ _ => rfl, fun _ => rfl, fun _ h _ => h⟩

theorem State.beside_stamp (s : State) (f : Frag) (n : Nat) : s.Beside { s with stamp := n } f :=
  ⟨rfl, fun _ _ => rfl, fun _ => rfl, fun _ _ _ => rfl, fun _ => rfl, fun _ h _ => h⟩

theorem State.beside_free (s : State) (f : Frag) (n : Nat) : s.Beside { s with free := n } f :=
  ⟨rfl, fun _ _ => rfl, fun _ => rfl, fun _ _ _ => rfl, fun _ => rfl, fun _ h _ => h⟩

theorem State.beside_debit (s : State) (f : Frag) (a n : Nat) :
    s.Beside (s.mapCtx a (fun c => { c with debit := c.debit + n })) f := by
  refine ⟨rfl, fun _ _ => rfl, fun _ => rfl, fun _ _ _ => rfl, fun b => ?_, fun _ h _ => h⟩
  by_cases h : b = a <;> simp [h]

theorem State.beside_starved (s : State) (f : Frag) (k : Nat) (q : List (Nat × Nat) → List (Nat × Nat)) :
    s.Beside (s.mapCore k (fun c => { c with starved := q c.starved })) f := by
  refine ⟨rfl, fun _ _ => rfl, fun j => ?_, fun j i _ => ?_, fun _ => rfl, fun _ h _ => h⟩
  · by_cases h : j = k <;> simp [h]
  · by_cases h : j = k
    · subst h; simp [State.course?]
    · simp [State.course?, h]

/-! ### Operations that retire (R38) -/

/-- An operation that is not done stays. -/
theorem mem_retireOps {stamp : Nat} {blocked : List Nat} {os : List Op} {o : Op} (h : o ∈ os) (hd : o.done = false) :
    o ∈ (retireOps stamp blocked os).1 := by
  induction os generalizing blocked with
  | nil => simp at h
  | cons p t ih =>
    simp only [retireOps]
    rcases List.mem_cons.mp h with rfl | h
    · split
      · split
        · rename_i hc; simp [hd] at hc
        · exact List.mem_cons_self
      · exact List.mem_cons_self
    · split
      · split
        · exact ih h
        · exact List.mem_cons_of_mem _ (ih h)
      · exact List.mem_cons_of_mem _ (ih h)

/-- Retirement takes operations out and adds none. -/
theorem retireOps_subset {stamp : Nat} {blocked : List Nat} {os : List Op} {o : Op}
    (h : o ∈ (retireOps stamp blocked os).1) : o ∈ os := by
  induction os generalizing blocked with
  | nil => simp [retireOps] at h
  | cons p t ih =>
    simp only [retireOps] at h
    split at h
    · split at h
      · exact List.mem_cons_of_mem _ (ih h)
      · rcases List.mem_cons.mp h with rfl | h
        · exact List.mem_cons_self
        · exact List.mem_cons_of_mem _ (ih h)
    · rcases List.mem_cons.mp h with rfl | h
      · exact List.mem_cons_self
      · exact List.mem_cons_of_mem _ (ih h)

theorem State.beside_ops (s : State) (f : Frag) (os : List Op) (h : ∀ o ∈ s.ops, o.done = false → o ∈ os) :
    s.Beside { s with ops := os } f :=
  ⟨rfl, fun _ _ => rfl, fun _ => rfl, fun _ _ _ => rfl, fun _ => rfl, h⟩

theorem State.beside_retire (s : State) (f : Frag) (n : Nat) : s.Beside (s.retire f.core f.slot n) f := by
  unfold State.retire
  refine (State.beside_ops s f _ ?_).trans (State.beside_mapCourseOf _ f _ _)
  intro o ho hd
  split
  · exact mem_retireOps ho hd
  · exact ho

/-! ### The bookkeeping of an issue -/

theorem State.course?_mapCourseOf_same {s : State} {core slot n : Nat} {c : Course} (h : s.course? core slot = some c)
    (hn : c.stamp = n) (f : Course → Course) : (s.mapCourseOf core slot n f).course? core slot = some (f c) := by
  rw [State.mapCourseOf_of_course s f h hn, State.course?_mapCourse, if_pos ⟨rfl, rfl⟩, h]; rfl

theorem State.course?_mapCore (s : State) (k : Nat) (g : Core → Core) (hg : ∀ c, (g c).courses = c.courses)
    (core slot : Nat) : (s.mapCore k g).course? core slot = s.course? core slot := by
  by_cases h : core = k
  · subst h; simp [State.course?, hg]
  · simp [State.course?, h]

theorem State.course?_mapStarved (s : State) (k : Nat) (q : List (Nat × Nat) → List (Nat × Nat)) (core slot : Nat) :
    (s.mapCore k (fun c => { c with starved := q c.starved })).course? core slot = s.course? core slot :=
  s.course?_mapCore k _ (by intro _; rfl) core slot

theorem State.course?_send (s : State) (core : Nat) (k : OpKind) (i j : Nat) :
    (s.send core k).course? i j = s.course? i j := by
  unfold State.send
  split
  · exact s.course?_mapCore core _ (by intro _; rfl) i j
  · rfl

/-- The pc and the scheduler's data of the issuing fragment after `State.issued`. -/
def Course.advanced (c : Course) (f : Frag) (e : Effect) : List (Nat × Entry) :=
  if e.moved then adjust c.entries f.entry (fun x => { x with passed := 0, began := none })
  else adjust c.entries f.entry (fun x => { x with pc := e.pc.getD (addPc f.pc 12), passed := 0, held := false, began := none })

/-- The course of a word after `State.issued`. -/
def Course.afterIssue (c : Course) (s : State) (f : Frag) (w : Fields) (e : Effect) : Course :=
  { c with nextIssue := s.clock + max w.hints.stall.val 1, yieldAt := if w.hints.yield || e.yield then some s.clock else none,
           pendingAt := if readsPending w then some s.clock else none, token := c.token || s.tokenStarts c,
           entries := c.advanced f e }

theorem State.course?_issued {s : State} (f : Frag) (w : Fields) (e : Effect) {c : Course}
    (h : s.course? f.core f.slot = some c) (hn : c.stamp = f.c.stamp) :
    (s.issued f w e).course? f.core f.slot = some (c.afterIssue s f w e) := by
  have key : ∀ u : State, u.course? f.core f.slot = some c → u.clock = s.clock → u.tokenStarts c = s.tokenStarts c →
      ((u.mapCore f.core (fun k => { k with starved := k.starved.filter (fun p => p != (f.slot, f.entry)) })).mapCourseOf
        f.core f.slot f.c.stamp (fun c => { c with
          nextIssue := u.clock + max w.hints.stall.val 1
          yieldAt := if w.hints.yield || e.yield then some u.clock else none
          pendingAt := if readsPending w then some u.clock else none
          token := c.token || u.tokenStarts c
          entries := c.advanced f e })).course? f.core f.slot = some (c.afterIssue s f w e) := by
    intro u hu hc ht
    rw [State.course?_mapCourseOf_same ((State.course?_mapStarved _ _ _ _ _).trans hu) hn, hc, ht]
    rfl
  unfold State.issued
  dsimp only
  split
  · exact key ((s.count 0x10 f.core 1).mapCtx f.asid _) h rfl rfl
  · exact key (s.count 0x10 f.core 1) h rfl rfl

/-- The course of a word whose operation enters the list. -/
theorem State.course?_start {s : State} (f : Frag) (w : Fields) (e : Effect) {c : Course}
    (h : s.course? f.core f.slot = some c) (hn : c.stamp = f.c.stamp) :
    (s.start f w e).course? f.core f.slot = some { c with counts := (
      if e.kind = .hint ∧ (w.hints.bump.val = 0 ∨ s.ops.all (fun o => o.stamp != f.c.stamp || o.cls != w.hints.bump.val) = true)
      then c.counts else c.counts.write w.hints.bump.val (c.counts.read w.hints.bump.val + 1)) } := by
  unfold State.start
  dsimp only
  split
  · exact h
  · refine State.course?_mapCourseOf_same ?_ hn _
    exact (State.course?_send s f.core e.kind f.core f.slot).trans h

theorem State.course?_replay {s : State} (f : Frag) (b : Bool) {c : Course}
    (h : s.course? f.core f.slot = some c) (hn : c.stamp = f.c.stamp) :
    ∃ r, (s.replay f b).course? f.core f.slot = some { c with replays := r } ∧ (650 ≤ (s.core f.core).mv → r = c.replays) := by
  unfold State.replay
  split
  · rename_i hb
    refine ⟨_, (State.course?_mapCourseOf_same (c := c) ?_ hn _).trans rfl, fun hm => ?_⟩
    · exact h
    · omega
  · exact ⟨c.replays, h, fun _ => rfl⟩

theorem Counts.read_write (k : Counts) (a b n : Nat) (h1 : 1 ≤ b) (h5 : b ≤ 5) :
    (k.write a n).read b = if b = a then n else k.read b := by
  have hb : b = 1 ∨ b = 2 ∨ b = 3 ∨ b = 4 ∨ b = 5 := by omega
  rcases a with _ | _ | _ | _ | _ | _ | a <;> rcases hb with rfl | rfl | rfl | rfl | rfl <;> simp [Counts.read, Counts.write]

@[simp] theorem State.mv_count (s : State) (a b n k : Nat) : ((s.count a b n).core k) = s.core k := rfl

theorem State.issued_mv (s : State) (f : Frag) (w : Fields) (e : Effect) (k : Nat) :
    ((s.issued f w e).core k).mv = (s.core k).mv := by
  unfold State.issued State.mapCourseOf
  dsimp only
  split
  · rw [State.core_mapCourse]
    by_cases h : k = f.core <;> split <;> simp [h, State.mapCore, State.core, State.setCore, get_assign, State.mapCtx, State.setCtx]
  · by_cases h : k = f.core <;> split <;> simp [h, State.mapCore, State.core, State.setCore, get_assign, State.mapCtx, State.setCtx]

theorem State.start_mv (s : State) (f : Frag) (w : Fields) (e : Effect) (k : Nat) :
    ((s.start f w e).core k).mv = (s.core k).mv := by
  have hs : ((s.send f.core e.kind).core k).mv = (s.core k).mv := by
    unfold State.send
    split
    · by_cases h : k = f.core <;> simp [h, State.sendClass]
    · rfl
  unfold State.start
  dsimp only
  split
  · rfl
  · unfold State.mapCourseOf
    split
    · rw [State.core_mapCourse]; exact hs
    · exact hs

theorem State.ops_issued (s : State) (f : Frag) (w : Fields) (e : Effect) : (s.issued f w e).ops = s.ops := by
  unfold State.issued State.mapCourseOf
  dsimp only
  split <;> split <;> rfl

/-- The course of a word after its issue. -/
theorem State.course?_finish {f : Frag} {w : Fields} {e : Effect} {c : Course}
    (h : e.s.course? f.core f.slot = some c) (hn : c.stamp = f.c.stamp) :
    ∃ c', (e.s.finish f w e).course? f.core f.slot = some c' ∧ c'.entries = c.advanced f e ∧
      c' = { c with counts := c'.counts, entries := c'.entries, nextIssue := c'.nextIssue, yieldAt := c'.yieldAt,
                    pendingAt := c'.pendingAt, replays := c'.replays, token := c'.token } ∧
      c'.nextIssue = e.s.clock + max w.hints.stall.val 1 ∧ (w.hints.yield = true → c'.yieldAt = some e.s.clock) ∧
      c'.token = (c.token || e.s.tokenStarts c) ∧ (650 ≤ (e.s.core f.core).mv → c'.replays = c.replays) ∧
      ∀ n, 1 ≤ n → n ≤ 5 → c'.counts.read n = c.counts.read n +
        if n = w.hints.bump.val ∧ (e.kind ≠ .hint ∨ ∃ o ∈ e.s.ops, o.stamp = c.stamp ∧ o.cls = n) then 1 else 0 := by
  have h1 := State.course?_issued f w e h hn
  have h2 := State.course?_start f w e h1 hn
  obtain ⟨r, h3, hr⟩ := State.course?_replay f e.arith h2 hn
  refine ⟨_, h3, rfl, rfl, rfl, fun hy => ?_, rfl, fun hm => ?_, fun n hn1 hn5 => ?_⟩
  · show (if (w.hints.yield || e.yield) = true then _ else _) = _
    rw [hy]; rfl
  · exact hr (by rw [State.start_mv, State.issued_mv]; exact hm)
  · rw [State.ops_issued]
    by_cases hk : e.kind = .hint ∧ (w.hints.bump.val = 0 ∨
        e.s.ops.all (fun o => o.stamp != f.c.stamp || o.cls != w.hints.bump.val) = true)
    · dsimp only [Course.afterIssue]
      rw [if_pos hk, if_neg, Nat.add_zero]
      rintro ⟨rfl, hx⟩
      rcases hk with ⟨hk1, hk2⟩
      rcases hk2 with hk2 | hk2
      · omega
      · rcases hx with hx | ⟨o, ho, h1, h2⟩
        · exact hx hk1
        · have := List.all_eq_true.mp hk2 o ho
          simp [h1, h2, hn] at this
    · dsimp only [Course.afterIssue]
      rw [if_neg hk, Counts.read_write _ _ _ _ hn1 hn5]
      by_cases hb : n = w.hints.bump.val
      · rw [if_pos hb, if_pos, hb]
        refine ⟨hb, ?_⟩
        by_cases hh : e.kind = .hint
        · right
          have hall : ¬ (e.s.ops.all (fun o => o.stamp != f.c.stamp || o.cls != w.hints.bump.val) = true) := fun hx =>
            hk ⟨hh, .inr hx⟩
          simp only [List.all_eq_true, not_forall] at hall
          obtain ⟨o, ho, hx⟩ := hall
          simp at hx
          exact ⟨o, ho, by rw [hn]; exact hx.1, by rw [hb]; exact hx.2⟩
        · exact .inl hh
      · rw [if_neg hb, if_neg (fun hx => hb hx.1), Nat.add_zero]

/-- The counters and debits that an issue leaves. -/
theorem State.issued_cost (s : State) (f : Frag) (w : Fields) (e : Effect) :
    get 0 (s.issued f w e).counters (0x10 * 2048 + f.core) = get 0 s.counters (0x10 * 2048 + f.core) + 1 ∧
    ∀ a, ((s.issued f w e).ctx a).debit =
      (s.ctx a).debit + if a = f.asid ∧ (s.ctx a).eon = true then energyCost w.hints.energy.val else 0 := by
  have hi : (s.issued f w e).counters = (s.count 0x10 f.core 1).counters ∧ (s.issued f w e).ctxs =
      (if (s.ctx f.asid).eon then s.mapCtx f.asid (fun c => { c with debit := c.debit + energyCost w.hints.energy.val }) else s).ctxs := by
    unfold State.issued State.mapCourseOf
    dsimp only
    have hc : (s.count 0x10 f.core 1).ctx f.asid = s.ctx f.asid := rfl
    rw [hc]
    split <;> split <;> exact ⟨rfl, rfl⟩
  refine ⟨?_, fun a => ?_⟩
  · rw [hi.1]
    simp [State.count, get_assign]
  · have key : ∀ t u : State, t.ctxs = u.ctxs → t.ctx a = u.ctx a := fun _ _ h => by unfold State.ctx; rw [h]
    rw [key _ _ hi.2]
    split
    · rename_i he
      by_cases ha : a = f.asid
      · subst ha; simp [he]
      · simp [ha]
    · rename_i he
      by_cases ha : a = f.asid
      · subst ha; simp [he]
      · simp [ha]

theorem State.finish_cost (s : State) (f : Frag) (w : Fields) (e : Effect) :
    get 0 (s.finish f w e).counters (0x10 * 2048 + f.core) = get 0 s.counters (0x10 * 2048 + f.core) + 1 ∧
    ∀ a, ((s.finish f w e).ctx a).debit =
      (s.ctx a).debit + if a = f.asid ∧ (s.ctx a).eon = true then energyCost w.hints.energy.val else 0 := by
  have hr : ∀ t : State, (t.replay f e.arith).counters = t.counters ∧ (t.replay f e.arith).ctxs = t.ctxs := by
    intro t; unfold State.replay State.mapCourseOf
    split
    · dsimp only; split <;> exact ⟨rfl, rfl⟩
    · exact ⟨rfl, rfl⟩
  have hs : ∀ t : State, (t.start f w e).counters = t.counters ∧ (t.start f w e).ctxs = t.ctxs := by
    intro t; unfold State.start State.mapCourseOf State.send
    dsimp only
    split
    · exact ⟨rfl, rfl⟩
    · split <;> split <;> exact ⟨rfl, rfl⟩
  have key : ∀ (t u : State) (a : Nat), t.ctxs = u.ctxs → t.ctx a = u.ctx a := fun _ _ _ h => by unfold State.ctx; rw [h]
  obtain ⟨h1, h2⟩ := s.issued_cost f w e
  refine ⟨?_, fun a => ?_⟩
  · rw [State.finish, (hr _).1, (hs _).1, h1]
  · rw [← h2 a, State.finish, key _ _ a ((hr _).2.trans (hs _).2)]

/-- What the table of a course is after an issue that moves its pc. -/
theorem Course.steps_advanced {c c' : Course} (f : Frag) (e : Effect) (hl : (lookup? c.entries f.entry).isSome = true)
    (he : c'.entries = c.advanced f e) (hm : e.moved = false) :
    c.Steps c' f.entry (e.pc.getD (addPc f.pc 12)) := by
  obtain ⟨x, hx⟩ := Option.isSome_iff_exists.mp hl
  refine ⟨?_, fun n hn => ?_⟩
  · rw [he, Course.advanced, hm, if_neg (by simp), get, lookup?_adjust, if_pos rfl, get, hx]; rfl
  · rw [he, Course.advanced, hm, if_neg (by simp), get, lookup?_adjust, if_neg hn]; rfl

theorem State.beside_issued (s : State) (f : Frag) (w : Fields) (e : Effect) : s.Beside (s.issued f w e) f := by
  unfold State.issued
  dsimp only
  refine State.Beside.trans ?_ (State.beside_mapCourseOf _ f _ _)
  refine State.Beside.trans ?_ (State.beside_starved _ f _ _)
  split
  · exact (State.beside_count s f _).trans (State.beside_debit _ f _ _)
  · exact State.beside_count s f _

theorem State.beside_replay (s : State) (f : Frag) (b : Bool) : s.Beside (s.replay f b) f := by
  unfold State.replay
  split
  · exact (State.beside_free s f _).trans (State.beside_mapCourseOf _ f _ _)
  · exact .refl s f

/-- A word that sends nothing leaves everything beside its course as it was. -/
theorem State.beside_start (s : State) (f : Frag) (w : Fields) (e : Effect) (h : e.kind.traffic = none) :
    s.Beside (s.start f w e) f := by
  unfold State.start
  dsimp only
  split
  · exact .refl s f
  · rw [show s.send f.core e.kind = s by unfold State.send; rw [h]]
    refine State.Beside.trans (State.beside_ops s f _ ?_) (State.beside_mapCourseOf _ f _ _)
    intro o ho _
    exact List.mem_append_left _ ho

theorem State.beside_finish (s : State) (f : Frag) (w : Fields) (e : Effect) (h : e.kind.traffic = none) :
    s.Beside (s.finish f w e) f :=
  ((State.beside_issued s f w e).trans (State.beside_start _ f w e h)).trans (State.beside_replay _ f _)

/-! ### Words that send -/

theorem State.Beside.around {s t : State} {f : Frag} (h : s.Beside t f) : s.Around t f := by
  refine ⟨h.rest, h.counters, fun k => ?_, h.courses, h.ctxs, h.going⟩
  rw [h.cores k]

theorem State.Around.trans {s t u : State} {f : Frag} (h : s.Around t f) (h' : t.Around u f) : s.Around u f := by
  refine ⟨?_, fun k hk => ?_, fun k => ?_, fun k j hkj => ?_, fun a => ?_, fun o ho hd => h'.going o (h.going o ho hd) hd⟩
  · rw [h'.rest, h.rest]
  · rw [h'.counters k hk, h.counters k hk]
  · rw [h'.cores k, h.cores k]
  · rw [h'.courses k j hkj, h.courses k j hkj]
  · rw [h'.ctxs a, h.ctxs a]

theorem State.around_send (s : State) (f : Frag) (core : Nat) (k : OpKind) : s.Around (s.send core k) f := by
  refine ⟨?_, fun n _ => ?_, fun j => ?_, fun j i _ => State.course?_send s core k j i, fun a => ?_, fun o ho _ => ?_⟩
  · unfold State.send; split <;> rfl
  · unfold State.send; split <;> rfl
  · unfold State.send
    split
    · by_cases h : j = core <;> simp [h, State.sendClass]
    · rfl
  · unfold State.send; split <;> rfl
  · unfold State.send; split <;> exact ho

theorem State.around_start (s : State) (f : Frag) (w : Fields) (e : Effect) : s.Around (s.start f w e) f := by
  unfold State.start
  dsimp only
  split
  · exact (State.Beside.refl s f).around
  · refine State.Around.trans (State.around_send s f f.core e.kind) (State.Beside.around ?_)
    refine State.Beside.trans (State.beside_ops _ f _ ?_) (State.beside_mapCourseOf _ f _ _)
    intro o ho _
    have : (s.send f.core e.kind).ops = s.ops := by unfold State.send; split <;> rfl
    rw [this] at ho
    exact List.mem_append_left _ ho

theorem State.around_finish (s : State) (f : Frag) (w : Fields) (e : Effect) : s.Around (s.finish f w e) f :=
  ((State.beside_issued s f w e).around.trans (State.around_start _ f w e)).trans (State.beside_replay _ f _).around

/-- The operation that a word starts is in flight after its issue. -/
theorem State.finish_going (s : State) (f : Frag) (w : Fields) (e : Effect) (h : e.kind ≠ .hint) :
    ∃ o ∈ (s.finish f w e).ops, o.id = f.op ∧ o.kind = e.kind ∧ o.core = f.core ∧ o.slot = f.slot ∧ o.stamp = f.c.stamp ∧
      o.asid = f.asid ∧ o.done = false ∧ o.inCore = false := by
  have key : ∃ o ∈ ((s.issued f w e).start f w e).ops, o.id = f.op ∧ o.kind = e.kind ∧ o.core = f.core ∧ o.slot = f.slot ∧
      o.stamp = f.c.stamp ∧ o.asid = f.asid ∧ o.done = false ∧ o.inCore = false := by
    unfold State.start
    dsimp only
    rw [if_neg (by rintro ⟨h', _⟩; exact h h')]
    let o : Op := { id := f.op, core := f.core, slot := f.slot, stamp := f.c.stamp, entry := f.entry, team := f.c.team, grid := f.c.grid,
                    asid := f.asid, strict := f.c.strict && e.loads, sym := w.hints.sym, cls := w.hints.bump.val,
                    kind := e.kind, done := e.kind = .hint, shared := e.shared, at_ := (s.issued f w e).clock }
    have hd : o.done = false := by simp [o, h]
    refine ⟨o, ?_, rfl, rfl, rfl, rfl, rfl, rfl, hd, rfl⟩
    rw [State.mapCourseOf_ops]
    exact List.mem_append_right _ (List.mem_singleton.mpr rfl)
  obtain ⟨o, ho, h1, h2, h3, h4, h5, h6, h7, h8⟩ := key
  exact ⟨o, (State.beside_replay _ f _).going o ho h7, h1, h2, h3, h4, h5, h6, h7, h8⟩

/-! ### Issue -/

theorem State.frag_spec {s : State} {w : Fields} {f : Frag} (h : s.frag w = some f) :
    s.course? f.core f.slot = some f.c ∧ get {} f.c.entries f.entry =
      { (get {} f.c.entries f.entry) with valid := true, pc := f.pc, mask := f.active } ∧
      f.exec = f.active &&& (get {} f.c.entries f.entry).began.getD (f.c.guard w) ∧ f.asid = (s.grid f.c.grid).asid ∧
      f.op = s.stamp ∧ f.token = (f.c.token || s.tokenStarts f.c) := by
  unfold State.frag at h
  split at h
  · simp at h
  · rename_i c hc
    dsimp only at h
    split at h
    · rename_i hv
      have := Option.some.inj h
      subst this
      refine ⟨hc, ?_, rfl, rfl, rfl, rfl⟩
      show get {} c.entries s.issuer.entry = _
      cases hg : get {} c.entries s.issuer.entry
      rw [hg] at hv
      dsimp only at hv
      subst hv
      rfl
    · simp at h

/-- A word issues with the effect that its meaning gives. -/
theorem issueWord_ok {s : State} {w : Fields} {f : Frag} {body : Frag → State → Except Stop Effect} {e : Effect}
    (h : s.Ready w f) (hb : body f { s with stamp := s.stamp + 1 } = .ok e) :
    issueWord w s body = .next (e.s.finish f w e) := by
  unfold issueWord
  rw [h.frag]
  simp only [h.free, Bool.false_eq_true, if_false, h.lanes, h.sym, hb]

theorem Frag.lookup {s : State} {w : Fields} {f : Frag} (h : s.frag w = some f) :
    lookup? f.c.entries f.entry = some (get {} f.c.entries f.entry) := by
  obtain ⟨-, he, -, -, -, -⟩ := State.frag_spec h
  have hval : (get {} f.c.entries f.entry).valid = true := by rw [he]
  unfold get at hval ⊢
  cases hl : lookup? f.c.entries f.entry with
  | none => rw [hl] at hval; simp at hval
  | some x => rfl

/-- What an issue costs, and its course, where the word's meaning leaves clock, counters, contexts and operations as they are. -/
theorem State.billed_finish {s : State} {f : Frag} {w : Fields} {e : Effect} {c : Course} (sent : Bool)
    (h : e.s.course? f.core f.slot = some c) (hn : c.stamp = f.c.stamp) (hm : e.moved = false)
    (hl : (lookup? c.entries f.entry).isSome = true)
    (hs : e.s = { s with cores := e.s.cores, stamp := e.s.stamp, free := e.s.free }) (hv : (e.s.core f.core).mv = (s.core f.core).mv)
    (hk : e.kind ≠ .hint ↔ sent = true) :
    ∃ c', (e.s.finish f w e).course? f.core f.slot = some c' ∧ s.Billed (e.s.finish f w e) f w c c' sent ∧
      c.Booked c' f.entry (e.pc.getD (addPc f.pc 12)) := by
  obtain ⟨c', h1, h2, h3, h4, h5, h6, h7, h8⟩ := State.course?_finish (w := w) h hn
  obtain ⟨k1, k2⟩ := State.finish_cost e.s f w e
  have hclock : e.s.clock = s.clock := by rw [hs]
  have hctx : e.s.ctx = s.ctx := by rw [hs]; rfl
  have hcount : e.s.counters = s.counters := by rw [hs]
  have hops : e.s.ops = s.ops := by rw [hs]
  have htok : e.s.tokenStarts c = s.tokenStarts c := by rw [hs]; rfl
  refine ⟨c', h1, ⟨?_, ?_, ?_, ?_, ?_, ?_, ?_⟩, h3, Course.steps_advanced f e hl h2 hm⟩
  · rw [k1, hcount]
  · intro a; rw [k2 a, hctx]
  · rw [h4, hclock]
  · intro hy; rw [h5 hy, hclock]
  · rw [h6, htok]
  · intro hmv; exact h7 (by rw [hv]; exact hmv)
  · intro n hn1 hn5
    rw [h8 n hn1 hn5, hops]
    congr 1
    exact if_congr (and_congr_right' (or_congr_left hk)) rfl rfl

/-- A word that starts an operation, and whose meaning leaves the state as it is but for the stamp, is sent. -/
theorem issueWord_sent {s : State} {w : Fields} {f : Frag} {body : Frag → State → Except Stop Effect} {e : Effect}
    (h : s.Ready w f) (hb : body f { s with stamp := s.stamp + 1 } = .ok e) (hs : e.s = { s with stamp := s.stamp + 1 })
    (hk : e.kind ≠ .hint) (hpc : e.pc = none) (hm : e.moved = false) :
    ∃ t c, issueWord w s body = .next t ∧ s.Sent t f w e.kind c := by
  obtain ⟨hc, he, -, -, hop, -⟩ := State.frag_spec h.frag
  have h1 : e.s.course? f.core f.slot = some f.c := by rw [hs]; exact hc
  obtain ⟨c', hc', hbl, hbk⟩ := State.billed_finish (s := s) (w := w) true h1 rfl hm
    (by rw [Frag.lookup h.frag]; rfl) (by rw [hs]) (by rw [hs]; rfl) ⟨fun _ => rfl, fun _ => hk⟩
  rw [hpc] at hbk
  refine ⟨_, c', issueWord_ok h hb, ?_, hbl, hc', hbk, ?_, ?_⟩
  · have := State.around_finish e.s f w e
    rw [hs] at this ⊢
    exact (State.beside_stamp s f _).around.trans this
  · rw [hbk.table.own]
    show (get {} f.c.entries f.entry).mask = f.active
    rw [he]
  · rw [← hop]; exact State.finish_going e.s f w e hk

/-- A word that starts no operation that sends, and changes only its own course. -/
theorem issueWord_moved {s : State} {w : Fields} {f : Frag} {body : Frag → State → Except Stop Effect} {e : Effect}
    {g : Course → Course} (h : s.Ready w f) (hb : body f { s with stamp := s.stamp + 1 } = .ok e)
    (hs : e.s = { s with stamp := s.stamp + 1 }.course f g) (hg : (g f.c).stamp = f.c.stamp)
    (hge : (g f.c).entries = f.c.entries) (hk : e.kind = .hint) (hm : e.moved = false) :
    ∃ t c, issueWord w s body = .next t ∧ s.Moved t f w (g f.c) c (e.pc.getD (addPc f.pc 12)) := by
  obtain ⟨hc, he, -, -, -, -⟩ := State.frag_spec h.frag
  have h1 : e.s.course? f.core f.slot = some (g f.c) := by
    rw [hs, State.course, State.course?_mapCourse, if_pos ⟨rfl, rfl⟩,
      show State.course? { s with stamp := s.stamp + 1 } f.core f.slot = some f.c from hc]
    rfl
  obtain ⟨c', hc', hbl, hbk⟩ := State.billed_finish (s := s) (w := w) false h1 hg hm
    (by rw [hge, Frag.lookup h.frag]; rfl) (by rw [hs]; rfl)
    (by rw [hs, State.course, State.core_mapCourse]; rfl) ⟨fun hx => absurd hk hx, fun hx => by simp at hx⟩
  refine ⟨_, c', issueWord_ok h hb, ?_, hbl, hc', hbk, ?_⟩
  · have := State.beside_finish e.s f w e (by rw [hk]; rfl)
    rw [hs] at this ⊢
    exact ((State.beside_stamp s f _).trans (State.beside_mapCourse _ f g)).trans this
  · rw [hbk.table.own, hge]
    show (get {} f.c.entries f.entry).mask = f.active
    rw [he]

/-- What a word that issues and waits leaves (R129, R165). -/
theorem State.block_stood {s : State} {f : Frag} {w : Fields} (h : s.course? f.core f.slot = some f.c)
    (hl : (lookup? f.c.entries f.entry).isSome = true) : ∃ c, s.Stood (s.block f w) f w c := by
  let e : Effect := { s, moved := true }
  let mark (c : Course) : Course := c.mapEntry f.entry (fun e => { e with began := some f.exec })
  let t := (s.issued f w e).course f mark
  let d := mark (f.c.afterIssue s f w e)
  have ht : t.course? f.core f.slot = some d := by
    show State.course? (State.mapCourse _ _ _ _) _ _ = _
    rw [State.course?_mapCourse, if_pos ⟨rfl, rfl⟩, State.course?_issued f w e h rfl]
    rfl
  have ha : s.Beside t f := (State.beside_issued s f w e).trans (State.beside_mapCourse _ f _)
  obtain ⟨k1, k2⟩ := s.issued_cost f w e
  obtain ⟨x, hx⟩ := Option.isSome_iff_exists.mp hl
  have hent : ∀ n, get {} d.entries n =
      if n = f.entry then { get {} f.c.entries f.entry with passed := 0, began := some f.exec } else get {} f.c.entries n := by
    intro n
    show get {} (adjust (adjust f.c.entries f.entry _) f.entry _) n = _
    by_cases hn : n = f.entry
    · simp [get, lookup?_adjust, hn, hx]
    · simp [get, lookup?_adjust, hn]
  have build : ∀ (u : State) (c : Course), u.course? f.core f.slot = some c → s.Around u f →
      get 0 u.counters (0x10 * 2048 + f.core) = get 0 s.counters (0x10 * 2048 + f.core) + 1 →
      (∀ a, (u.ctx a).debit = (s.ctx a).debit + if a = f.asid ∧ (s.ctx a).eon = true then energyCost w.hints.energy.val else 0) →
      c = { d with counts := c.counts } →
      (∀ n, 1 ≤ n → n ≤ 5 → c.counts.read n = f.c.counts.read n + if n = w.hints.bump.val then 1 else 0) → s.Stood u f w c := by
    intro u c hu hau h1 h2 hc hn
    refine ⟨hau, ⟨h1, h2, by rw [hc]; rfl, fun hy => ?_, by rw [hc]; rfl, fun _ => by rw [hc]; rfl, fun n a b => ?_⟩, hu,
      by rw [hc]; rfl, by rw [hc]; simpa using hent f.entry, fun n hne => by rw [hc]; simpa [hne] using hent n⟩
    · rw [hc]
      show (if (w.hints.yield || e.yield) = true then some s.clock else none) = _
      rw [hy]; rfl
    · rw [hn n a b]; simp
  unfold State.block
  dsimp only
  split
  · rename_i h0
    refine ⟨d, build t d ht ha.around k1 k2 rfl fun n hn _ => ?_⟩
    rw [if_neg (by omega)]
    rfl
  · refine ⟨{ d with counts := d.counts.write w.hints.bump.val (d.counts.read w.hints.bump.val + 1) }, build _ _ ?_ ?_ k1 k2 rfl ?_⟩
    · show State.course? (State.mapCourse _ _ _ _) _ _ = _
      rw [State.course?_mapCourse, if_pos ⟨rfl, rfl⟩]
      show ((t.course? f.core f.slot).map _) = _
      rw [ht]; rfl
    · exact (ha.trans ((State.beside_ops t f _ (fun o ho _ => List.mem_append_left _ ho)).trans
        (State.beside_mapCourse _ f _))).around
    · intro n hn1 hn5
      show (Counts.write _ _ _).read n = _
      rw [Counts.read_write _ _ _ _ hn1 hn5]
      by_cases hb : n = w.hints.bump.val
      · rw [if_pos hb, if_pos hb, hb]; rfl
      · rw [if_neg hb, if_neg hb]; rfl

/-- A word traps at issue for the cause that its meaning gives. -/
theorem issueWord_trap {s : State} {w : Fields} {f : Frag} {body : Frag → State → Except Stop Effect} {t : Trap}
    (h : s.Ready w f) (hb : body f { s with stamp := s.stamp + 1 } = .error (.trap t)) :
    issueWord w s body = .next (s.takeTrap f.core f.slot f.entry t) := by
  unfold issueWord
  rw [h.frag]
  simp only [h.free, Bool.false_eq_true, if_false, h.lanes, h.sym, hb]

/-- A word never is refused, and it faults only where no fragment stands. -/
theorem issueWord_next {s : State} {w : Fields} {f : Frag} (body : Frag → State → Except Stop Effect)
    (h : s.frag w = some f) : ∃ t, issueWord w s body = .next t := by
  unfold issueWord
  rw [h]
  dsimp only
  split
  · exact ⟨_, rfl⟩
  · split
    · exact ⟨_, rfl⟩
    · split
      · exact ⟨_, rfl⟩
      · split <;> exact ⟨_, rfl⟩

end Sys2Proof.Machine
end

