-- ==== Sys2Proof/Laws/Slices.lean ====
section
/-! SUPPORT. What the operations on the L2 slices change, once for each: the slices with the copies of other dies and the order of their
use, the directory and the victim buffers, the deduplication, counters and the model's own counts, and nothing else. -/

namespace Sys2Proof.Machine

/-- A change of the slices alone. -/
def State.Cached (s t : State) : Prop :=
  t = { s with l2 := t.l2, copies := t.copies, uses := t.uses, kept := t.kept, directory := t.directory, victims := t.victims,
               dedup := t.dedup, shared := t.shared, hashes := t.hashes, softErrors := t.softErrors, counters := t.counters,
               stamp := t.stamp, free := t.free }

theorem State.Cached.refl (s : State) : s.Cached s := rfl
theorem State.Cached.trans {s t u : State} (h : s.Cached t) (h' : t.Cached u) : s.Cached u := by
  unfold State.Cached at *; rw [h', h]
theorem State.Cached.mem {s t : State} (h : s.Cached t) : t.mem = s.mem := by rw [h]
theorem State.Cached.poison {s t : State} (h : s.Cached t) : t.poison = s.poison := by rw [h]
theorem State.Cached.cores {s t : State} (h : s.Cached t) : t.cores = s.cores := by rw [h]
theorem State.Cached.ops {s t : State} (h : s.Cached t) : t.ops = s.ops := by rw [h]

theorem State.cached_release (s : State) (l : Nat) : s.Cached (s.releaseCopy l) := by
  unfold State.releaseCopy
  split
  · rfl
  · split
    · rfl
    · dsimp only; split
      · split <;> rfl
      · rfl

theorem State.cached_fresh (s : State) (l k a : Nat) (d : List Byte) : s.Cached (s.freshCopy l k a d) := rfl

theorem State.cached_deduplicate (s : State) (l a : Nat) : s.Cached (s.deduplicate l a) := by
  unfold State.deduplicate
  dsimp only
  split
  · exact (s.cached_release l).trans (State.cached_fresh _ _ _ _ _)
  · split
    · split
      · exact (s.cached_release l).trans rfl
      · exact (s.cached_release l).trans (State.cached_fresh _ _ _ _ _)
    · exact (s.cached_release l).trans rfl

theorem State.cached_toDram (s : State) (l : Nat) : s.Cached (s.toDram l) := by
  unfold State.toDram
  extract_lets u
  have hu : s.Cached u := rfl
  split
  · exact hu.trans (u.cached_deduplicate l _)
  · exact hu

theorem State.cached_evict (s : State) (die l : Nat) : s.Cached (s.evictLine die l) := by
  unfold State.evictLine
  extract_lets u away v x
  have hu : s.Cached u := rfl
  have ha : ∀ v, State.Cached v (away v) := fun v => by
    show State.Cached v (if v.writesAway die l then _ else v); split <;> rfl
  refine hu.trans ?_
  split
  · refine State.Cached.trans (t := x) ((ha u).trans ?_) rfl
    show State.Cached v (if _ then v.toDram l else v); split
    · exact v.cached_toDram l
    · rfl
  · split
    · exact (ha u).trans rfl
    · rfl

theorem State.cached_evictAll (die : Nat) (ls : List Nat) (s : State) :
    s.Cached (ls.foldl (fun (s : State) l => s.evictLine die l) s) := by
  induction ls generalizing s with
  | nil => rfl
  | cons p ps ih => exact (s.cached_evict die p).trans (ih _)

theorem State.cached_roomInSet (die slice i : Nat) (new : List Nat) (k : Nat) {s t : State}
    (h : State.roomInSet die slice i new k s = some t) : s.Cached t := by
  induction k generalizing s with
  | zero => simp [State.roomInSet] at h
  | succ k ih =>
    unfold State.roomInSet at h
    split at h
    · cases h; rfl
    · dsimp only at h
      split at h
      · cases h; rfl
      · split at h
        · exact (State.cached_evictAll die _ s).trans (ih h)
        · simp at h

theorem State.cached_roomForLine {s t : State} {die l : Nat} (h : s.roomForLine die l = some t) : s.Cached t :=
  State.cached_roomInSet _ _ _ _ _ h

theorem State.cached_used (s : State) (die l p : Nat) : s.Cached (s.used die l p) := rfl

theorem State.cached_l2Put (s : State) (l : Nat) (st : Mesi) (p : Nat) : s.Cached (s.l2Put l st p) := by
  unfold State.l2Put
  dsimp only
  split
  · rename_i u hu
    exact (State.cached_roomForLine hu).trans rfl
  · refine State.Cached.trans (t := if (homeOf (l * 128)).package && st == .m then s.toDram l else s) ?_ rfl
    split
    · exact s.cached_toDram l
    · rfl

theorem State.cached_l2Fill (s : State) (l p : Nat) : s.Cached (s.l2Fill l p) := by
  unfold State.l2Fill
  split
  · exact State.Cached.trans (t := { s with free := s.free + 1 }) rfl (State.cached_l2Put _ _ _ _)
  · exact s.cached_l2Put _ _ _

theorem State.cached_countMiss (s : State) (l : Nat) : s.Cached (s.countMiss l) := by
  unfold State.countMiss; split <;> rfl

theorem State.cached_l2Use (s : State) (l p : Nat) : s.Cached (s.l2Use l p) := by
  unfold State.l2Use; split <;> rfl

theorem State.cached_l2Read (s : State) (l p : Nat) : s.Cached (s.l2Read l p) := by
  unfold State.l2Read
  split
  · exact s.cached_l2Use l p
  · exact (s.cached_countMiss l).trans (State.cached_l2Fill _ _ _)

theorem State.cached_l2Reads (ls : List Nat) (s : State) : s.Cached (s.l2Reads ls) := by
  unfold State.l2Reads
  induction ls generalizing s with
  | nil => rfl
  | cons l ls ih =>
    refine State.Cached.trans (t := if s.cached (l * 128) then s.l2Read l 0 else s) ?_ (ih _)
    split
    · exact s.cached_l2Read l 0
    · rfl

theorem State.cached_takeCopy (s : State) (l : Nat) : s.Cached (s.takeCopy l) := rfl
theorem State.cached_setEntry (s : State) (l : Nat) (e : BitVec 10) : s.Cached (s.setEntry l e) := rfl
theorem State.cached_dropCopies (s : State) (l : Nat) : s.Cached (s.dropCopies l) := rfl

theorem State.cached_readCopy (s : State) (die l : Nat) : s.Cached (s.readCopy die l) := by
  unfold State.readCopy
  dsimp only
  split
  · split <;> rfl
  · split
    · rfl
    · split
      · rfl
      · split
        · rfl
        · rename_i u hu
          exact (show s.Cached ((s.takeCopy l).setEntry l _) from rfl).trans ((State.cached_roomForLine hu).trans rfl)

end Sys2Proof.Machine
end

