-- ==== Sys2Proof/Laws/Memory.lean ====
section
/-! SUPPORT. What every operation on memory does: the canonical form stays, the written bytes read as written, every other byte
reads as before. -/

namespace Sys2Proof.Machine

@[simp] theorem State.noteCode_mem (s : State) (pa n : Nat) : (s.noteCode pa n).mem = s.mem := by
  unfold State.noteCode; split <;> rfl
@[simp] theorem State.noteCode_cores (s : State) (pa n : Nat) : (s.noteCode pa n).cores = s.cores := by
  unfold State.noteCode; split <;> rfl
@[simp] theorem State.noteCode_poison (s : State) (pa n : Nat) : (s.noteCode pa n).poison = s.poison := by
  unfold State.noteCode; split <;> rfl

theorem State.writeByte_wf {s : State} (h : Memory.wf s.mem) (pa : Nat) (x : Byte) : Memory.wf (s.writeByte pa x).mem :=
  canonical_put _ h pa x

theorem State.writeBytes_mem (s : State) (pa : Nat) (bs : List Byte) :
    (s.writeBytes pa bs).mem = putAll emptyByte s.mem pa bs := rfl

theorem State.writeBytes_wf {s : State} (h : Memory.wf s.mem) (pa : Nat) (bs : List Byte) :
    Memory.wf (s.writeBytes pa bs).mem := canonical_putAll _ bs h pa

/-- A read after a write: the byte written where it lies among them, else the byte before. -/
theorem State.readByte_writeBytes (s : State) (pa : Nat) (bs : List Byte) (a : Nat) :
    (s.writeBytes pa bs).readByte a =
      if pa ≤ a ∧ a < pa + bs.length then bs.getD (a - pa) emptyByte else s.readByte a := by
  by_cases h : pa ≤ a ∧ a < pa + bs.length
  · rw [if_pos h]; simpa [State.readByte, State.writeBytes_mem, h] using get_putAll emptyByte bs s.mem pa a
  · rw [if_neg h]
    exact get_putAll_outside emptyByte bs s.mem (by omega)

theorem State.readBytes_writeBytes (s : State) (pa : Nat) (bs : List Byte) :
    (s.writeBytes pa bs).readBytes pa bs.length = bs := getAll_putAll emptyByte bs s.mem pa

theorem State.applyWrite_wf {s : State} (h : Memory.wf s.mem) (pa : Nat) (bs : List Byte) (whole : List Nat) :
    Memory.wf (s.applyWrite pa bs whole).mem := by
  unfold State.applyWrite
  split
  · split
    · exact State.writeBytes_wf (s := s.clearPoison (lineOf pa)) h pa bs
    · exact h
  · exact State.writeBytes_wf h pa bs

/-- A write to a line without a poison mark is performed. -/
theorem State.applyWrite_clean {s : State} {pa : Nat} (h : s.poisoned pa = false) (bs : List Byte) (whole : List Nat) :
    s.applyWrite pa bs whole = s.writeBytes pa bs := by
  unfold State.applyWrite
  rw [if_neg]
  simpa [State.poisoned] using h

theorem State.poisonLine_mem (s : State) (line : Nat) : (s.poisonLine line).mem =
    if s.poison.contains line then s.mem else eraseRange s.mem (line * 128) (line * 128 + 128) := by
  unfold State.poisonLine
  split <;> simp [State.count_mem]

theorem State.poisonLine_wf {s : State} (h : Memory.wf s.mem) (line : Nat) : Memory.wf (s.poisonLine line).mem := by
  rw [State.poisonLine_mem]
  split
  · exact h
  · exact canonical_eraseRange _ h _ _

/-- A poisoned line is marked, and reads as zeros where it was not marked before (R367). -/
theorem State.poisonLine_reads (s : State) (line a : Nat) (h : s.poison.contains line = false) :
    (s.poisonLine line).readByte a = if lineOf a = line then 0 else s.readByte a := by
  unfold State.readByte
  rw [State.poisonLine_mem, h, if_neg (by simp), get_eraseRange]
  by_cases ha : lineOf a = line
  · rw [if_pos (by unfold lineOf at ha; omega), if_pos ha]; rfl
  · rw [if_neg (by unfold lineOf at ha; omega), if_neg ha]

/-- A change of the slices, of the WAITADDR that watch a line and of the writes noted as waiting: what a write at its home leaves
besides its bytes. -/
def State.Homed (s t : State) : Prop :=
  t = { s with l2 := t.l2, copies := t.copies, uses := t.uses, kept := t.kept, directory := t.directory, victims := t.victims,
               dedup := t.dedup, shared := t.shared, hashes := t.hashes, softErrors := t.softErrors, counters := t.counters,
               stamp := t.stamp, free := t.free, watches := t.watches, leaseWait := t.leaseWait }

theorem State.Cached.homed {s t : State} (h : s.Cached t) : s.Homed t := by
  unfold State.Homed; rw [h]

theorem State.Homed.trans {s t u : State} (h : s.Homed t) (h' : t.Homed u) : s.Homed u := by
  unfold State.Homed at *; rw [h', h]

theorem State.wakeLine_homed (s : State) (l : Nat) : s.Homed ((s.wakeLine l).endNote l) := rfl

theorem State.writtenWith_homed (s : State) (pa p : Nat) : s.Homed (s.writtenWith pa p) := by
  unfold State.writtenWith
  dsimp only
  refine State.Homed.trans (t := if s.cached pa then (s.dropCopies (lineOf pa)).l2Put (lineOf pa) .m p else s) ?_
    (State.wakeLine_homed _ _)
  split
  · exact ((s.cached_dropCopies _).trans (State.cached_l2Put _ _ _ _)).homed
  · rfl

theorem State.written_mem (s : State) (pa : Nat) : (s.written pa).mem = s.mem := by
  unfold State.written; rw [s.writtenWith_homed pa 0]

theorem State.spreadImage_wf (ps : List (Nat × Nat × Nat)) (bs : List Byte) {s : State} (h : Memory.wf s.mem) :
    Memory.wf (s.spreadImage ps bs).mem := by
  induction ps generalizing s with
  | nil => exact h
  | cons p ps ih =>
    refine ih ?_
    dsimp only
    split
    · exact h
    · rw [State.written_mem]
      exact canonical_putBlock _ h _ _

end Sys2Proof.Machine
end

