-- ==== Sys2Proof/Laws/Traps.lean ====
section
/-! SUPPORT. What taking a trap does, once for every trap (R230 to R233), and what an event of the device answers. -/

namespace Sys2Proof.Machine

/-- An event answers a next state: the one it names, or the state unchanged where it is not enabled. -/
theorem event_next {s : State} {n : Option State} {t : State} :
    event s n = .next t ↔ n = some t ∨ (n = none ∧ t = s) := by
  cases n with
  | none => simp [event, eq_comm]
  | some u => simp [event, eq_comm]

/-- What a handler's entry leaves of the course (R232). -/
def Course.entered (c : Course) (entry : Nat) (t : Trap) (handler va : W64) (info : W32) : Course :=
  let e := get {} c.entries entry
  { c with
    trapCause := t.cause.code
    trapPc := e.pc
    super := true
    saved := some { entry, mask := e.mask, pc := e.pc, frames := (c.framesOf entry).length }
    trapWait := none
    trapVa := if t.cause.reported then va else c.trapVa
    trapInfo := if t.cause.reported then info else c.trapInfo
    entries := adjust c.entries entry (fun e => { e with pc := handler, held := false }) }

/-- The address and lane that a trap reports: its own, or free values where no address raised it (R328). -/
def Trap.reportVa (s : State) (t : Trap) : W64 :=
  match t.site with | some a => BitVec.ofNat 64 a.va | none => Config.openVa s.free
def Trap.reportInfo (s : State) (t : Trap) : W32 :=
  match t.site with | some a => a.info | none => (Config.openInfo s.free).setWidth 32

/-- Entering a handler changes the trapping course alone, and `free` where a value is open. -/
theorem State.enterHandler_spec {s : State} {core slot entry : Nat} {c : Course} (t : Trap) (h : s.course? core slot = some c) :
    s.enterHandler core slot entry t =
      ({ s with free := if t.cause.reported && t.site.isNone then s.free + 1 else s.free } : State).mapCourse core slot
        (fun d => { d with
          trapCause := t.cause.code
          trapPc := (get {} c.entries entry).pc
          super := true
          saved := some { entry, mask := (get {} c.entries entry).mask, pc := (get {} c.entries entry).pc,
                          frames := (d.framesOf entry).length }
          trapWait := none
          trapVa := if t.cause.reported then t.reportVa s else d.trapVa
          trapInfo := if t.cause.reported then t.reportInfo s else d.trapInfo
          entries := adjust d.entries entry
            (fun e => { e with pc := addPc (s.ctx (s.grid c.grid).asid).handler 0, held := false }) }) := by
  unfold State.enterHandler Trap.reportVa Trap.reportInfo
  rw [h]
  dsimp only
  cases t.cause.reported <;> cases t.site <;> rfl

theorem State.enterHandler_course {s : State} {core slot entry : Nat} {c : Course} (t : Trap) (h : s.course? core slot = some c) :
    (s.enterHandler core slot entry t).course? core slot =
      some (c.entered entry t (addPc (s.ctx (s.grid c.grid).asid).handler 0) (t.reportVa s) (t.reportInfo s)) := by
  rw [State.enterHandler_spec t h, State.course?_mapCourse, if_pos ⟨rfl, rfl⟩]
  change ((s.course? core slot).map _) = _
  rw [h]
  rfl

theorem State.enterHandler_others {s : State} {core slot entry : Nat} {c : Course} (t : Trap) (h : s.course? core slot = some c)
    (k j : Nat) (hkj : k ≠ core ∨ j ≠ slot) : (s.enterHandler core slot entry t).course? k j = s.course? k j := by
  rw [State.enterHandler_spec t h, State.course?_mapCourse, if_neg (by omega)]
  rfl

theorem State.enterHandler_mem (s : State) (core slot entry : Nat) (t : Trap) : (s.enterHandler core slot entry t).mem = s.mem := by
  unfold State.enterHandler
  split
  · rfl
  · dsimp only
    split <;> rfl

/-- Everything that taking a trap can do: kill the team where the course is in supervisor state or its context has no
handler, wait for the course's earlier operations, or enter the handler. -/
theorem State.takeTrap_cases {s : State} {core slot : Nat} {c : Course} (entry : Nat) (t : Trap)
    (h : s.course? core slot = some c) :
    let u : State := if t.walkPoison then s.poisonRead (s.grid c.grid).asid 1 else s
    ((c.super = true ∨ (u.ctx (s.grid c.grid).asid).handler = 0) ∧
      s.takeTrap core slot entry t = (u.report (s.grid c.grid).asid
        { kind := 4, code := t.cause.code.toNat, va := (get {} c.entries entry).pc.toNat, grid := (s.grid c.grid).gid,
          core := core, team := (u.team c.team).linear }).killTeam c.team) ∨
    ((c.super = false ∧ (u.ctx (s.grid c.grid).asid).handler ≠ 0) ∧ (u.dropHeld c).outstanding c.stamp = true ∧
      s.takeTrap core slot entry t = (u.dropHeld c).mapCourse core slot (fun d => { d with trapWait := some { entry := entry, trap := t } })) ∨
    ((c.super = false ∧ (u.ctx (s.grid c.grid).asid).handler ≠ 0) ∧ (u.dropHeld c).outstanding c.stamp = false ∧
      s.takeTrap core slot entry t = (u.dropHeld c).enterHandler core slot entry t) := by
  intro u
  unfold State.takeTrap
  rw [h]
  by_cases hk : c.super = true ∨ (u.ctx (s.grid c.grid).asid).handler = 0
  · exact Or.inl ⟨hk, if_pos hk⟩
  · have hs : c.super = false ∧ (u.ctx (s.grid c.grid).asid).handler ≠ 0 := by
      push Not at hk
      exact ⟨by simpa using hk.1, hk.2⟩
    cases ho : (u.dropHeld c).outstanding c.stamp with
    | true => exact Or.inr (Or.inl ⟨hs, rfl, (if_neg hk).trans (if_pos ho)⟩)
    | false => exact Or.inr (Or.inr ⟨hs, rfl, (if_neg hk).trans (if_neg (ne_true_of_eq_false ho))⟩)

end Sys2Proof.Machine
end

