-- ==== Sys2Proof/Laws/Words.lean ====
section
/-! SUPPORT. What an arithmetic word leaves: its results in D, its flags, and nothing else (R70, R77, R86). -/

namespace Sys2Proof.Machine

/-! ### Registers -/

theorem key_inj {n m L K : Nat} (hL : L < 32) (hK : K < 32) : n * 32 + L = m * 32 + K ↔ n = m ∧ L = K := by omega

theorem Course.readV_writeV (c : Course) (n L m K : Nat) (x : W32) (hL : L < 32) (hK : K < 32) :
    (c.writeV n L x).readV m K = if m = n ∧ K = L then x else c.readV m K := by
  simp [Course.readV, Course.writeV, get_assign, key_inj hK hL]

theorem Course.readY_writeY (c : Course) (n L m K : Nat) (x : W32) (hL : L < 32) (hK : K < 32) :
    (c.writeY n L x).readY m K = if m = n ∧ K = L then x else c.readY m K := by
  simp [Course.readY, Course.writeY, get_assign, key_inj hK hL]

theorem Course.readS_writeS (c : Course) (n m : Nat) (x : W32) :
    (c.writeS n x).readS m = if m = n then x else c.readS m := by
  simp [Course.readS, Course.writeS, get_assign]

@[simp] theorem Course.readY_writeV (c : Course) (n L m K : Nat) (x : W32) : (c.writeV n L x).readY m K = c.readY m K := rfl
@[simp] theorem Course.readS_writeV (c : Course) (n L m : Nat) (x : W32) : (c.writeV n L x).readS m = c.readS m := rfl
@[simp] theorem Course.readV_writeY (c : Course) (n L m K : Nat) (x : W32) : (c.writeY n L x).readV m K = c.readV m K := rfl
@[simp] theorem Course.readS_writeY (c : Course) (n L m : Nat) (x : W32) : (c.writeY n L x).readS m = c.readS m := rfl
@[simp] theorem Course.readV_writeS (c : Course) (n m K : Nat) (x : W32) : (c.writeS n x).readV m K = c.readV m K := rfl
@[simp] theorem Course.readY_writeS (c : Course) (n m K : Nat) (x : W32) : (c.writeS n x).readY m K = c.readY m K := rfl

theorem pair_high_low (x : W64) : pair (high32 x) (low32 x) = x := by
  apply BitVec.eq_of_getLsbD_eq
  intro i hi
  simp only [pair, high32, low32, BitVec.getLsbD_append, BitVec.getLsbD_setWidth, BitVec.getLsbD_ushiftRight]
  by_cases h : i < 32
  · simp [h]
  · have h' : i - 32 < 32 := by omega
    simp [h, h', show 32 + (i - 32) = i by omega]

/-! ### One result -/

theorem Course.dest_result (c : Course) (w : Fields) (wide : Bool) (L : Nat) (x : W64) (hd : destOk w = true) (hL : L < 32) :
    (c.result w wide L x).dest w wide L = narrow wide x := by
  unfold Course.result Course.dest narrow
  unfold destOk at hd
  cases h : w.d <;> rw [h] at hd <;> simp at hd
  · cases hs : w.hints.sym <;> cases wide <;>
      simp [Course.writeShadow, Course.writeVal, Course.readVal, Course.readV_writeV, hL,
        Course.readY, Course.writeY, get_assign, pair_high_low]
  · cases wide <;> simp [Course.writeSVal, Course.readSVal, Course.readS_writeS, pair_high_low]

theorem Course.dest_result_other (c : Course) (w : Fields) (wide : Bool) (L K : Nat) (x : W64)
    (hv : ∃ n, w.d = .v n) (hL : L < 32) (hK : K < 32) (h : K ≠ L) :
    (c.result w wide L x).dest w wide K = c.dest w wide K := by
  obtain ⟨n, hn⟩ := hv
  unfold Course.result Course.dest
  rw [hn]
  cases hs : w.hints.sym <;> cases wide <;>
    simp [Course.writeShadow, Course.writeVal, Course.readVal, Course.readV_writeV, hL, hK, h,
      Course.readY, Course.writeY, get_assign, key_inj]

theorem Course.readV_result (c : Course) (w : Fields) (wide : Bool) (L n K : Nat) (x : W64) (hL : L < 32) (hK : K < 32)
    (h : (coversV w wide n && K == L) = false) : (c.result w wide L x).readV n K = c.readV n K := by
  unfold Course.result
  unfold coversV at h
  cases hd : w.d <;> rw [hd] at h <;> try rfl
  · rename_i k
    cases hs : w.hints.sym <;> cases hw : wide <;> simp [hs, hw] at h
    · simp [Course.writeVal, Course.readV_writeV, hL, hK]
      intro h1 h2; exact absurd h2 (h h1.symm)
    · simp only [Course.writeVal, if_true, Bool.false_eq_true, if_false]
      rw [Course.readV_writeV _ _ _ _ _ _ hL hK, Course.readV_writeV _ _ _ _ _ _ hL hK, if_neg, if_neg]
      · rintro ⟨h1, h2⟩; exact h (.inl h1.symm) h2
      · rintro ⟨h1, h2⟩; exact h (.inr h1.symm) h2
    · simp [Course.writeShadow, Course.readV, Course.writeY]
    · simp [Course.writeShadow, Course.readV, Course.writeY]
  · cases hw : wide <;> simp [Course.writeSVal]

theorem Course.readY_result (c : Course) (w : Fields) (wide : Bool) (L n K : Nat) (x : W64) (hL : L < 32) (hK : K < 32)
    (h : (coversY w wide n && K == L) = false) : (c.result w wide L x).readY n K = c.readY n K := by
  unfold Course.result
  unfold coversY at h
  cases hd : w.d <;> rw [hd] at h <;> try rfl
  · rename_i k
    cases hs : w.hints.sym <;> cases hw : wide <;> simp [hs, hw] at h
    · simp [Course.writeVal]
    · simp [Course.writeVal]
    · show (c.writeY _ L _).readY n K = _
      rw [Course.readY_writeY _ _ _ _ _ _ hL hK, if_neg]
      rintro ⟨h1, h2⟩; exact h h1.symm h2
    · show ((c.writeY _ L _).writeY _ L _).readY n K = _
      rw [Course.readY_writeY _ _ _ _ _ _ hL hK, Course.readY_writeY _ _ _ _ _ _ hL hK, if_neg, if_neg]
      · rintro ⟨h1, h2⟩; exact h (.inl h1.symm) h2
      · rintro ⟨h1, h2⟩; exact h (.inr h1.symm) h2
  · cases hw : wide <;> simp [Course.writeSVal]

theorem Course.readS_result (c : Course) (w : Fields) (wide : Bool) (L n : Nat) (x : W64)
    (h : coversS w wide n = false) : (c.result w wide L x).readS n = c.readS n := by
  unfold Course.result
  unfold coversS at h
  cases hd : w.d <;> rw [hd] at h <;> try rfl
  · cases hs : w.hints.sym <;> cases hw : wide <;>
      simp [Course.writeVal, Course.writeShadow, Course.readS, Course.writeY, Course.writeV]
  · rename_i k
    cases hw : wide <;> simp [hw] at h
    · simp [Course.writeSVal, Course.readS_writeS, Ne.symm h]
    · simp [Course.writeSVal, Course.readS_writeS, Ne.symm h.1, Ne.symm h.2]

theorem one_shifted (m j : Nat) (hm : m < 16) : ((1#16) <<< j).getLsbD m = (j == m) := by
  rw [BitVec.getLsbD_shiftLeft]
  by_cases hj : m < j
  · have : (j == m) = false := by simp; omega
    simp [hj, hm, this]
  · obtain ⟨d, rfl⟩ : ∃ d, m = j + d := ⟨m - j, by omega⟩
    by_cases hd : d = 0
    · subst hd; simpa using hm
    · have : (j == j + d) = false := by simp [hd]
      simp [hm, hd, this]

theorem three_shifted (m j : Nat) (hm : m < 16) : ((3#16) <<< j).getLsbD m = (j == m || j + 1 == m) := by
  rw [BitVec.getLsbD_shiftLeft]
  by_cases hj : m < j
  · have h0 : (j == m) = false := by simp; omega
    have h1 : (j + 1 == m) = false := by simp; omega
    simp [hj, hm, h0, h1]
  · obtain ⟨d, rfl⟩ : ∃ d, m = j + d := ⟨m - j, by omega⟩
    have h3 : (3#16).getLsbD d = (d == 0 || d == 1) :=
      (by decide : ∀ d < 16, (3#16).getLsbD d = (d == 0 || d == 1)) d (by omega)
    have e0 : (j == j + d) = (d == 0) := by rw [Bool.eq_iff_iff]; simp
    have e1 : (j + 1 == j + d) = (d == 1) := by rw [Bool.eq_iff_iff, beq_iff_eq, beq_iff_eq]; omega
    rw [e0, e1, ← h3]
    simp [hm]

/-- The proposal mask after a result (R205): a bit for each shadow register that it writes. -/
theorem Course.marks_result (c : Course) (w : Fields) (wide : Bool) (L n K : Nat) (x : W64) (hn : n < 16) :
    (get 0 (c.result w wide L x).propMask K).getLsbD n = ((get 0 c.propMask K).getLsbD n || (coversY w wide n && K == L)) := by
  unfold Course.result coversY
  cases hd : w.d <;> try simp
  · rename_i k
    cases hs : w.hints.sym
    · cases wide <;> simp [Course.writeVal]
    · cases wide <;> simp only [Course.writeShadow, Bool.false_eq_true, if_false, if_true, get_assign]
      · by_cases hK : K = L
        · subst hK; simp [Course.writeY, one_shifted n _ hn]
        · simp [Course.writeY, hK]
      · by_cases hK : K = L
        · subst hK; simp [Course.writeY, three_shifted n _ hn]
        · simp [Course.writeY, hK]

/-! ### Flags -/

theorem Course.readFlags_raise (c : Course) (L K : Nat) (x : BitVec 8) :
    (c.raise L x).readFlags K = if K = L then c.readFlags K ||| x else c.readFlags K := by
  unfold Course.raise
  by_cases h : x = 0
  · subst h; simp
  · rw [if_neg h]
    by_cases hK : K = L
    · subst hK; simp [Course.readFlags, get_assign]
    · simp [Course.readFlags, get_assign, hK]

theorem mem_lanesOf {m : Mask} {L : Nat} : L ∈ lanesOf m ↔ L < 32 ∧ m.getLsbD L = true := by simp [lanesOf]

theorem Course.readFlags_raiseIn (c : Course) (m : Mask) (x : BitVec 8) (K : Nat) (hK : K < 32) :
    (c.raiseIn m x).readFlags K = if m.getLsbD K then c.readFlags K ||| x else c.readFlags K := by
  have key : ∀ (ls : List Nat) (c : Course), (ls.foldl (fun c L => c.raise L x) c).readFlags K =
      if K ∈ ls then c.readFlags K ||| x else c.readFlags K := by
    intro ls
    induction ls with
    | nil => intro c; simp
    | cons a t ih =>
      intro c
      rw [List.foldl_cons, ih, Course.readFlags_raise]
      by_cases h1 : K = a <;> by_cases h2 : K ∈ t <;> simp [h1, h2, BitVec.or_assoc]
  rw [Course.raiseIn, key]
  simp [mem_lanesOf, hK]

/-! ### The results of every lane -/

/-- A course that a result of a word leaves: the strand, shadow and uniform registers, the proposal mask and the flags
may differ. -/
def Course.Resulted (c c' : Course) : Prop :=
  c' = { c with v := c'.v, y := c'.y, propMask := c'.propMask, s := c'.s, flags := c'.flags }

theorem Course.Resulted.refl (c : Course) : c.Resulted c := rfl
theorem Course.Resulted.trans {c d e : Course} (h : c.Resulted d) (h' : d.Resulted e) : c.Resulted e := by
  unfold Course.Resulted at *; rw [h', h]

theorem Course.resulted_result (c : Course) (w : Fields) (wide : Bool) (L : Nat) (x : W64) :
    c.Resulted (c.result w wide L x) := by
  unfold Course.result
  split
  · split
    · unfold Course.writeShadow; dsimp only; split <;> rfl
    · unfold Course.writeVal; split <;> rfl
  · unfold Course.writeSVal; split <;> rfl
  · rfl

theorem Course.resulted_raise (c : Course) (L : Nat) (x : BitVec 8) : c.Resulted (c.raise L x) := by
  unfold Course.raise; split <;> rfl

theorem Course.resulted_raiseIn (c : Course) (m : Mask) (x : BitVec 8) : c.Resulted (c.raiseIn m x) := by
  unfold Course.raiseIn
  induction lanesOf m generalizing c with
  | nil => rfl
  | cons L t ih => exact (c.resulted_raise L x).trans (ih _)

theorem lowest_lt (m : Mask) : lowest m < 32 := by
  unfold lowest
  cases h : (List.range 32).find? (fun L => m.getLsbD L) with
  | none => decide
  | some a => simpa using List.mem_of_find?_eq_some h

theorem lanes_lt {f : Frag} {w : Fields} {L : Nat} (h : L ∈ f.lanes w) : L < 32 := by
  unfold Frag.lanes at h
  split at h
  · rw [List.mem_singleton.mp h]; exact lowest_lt _
  · exact (mem_lanesOf.mp h).1

theorem lanes_nodup (f : Frag) (w : Fields) : (f.lanes w).Nodup := by
  unfold Frag.lanes
  split
  · exact List.nodup_singleton _
  · exact List.nodup_range.filter _

/-- One lane of `Frag.results`. -/
def Frag.oneResult (f : Frag) (w : Fields) (wide : Bool) (fn : Nat → W64 × Flags) (c : Course) (L : Nat) : Course :=
  (c.result w wide L (fn L).1).raiseIn (f.flagLanes w L) (fn L).2

theorem Course.readV_raiseIn (c : Course) (m : Mask) (x : BitVec 8) (n L : Nat) : (c.raiseIn m x).readV n L = c.readV n L := by
  simp [Course.readV]
theorem Course.readY_raiseIn (c : Course) (m : Mask) (x : BitVec 8) (n L : Nat) : (c.raiseIn m x).readY n L = c.readY n L := by
  simp [Course.readY]
theorem Course.readS_raiseIn (c : Course) (m : Mask) (x : BitVec 8) (n : Nat) : (c.raiseIn m x).readS n = c.readS n := by
  simp [Course.readS]

theorem Course.marks_raiseIn (c : Course) (m : Mask) (x : BitVec 8) : (c.raiseIn m x).propMask = c.propMask := by simp

theorem Course.flags_result (c : Course) (w : Fields) (wide : Bool) (L : Nat) (x : W64) : (c.result w wide L x).flags = c.flags := by
  unfold Course.result
  split
  · split <;> simp
  · simp
  · rfl

theorem Course.dest_raiseIn (c : Course) (w : Fields) (wide : Bool) (m : Mask) (x : BitVec 8) (L : Nat) :
    (c.raiseIn m x).dest w wide L = c.dest w wide L := by
  unfold Course.dest Course.readVal Course.readSVal Course.readV Course.readY Course.readS
  simp

theorem results_spec (f : Frag) (w : Fields) (wide : Bool) (fn : Nat → W64 × Flags) (ls : List Nat)
    (hls : ∀ L ∈ ls, L < 32) (hn : ls.Nodup) (hd : destOk w = true) (hone : (∃ n, w.d = .v n) ∨ ls.length ≤ 1) (c : Course) :
    c.Resulted (ls.foldl (f.oneResult w wide fn) c) ∧
    (∀ L ∈ ls, (ls.foldl (f.oneResult w wide fn) c).dest w wide L = narrow wide (fn L).1) ∧
    (∀ L, L < 32 → L ∉ ls → (∃ n, w.d = .v n) → (ls.foldl (f.oneResult w wide fn) c).dest w wide L = c.dest w wide L) ∧
    (∀ n L, L < 32 → (coversV w wide n && ls.contains L) = false → (ls.foldl (f.oneResult w wide fn) c).readV n L = c.readV n L) ∧
    (∀ n L, L < 32 → (coversY w wide n && ls.contains L) = false → (ls.foldl (f.oneResult w wide fn) c).readY n L = c.readY n L) ∧
    (∀ n, coversS w wide n = false → (ls.foldl (f.oneResult w wide fn) c).readS n = c.readS n) ∧
    (∀ L, L < 32 → (ls.foldl (f.oneResult w wide fn) c).readFlags L =
      ls.foldl (fun x K => if (f.flagLanes w K).getLsbD L then x ||| (fn K).2 else x) (c.readFlags L)) ∧
    (∀ n L, n < 16 → (get 0 (ls.foldl (f.oneResult w wide fn) c).propMask L).getLsbD n =
      ((get 0 c.propMask L).getLsbD n || (coversY w wide n && ls.contains L))) := by
  induction ls generalizing c with
  | nil =>
    exact ⟨rfl, by simp, fun _ _ _ _ => rfl, fun _ _ _ _ => rfl, fun _ _ _ _ => rfl, fun _ _ => rfl, fun _ _ => rfl, by simp⟩
  | cons a t ih =>
    have ha : a < 32 := hls a (by simp)
    have ht : ∀ L ∈ t, L < 32 := fun L h => hls L (by simp [h])
    obtain ⟨hna, hnt⟩ := List.nodup_cons.mp hn
    have hone' : (∃ n, w.d = .v n) ∨ t.length ≤ 1 := hone.imp id (fun h => by simp at h; simp [h])
    obtain ⟨i1, i2, i3, i4, i5, i6, i7, i8⟩ := ih ht hnt hone' (f.oneResult w wide fn c a)
    simp only [List.foldl_cons]
    refine ⟨?_, ?_, ?_, ?_, ?_, ?_, ?_, ?_⟩
    · exact ((c.resulted_result w wide a _).trans (Course.resulted_raiseIn _ _ _)).trans i1
    · intro L hL
      rcases List.mem_cons.mp hL with rfl | hL
      · rcases hone with hv | h1
        · rw [i3 L ha hna hv]
          unfold Frag.oneResult
          rw [Course.dest_raiseIn, Course.dest_result c w wide L _ hd ha]
        · have : t = [] := by simpa using h1
          subst this
          unfold Frag.oneResult
          rw [List.foldl_nil, Course.dest_raiseIn, Course.dest_result c w wide L _ hd ha]
      · exact i2 L hL
    · intro L hL hna' hv
      simp only [List.mem_cons, not_or] at hna'
      rw [i3 L hL hna'.2 hv]
      unfold Frag.oneResult
      rw [Course.dest_raiseIn, Course.dest_result_other c w wide a L _ hv ha hL hna'.1]
    · intro n L hL h
      have h1 : (coversV w wide n && t.contains L) = false := by
        cases hc : coversV w wide n <;> simp [hc] at h ⊢; exact h.2
      have h2 : (coversV w wide n && L == a) = false := by
        cases hc : coversV w wide n <;> simp [hc] at h ⊢; exact h.1
      rw [i4 n L hL h1]
      exact (Course.readV_raiseIn _ _ _ _ _).trans (Course.readV_result c w wide a n L _ ha hL h2)
    · intro n L hL h
      have h1 : (coversY w wide n && t.contains L) = false := by
        cases hc : coversY w wide n <;> simp [hc] at h ⊢; exact h.2
      have h2 : (coversY w wide n && L == a) = false := by
        cases hc : coversY w wide n <;> simp [hc] at h ⊢; exact h.1
      rw [i5 n L hL h1]
      exact (Course.readY_raiseIn _ _ _ _ _).trans (Course.readY_result c w wide a n L _ ha hL h2)
    · intro n h
      rw [i6 n h]
      exact (Course.readS_raiseIn _ _ _ _).trans (Course.readS_result c w wide a n _ h)
    · intro L hL
      rw [i7 L hL]
      congr 1
      unfold Frag.oneResult
      rw [Course.readFlags_raiseIn _ _ _ _ hL]
      rw [show (c.result w wide a (fn a).1).readFlags L = c.readFlags L by
        unfold Course.readFlags; rw [Course.flags_result]]
    · intro n L hn
      rw [i8 n L hn]
      unfold Frag.oneResult
      rw [Course.marks_raiseIn, Course.marks_result c w wide a n L _ hn]
      cases coversY w wide n <;> simp [Bool.or_assoc, Bool.beq_eq_decide_eq]

/-! ### Arithmetic words -/

theorem lanes_small {f : Frag} {w : Fields} (hd : destOk w = true) : (∃ n, w.d = .v n) ∨ (f.lanes w).length ≤ 1 := by
  unfold destOk at hd
  cases h : w.d <;> rw [h] at hd <;> simp at hd
  · exact .inl ⟨_, rfl⟩
  · right; simp [Frag.lanes, hd.1]

/-- An arithmetic word writes its results, whatever its function (R70, R77, R86). -/
theorem lanewise_wrote {s : State} {w : Fields} {f : Frag} (h : s.Ready w f) (hd : destOk w = true) (wide : Bool)
    (fn : Frag → State → Nat → W64 × Flags) :
    ∃ t c, issueWord w s (lanewise w wide fn) = .next t ∧ s.Wrote t f w wide (fn f { s with stamp := s.stamp + 1 }) c := by
  obtain ⟨hc, he, -, -, -, -⟩ := State.frag_spec h.frag
  let s1 : State := { s with stamp := s.stamp + 1 }
  let g : Course → Course := f.results w wide (fn f s1)
  obtain ⟨r1, r2, -, r4, r5, r6, r7, r8⟩ := results_spec f w wide (fn f s1) (f.lanes w) (fun L hL => lanes_lt hL)
    (lanes_nodup f w) hd (lanes_small hd) f.c
  have hg : g f.c = (f.lanes w).foldl (f.oneResult w wide (fn f s1)) f.c := rfl
  have h1 : (s1.course f g).course? f.core f.slot = some (g f.c) := by
    unfold State.course
    rw [State.course?_mapCourse, if_pos ⟨rfl, rfl⟩, show s1.course? f.core f.slot = some f.c from hc]; rfl
  have hst : (g f.c).stamp = f.c.stamp := by rw [hg, r1]
  have hge : (g f.c).entries = f.c.entries := by rw [hg, r1]
  let e : Effect := { s := s1.course f g, arith := true }
  obtain ⟨c', hc', hbl, hbk⟩ := State.billed_finish (e := e) (s := s) (w := w) false h1 hst rfl
    (by rw [hge, Frag.lookup h.frag]; rfl) rfl (by
      show ((s1.course f g).core f.core).mv = _
      rw [State.course, State.core_mapCourse]; rfl) ⟨fun hx => absurd rfl hx, fun hx => by simp at hx⟩
  have hb := hbk.rest
  refine ⟨_, c', issueWord_ok h (e := e) rfl, ?_⟩
  have hv : c'.v = (g f.c).v := by rw [hb]
  have hy : c'.y = (g f.c).y := by rw [hb]
  have hs : c'.s = (g f.c).s := by rw [hb]
  have hfl : c'.flags = (g f.c).flags := by rw [hb]
  have hpm : c'.propMask = (g f.c).propMask := by rw [hb]
  have htab : f.c.Steps c' f.entry (addPc f.pc 12) :=
    ⟨by rw [hbk.table.own, hge]; rfl, fun n hn => by rw [hbk.table.others n hn, hge]⟩
  refine ⟨?_, ?_, hc', ⟨?_, htab⟩, ?_, ?_, ?_, ?_, ?_, ?_, ?_, ?_⟩
  · exact ((State.beside_stamp s f _).trans (State.beside_mapCourse s1 f g)).trans (State.beside_finish _ f w _ rfl)
  · obtain ⟨b1, b2, b3, b4, b5, b6, b7⟩ := hbl
    exact ⟨b1, b2, b3, b4, by rw [b5, hg, r1]; rfl, fun hm => by rw [b6 hm, hg, r1], fun n h1 h5 => by
      rw [b7 n h1 h5, hg, r1]⟩
  · rw [hb, hg, r1]
  · intro L hL
    rw [← r2 L hL, ← hg]
    unfold Course.dest Course.readVal Course.readSVal Course.readV Course.readY Course.readS
    rw [hv, hy, hs]
  · intro n L hL hcov
    rw [← r4 n L hL hcov, ← hg]; unfold Course.readV; rw [hv]
  · intro n L hL hcov
    rw [← r5 n L hL hcov, ← hg]; unfold Course.readY; rw [hy]
  · intro n hcov
    rw [← r6 n hcov, ← hg]; unfold Course.readS; rw [hs]
  · intro n L hn _
    rw [← r8 n L hn, ← hg, hpm]
  · rw [hb, hg, r1]
  · intro L hL
    rw [← r7 L hL, ← hg]; unfold Course.readFlags; rw [hfl]
  · rw [htab.own]
    show (get {} f.c.entries f.entry).mask = f.active
    rw [he]

/-! ### Words that write a predicate -/

theorem laneBit_getLsbD (L K : Nat) (hL : L < 32) (hK : K < 32) : (laneBit L).getLsbD K = decide (K = L) := by
  have : ∀ L < 32, ∀ K < 32, (laneBit L).getLsbD K = decide (K = L) := by decide +kernel
  exact this L hL K hK

theorem condition_lane (f : Frag) (w : Fields) (fn : Nat → Bool) (L : Nat) (hL : L < 32) (he : f.exec.getLsbD L = true) :
    (f.condition w fn).getLsbD L = f.truth w fn L := by
  unfold Frag.condition Frag.truth
  split
  · split
    · rename_i h; rw [he, h]
    · rename_i h; simp [h]
  · have key : ∀ (ls : List Nat) (m : Mask), (∀ K ∈ ls, K < 32) →
        (ls.foldl (fun m L => if fn L then m ||| laneBit L else m) m).getLsbD L = (m.getLsbD L || (ls.contains L && fn L)) := by
      intro ls
      induction ls with
      | nil => intro m _; simp
      | cons a t ih =>
        intro m h
        have ha : a < 32 := h a (by simp)
        rw [List.foldl_cons, ih _ (fun K hK => h K (by simp [hK]))]
        by_cases hf : fn a
        · rw [if_pos hf, BitVec.getLsbD_or, laneBit_getLsbD a L ha hL]
          by_cases h1 : L = a
          · subst h1; simp [hf]
          · simp [h1]
        · rw [if_neg hf]
          by_cases h1 : L = a
          · subst h1; simp [hf]
          · simp [h1]
    rw [key _ _ (fun K hK => (mem_lanesOf.mp hK).1)]
    simp [mem_lanesOf, hL, he]

theorem Course.readP_writeP (c : Course) (n m : Nat) (lanes value : Mask) (L : Nat) (hL : L < 32) :
    ((c.writeP n lanes value).readP m).getLsbD L =
      if m = n ∧ n ≠ 0 ∧ lanes.getLsbD L then value.getLsbD L else (c.readP m).getLsbD L := by
  unfold Course.writeP
  by_cases hn : n = 0
  · simp [hn]
  · rw [if_neg hn]
    unfold Course.readP
    by_cases hm : m = 0
    · subst hm; simp [Ne.symm hn]
    · simp only [hm, hn, if_false]
      rw [get_assign]
      by_cases h : m = n
      · subst h
        rw [if_pos rfl, BitVec.getLsbD_or, BitVec.getLsbD_and, BitVec.getLsbD_and, BitVec.getLsbD_not]
        cases hl : lanes.getLsbD L <;> simp [hL, hm]
      · simp [h]

theorem Course.raiseIn_only (c : Course) (m : Mask) (x : BitVec 8) :
    c.raiseIn m x = { c with flags := (c.raiseIn m x).flags } := by
  unfold Course.raiseIn
  induction lanesOf m generalizing c with
  | nil => rfl
  | cons b u ihu =>
    simp only [List.foldl_cons]
    have hr : c.raise b x = { c with flags := (c.raise b x).flags } := by
      unfold Course.raise; split <;> rfl
    rw [ihu, hr]

theorem Course.resulted_flags (f : Frag) (w : Fields) (fn : Nat → Flags) (ls : List Nat) (c : Course) :
    ls.foldl (fun c L => c.raiseIn (f.flagLanes w L) (fn L)) c =
      { c with flags := (ls.foldl (fun c L => c.raiseIn (f.flagLanes w L) (fn L)) c).flags } ∧
    ∀ L, L < 32 → (ls.foldl (fun c L => c.raiseIn (f.flagLanes w L) (fn L)) c).readFlags L =
      ls.foldl (fun x K => if (f.flagLanes w K).getLsbD L then x ||| fn K else x) (c.readFlags L) := by
  induction ls generalizing c with
  | nil => exact ⟨rfl, fun _ _ => rfl⟩
  | cons a t ih =>
    obtain ⟨i1, i2⟩ := ih (c.raiseIn (f.flagLanes w a) (fn a))
    simp only [List.foldl_cons]
    refine ⟨?_, fun L hL => ?_⟩
    · rw [i1]
      simp
    · rw [i2 L hL, Course.readFlags_raiseIn _ _ _ _ hL]

/-- A word that writes a predicate, whatever its condition (R30, R37, R77, R81). -/
theorem predwise_wrote {s : State} {w : Fields} {f : Frag} (h : s.Ready w f)
    (fn : Frag → State → Nat → Bool × Flags) :
    ∃ t c, issueWord w s (predwise w fn) = .next t ∧ s.WroteP t f w (fn f { s with stamp := s.stamp + 1 }) c := by
  obtain ⟨hc, he, -, -, -, -⟩ := State.frag_spec h.frag
  let s1 : State := { s with stamp := s.stamp + 1 }
  let c1 : Course := (f.lanes w).foldl (fun c L => c.raiseIn (f.flagLanes w L) (fn f s1 L).2) f.c
  obtain ⟨r1, r2⟩ := Course.resulted_flags f w (fun L => (fn f s1 L).2) (f.lanes w) f.c
  let g : Course → Course := fun c => ((f.lanes w).foldl (fun c L => c.raiseIn (f.flagLanes w L) (fn f s1 L).2) c).writeP
    (predD w) f.exec (f.condition w (fun L => (fn f s1 L).1))
  have hgc : g f.c = c1.writeP (predD w) f.exec (f.condition w (fun L => (fn f s1 L).1)) := rfl
  obtain ⟨t, c, ht, hm⟩ := issueWord_moved (g := g) (body := predwise w fn)
    (e := { s := s1.course f g, arith := true }) h rfl rfl (by rw [hgc]; simp; rw [show c1 = _ from r1])
    (by rw [hgc]; simp; rw [show c1 = _ from r1]) rfl rfl
  have hb := hm.booked.rest
  have hge : (g f.c).entries = f.c.entries := by rw [hgc]; simp; rw [show c1 = _ from r1]
  have htab : f.c.Steps c f.entry (addPc f.pc 12) :=
    ⟨by rw [hm.booked.table.own, hge]; rfl, fun n hn => by rw [hm.booked.table.others n hn, hge]⟩
  have hrest : g f.c = { f.c with p := (g f.c).p, flags := (g f.c).flags } := by
    rw [hgc]; unfold Course.writeP; split <;> rw [show c1 = _ from r1]
  refine ⟨t, c, ht, hm.beside, ?_, hm.course, ⟨?_, htab⟩, ?_, ?_, ?_, ?_, hm.mask⟩
  · obtain ⟨b1, b2, b3, b4, b5, b6, b7⟩ := hm.billed
    exact ⟨b1, b2, b3, b4, by rw [b5, hrest]; rfl, fun hm => by rw [b6 hm, hrest], fun n h1 h5 => by
      rw [b7 n h1 h5, hrest]⟩
  · rw [hb, hgc]
    unfold Course.writeP
    split <;> rw [show c1 = _ from r1]
  · intro L hL
    rw [show c.readP (predD w) = (g f.c).readP (predD w) by unfold Course.readP; rw [show c.p = (g f.c).p by rw [hb]], hgc,
      Course.readP_writeP _ _ _ _ _ _ hL]
    have hp : c1.readP (predD w) = f.c.readP (predD w) := by
      unfold Course.readP; rw [show c1.p = f.c.p by rw [show c1 = _ from r1]]
    by_cases hx : predD w ≠ 0 ∧ f.exec.getLsbD L = true
    · rw [if_pos ⟨rfl, hx⟩, if_pos hx, condition_lane f w _ L hL hx.2]
    · rw [if_neg (by rintro ⟨-, h'⟩; exact hx h'), if_neg hx, hp]
  · intro n hn
    rw [show c.readP n = (g f.c).readP n by unfold Course.readP; rw [show c.p = (g f.c).p by rw [hb]], hgc]
    apply BitVec.eq_of_getLsbD_eq
    intro L hL
    rw [Course.readP_writeP _ _ _ _ _ _ hL, if_neg (by rintro ⟨h', -⟩; exact hn h')]
    unfold Course.readP; rw [show c1.p = f.c.p by rw [show c1 = _ from r1]]
  · refine ⟨?_, ?_, ?_, ?_⟩ <;> rw [hb, hgc] <;> simp <;> rw [show c1 = _ from r1]
  · intro L hL
    rw [← r2 L hL]
    unfold Course.readFlags
    rw [show c.flags = (g f.c).flags by rw [hb], hgc, Course.writeP_flags]

end Sys2Proof.Machine
end

