-- ==== Sys2Proof/Machine/Ordering.lean ====
section
/-! DEFINITION. Executions as sets of events and the axioms that every one of them satisfies (R268, R269, R271 to R282). The
machine performs one access at a time; these definitions say what its runs, and any other run of the device, may show. -/

namespace Sys2Proof.Ordering

open Sys2Proof.Machine

/-- Who performs an event (R268): the core whose course issued it, a sector's transfer engine, a core's matrix engine, a
neighbour over a link, or the host. -/
inductive Agent where
  | core (n : Nat) | transfer (sector : Nat) | matrix (core : Nat) | peer (link : Nat) | host
  deriving DecidableEq, Repr

/-- What an event does to its locations (R268). -/
inductive Kind where
  | read | write | rmw | fence | sync | pairing
  deriving DecidableEq, Repr

/-- A location (R268): a word of global memory, of a team's scratchpad or of a strand's private area, an element of a compressed
array by its block, or a pool object. -/
inductive Loc where
  | word (n : Nat) | scratch (team n : Nat) | own (strand n : Nat) | element (block n : Nat) | pool (descriptor : Nat)
  deriving DecidableEq, Repr

def Loc.isScratch : Loc → Bool
  | .scratch _ _ => true
  | _ => false

/-- How an operation ended: done, a cas that compared unequal or a GPOP that returned no item, or a pool operation paired in a
switch. -/
inductive Ended where
  | done | failed | paired
  deriving DecidableEq, Repr

/-- The events that each executing lane of a word contributes, each once for every element of a vector access; and those of an engine,
for each granule or word that it moves (R268). -/
def contribution (how : Ended) : Instr → List Kind
  | .ld _ | .ldu _ | .lds _ | .ldp _ | .zld _ | .zldb _ | .waitaddr _ => [.read]
  | .st _ | .sts _ | .stp _ | .zst _ | .zstb _ | .poisonclr _ => [.write]
  | .atom w => if w.imm.toNat / 32 % 16 = 7 ∧ how = .failed then [.read] else [.rmw]
  | .red _ | .mdrain _ | .mdrainSpad _ => [.rmw]
  | .gpush _ => if how = .paired then [.pairing] else [.rmw]
  | .gpop _ => match how with | .paired => [.pairing] | .failed => [.read] | .done => [.rmw]
  | .fence _ => [.fence]
  | .barrive _ | .bwait _ | .qpush _ | .qpop _ => [.sync]
  | .mload _ | .mmac _ | .mmacs _ | .mmacg _ => [.read]
  | .mstore _ => [.write]
  | .planes _ | .transferChunk _ => [.read, .write]
  | .copylIteration _ | .transferJobComplete _ => [.sync]
  | _ => []

/-- An event: its agent, the strand that issued it where a strand did, its instruction, the job or tile operation that it belongs
to, what it does to which locations, whether an ATOM or RED makes it, and how it orders. A strand is numbered 32 × course + lane. A
scope is numbered as in the words: 0 .h0, 1 .h1, 2 .h3, 3 .h5, 4 .h6, 5 .sys (R76, R269). An engine's read of a granule of scratchpad
is one event, on the words of it that are read (R281). -/
structure Event where
  agent    : Agent
  strand   : Option Nat
  instr    : Option Nat := none
  job      : Option Nat := none
  kind     : Kind
  at_      : List Loc := []
  atom     : Bool := false
  acquire  : Bool := false
  release  : Bool := false
  scope    : Nat := 0
  promoted : Bool := false
  deriving DecidableEq, Repr

def Event.reads (e : Event) : Bool := e.kind = .read || e.kind = .rmw
def Event.writes (e : Event) : Bool := e.kind = .write || e.kind = .rmw

/-- The event's course, where a strand issued it. -/
def Event.course (e : Event) : Option Nat := e.strand.map (· / 32)

abbrev Rel := List (Nat × Nat)

/-- A job of a transfer engine, or an operation of a matrix engine (R274): the course and the place in the list of events at which
its instruction issued; its engine and context; what it reads and writes; the operations that a WAIT before it covers; and the
first event after a WAIT that covers it. -/
structure Work where
  course  : Nat
  issue   : Nat
  engine  : Agent
  context : Nat := 0
  reads   : List Loc := []
  writes  : List Loc := []
  waited  : List Nat := []
  covered : Option Nat := none
  /-- a global MDRAIN, whose events are one node of ob (R282) -/
  drain   : Bool := false
  deriving DecidableEq, Repr

/-- Whether two jobs of one engine and context overlap in a write (R200, R274). -/
def Work.overlaps (a b : Work) : Bool :=
  a.engine == b.engine && a.context == b.context &&
    (a.writes.any (fun l => b.reads.contains l || b.writes.contains l) || b.writes.any a.reads.contains)

/-- Whether every event of one job is ep-before every event of a later one: by footprint, or in one core's tile queue. -/
def Work.precedes (a b : Work) : Bool :=
  match a.engine with
  | .matrix _ => a.engine == b.engine
  | _ => a.overlaps b

/-! ### Pools (R160, R275, R280) -/

/-- An operation in a pool object's order: performed at the home, where it may find no room or no item or fault, or a pair of a push
and a pop that a switch paired. -/
inductive PoolStep where
  | push (item : Nat) (ok : Bool)
  | pop (item : Option Nat)
  /-- a malformed descriptor, or an item's slot that faults: P is false and nothing but a count changes -/
  | faulted (push : Bool)
  | paired (item : Nat)
  deriving DecidableEq, Repr

/-- What the home operations of an order leave: the items, oldest first, and PUSHES and POPS. -/
structure PoolState where
  items  : List Nat := []
  pushes : Nat := 0
  pops   : Nat := 0
  deriving DecidableEq, Repr

/-- The home operations of an order, where they obey R160: a ring gives its oldest item and a stack its youngest, a full pool and
an empty one turn an operation away; a pair changes nothing. -/
def replay (ring : Bool) (cap : Nat) : List PoolStep → PoolState → Option PoolState
  | [], x => some x
  | .paired _ :: ps, x => replay ring cap ps x
  | .faulted true :: ps, x => replay ring cap ps { x with pushes := x.pushes + 1 }
  | .faulted false :: ps, x => replay ring cap ps { x with pops := x.pops + 1 }
  | .push v ok :: ps, x =>
    if ok != decide (x.items.length < cap) then none
    else replay ring cap ps { x with items := if ok then x.items ++ [v] else x.items, pushes := x.pushes + 1 }
  | .pop v :: ps, x =>
    if v != (if ring then x.items.head? else x.items.getLast?) then none
    else replay ring cap ps { x with items := if ring then x.items.drop 1 else x.items.dropLast, pops := x.pops + 1 }

/-- A pool object's total order (R280): the descriptor, whether it is a ring, its capacity, what it holds at first, and its operations
with the events of each, of a pair the push before the pop. -/
structure PoolRun where
  object : Nat
  ring   : Bool
  cap    : Nat
  start  : PoolState := {}
  lin    : List (PoolStep × List Nat)
  deriving DecidableEq, Repr

/-- An execution (R271). Events are named by their place in the list, where those of one course stand in the order of issue, the
lanes of one instruction ascending; jobs and tile operations by their place in theirs, in the order of issue. `co` lists the
writes of each location in the order in which they are performed; `source` names the write that a read of a location takes its
value from, and where it names none that value is the initial one. `awaited` joins an operation to the first event after a WAIT
that covers it, `synced` an arrival or push to what it releases (R272), `moves` a read to a write whose value register holds its
value (R279), `pools` the order of each pool object (R280). -/
structure Execution where
  events  : List Event
  co      : List (Loc × List Nat) := []
  source  : List ((Loc × Nat) × Nat) := []
  synced  : Rel := []
  work    : List Work := []
  ep      : Rel := []
  pp      : Rel := []
  awaited : Rel := []
  moves   : Rel := []
  pools   : List PoolRun := []
  links   : List Nat := []
  deriving DecidableEq, Repr

/-! ### Relations as lists of pairs -/

def Rel.step (r t : Rel) : Rel := (r ++ t.flatMap (fun p => (r.filter (fun q => q.1 = p.2)).map (fun q => (p.1, q.2)))).eraseDups

/-- The transitive closure of a relation on `n` events. -/
def Rel.plus (n : Nat) (r : Rel) : Rel := (Rel.step r)^[n] r

def Rel.irreflexive (r : Rel) : Bool := r.all (fun p => p.1 != p.2)

namespace Execution

def event (x : Execution) (n : Nat) : Event := x.events.getD n { agent := .host, strand := none, kind := .sync }

def size (x : Execution) : Nat := x.events.length

def pairs (x : Execution) (test : Nat → Nat → Bool) : Rel :=
  (List.range x.size).flatMap (fun a => ((List.range x.size).filter (test a)).map (fun b => (a, b)))

/-- Two events of one instruction. -/
def together (x : Execution) (a b : Nat) : Bool := (x.event a).instr.isSome && (x.event a).instr == (x.event b).instr

/-- Program order within one strand: its instructions as they issue. The elements of one lane of a vector access are not ordered, and
engine events lie outside (R271, R274). -/
def strandOrder (x : Execution) : Rel :=
  x.pairs (fun a b => a < b && (x.event a).strand.isSome && (x.event a).strand == (x.event b).strand && !x.together a b)

/-- Program order: that of each strand, and within one instruction ascending lanes (R271). -/
def po (x : Execution) : Rel :=
  x.strandOrder ++ x.pairs (fun a b => (x.event a).strand.isSome && x.together a b &&
    (match (x.event a).strand, (x.event b).strand with | some i, some j => i < j | _, _ => false))

/-- The writes of a location in their order. -/
def writesAt (x : Execution) (l : Loc) : List Nat := ((x.co.find? (fun p => p.1 == l)).map (fun p => p.2)).getD []

/-- Coherence order at a location. -/
def coAt (x : Execution) (l : Loc) : Rel :=
  let ws := x.writesAt l
  (List.range ws.length).flatMap (fun i => (ws.drop (i + 1)).map (fun w => (ws.getD i 0, w)))

def locations (x : Execution) : List Loc := (x.events.flatMap (fun e => e.at_)).eraseDups

/-- Reads-from at a location. -/
def rfAt (x : Execution) (l : Loc) : Rel := (x.source.filter (fun p => p.1.1 = l)).map (fun (p : (Loc × Nat) × Nat) => (p.2, p.1.2))

/-- `co` orders exactly the writes of each location, and `source` names for reads of a location writes of it (R271). -/
def formed (x : Execution) : Bool :=
  x.locations.all (fun l =>
    let ws := x.writesAt l
    let writes := (List.range x.size).filter (fun n => (x.event n).writes && (x.event n).at_.contains l)
    ws.eraseDups == ws && writes.all ws.contains && ws.all writes.contains) &&
  x.source.all (fun p => (x.event p.1.2).reads && (x.event p.1.2).at_.contains p.1.1 && (x.writesAt p.1.1).contains p.2 && p.2 != p.1.2)

/-- From-reads at a location: the initial value comes before every write. A read-modify-write does not come before itself. -/
def frAt (x : Execution) (l : Loc) : Rel :=
  (List.range x.size).flatMap (fun r =>
    let ws : List Nat := x.writesAt l
    if !(x.event r).reads || !(x.event r).at_.contains l then []
    else (match x.source.find? (fun (p : (Loc × Nat) × Nat) => p.1 == (l, r)) with
      | some (p : (Loc × Nat) × Nat) => (ws.dropWhile (fun w => w != p.2)).drop 1
      | none => ws).filterMap (fun w => if w = r then none else some (r, w)))

def all (x : Execution) (f : Loc → Rel) : Rel := x.locations.flatMap f

/-- Reads-from between different agents. -/
def rfe (x : Execution) : Rel := (x.all x.rfAt).filter (fun p => (x.event p.1).agent != (x.event p.2).agent)

/-- Whether an agent lies in the instance of a scope that contains a core (R269). A neighbour is inside .h6 only while its
link is up, and the host inside .sys alone. -/
def inside (x : Execution) (scope core : Nat) : Agent → Bool
  | .core n => scope = 0 && n = core || 1 ≤ scope && sectorOf n = sectorOf core || 2 ≤ scope && dieOf n = dieOf core || 3 ≤ scope
  | .matrix n => scope = 0 && n = core || 1 ≤ scope && sectorOf n = sectorOf core || 2 ≤ scope && dieOf n = dieOf core || 3 ≤ scope
  | .transfer s => 1 ≤ scope && s = sectorOf core || 2 ≤ scope && s / 8 = dieOf core || 3 ≤ scope
  | .peer l => scope = 4 && x.links.contains l || scope = 5
  | .host => scope = 5

/-- Whether the instance of an event's scope contains another event's agent. -/
def sees (x : Execution) (scope : Nat) (a b : Event) : Bool :=
  match a.agent with
  | .core n => x.inside scope n b.agent
  | .matrix n => x.inside scope n b.agent
  | _ => true

/-- A release and an acquire agree in scope; a promoted acquire decides by its own scope alone (R273). -/
def agree (x : Execution) (a b : Event) : Bool :=
  if b.promoted then x.sees b.scope a b && x.sees b.scope b a else x.sees a.scope a b && x.sees b.scope b a

/-- What carries a release: the write itself, or the first write after a fence (R272). -/
def carrier (x : Execution) (a : Nat) : Option Nat :=
  let e := x.event a
  if !e.release then none
  else if e.kind = .fence then (List.range x.size).find? (fun b => x.strandOrder.contains (a, b) && (x.event b).writes)
  else if e.writes then some a else none

/-- What carries an acquire: the read itself, or any read before a fence. -/
def carriers (x : Execution) (b : Nat) : List Nat :=
  let e := x.event b
  if !e.acquire then []
  else if e.kind = .fence then (List.range x.size).filter (fun a => x.strandOrder.contains (a, b) && (x.event a).reads)
  else if e.reads then [b] else []

/-- The reads that take a write's value, or that of an unbroken run of read-modify-writes after it. -/
def heirs (x : Execution) (w : Nat) : List Nat :=
  let rf := x.all x.rfAt
  let grow (ws : List Nat) : List Nat :=
    (ws ++ ws.flatMap (fun v => (rf.filter (fun p => p.1 = v && (x.event p.2).kind = .rmw)).map (·.2))).eraseDups
  (grow^[x.size] [w]).flatMap (fun v => (rf.filter (fun p => p.1 = v)).map (·.2))

/-- Synchronises-with (R272, R273). -/
def sw (x : Execution) : Rel :=
  x.synced ++ x.pairs (fun a b => match x.carrier a with
    | some w => (x.carriers b).any (fun r => (x.heirs w).contains r) && x.agree (x.event a) (x.event b)
    | none => false)

/-- Happens-before (R271). -/
def hb (x : Execution) : Rel := Rel.plus x.size (x.po ++ x.sw ++ x.ep ++ x.pp)

/-! ### Engine order (R274) -/

/-- The events of a job or of a tile operation. -/
def eventsOf (x : Execution) (j : Nat) : List Nat := (List.range x.size).filter (fun n => (x.event n).job == some j)

/-- The events of a course that stand before a place, and those from it on. -/
def courseBefore (x : Execution) (c n : Nat) : List Nat := (List.range n).filter (fun k => (x.event k).course == some c)
def courseFrom (x : Execution) (c n : Nat) : List Nat :=
  (List.range x.size).filter (fun k => n ≤ k && (x.event k).course == some c)

/-- An STS or a scratchpad atomic, a cas that fails among them. -/
def storesScratch (x : Execution) (a : Nat) : Bool :=
  (x.event a).strand.isSome && (x.event a).at_.any Loc.isScratch && ((x.event a).writes || (x.event a).atom)

/-- What is ep-before every event of a job (R274, first edge): STS and scratchpad atomics that happen before an instruction of its course
before its issue, what happens before a FENCE with a release at .h1 or wider, and what a WAIT before it covers. -/
def issuedAfter (x : Execution) (hb : Rel) (j : Work) : List Nat :=
  let ys := x.courseBefore j.course j.issue
  let fences := ys.filter (fun y => (x.event y).kind = .fence && (x.event y).release && 1 ≤ (x.event y).scope)
  (List.range x.size).filter (fun a =>
    (x.storesScratch a && ys.any (fun y => a = y || hb.contains (a, y))) || fences.any (fun f => hb.contains (a, f)) ||
      j.waited.contains a)

/-- The edges of ep that an execution has, over its happens-before. -/
def engineEdges (x : Execution) (hb : Rel) : Rel :=
  let to_ (as bs : List Nat) : Rel := as.flatMap (fun a => bs.map (fun b => (a, b)))
  x.work.zipIdx.flatMap (fun j =>
    let es := x.eventsOf j.2
    to_ (x.issuedAfter hb j.1) es ++
    (x.work.zipIdx.filter (fun i => i.2 < j.2 && i.1.precedes j.1)).flatMap (fun i => to_ (x.eventsOf i.2) es) ++
    (match j.1.covered with | some n => to_ es (x.courseFrom j.1.course n) | none => []))

/-- `ep` holds these edges and no other. -/
def engined (x : Execution) : Bool :=
  let es := x.engineEdges x.hb
  es.all x.ep.contains && x.ep.all es.contains

/-- A promoted acquire reads what carries a release, which counts at the acquire's scope (R273). -/
def lifted (x : Execution) (a : Nat) : Bool :=
  match x.carrier a with
  | some w => (List.range x.size).any (fun b => (x.event b).promoted && (x.carriers b).any (x.heirs w).contains)
  | none => false

/-- Whether an ordering event orders beyond its own core: its scope is wider than .h0, or it is promoted (R278). -/
def orders (x : Execution) (n : Nat) : Bool := (x.event n).scope != 0 || (x.event n).promoted || x.lifted n

/-- Order kept before an agent's accesses are performed, of the events of one strand (R278). -/
def bob (x : Execution) : Rel :=
  let po := x.strandOrder
  let fence (a b : Nat) (test : Event → Bool) := (List.range x.size).any (fun f => po.contains (a, f) && po.contains (f, b) &&
    (x.event f).kind = .fence && x.orders f && test (x.event f))
  po.filter (fun p =>
    let a := x.event p.1
    let b := x.event p.2
    (a.acquire && a.kind != .fence && x.orders p.1) || (b.release && b.kind != .fence && x.orders p.2) ||
    fence p.1 p.2 (fun f => f.acquire && f.release) || (a.reads && fence p.1 p.2 (fun f => f.acquire)) ||
    (b.writes && fence p.1 p.2 (fun f => f.release)) ||
    x.awaited.any (fun q => q.1 = p.1 && (q.2 = p.2 || po.contains (q.2, p.2))))

/-- The node of an event in ob: those of one global MDRAIN are one (R282). -/
def node (x : Execution) (n : Nat) : Nat :=
  match (x.event n).job with
  | some j => if (x.work[j]?.map (fun (w : Work) => w.drain)).getD false then (x.eventsOf j).headD n else n
  | none => n

def ob (x : Execution) : Rel :=
  Rel.plus x.size (((x.rfe ++ x.all x.coAt ++ x.all x.frAt ++ x.bob ++ x.ep).filter (fun p => p.1 = p.2 || x.node p.1 != x.node p.2)).map
    (fun p => (x.node p.1, x.node p.2)))

/-- R276: happens-before has no cycle, and no path of one location runs against it. -/
def coherent (x : Execution) : Bool :=
  Rel.irreflexive x.hb && x.locations.all (fun l =>
    let path := Rel.plus x.size (x.rfAt l ++ x.coAt l ++ x.frAt l)
    x.hb.all (fun p => !path.contains (p.2, p.1)))

/-- R277: no write lies between a read-modify-write and the write that it reads. -/
def atomic (x : Execution) : Bool :=
  (List.range x.size).all (fun m => (x.event m).kind != .rmw || (x.event m).at_.all (fun l =>
    let before := (x.writesAt l).takeWhile (fun w => w != m)
    before.getLast? == (x.source.find? (fun p => p.1 == (l, m))).map (·.2)))

/-- R278. -/
def ordered (x : Execution) : Bool := Rel.irreflexive x.ob

/-- R279: no value comes from nowhere. -/
def grounded (x : Execution) : Bool := Rel.irreflexive (Rel.plus x.size (x.all x.rfAt ++ x.moves))

/-- R281: what STS and scratchpad atomics of one course write is performed in the order of their issue, and each read of scratchpad, an
engine's of a granule as a whole, takes its value at one instant among these writes. -/
def banked (x : Execution) : Bool :=
  let mine (a : Nat) : Bool := x.storesScratch a && (x.event a).writes
  let stores := x.pairs (fun a b => a < b && mine a && mine b && (x.event a).course == (x.event b).course && !x.together a b)
  let bank (l : Loc) : Rel := if l.isScratch then x.rfAt l ++ x.coAt l ++ x.frAt l else []
  Rel.irreflexive (Rel.plus x.size (stores ++ x.all bank))

/-- An engine's event reads words of one granule of 32 bytes of scratchpad, or of global memory (R281). -/
def granular (x : Execution) : Bool :=
  x.events.all (fun e => match e.agent with
    | .transfer _ => e.kind != .read || ((e.at_.filterMap (fun l => match l with
        | .scratch t n => some (t, n / 8)
        | _ => none)).eraseDups).length ≤ 1
    | _ => true)

/-- R280: each pool object's order holds all of its operations, agrees with happens-before, and obeys R160; and the pairs that it holds
are the pairing order (R275). -/
def pooled (x : Execution) : Bool :=
  let hb := x.hb
  x.pools.all (fun (r : PoolRun) =>
    let at_ (n : Nat) : Option Nat := r.lin.findIdx? (fun p => p.2.contains n)
    (replay r.ring r.cap (r.lin.map (fun p => p.1)) r.start).isSome &&
      hb.all (fun p => match at_ p.1, at_ p.2 with | some i, some j => i ≤ j | _, _ => true)) &&
  (List.range x.size).all (fun n => (x.event n).at_.all (fun l => match l with
    | .pool d => ((x.pools.filter (fun r => r.object == d)).flatMap (fun r => r.lin.flatMap (·.2))).count n == 1
    | _ => true)) &&
  x.pp == x.pools.flatMap (fun r => r.lin.filterMap (fun p => match p with
    | (.paired _, [a, b]) => some (a, b)
    | _ => none))

/-- What every execution of the device satisfies. -/
def allowed (x : Execution) : Bool := x.formed && x.engined && x.coherent && x.atomic && x.ordered && x.grounded && x.banked &&
  x.granular && x.pooled

end Execution

end Sys2Proof.Ordering
end

