-- ==== Sys2Proof/Tests/Slice0.lean ====
section
/-! SUPPORT. Tests of the model against the spec's words and worked values, and for every statement a state and operands
that meet its hypotheses. -/

namespace Sys2Proof.Tests

open Sys2Proof Sys2Proof.Machine

set_option Elab.async false

/-! ### Small states -/

/-- The hints of a plain word: STALL 1. -/
def hint : Hints := { reuseB := false, reuseA := false, reconv := false, sym := false, uniform := false, energy := 0, bump := 0,
                      yield := false, stall := 1 }

/-- A plain word. -/
def word (d a b : Operand) (ty : Ty := .i32) (imm : W32 := 0) (modx : Bool := false) (hints : Hints := hint) : Fields :=
  ⟨0, false, d, a, b, ty, .rne, false, modx, imm, hints⟩

def vr (n : Fin 128) : Operand := .v n
def sr (n : Fin 64) : Operand := .s n
def pr (n : Fin 32) : Operand := .pred false n

/-- The course of the small states: lanes 0 and 1 stand at 0x10000. -/
def course : Course := { stamp := 3, grid := 1, team := 2, launch := 3,
                         entries := [(0, { mask := 3, valid := true, pc := 0x10000 })] }

/-- A state with one course of one team on core 0, in a context whose page at 0x10000 grants everything. -/
def small (c : Course := course) (t : Team := {}) (k : Core := {}) (x : Ctx := {}) (g : Grid := {}) : State :=
  { State.reset with
    mem := [(0x1000, 1), (0x1001, 0x20), (0x2000, 1), (0x2001, 0x30), (0x3000, 1), (0x3001, 0x40), (0x4000, 1), (0x4001, 0x50),
            (0x5080, 0x81), (0x5081, 7), (0x5082, 1)]
    cores := [(0, { k with courses := [(0, c)] })]
    ctxs := [(0, { x with state := 1, ptroot := 0x1000 })]
    grids := [(1, g)]
    teams := [(2, { t with grid := 1, slots := [0] })]
    stamp := 4 }

/-- `State.Ready` as a computation. -/
def readyB (s : State) (w : Fields) : Bool :=
  match s.frag w with
  | some f => !s.gated f w && f.exec != 0 && !(w.hints.sym && (f.exec &&& ~~~ f.c.propOpen) != 0)
  | none => false

def fragOf (s : State) (w : Fields) : Frag :=
  (s.frag w).getD { core := 0, slot := 0, entry := 0, c := {}, pc := 0, active := 0, exec := 0, asid := 0, op := 0 }

theorem ready_of (s : State) (w : Fields) (h : readyB s w = true) : s.Ready w (fragOf s w) := by
  unfold readyB at h
  unfold fragOf
  cases hf : s.frag w with
  | none => simp [hf] at h
  | some f =>
    simp only [hf, Bool.and_eq_true, Bool.not_eq_true', bne_iff_ne, ne_eq] at h
    exact ⟨⟨hf, h.1.1, h.1.2⟩, by simpa using h.2⟩

/-- Some fragment of a state may issue a word and meets a condition. -/
def Meets (s : State) (w : Fields) (P : Frag → Prop) : Prop := ∃ f, s.Ready w f ∧ P f

theorem meets {s : State} {w : Fields} {P : Frag → Prop} (h : readyB s w = true) (hp : P (fragOf s w)) : Meets s w P :=
  ⟨_, ready_of s w h, hp⟩

/-! ### Decoding: words written out from R68 to R85 and the entries -/

def rounded (r : Rnd) (w : Fields) : Fields := { w with round := r }
def energy (e : Fin 4) (w : Fields) : Fields := { w with hints := { w.hints with energy := e } }

/-- R85's worked word: FADD.f16 v10, v11, 0.1 rounded up. -/
def fadd : Fields := energy 1 (rounded .rup (word (vr 10) (vr 11) .imm .f16 0x3DCCCCCD))

theorem test_decode_fadd : decode 0x01013DCCCCCD2AE00B0A0060 = .ok (.fadd fadd) := by decide +kernel
/-- R85: opcode 0x1B0 is unassigned; TYPE 15 is reserved; B of 0xE2 names nothing; a hint's reserved bit is set; UNIFORM with v
registers; SYM outside v96 to v111. -/
theorem test_decode_rejects : decode 0x01013DCCCCCD2AE00B0A01B0 = .error .illegalOpcode ∧
    decode 0x01013DCCCCCD2FE00B0A0060 = .error .reservedField ∧
    decode 0x0101000000002AE20B0A0060 = .error .illegalOperand ∧
    decode 0x81013DCCCCCD2AE00B0A0060 = .error .reservedField ∧
    decode 0x05013DCCCCCD2AE00B0A0060 = .error .illegalOperand ∧
    decode 0x09013DCCCCCD2AE00B0A0060 = .error .illegalOperand := by decide +kernel
/-- R71, R82, R88, R168, R211: IMM32 of CALL `.ind`; SYM of GPOP and XCHG, which write a predicate; A of a global MDRAIN is a
pair of s registers, and A of SREAD a special register. -/
theorem test_decode_rejects_fields : decode 0x000100000001800002040003 = .error .reservedField ∧
    decode 0x08010000003B03000660014B = .error .reservedField ∧ decode 0x080100001FFF0E83026000CE = .error .reservedField ∧
    decode 0x0001000000000800E1010187 = .error .illegalOperand ∧ decode 0x00010000000003000202000C = .error .illegalOperand := by
  decide +kernel
/-- R77: GNEG of p0 is legal; R74: FADD takes every ROUND. -/
theorem test_decode_guard : decode 0x01013DCCCCCD2AE00B0A4060 = .ok (.fadd { fadd with gneg := true }) ∧
    decode 0x01013DCCCCCD0AE00B0A0060 = .ok (.fadd { fadd with round := .rne }) := by decide +kernel
/-- R89's worked word: `?p1 bra even, join`. -/
theorem test_decode_bra : decode 0x0001000C0009000000000201 =
    .ok (.bra { word .none .none .none .i32 0x000C0009 with guard := 1 }) := by decide +kernel
theorem test_decode_ffma : decode 0x020100000000190604020063 =
    .ok (.ffma (energy 2 (rounded .rtz (word (vr 2) (vr 4) (vr 6) .f64)))) := by decide +kernel
theorem test_decode_frcp : decode 0x0001000000000800020100B0 = .ok (.frcpExact (word (vr 1) (vr 2) .none .f32)) := by
  decide +kernel
theorem test_decode_cvt : decode 0x0001000000083000040300B8 =
    .ok (.cvt (rounded .rdn (word (vr 3) (vr 4) .none .i32 8))) := by decide +kernel
theorem test_decode_pand : decode 0x0001000000000023020100C0 =
    .ok (.pand (word (pr 1) (pr 2) (.pred true 3))) := by decide +kernel
theorem test_decode_shfl : decode 0x0001000000008E07060500CA =
    .ok (.shfl (word (vr 5) (vr 6) (vr 7) .b32 0 true)) := by decide +kernel
/-- R138's worked word: `ld.acq.h3 v2, v4`, and with `.promote`. -/
theorem test_decode_ld :
    decode 0x0121000000120E00040200E0 = .ok (.ld (energy 1 (word (vr 2) (vr 4) .none .b32 0x12 false { hint with bump := 1 }))) ∧
    decode 0x0121000000128E00040200E0 = .ok (.ld (energy 1 (word (vr 2) (vr 4) .none .b32 0x12 true { hint with bump := 1 }))) := by
  decide +kernel
/-- R143: `.max` at scope 3 with both orders. -/
theorem test_decode_atom : decode 0x00010000005A0004080A0120 =
    .ok (.atom (word (vr 10) (vr 8) (vr 4) .i32 0x5A)) := by decide +kernel
theorem test_decode_bexpect : decode 0x00010000001F000003000143 = .error .reservedField ∧
    decode 0x00010000000F000003000143 = .ok (.bexpect (word .none (vr 3) .none .i32 15)) := by decide +kernel
theorem test_decode_gpop : decode 0x00010000003B03000604014B =
    .ok (.gpop (word (vr 4) (vr 6) .none .n64 0x3B)) := by decide +kernel
theorem test_decode_zld : decode 0x0001000000000914100C0160 = .ok (.zld (word (vr 12) (vr 16) (vr 20) .f64)) := by decide +kernel
theorem test_decode_copy : decode 0x000100000000000082000168 = .ok (.copy (word .none (sr 2) .none)) := by decide +kernel
/-- The worked word of 07: `mmac acc0, s2, s3, 8192`. -/
theorem test_decode_mmac : decode 0x038100000100008382000183 =
    .ok (.mmac (energy 3 (word (.tile 0) (sr 2) (sr 3) .i32 0x100 false { hint with bump := 4 }))) := by decide +kernel
theorem test_decode_sym : decode 0x080100000000000201600020 =
    .ok (.add (word (vr 96) (vr 1) (vr 2) .i32 0 false { hint with sym := true })) := by decide +kernel
theorem test_decode_prop : decode 0x0001000000000000000001A0 = .ok (.prop (word .none .none .none)) := by decide +kernel

/-- Every instruction, in a form of its entry, as its 96 bits. -/
def words_control : List (BitVec 96 × Instr) :=
  [(0x000100000000000000000000, .nop (word .none .none .none .i32 0)),
   (0x000100030002000000000001, .bra (word .none .none .none .i32 0x30002)),
   (0x000100030000000002000002, .brx (word .none (vr 2) .none .i32 0x30000)),
   (0x000100000123000000040003, .call (word (vr 4) .none .none .i32 0x123)),
   (0x000100000000800002040003, .callInd (word (vr 4) (vr 2) .none .i32 0 true)),
   (0x000100000000000002000004, .ret (word .none (vr 2) .none .i32 0)),
   (0x000100000000800000000004, .retTrap (word .none .none .none .i32 0 true)),
   (0x000100000000000000000005, .exit (word .none .none .none .i32 0)),
   (0x00010000FFFF000000000006, .trap (word .none .none .none .i32 0xffff)),
   (0x000100000000000000000007, .bkpt (word .none .none .none .i32 0)),
   (0x000100000000000000000008, .yield (word .none .none .none .i32 0)),
   (0x000100000000000002010009, .launch (word (vr 1) (vr 2) .none .i32 0)),
   (0x0001000000400000E000000A, .phase (word .none .imm .none .i32 0x40)),
   (0x00010000000000000000000B, .tokpass (word .none .none .none .i32 0)),
   (0x0001000000000300CE02000C, .sread (word (vr 2) (.special .clock) .none .n64 0)),
   (0x0401000003028300008A000C, .sreadCtl (word (sr 10) .none .none .n64 0x302 true { hint with uniform := true })),
   (0x0001000000000E0001D3000D, .swrite (word (.code 0xD3) (vr 1) .none .b32 0)),
   (0x00010000030283000200000D, .swriteCtl (word .none (vr 2) .none .n64 0x302 true)),
   (0x00010000000000840100000E, .capture (word .none (vr 1) (sr 4) .i32 0)),
   (0x00010000000000020105000F, .restore (word (vr 5) (vr 1) (vr 2) .i32 0)),
   (0x000100000002000002000010, .tlbinvPage (word .none (vr 2) .none .i32 2)),
   (0x00010000000A000402000010, .tlbinvRange (word .none (vr 2) (vr 4) .i32 0xa)),
   (0x000100000012800000000010, .tlbinvAll (word .none .none .none .i32 0x12 true)),
   (0x000100000000000002000011, .poisonclr (word .none (vr 2) .none .i32 0))]

theorem test_decode_control : ∀ p ∈ words_control, decode p.1 = .ok p.2 := by decide +kernel

def words_integer : List (BitVec 96 × Instr) :=
  [(0x0001FFFFFFFF40E002010020, .add { word (vr 1) (vr 2) .imm .i32 0xffffffff with sat := true }),
   (0x040100000000018382810021, .sub (word (sr 1) (sr 2) (sr 3) .n32 0 false { hint with uniform := true })),
   (0x000100000000020604020022, .mul (word (vr 2) (vr 4) (vr 6) .i64 0)),
   (0x000100000000038604020023, .mulhi (word (vr 2) (vr 4) (sr 6) .n64 0)),
   (0x000100000000040302010024, .mad (word (vr 1) (vr 2) (vr 3) .i16 0)),
   (0x000100000000050302010025, .div (word (vr 1) (vr 2) (vr 3) .n16 0)),
   (0x000100000000060302010026, .rem (word (vr 1) (vr 2) (vr 3) .i8 0)),
   (0x000100000000070302010027, .min (word (vr 1) (vr 2) (vr 3) .n8 0)),
   (0x0001000000000003C0010028, .max (word (vr 1) (.special .lane) (vr 3) .i32 0)),
   (0x000100000000000002010029, .abs (word (vr 1) (vr 2) .none .i32 0)),
   (0x00010000000001000201002A, .neg (word (vr 1) (vr 2) .none .n32 0)),
   (0x0001000000000E030201002B, .and (word (vr 1) (vr 2) (vr 3) .b32 0)),
   (0x00010000000003E10402002C, .or (word (vr 2) (vr 4) .zero .n64 0)),
   (0x0001000000010E03E001002D, .xor (word (vr 1) .imm (vr 3) .b32 1)),
   (0x0001000000000E000201002E, .not (word (vr 1) (vr 2) .none .b32 0)),
   (0x000100000000030704020030, .shl (word (vr 2) (vr 4) (vr 7) .n64 0)),
   (0x0001000000000E0302010031, .shr (word (vr 1) (vr 2) (vr 3) .b32 0)),
   (0x000100000000020704020032, .sar (word (vr 2) (vr 4) (vr 7) .i64 0)),
   (0x00010000001F0EE002010033, .rot (word (vr 1) (vr 2) .imm .b32 0x1f)),
   (0x000100000000030002010034, .clz (word (vr 1) (vr 2) .none .n64 0)),
   (0x0001000000000E0002010035, .popc (word (vr 1) (vr 2) .none .b32 0)),
   (0x0001000000000E0002010036, .brev (word (vr 1) (vr 2) .none .b32 0)),
   (0x00010000080400E002010037, .bfx (word (vr 1) (vr 2) .imm .i32 0x804)),
   (0x0001000008040EE002010038, .bfi (word (vr 1) (vr 2) .imm .b32 0x804)),
   (0x000100000003830704020039, .lea (word (vr 2) (vr 4) (vr 7) .n64 3 true)),
   (0x00010000001F08030201003A, .sel (word (vr 1) (vr 2) (vr 3) .f32 0x1f)),
   (0x00010000000A20E00103003B, .cmp { word (pr 3) (vr 1) .imm .i32 0xa with round := .rup }),
   (0x00013F8000000C00E001003C, .mov (word (vr 1) .imm .none .e4m3 0x3f800000)),
   (0x00010000000005030201003D, .addmin (word (vr 1) (vr 2) (vr 3) .n16 0))]

theorem test_decode_integer : ∀ p ∈ words_integer, decode p.1 = .ok p.2 := by decide +kernel

def words_floating : List (BitVec 96 × Instr) :=
  [(0x000100000000E80302010060, .fadd { word (vr 1) (vr 2) (vr 3) .f32 0 true with round := .rup, sat := true }),
   (0x000100000000090604020061, .fsub (word (vr 2) (vr 4) (vr 6) .f64 0)),
   (0x0001000000003A0302010062, .fmul { word (vr 1) (vr 2) (vr 3) .f16 0 with round := .rdn }),
   (0x0001000000009B0302010063, .ffma { word (vr 1) (vr 2) (vr 3) .bf16 0 true with round := .rtz }),
   (0x000100000000080302010064, .fmin (word (vr 1) (vr 2) (vr 3) .f32 0)),
   (0x000100000000080302010065, .fmax (word (vr 1) (vr 2) (vr 3) .f32 0)),
   (0x000100000000080002010066, .fabs (word (vr 1) (vr 2) .none .f32 0)),
   (0x000100000000090004020067, .fneg (word (vr 2) (vr 4) .none .f64 0)),
   (0x000100000000B80302010068, .fcmp { word (pr 1) (vr 2) (vr 3) .f32 0 true with round := .rdn }),
   (0x000100000000090002010069, .fclass (word (vr 1) (vr 2) .none .f64 0)),
   (0x00010000000008030201006A, .fdiv (word (vr 1) (vr 2) (vr 3) .f32 0)),
   (0x00010000000088000201006B, .fsqrt (word (vr 1) (vr 2) .none .f32 0 true)),
   (0x00010000000028000201006C, .frnd { word (vr 1) (vr 2) .none .f32 0 with round := .rup }),
   (0x00010000000009070402006D, .fscale (word (vr 2) (vr 4) (vr 7) .f64 0)),
   (0x00010000000008030201006E, .faddmin (word (vr 1) (vr 2) (vr 3) .f32 0)),
   (0x0001000000000A040201006F, .fdot4 (word (vr 1) (vr 2) (vr 4) .f16 0))]

theorem test_decode_floating : ∀ p ∈ words_floating, decode p.1 = .ok p.2 := by decide +kernel

def words_conversion : List (BitVec 96 × Instr) :=
  [(0x0001000000000800020100A0, .frcpAuto (word (vr 1) (vr 2) .none .f32 0)),
   (0x0001000000000800020100A1, .frsqAuto (word (vr 1) (vr 2) .none .f32 0)),
   (0x0001000000000800020100A2, .fexp2Auto (word (vr 1) (vr 2) .none .f32 0)),
   (0x0001000000000800020100A3, .flog2Auto (word (vr 1) (vr 2) .none .f32 0)),
   (0x0001000000000800020100A4, .fsinAuto (word (vr 1) (vr 2) .none .f32 0)),
   (0x0001000000000800020100A5, .fcosAuto (word (vr 1) (vr 2) .none .f32 0)),
   (0x0001000000000900040200A8, .frcpFast (word (vr 2) (vr 4) .none .f64 0)),
   (0x0001000000000800020100A9, .frsqFast (word (vr 1) (vr 2) .none .f32 0)),
   (0x0001000000000800020100AA, .fexp2Fast (word (vr 1) (vr 2) .none .f32 0)),
   (0x0001000000000800020100AB, .flog2Fast (word (vr 1) (vr 2) .none .f32 0)),
   (0x0001000000000800020100AC, .fsinFast (word (vr 1) (vr 2) .none .f32 0)),
   (0x0001000000000800020100AD, .fcosFast (word (vr 1) (vr 2) .none .f32 0)),
   (0x0001000000003800020100B0, .frcpExact { word (vr 1) (vr 2) .none .f32 0 with round := .rdn }),
   (0x0001000000000800020100B1, .frsqExact (word (vr 1) (vr 2) .none .f32 0)),
   (0x0001000000000800020100B2, .fexp2Exact (word (vr 1) (vr 2) .none .f32 0)),
   (0x0001000000000800020100B3, .flog2Exact (word (vr 1) (vr 2) .none .f32 0)),
   (0x0001000000000800020100B4, .fsinExact (word (vr 1) (vr 2) .none .f32 0)),
   (0x0001000000000900040200B5, .fcosExact (word (vr 2) (vr 4) .none .f64 0)),
   (0x0001000000083000040300B8, .cvt { word (vr 3) (vr 4) .none .i32 8 with round := .rdn }),
   (0x000100000000C603020100B9, .pack { word (vr 1) (vr 2) (vr 3) .i8 0 true with sat := true }),
   (0x0001000000030700020100BA, .unpack (word (vr 1) (vr 2) .none .n8 3))]

theorem test_decode_conversion : ∀ p ∈ words_conversion, decode p.1 = .ok p.2 := by decide +kernel

def words_lanes : List (BitVec 96 × Instr) :=
  [(0x0001000000000023020100C0, .pand (word (pr 1) (pr 2) (.pred true 3) .i32 0)),
   (0x0001000000000003020100C1, .por (word (pr 1) (pr 2) (pr 3) .i32 0)),
   (0x0001000000000003020100C2, .pxor (word (pr 1) (pr 2) (pr 3) .i32 0)),
   (0x00010000000000001F0100C3, .pnot (word (pr 1) (pr 31) .none .i32 0)),
   (0x0001000000000000220100C4, .pmov (word (pr 1) (.pred true 2) .none .i32 0)),
   (0x0001000000000000020100C5, .pcount (word (vr 1) (pr 2) .none .i32 0)),
   (0x00010000001F0E03020100C8, .lshup (word (vr 1) (vr 2) (vr 3) .b32 0x1f)),
   (0x0001000000010306040200C9, .lshdn (word (vr 2) (vr 4) (vr 6) .n64 1)),
   (0x0001000000008E07060500CA, .shfl (word (vr 5) (vr 6) (vr 7) .b32 0 true)),
   (0x0001000000030000020100CB, .vote (word (vr 1) (pr 2) .none .i32 3)),
   (0x0001000000000000000100CC, .elect (word (pr 1) .none .none .i32 0)),
   (0x0001000000002800020100CD, .redux { word (vr 1) (vr 2) .none .f32 0 with round := .rup }),
   (0x000100001FFF0E83020100CE, .xchg (word (vr 1) (vr 2) (sr 3) .b32 0x1fff))]

theorem test_decode_lanes : ∀ p ∈ words_lanes, decode p.1 = .ok p.2 := by decide +kernel

def words_memory : List (BitVec 96 × Instr) :=
  [(0x0001000000128E00040200E0, .ld (word (vr 2) (vr 4) .none .b32 0x12 true)),
   (0x00010000000D0306040000E1, .st (word .none (vr 4) (vr 6) .n64 0xd)),
   (0x0001000001100E00020100E2, .lds (word (vr 1) (vr 2) .none .b32 0x110)),
   (0x0001000000100602010000E3, .sts (word .none (vr 1) (vr 2) .i8 0x10)),
   (0x0001000000800E00020100E4, .ldp (word (vr 1) (vr 2) .none .b32 0x80)),
   (0x0001000000000502010000E5, .stp (word .none (vr 1) (vr 2) .n16 0)),
   (0x0401000001000E00828800E6, .ldu (word (sr 8) (sr 2) .none .b32 0x100 false { hint with uniform := true })),
   (0x0001000000010000020000E7, .pref (word .none (vr 2) .none .i32 1)),
   (0x0001000000E50E0604020120, .atom (word (vr 2) (vr 4) (vr 6) .b32 0xe5)),
   (0x000100000000380604000121, .red { word .none (vr 4) (vr 6) .f32 0 with round := .rdn }),
   (0x00010000000B800000000122, .fence (word .none .none .none .i32 0xb true))]

theorem test_decode_memory : ∀ p ∈ words_memory, decode p.1 = .ok p.2 := by decide +kernel

def words_sync : List (BitVec 96 × Instr) :=
  [(0x00010000000F000201000140, .binit (word .none (vr 1) (vr 2) .i32 0xf)),
   (0x000100000003000000010141, .barrive (word (vr 1) .none .none .i32 3)),
   (0x000100000003000001000142, .bwait (word .none (vr 1) .none .i32 3)),
   (0x000100000003000001000143, .bexpect (word .none (vr 1) .none .i32 3)),
   (0x000100000003800000010144, .bflags (word (vr 1) .none .none .i32 3 true)),
   (0x00010000000F030002000148, .qpush (word .none (vr 2) .none .n64 0xf)),
   (0x00010000000F0E0000010149, .qpop (word (vr 1) .none .none .b32 0xf)),
   (0x0001000000F80E040200014A, .gpush (word .none (vr 2) (vr 4) .b32 0xf8)),
   (0x00010000003B03000604014B, .gpop (word (vr 4) (vr 6) .none .n64 0x3b)),
   (0x000100FFFFFF000000000150, .wait (word .none .none .none .i32 0xffffff)),
   (0x0001000000050000E1000151, .waitr (word .none .zero .none .i32 5)),
   (0x0001000001FA8E0402010152, .waitaddr (word (vr 1) (vr 2) (vr 4) .b32 0x1fa true)),
   (0x000100000005000002000153, .wake (word .none (vr 2) .none .i32 5))]

theorem test_decode_sync : ∀ p ∈ words_sync, decode p.1 = .ok p.2 := by decide +kernel

def words_engines : List (BitVec 96 × Instr) :=
  [(0x0001000000000914100C0160, .zld (word (vr 12) (vr 16) (vr 20) .f64 0)),
   (0x000100000000080302010161, .zst (word (vr 1) (vr 2) (vr 3) .f32 0)),
   (0x000100000000080402010162, .zldb (word (vr 1) (vr 2) (vr 4) .f32 0)),
   (0x000100000000080402010163, .zstb (word (vr 1) (vr 2) (vr 4) .f32 0)),
   (0x000100000000000402000164, .zflush (word .none (vr 2) (vr 4) .i32 0)),
   (0x0001000000008004E1000164, .zflushAll (word .none .zero (vr 4) .i32 0 true)),
   (0x000100000000000082000168, .copy (word .none (sr 2) .none .i32 0)),
   (0x0001000000000000E1000169, .copyl (word .none .zero .none .i32 0)),
   (0x000100000000000000070180, .mzero (word (.tile 7) .none .none .i32 0)),
   (0x000100001FFF0A0082010181, .mload (word (.tile 1) (sr 2) .none .f16 0x1fff)),
   (0x000100000010ED0082010182, .mstore { word (.tile 1) (sr 2) .none .e5m2 0x10 true with round := .rup, sat := true }),
   (0x000100000100008382000183, .mmac (word (.tile 0) (sr 2) (sr 3) .i32 0x100)),
   (0x000100003FFF308382000184, .mmacs { word (.tile 0) (sr 2) (sr 3) .i32 0x3fff with round := .rdn }),
   (0x000100000000008382000185, .mmacg (word (.tile 0) (sr 2) (sr 3) .i32 0)),
   (0x00013F800000000002010186, .msmax (word (.tile 1) (.tile 2) .none .i32 0x3f800000)),
   (0x000100000000080082010187, .mdrain (word (.tile 1) (sr 2) .none .f32 0)),
   (0x000100000011880082010187, .mdrainSpad (word (.tile 1) (sr 2) .none .f32 0x11 true)),
   (0x00013FFFFFFF0C8382000188, .planes (word .none (sr 2) (sr 3) .e4m3 0x3fffffff))]

theorem test_decode_engines : ∀ p ∈ words_engines, decode p.1 = .ok p.2 := by decide +kernel

def words_proposals : List (BitVec 96 × Instr) :=
  [(0x0001000000000000000001A0, .prop (word .none .none .none .i32 0)),
   (0x0001000000000803020101A1, .accept (word (pr 1) (vr 2) (vr 3) .f32 0)),
   (0x0001000000000000000001A2, .pdrop (word .none .none .none .i32 0)),
   (0x0001000000000E00600101A3, .peek (word (vr 1) (.code 0x60) .none .b32 0)),
   (0x0001000000000E03020101A4, .rng (word (vr 1) (vr 2) (vr 3) .b32 0)),
   (0x0001000000000803020101A5, .rngf (word (vr 1) (vr 2) (vr 3) .f32 0))]

theorem test_decode_proposals : ∀ p ∈ words_proposals, decode p.1 = .ok p.2 := by decide +kernel

/-- R84, R85: the assigned opcodes. -/
theorem test_opcodes : (List.range 512).filter (fun n => (Encoding.rowOf n).isSome) =
    [0x0, 0x1, 0x2, 0x3, 0x4, 0x5, 0x6, 0x7, 0x8, 0x9, 0xa, 0xb, 0xc, 0xd, 0xe, 0xf, 0x10, 0x11, 0x20, 0x21, 0x22,
     0x23, 0x24, 0x25, 0x26, 0x27, 0x28, 0x29, 0x2a, 0x2b, 0x2c, 0x2d, 0x2e, 0x30, 0x31, 0x32, 0x33, 0x34, 0x35,
     0x36, 0x37, 0x38, 0x39, 0x3a, 0x3b, 0x3c, 0x3d, 0x60, 0x61, 0x62, 0x63, 0x64, 0x65, 0x66, 0x67, 0x68, 0x69,
     0x6a, 0x6b, 0x6c, 0x6d, 0x6e, 0x6f, 0xa0, 0xa1, 0xa2, 0xa3, 0xa4, 0xa5, 0xa8, 0xa9, 0xaa, 0xab, 0xac, 0xad,
     0xb0, 0xb1, 0xb2, 0xb3, 0xb4, 0xb5, 0xb8, 0xb9, 0xba, 0xc0, 0xc1, 0xc2, 0xc3, 0xc4, 0xc5, 0xc8, 0xc9, 0xca,
     0xcb, 0xcc, 0xcd, 0xce, 0xe0, 0xe1, 0xe2, 0xe3, 0xe4, 0xe5, 0xe6, 0xe7, 0x120, 0x121, 0x122, 0x140, 0x141,
     0x142, 0x143, 0x144, 0x148, 0x149, 0x14a, 0x14b, 0x150, 0x151, 0x152, 0x153, 0x160, 0x161, 0x162, 0x163, 0x164,
     0x168, 0x169, 0x180, 0x181, 0x182, 0x183, 0x184, 0x185, 0x186, 0x187, 0x188, 0x1a0, 0x1a1, 0x1a2, 0x1a3, 0x1a4,
     0x1a5] := by decide +kernel

/-! ### Well-formedness: an ill-formed term for each check, which the check refuses -/

theorem test_wf_good : (Instr.add (word (vr 1) (vr 2) (vr 3))).wf = true ∧ (Instr.lqtail 63 7 0).wf = true := by decide +kernel
/-- The fields choose another row's constructor (R88). -/
theorem test_wf_constructor : (Instr.call (word (vr 2) .none .none .i32 0 true)).wf = false := by decide +kernel
/-- R74: TYPE, ROUND, SAT, MODX. -/
theorem test_wf_type : (Instr.add (word (vr 1) (vr 2) (vr 3) .f32)).wf = false := by decide +kernel
theorem test_wf_round : (Instr.add { word (vr 1) (vr 2) (vr 3) with round := .rup }).wf = false := by decide +kernel
theorem test_wf_sat : (Instr.min { word (vr 1) (vr 2) (vr 3) with sat := true }).wf = false := by decide +kernel
theorem test_wf_modx : (Instr.add { word (vr 1) (vr 2) (vr 3) with modx := true }).wf = false := by decide +kernel
/-- R71, R75, R76: IMM32. -/
theorem test_wf_imm : (Instr.add (word (vr 1) (vr 2) (vr 3) .i32 5)).wf = false := by decide +kernel
theorem test_wf_extension : (Instr.lshup (word (vr 1) (vr 2) (vr 3) .b32 32)).wf = false := by decide +kernel
/-- R133: a weak load has no scope. -/
theorem test_wf_scope : (Instr.ld (word (vr 2) (vr 4) .none .b32 3)).wf = false := by decide +kernel
/-- R71: operand kinds, unused fields and even pairs. -/
theorem test_wf_dest : (Instr.add (word .imm (vr 2) (vr 3))).wf = false := by decide +kernel
theorem test_wf_unused : (Instr.nop (word (vr 1) .none .none)).wf = false := by decide +kernel
theorem test_wf_pair : (Instr.add (word (vr 1) (vr 2) (vr 4) .i64)).wf = false := by decide +kernel
/-- R77: a whole-course word has no guard. R81: UNIFORM takes s registers, where the entry admits it. R82: SYM. -/
theorem test_wf_guard : (Instr.mzero { word (.tile 0) .none .none with guard := 1 }).wf = false := by decide +kernel
theorem test_wf_uniform : (Instr.add (word (sr 1) (vr 2) (sr 3) .i32 0 false { hint with uniform := true })).wf = false ∧
    (Instr.add (word (sr 1) (sr 2) (sr 3))).wf = false := by decide +kernel
theorem test_wf_sym : (Instr.add (word (vr 95) (vr 1) (vr 2) .i32 0 false { hint with sym := true })).wf = false ∧
    (Instr.add (word (vr 112) (vr 1) (vr 2) .i32 0 false { hint with sym := true })).wf = false := by decide +kernel
/-- R120: D names a predicate as it is. -/
theorem test_wf_pred : (Instr.pmov (word (.pred true 1) (pr 2) .none)).wf = false := by decide +kernel
/-- Events name units that the device has. -/
theorem test_wf_events : let row : Config.Fuse := ⟨.lane 0, 0⟩; ∀ i ∈ [Instr.queueHeldOperationServed 2048 0 0, .queueHeldOperationServed 0 0 16,
    .tileOperationStart 2048, .fragmentFusion 0 16 0, .fragmentFusion 0 0 8, .handlerEntry 2048 0, .teamKill 2048 (.one 0),
    .pageWalk 64 0 [], .pageWalk 0 0 [2048], .victimWritebackRequest 4 0, .linkTrained 18, .peerAccessArrival 18 (.wake 0),
    .hostRead 0 1 (some 4), .lqtail 0 8 0, .launchAcceptance 64 0 true, .mode 64 0, .registerWrite (.ctx 64 0) 0,
    .teamAdmission 0 0 2048 0, .softError ⟨.core 2048 0, row⟩ 1, .softError ⟨.copy 4 0, row⟩ 1, .softError ⟨.line 0 false, row⟩ 0,
    .softError ⟨.tlb 2048 0 0, row⟩ 1, .softError ⟨.buffer 4, row⟩ 1,
    .creditReturn 0 4 0], i.wf = false := by decide +kernel


/-! ### Instructions, one step each: expected values are the spec's tables and examples, or follow by hand from its rules -/

/-- Strand registers with their values in lanes 0 and 1. -/
def regs (xs : List (Nat × W32 × W32)) : Course :=
  { course with v := xs.flatMap (fun x => [(x.1 * 32, x.2.1), (x.1 * 32 + 1, x.2.2)]) }

/-- The issuing course after an instruction. -/
def after (i : Instr) (s : State) : Option Course :=
  match exec i s with
  | .next t => t.course? 0 0
  | _ => none

/-- A strand register in lanes 0 and 1 after a word, from given registers. -/
def out (i : Instr) (xs : List (Nat × W32 × W32)) (n : Nat := 1) : Option (W32 × W32) :=
  (after i (small (regs xs))).map (fun c => (c.readV n 0, c.readV n 1))

/-- A predicate and the flags of lane 0 after a word. -/
def outP (i : Instr) (xs : List (Nat × W32 × W32)) : Option (Mask × BitVec 8) :=
  (after i (small (regs xs))).map (fun c => (c.readP 1, c.readFlags 0))

def d123 (ty : Ty := .i32) : Fields := word (vr 1) (vr 2) (vr 3) ty
def d246 (ty : Ty) : Fields := word (vr 2) (vr 4) (vr 6) ty
def d12 (ty : Ty := .f32) : Fields := word (vr 1) (vr 2) .none ty
def sat (w : Fields) : Fields := { w with sat := true }

/-- R40: wrap, and clamp under SAT. -/
theorem test_add : out (.add (d123)) [(2, 0x7FFFFFFF, 5), (3, 1, 7)] = some (0x80000000, 12) ∧
    out (.add (sat d123)) [(2, 0x7FFFFFFF, 5), (3, 1, 7)] = some (0x7FFFFFFF, 12) := by decide +kernel
theorem test_sub : out (.sub (sat (d123 .n8))) [(2, 3, 0x105), (3, 5, 1)] = some (0, 4) := by decide +kernel
theorem test_mulhi : out (.mulhi (d123)) [(2, 0xFFFFFFFF, 0x80000000), (3, 1, 2)] = some (0xFFFFFFFF, 0xFFFFFFFF) := by decide +kernel
theorem test_mad : out (.mad (d123 .i8)) [(1, 1, 2), (2, 0x7F, 3), (3, 1, 4)] = some (0xFFFFFF80, 14) := by decide +kernel
/-- R101's table. -/
theorem test_div : out (.div (d123)) [(2, 5, 0xFFFFFFFB), (3, 0, 0)] = some (0x7FFFFFFF, 0x80000000) ∧
    out (.div (d123)) [(2, 0x80000000, 0xFFFFFFF9), (3, 0xFFFFFFFF, 2)] = some (0x80000000, 0xFFFFFFFD) := by decide +kernel
theorem test_rem : out (.rem (d123)) [(2, 0x80000000, 0xFFFFFFF9), (3, 0xFFFFFFFF, 2)] = some (0, 0xFFFFFFFF) := by decide +kernel
theorem test_min_n32 : out (.min (d123 .n32)) [(2, 0xFFFFFFFF, 1), (3, 1, 2)] = some (1, 1) := by decide +kernel
theorem test_abs : out (.abs (sat (word (vr 1) (vr 2) .none))) [(2, 0x80000000, 0xFFFFFFFF)] = some (0x7FFFFFFF, 1) := by decide +kernel
/-- R102. -/
theorem test_shl : out (.shl (d123 .b32)) [(2, 1, 1), (3, 32, 31)] = some (0, 0x80000000) := by decide +kernel
theorem test_sar : out (.sar (d123)) [(2, 0x80000000, 0x40000000), (3, 200, 30)] = some (0xFFFFFFFF, 1) := by decide +kernel
theorem test_rot : out (.rot (d123 .b32)) [(2, 0x80000001, 1), (3, 1, 33)] = some (3, 2) := by decide +kernel
theorem test_clz : out (.clz (d12 .b32)) [(2, 0, 0x00010000)] = some (32, 15) := by decide +kernel
/-- R103: bits above the width read as the sign for i32. -/
theorem test_bfx : out (.bfx (word (vr 1) (vr 2) .imm .i32 0x081C)) [(2, 0x80000000, 0x70000000)] = some (0xFFFFFFF8, 7) := by decide +kernel
theorem test_bfi : out (.bfi (word (vr 1) (vr 2) .imm .b32 0x0804)) [(1, 0xFFFFFFFF, 0), (2, 0, 0x1FF)] = some (0xFFFFF00F, 0xFF0) := by decide +kernel
theorem test_lea : out (.lea (word (vr 2) (vr 4) (vr 6) .n64 3)) [(4, 0x1000, 0x1000), (6, 0xFFFFFFFF, 2)] 2 = some (0xFF8, 0x1010) := by decide +kernel
/-- R106: p1 in lane 0 alone. -/
theorem test_cmp : outP (.cmp { word (pr 1) (vr 2) .imm .i32 10 with round := .rup }) [(2, 0xFFFFFFFF, 10)] = some (1, 0) := by decide +kernel
/-- R107's example. -/
theorem test_addmin : out (.addmin (d123 .n16)) [(1, 7, 0xFFFF), (2, 65530, 65530), (3, 9, 9)] = some (7, 65535) := by decide +kernel
/-- R41, R105: SEL reads the low bits of its type and extends them. -/
theorem test_sel : out (.sel (word (vr 1) (vr 2) (vr 3) .i8 0)) [(2, 0x1FF, 0x180), (3, 0, 0)] = some (0xFFFFFFFF, 0xFFFFFF80) := by
  decide +kernel
/-- R75's table: immediates as MOV supplies them. -/
theorem test_mov_immediates :
    out (.mov (word (vr 1) .imm .none .f16 0x3DCCCCCD)) [] = some (0x2E66, 0x2E66) ∧
    out (.mov (word (vr 1) .imm .none .bf16 0x3DCCCCCD)) [] = some (0x3DCD, 0x3DCD) ∧
    out (.mov (word (vr 1) .imm .none .e5m2 0x447A0000)) [] = some (0x64, 0x64) ∧
    out (.mov (word (vr 1) .imm .none .e4m3 0xFF800000)) [] = some (0xFE, 0xFE) ∧
    out (.mov (word (vr 1) .imm .none .n8 0xFFFFFF80)) [] = some (0x80, 0x80) ∧
    out (.mov (word (vr 1) .imm .none .f32 0x7F800001)) [] = some (0x7FC00000, 0x7FC00000) := by decide +kernel
theorem test_mov_wide :
    out (.mov (word (vr 2) .imm .none .f64 0x3DCCCCCD)) [] 3 = some (0x3FB99999, 0x3FB99999) ∧
    out (.mov (word (vr 2) .imm .none .i64 0xFFFFFF80)) [] 3 = some (0xFFFFFFFF, 0xFFFFFFFF) := by decide +kernel

/-- R46: 1 + 2⁻²⁴ ties to even; rounded up it is the next number. -/
theorem test_fadd : out (.fadd (d123 .f32)) [(2, 0x3F800000, 0x3F800000), (3, 0x33800000, 0xBF800000)] = some (0x3F800000, 0) ∧
    out (.fadd (rounded .rup (d123 .f32))) [(2, 0x3F800000, 0x3F800000), (3, 0x33800000, 0xBF800000)] =
      some (0x3F800001, 0) := by decide +kernel
/-- R47: an exact zero difference is −0 only rounding down. -/
theorem test_fsub : out (.fsub (rounded .rdn (d123 .f32))) [(2, 0x3F800000, 0x40000000), (3, 0x3F800000, 0x3F800000)] =
    some (0x80000000, 0x3F800000) := by decide +kernel
/-- R48: overflow, with SAT the largest finite number. -/
theorem test_fmul : out (.fmul (d123 .f32)) [(2, 0x7F7FFFFF, 0x40000000), (3, 0x40000000, 0x3FC00000)] = some (0x7F800000, 0x40400000) ∧
    out (.fmul (sat (d123 .f32))) [(2, 0x7F7FFFFF, 0), (3, 0x40000000, 0)] = some (0x7F7FFFFF, 0) := by decide +kernel
/-- R44: 0 × ∞ beside a quiet NaN is the canonical NaN. -/
theorem test_ffma : out (.ffma (d123 .f32)) [(1, 0x7FC12345, 0x3F800000), (2, 0, 0x40000000), (3, 0x7F800000, 0x40400000)] =
    some (0x7FC00000, 0x40E00000) := by decide +kernel
theorem test_fdiv : out (.fdiv (d123 .f32)) [(2, 0xBF800000, 0x3F800000), (3, 0, 0x40400000)] = some (0xFF800000, 0x3EAAAAAB) := by decide +kernel
theorem test_fsqrt : out (.fsqrt (d12)) [(2, 0x40000000, 0x80000000)] = some (0x3FB504F3, 0x80000000) := by decide +kernel
/-- R110: FMIN of a NaN and a number is the number. -/
theorem test_fmin : out (.fmin (d123 .f32)) [(2, 0x7FC00000, 0), (3, 0x3F800000, 0x80000000)] = some (0x3F800000, 0x80000000) := by decide +kernel
theorem test_fclass : out (.fclass (d12)) [(2, 0x80000001, 0x7F800001)] = some (4, 256) := by decide +kernel
/-- R112: `.lt` with a NaN is false and INVALID. -/
theorem test_fcmp : outP (.fcmp { word (pr 1) (vr 2) (vr 3) .f32 with round := .rup }) [(2, 0x7FC00000, 0), (3, 0, 0x3F800000)] =
    some (2, Flags.invalid) := by decide +kernel
theorem test_frnd : out (.frnd (d12)) [(2, 0x40200000, 0x40600000)] = some (0x40000000, 0x40800000) := by decide +kernel
/-- R113: 2⁻¹²⁶ scaled by 2⁻²⁴ loses its last bit. -/
theorem test_fscale : out (.fscale (d123 .f32)) [(2, 0x00800000, 0x3F800000), (3, 0xFFFFFFE8, 3)] = some (0, 0x41000000) := by decide +kernel
/-- R115's two bf16 examples. -/
theorem test_fdot4 :
    out (.fdot4 (word (vr 1) (vr 2) (vr 4) .bf16)) [(1, 0, 0), (2, 0xFF007F00, 0x00007F00), (4, 0x7F007F00, 0x7F007F00)] =
      some (0, 0x7F800000) := by decide +kernel
/-- R63: the special inputs. -/
theorem test_frcp : out (.frcpExact (d12)) [(2, 0x80000000, 0x40400000)] = some (0xFF800000, 0x3EAAAAAB) := by decide +kernel
theorem test_flog2 : out (.flog2Exact (d12)) [(2, 0x41000000, 0x3F800000)] = some (0x40400000, 0) := by decide +kernel
theorem test_fexp2 : out (.fexp2Exact (d12)) [(2, 0xC0000000, 0xFF800000)] = some (0x3E800000, 0) := by decide +kernel
/-- R50: conversions to integers saturate. -/
theorem test_cvt : out (.cvt (word (vr 1) (vr 2) .none .i8 8)) [(2, 0x43480000, 0xC0200000)] = some (127, 0xFFFFFFFE) := by decide +kernel
theorem test_pack : out (.pack (sat (word (vr 1) (vr 2) (vr 3) .i16))) [(2, 40000, 1), (3, 0xFFFFFFFF, 2)] =
    some (0xFFFF7FFF, 0x00020001) := by decide +kernel
theorem test_unpack : out (.unpack (word (vr 1) (vr 2) .none .i8 1)) [(2, 0x8000, 0x7F00)] = some (0xFFFFFF80, 0x7F) := by decide +kernel
/-- R66, R67: key 0 and index 1. -/
theorem test_rng : out (.rng (d123 .b32)) [(2, 0, 0), (3, 1, 1)] = some (0x514E28B7, 0x514E28B7) := by decide +kernel
theorem test_rngf : out (.rngf (d123 .f32)) [(2, 0, 0), (3, 1, 1)] = some (0x3EA29C50, 0x3EA29C50) := by decide +kernel

/-- A course with more lanes than two. -/
def wide (m : Mask) (v : List (Nat × W32)) : Course :=
  { course with v, launch := m, entries := [(0, { mask := m, valid := true, pc := 0x10000 })] }

/-- R122 to R125: lanes. -/
theorem test_pcount : (after (.pcount (word (vr 1) (pr 2) .none)) (small { wide 0xF [] with p := [(2, 0xFFFFFFF5)] })).map
    (fun c => c.readV 1 3) = some 2 := by decide +kernel
theorem test_lshup : out (.lshup (word (vr 1) (vr 2) (vr 3) .b32 1)) [(2, 10, 20), (3, 30, 40)] = some (30, 10) := by decide +kernel
theorem test_shfl : out (.shfl (word (vr 1) (vr 2) .imm .b32 1 true)) [(2, 10, 20)] = some (20, 10) := by decide +kernel
theorem test_vote : outP (.vote (word (pr 1) (.pred true 2) .none)) [] = some (3, 0) := by decide +kernel
theorem test_elect : outP (.elect (word (pr 1) .none .none)) [] = some (1, 0) := by decide +kernel
/-- R127's example: 2²⁴, 1.0 and 1.0 in lanes 0 to 2 sum to 2²⁴ with INEXACT. -/
theorem test_redux : (after (.redux (d12)) (small (wide 7 [(64, 0x4B800000), (65, 0x3F800000), (66, 0x3F800000)]))).map
    (fun c => (c.readV 1 2, c.readFlags 2)) = some (0x4B800000, Flags.inexact) := by decide +kernel

/-- R207's nine lanes. -/
theorem test_accept : (after (.accept (word (pr 2) (vr 20) (vr 21) .f32)) (small { wide 0x1FF
      ([0, 0xBF800000, 0xBF800000, 0xBF000000, 0xBF000000, 0xC3480000, 0xFF800000, 0x7FC00000, 0x7F800000].zipIdx.map
        (fun p => (640 + p.2, p.1)) ++
       [0x3F400000, 0x3F000000, 0x3F000001, 0x3F3504F3, 0x3F3504F4, 0, 0, 0x3E99999A, 0x3F7D70A4].zipIdx.map
        (fun p => (672 + p.2, p.1))) with propOpen := 0x1FF })).map
    (fun c => (c.readP 2, c.propOpen, get 0 c.proposals 7, get 0 c.accepts 7, get 0 c.accepts 8, c.readFlags 7)) =
      some (0x12B, 0, 1, 0, 1, Flags.invalid) := by decide +kernel
/-- R205: a SYM word writes the shadow of v96, not v96. -/
theorem test_sym : (after (.add (word (vr 96) (vr 1) (vr 1) .i32 0 false { hint with sym := true }))
      (small { regs [(1, 3, 4), (96, 9, 9)] with propOpen := 3 })).map
    (fun c => (c.readY 0 1, c.readV 96 1, get 0 c.propMask 1)) = some (8, 9, 1) := by decide +kernel

/-- R77: lanes whose guard is false do nothing, and the fragment goes on. -/
theorem test_guard : (after (.add { word (vr 1) (vr 2) (vr 2) with guard := 1 }) (small { regs [(2, 1, 1)] with p := [(1, 2)] })).map
    (fun c => (c.readV 1 0, c.readV 1 1, (get {} c.entries 0).pc)) = some (0, 2, 0x1000C) := by decide +kernel
/-- R89's example: the odd lanes go on at 12, the even ones at 36 more. -/
theorem test_bra : (after (.bra { word .none .none .none .i32 0x000C0009 with guard := 1 })
      (small { wide 0xF [] with p := [(1, 5)] })).map (fun c => c.entries.map (fun e => (e.2.mask, e.2.pc, e.2.rpc))) =
    some [(0xF, 0x10030, 0), (5, 0x10024, 0x10030), (0xA, 0x1000C, 0x10030)] := by decide +kernel
/-- R91: CALL writes the return address. -/
theorem test_call : (after (.call (word (vr 4) .none .none .i32 0xFFFFFFFF)) (small)).map
    (fun c => (c.readV 4 1, c.readV 5 1, (get {} c.entries 0).pc)) = some (0x1000C, 0, 0xFFFC) := by decide +kernel
/-- R93: the last lanes end the course. -/
theorem test_exit : after (.exit (word .none .none .none)) (small) = none := by decide +kernel
/-- R94, R231, R232: TRAP enters the handler with code 0x20. -/
theorem test_trap : (after (.trap (word .none .none .none)) (small course {} {} { handler := 0x20000 })).map
    (fun c => (c.trapCause, c.trapPc, c.super, (get {} c.entries 0).pc)) = some (0x20, 0x10000, true, 0x20000) := by decide +kernel
/-- R92: RET `.trap` after TRAP goes on after it. -/
theorem test_ret_trap : (after (.retTrap (word .none .none .none .i32 0 true)) (small { course with
      super := true, trapCause := 0x20, trapPc := 0x500, saved := some { entry := 0, mask := 3, pc := 0x500 } })).map
    (fun c => (c.super, (get {} c.entries 0).pc)) = some (false, 0x50C) := by decide +kernel
/-- R92, R211: a privileged word outside supervisor state traps PERMISSION. -/
theorem test_privilege : (after (.swriteCtl (word .none (vr 2) .none .n64 0 true)) (small course {} {} { handler := 0x20000 })).map
    (fun c => (c.trapCause, c.super)) = some (0x11, true) := by decide +kernel
/-- R131: an address off its alignment traps MISALIGNED, an absent page PAGE_FAULT. -/
theorem test_ld_traps : (after (.ld (word (vr 1) (vr 2) .none .b32)) (small (regs [(2, 0x10000, 0x10002)]) {} {} { handler := 4 })).map
      (fun c => (c.trapCause, c.trapVa, c.trapInfo)) = some (0x0C, 0x10002, 1) ∧
    (after (.ld (word (vr 1) (vr 2) .none .b32)) (small (regs [(2, 0x90000, 0x10000)]) {} {} { handler := 4 })).map
      (fun c => (c.trapCause, c.trapVa)) = some (0x10, 0x90000) := by decide +kernel

/-! ### States and operands that meet the hypotheses of the statements -/

theorem wit_DecodeOfEncode : ∃ (i : Instr) (word : BitVec 96), i.wf = true ∧ encode i = some word :=
  ⟨.add (d123), 0x000100000000000302010020, by decide +kernel, by decide +kernel⟩
theorem wit_EncodeOfDecode : ∃ (i : Instr) (word : BitVec 96), decode word = .ok i := ⟨_, _, test_decode_ffma⟩

/-- The parts of a step that runs a word, where nothing holds it. -/
def stepParts (s : State) : Option (Nat × Nat × Cand × List Nat × Instr) :=
  match s.opportunity with
  | none => none
  | some (core, q, x) =>
    let s₁ : State := { s with turn := 4 * core + q, issuer := { core := x.core, slot := x.slot, entry := x.entry } }
    match s₁.fetchParts x.core (s.grid x.c.grid).asid (lowest x.e.mask) x.e.pc with
    | .error _ => none
    | .ok ps =>
      match decode (s₁.codeWord x.c.grid ps) with
      | .error _ => none
      | .ok i =>
        if s.stands x = true ∧ s.heldBefore x = false ∧ x.c.full ((s₁.codeWord x.c.grid ps).toNat / 2 ^ 85 % 8) = false ∧
          (s₁.fetched x.core x.c.grid ps).childHeld x i = false ∧ (s₁.fetched x.core x.c.grid ps).stands x = true then
          some (core, q, x, ps, i) else none

/-- The first state that an ADD is placed in; with `det`, of a deterministic grid whose first holder has not issued. -/
def stepping (det : Bool) : State :=
  let s := State.reset.withFetchWord 96 0x000100000000000302010020
  if det then { s.mapCourse 0 0 (fun c => { c with det := true }) with
    grids := s.grids.map (fun p => (p.1, { p.2 with token := some 0 })) } else s

theorem stepParts_meets {s : State} {b : Bool}
    (h : (match stepParts s with
      | some (core, q, x, ps, i) =>
        let s₁ : State := { s with turn := 4 * core + q, issuer := { core := x.core, slot := x.slot, entry := x.entry } }
        let s₂ := s₁.fetched x.core x.c.grid ps
        s₂.tokenStarts x.c == b && decide (s.course? x.core x.slot = some x.c) &&
          (match exec i s₂ with | .next t => !t.heldAt x | _ => false)
      | none => false) = true) :
    ∃ core quadrant x ps i,
      let s₁ : State := { s with turn := 4 * core + quadrant, issuer := { core := x.core, slot := x.slot, entry := x.entry } }
      let s₂ := s₁.fetched x.core x.c.grid ps
      s.opportunity = some (core, quadrant, x) ∧ s.stands x = true ∧ s.heldBefore x = false ∧
      s₁.fetchParts x.core (s.grid x.c.grid).asid (lowest x.e.mask) x.e.pc = .ok ps ∧
      decode (s₁.codeWord x.c.grid ps) = .ok i ∧ x.c.full ((s₁.codeWord x.c.grid ps).toNat / 2 ^ 85 % 8) = false ∧
      s₂.childHeld x i = false ∧ s₂.stands x = true ∧ s₂.tokenStarts x.c = b ∧ s.course? x.core x.slot = some x.c ∧
      ∃ t, exec i s₂ = .next t ∧ t.heldAt x = false := by
  cases hs : stepParts s with
  | none => simp [hs] at h
  | some r =>
    obtain ⟨core, q, x, ps, i⟩ := r
    simp only [hs, Bool.and_eq_true, beq_iff_eq, decide_eq_true_eq] at h
    unfold stepParts at hs
    split at hs
    · cases hs
    · rename_i core' q' x' ho
      dsimp only at hs
      split at hs
      · cases hs
      · rename_i ps' hp
        split at hs
        · cases hs
        · rename_i i' hd
          split at hs
          · rename_i hc
            simp only [Option.some.injEq, Prod.mk.injEq] at hs
            obtain ⟨rfl, rfl, rfl, rfl, rfl⟩ := hs
            refine ⟨core', q', x', ps', i', ho, hc.1, hc.2.1, hp, hd, hc.2.2.1, hc.2.2.2.1, hc.2.2.2.2, h.1.1, h.1.2, ?_⟩
            have h2 := h.2
            split at h2
            · rename_i t ht; exact ⟨t, ht, by simpa using h2⟩
            · cases h2
          · cases hs

/-- The ADD stands at the pc, and nothing holds it; in the second state it is the first word of the token's first holder. -/
theorem wit_StepRunsDecoded (b : Bool) : ∃ (s : State), s.prompt = none ∧ s.agenda = [] ∧ s.softErrors = [] ∧
    ∃ core quadrant x ps i,
      let s₁ : State := { s with turn := 4 * core + quadrant, issuer := { core := x.core, slot := x.slot, entry := x.entry } }
      let s₂ := s₁.fetched x.core x.c.grid ps
      s.opportunity = some (core, quadrant, x) ∧ s.stands x = true ∧ s.heldBefore x = false ∧
      s₁.fetchParts x.core (s.grid x.c.grid).asid (lowest x.e.mask) x.e.pc = .ok ps ∧
      decode (s₁.codeWord x.c.grid ps) = .ok i ∧ x.c.full ((s₁.codeWord x.c.grid ps).toNat / 2 ^ 85 % 8) = false ∧
      s₂.childHeld x i = false ∧ s₂.stands x = true ∧ s₂.tokenStarts x.c = b ∧ s.course? x.core x.slot = some x.c ∧
      ∃ t, exec i s₂ = .next t ∧ t.heldAt x = false := by
  refine ⟨stepping b, ?_, ?_, ?_, stepParts_meets ?_⟩ <;> cases b <;> decide +kernel

theorem wit_StepKeepsMemory : ∃ s t : State, Memory.wf s.mem ∧ step s = .next t :=
  ⟨State.reset, _, by decide +kernel, rfl⟩

theorem wit_IntegerArithmetic : Meets (small) (d246 .i64) (fun _ => destOk (d246 .i64) = true) ∧
    Meets (small) (sat (word (sr 1) (sr 2) .zero .i8 0 false { hint with uniform := true })) (fun _ =>
      destOk (word (sr 1) (sr 2) .zero .i8 0 false { hint with uniform := true }) = true) :=
  ⟨meets (by decide +kernel) (by decide +kernel), meets (by decide +kernel) (by decide +kernel)⟩
/-- The divisor 0, the one quotient out of range, and another. -/
theorem wit_IntegerDivision : Meets (small (regs [(2, 5, 0x80000000), (3, 0, 0xFFFFFFFF)])) (d123) (fun f =>
    destOk (d123) = true ∧ intOf .i32 ((small (regs [(2, 5, 0x80000000), (3, 0, 0xFFFFFFFF)])).b f (d123) 0) = 0 ∧
    intOf .i32 ((small (regs [(2, 5, 0x80000000), (3, 0, 0xFFFFFFFF)])).a f (d123) 1) = tyLo .i32) :=
  meets (by decide +kernel) (by decide +kernel)
theorem wit_ShiftsAndBits :
    Meets (small) (d123 .b32) (fun _ => destOk (d123 .b32) = true) ∧ Meets (small) (d246 .n64) (fun _ => destOk (d246 .n64) = true) ∧
    Meets (small) (d123 .i32) (fun _ => destOk (d123 .i32) = true) ∧ Meets (small) (d246 .i64) (fun _ => destOk (d246 .i64) = true) ∧
    Meets (small) (d123 .n32) (fun _ => destOk (d123 .n32) = true) :=
  ⟨meets (by decide +kernel) (by decide +kernel), meets (by decide +kernel) (by decide +kernel),
   meets (by decide +kernel) (by decide +kernel), meets (by decide +kernel) (by decide +kernel),
   meets (by decide +kernel) (by decide +kernel)⟩
theorem wit_SelectAndCompare : Meets (small) (d246 .n64) (fun _ => destOk (d246 .n64) = true) ∧
    Meets (small) (word (pr 1) (vr 2) (vr 3)) (fun _ => True) :=
  ⟨meets (by decide +kernel) (by decide +kernel), meets (by decide +kernel) trivial⟩
theorem wit_FloatArithmetic : ∀ p ∈ [d123 .f32, d246 .f64, d123 .f16, d123 .bf16], Meets (small) p (fun _ =>
    destOk p = true ∧ p.ty ∈ [Ty.f32, .f64, .f16, .bf16]) := by
  intro p hp
  refine meets (w := p) ?_ ?_ <;> revert p <;> decide +kernel
/-- A number in range, one that overflows, one that RNE takes beyond the largest number, and one that two numbers lie equally near. -/
theorem wit_RoundingIsFaithful : ∃ (t : Ty) (m : Nat), tyFloat t = true ∧ m ≠ 0 ∧
    ((fmtOf t).round .rne false false m 0).2 &&& Flags.overflow = 0 ∧ ((fmtOf t).round .rne false false m 200).2 &&& Flags.overflow ≠ 0 ∧
    (fmtOf t).inf = true ∧ 2 ^ ((fmtOf t).maxQ - 1) * (2 * ((fmtOf t).maxM : ℚ) + 1) ≤ |Exact false m 200| :=
  ⟨.f32, 2 ^ 24 + 1, by decide +kernel, by decide +kernel, by decide +kernel, by decide +kernel, by decide +kernel, by
    have h1 : (fmtOf .f32).maxQ = 104 := by decide +kernel
    have h2 : (fmtOf .f32).maxM = 2 ^ 24 - 1 := by decide +kernel
    rw [h1, h2]; norm_num [Exact]⟩
theorem wit_FloatSelect : (∀ p ∈ [d123 .f32, d246 .f64, d123 .f16, d123 .bf16, d123 .e4m3, word (vr 1) (vr 2) (vr 4) .f16, d123 .e5m2],
      Meets (small) p (fun _ => destOk p = true)) ∧
    Meets (small) (word (pr 1) (vr 2) (vr 3) .f32 0 true) (fun _ => True) := by
  refine ⟨fun p hp => ?_, meets (by decide +kernel) trivial⟩
  refine meets (w := p) ?_ ?_ <;> revert p <;> decide +kernel
/-- The words, a number on either side of the threshold of the exponential, and each special input. -/
theorem wit_Transcendentals : Meets (small) (d12) (fun _ => destOk (d12) = true) ∧
    Meets (small) (word (vr 2) (vr 4) .none .f64) (fun _ => destOk (word (vr 2) (vr 4) .none .f64) = true) ∧
    (∃ m e, (fmtOf .f32).decode 0x42800000 = .fin false m e ∧ m ≠ 0) ∧ (fmtOf .f32).decode 0x7F800001 = .nan true ∧
    (fmtOf .f32).decode 0xFF800000 = .inf true ∧ (∃ e, (fmtOf .f32).decode 0x80000000 = .fin true 0 e) ∧
    (∃ m e, (fmtOf .f32).decode 0xBF800000 = .fin true m e ∧ m ≠ 0) :=
  ⟨meets (by decide +kernel) (by decide +kernel), meets (by decide +kernel) (by decide +kernel),
   ⟨2 ^ 23, -17, by decide +kernel, by decide⟩, by decide +kernel, by decide +kernel, ⟨-149, by decide +kernel⟩,
   ⟨2 ^ 23, -23, by decide +kernel, by decide⟩⟩
/-- The fast reciprocals of 2 are finite, whatever is picked. -/
theorem fast_picks (fn : TFn) (f : Fmt) (bits : W64) (neg : Bool) (m : Nat) (e : Int) (P : W64 → Bool)
    (h : (match f.decode ((fn.settle f .rne neg m e precisions).rounds f .rne).1.1 with | .nan _ => false | _ => true) = true)
    (hp : P ((fn.settle f .rne neg m e precisions).rounds f .rne).1.1 = true)
    (hc : (([-5, -4, -3, -2, -1, 0, 1, 2, 3, 4, 5] : List Int).flatMap (fun (d : Int) =>
      (f.atPlace (f.place ((fn.settle f .rne neg m e precisions).rounds f .rne).1.1 + d)).filter (fun y =>
        y == ((fn.settle f .rne neg m e precisions).rounds f .rne).1.1 || (fn.settle f .rne neg m e precisions).within f y))).all P = true) :
    P (fn.fast f false bits neg m e).1 = true := by
  unfold TFn.fast
  dsimp only
  split
  · rename_i hn; rw [hn] at h; cases h
  · rw [List.getD_eq_getElem?_getD]
    rcases hg : ((([-5, -4, -3, -2, -1, 0, 1, 2, 3, 4, 5] : List Int).flatMap (fun (d : Int) =>
      (f.atPlace (f.place ((fn.settle f .rne neg m e precisions).rounds f .rne).1.1 + d)).filter (fun y =>
        y == ((fn.settle f .rne neg m e precisions).rounds f .rne).1.1 || (fn.settle f .rne neg m e precisions).within f y))))[_]? with _ | y
    · simpa using hp
    · exact List.all_eq_true.mp hc y (List.mem_of_getElem? hg)
theorem fin_of {f : Fmt} {y : W64} (h : (match f.decode y with | .fin _ _ _ => true | _ => false) = true) :
    ∃ neg m e, f.decode y = .fin neg m e := by
  split at h
  · exact ⟨_, _, _, by assumption⟩
  · cases h
theorem wit_FastReciprocals : (fmtOf .f32).decode 0x40000000 = .fin false (2 ^ 23) (-22) ∧
    (∀ fn ∈ [TFn.rcp, .rsq], ∃ neg m e, (fmtOf .f32).decode (fn.apply .fast false .f32 .rne 0x40000000).1 = .fin neg m e) ∧
    ((2 : ℚ) ^ (-1 : Int) * Exact false (2 ^ 23) (-22) ≤ 1 ∧ 1 < (2 : ℚ) ^ ((-1 : Int) + 1) * Exact false (2 ^ 23) (-22)) ∧
    ((2 : ℚ) ^ (-1 : Int) * 2 ^ (-1 : Int) * Exact false (2 ^ 23) (-22) ≤ 1 ∧
      1 < (2 : ℚ) ^ ((-1 : Int) + 1) * 2 ^ ((-1 : Int) + 1) * Exact false (2 ^ 23) (-22)) := by
  refine ⟨by decide +kernel, fun fn hf => fin_of ?_, by norm_num [Exact], by norm_num [Exact]⟩
  have hd : (fmtOf .f32).decode 0x40000000 = .fin false (2 ^ 23) (-22) := by decide +kernel
  have ha : fn.apply .fast false .f32 .rne 0x40000000 = fn.fast (fmtOf .f32) false 0x40000000 false (2 ^ 23) (-22) := by
    simp only [TFn.apply, hd]; fin_cases hf <;> simp [show tyWide .f32 = false from rfl]
  rw [ha]
  apply fast_picks (P := fun y => match (fmtOf .f32).decode y with | .fin _ _ _ => true | _ => false) <;>
    fin_cases hf <;> decide +kernel
theorem wit_Conversions : Meets (small) (word (vr 1) (vr 2) .none .i32 8) (fun _ =>
      destOk (word (vr 1) (vr 2) .none .i32 8) = true ∧ tyAt 8 ≠ .b32) ∧
    Meets (small) (d123 .i8) (fun _ => destOk (d123 .i8) = true ∧ tyBits .i8 = 8) ∧
    Meets (small) (d123 .f16) (fun _ => destOk (d123 .f16) = true ∧ tyBits .f16 = 16) ∧
    Meets (small) (d123 .b32) (fun _ => destOk (d123 .b32) = true) :=
  ⟨meets (by decide +kernel) (by decide +kernel), meets (by decide +kernel) (by decide +kernel),
   meets (by decide +kernel) (by decide +kernel), meets (by decide +kernel) (by decide +kernel)⟩
theorem wit_IssueGates : let n (hints : Hints) : Instr := .nop (word .none .none .none .i32 0 false hints)
    let f (s : State) := fragOf s (word .none .none .none)
    (let s := small { course with counts := { load := 63 } }
     Encoding.wordOf (n { hint with bump := 1 }) = some (0, word .none .none .none .i32 0 false { hint with bump := 1 }) ∧
      (f s).c.counts.read 1 = 63) ∧
    (let s := small course {} {} { mode := 2, budget := 0 }
     ((s.ctx (f s).asid).mode.getLsbD 1 = true ∧ (s.ctx (f s).asid).budget = 0) ∧ s.gated (f s) (word .none .none .none) = true) ∧
    (let s := small; let w : Fields := { word .none .none .none with guard := 1 }
     s.gated (fragOf s w) w = false ∧ (fragOf s w).exec = 0) ∧
    (let s := small
     s.gated (f s) (word .none .none .none) = false ∧ (f s).exec &&& ~~~ (f s).c.propOpen ≠ 0) := by decide +kernel

/-- An operation of the small states' course that is on its way, and a state with it. -/
def flight (kind : OpKind) (sym : Bool := false) (shared : Bool := false) : Op :=
  { id := 2, core := 0, slot := 0, stamp := 3, entry := 0, team := 2, grid := 1, asid := 0, strict := false, sym, cls := 2, kind, shared }
def flying (s : State) (o : Op) : State := { s with ops := [o] }
/-- A store on its way. -/
def storing : OpKind := .store .global {} [{ lane := 0, va := 0x10000, pa := 0x10000, size := 4 }] []

theorem wit_PredicateLogic : ∀ p ∈ [word (pr 1) (pr 2) (.pred true 31), word (vr 1) (pr 2) .none .i32 3, word (pr 0) (pr 2) .none .i32 1,
      word (pr 1) (pr 2) .none .i32 2], Meets (small) p (fun _ => p.hints.uniform = false) := by
  intro p hp
  refine meets (w := p) ?_ ?_ <;> revert p <;> decide +kernel
theorem wit_LaneMoves : ∀ p ∈ [word (vr 1) (pr 2) .none, word (vr 1) (vr 2) (vr 3) .b32 31, word (vr 2) (vr 4) (vr 6) .n64 0 true,
      d12 .f32, word (vr 1) (vr 2) .none .b32 5], Meets (small (wide 0xFFFFFFFF [])) p (fun f =>
    destOk p = true ∧ p.hints.uniform = false ∧ 1 < (lanesOf f.exec).length) := by
  intro p hp
  refine meets (w := p) ?_ ?_ <;> revert p <;> decide +kernel

/-- A course in supervisor state. -/
def sup : Course := { course with super := true, trapCause := 0x21, trapPc := 0x10000,
                                  saved := some { entry := 0, mask := 3, pc := 0x10000 } }
/-- A packet that makes a grid one team of one course. -/
def grid1 : Grid := { packet := BitVec.ofNat 512 (2 ^ 96 + 2 ^ 128 + 2 ^ 160) }

theorem wit_RegisterRead : Meets (small course {} {} {} grid1) (word (vr 2) (.special .clock) .none .n64) (fun _ =>
      destOk (word (vr 2) (.special .clock) .none .n64) = true ∧ grid1.gx ≠ 0 ∧ grid1.gy ≠ 0) ∧
    Meets (small sup) (word (vr 2) .none .none .n64 0x200 true) (fun f => f.c.super = true ∧
      ((small sup).readCtl f.asid (some (f.core, f.c)) 0x200).isSome = true) ∧
    Meets (small) (word (vr 1) (.code 0x6F) .none .b32) (fun _ => destOk (word (vr 1) (.code 0x6F) .none .b32) = true) ∧
    Meets (small) (word (vr 2) (.code 0x60) .none .n64) (fun _ => destOk (word (vr 2) (.code 0x60) .none .n64) = true) :=
  ⟨meets (by decide +kernel) (by decide +kernel), meets (by decide +kernel) (by decide +kernel),
   meets (by decide +kernel) (by decide +kernel), meets (by decide +kernel) (by decide +kernel)⟩
theorem wit_SpecialWrite : ∀ n ∈ [0xD1#8, 0xD2#8, 0xD3#8, 0xD4#8, 0xD5#8, 0xD7#8, 0xD8#8, 0xDD#8],
    Meets (small sup) (word (.code n) (vr 2) .none .b32) (fun f => f.c.super = true) := by
  intro n hn
  refine meets ?_ ?_ <;> revert n <;> decide +kernel
/-- LEASE, VTARGET and HANDLER: a register of 32 bits at the ends of its range, and one of 64. -/
theorem wit_ControlWrite : Meets (small sup) (word .none (vr 2) .none .n64 0x200 true) (fun f => f.c.super = true) ∧
    (∀ p ∈ [(0x205, 560), (0x205, 650), (0x200, 0x20000), (0x201, 0x1000)],
      (ctlInfo p.1).map (·.1) = some .sv → ((small).writeCtl 0 p.1 true p.2).isSome = true) ∧
    (List.range 0x300).any (fun i => (ctlInfo i).map (·.1) == some .sv && ((small).writeCtl 0 i true 0).isSome) = true := by
  exact ⟨meets (by decide +kernel) (by decide +kernel), by decide +kernel, by decide +kernel⟩
theorem wit_Privilege : ∀ n ∈ [0xD1#8, 0xD2#8, 0xD7#8, 0xD8#8, 0xDD#8],
    Meets (small) (word (.code n) (vr 2) .none .b32) (fun f => f.c.super = false) := by
  intro n hn
  refine meets ?_ ?_ <;> revert n <;> decide +kernel

/-- PROP with no proposal open; ACCEPT and PDROP with both open and u at both ends of [0, 1]; the decision's inputs. -/
theorem wit_Proposals : Meets (small) (word .none .none .none) (fun f => f.exec &&& f.c.propOpen = 0) ∧
    Meets (small { regs [(2, 0xBF800000, 0x7FC00000), (3, 0, 0x3F800000)] with propOpen := 3 }) (word (pr 1) (vr 2) (vr 3) .f32)
      (fun f =>
        let s := small { regs [(2, 0xBF800000, 0x7FC00000), (3, 0, 0x3F800000)] with propOpen := 3 }
        s.shadowsPending f.c.stamp = false ∧ f.exec &&& ~~~ f.c.propOpen = 0 ∧
        ∀ L ∈ lanesOf f.exec, inUnit ((fmtOf .f32).decode (s.b f (word (pr 1) (vr 2) (vr 3) .f32) L)) = true) ∧
    (fmtOf .f32).decode 0xFF800000 = .inf true ∧ (fmtOf .f32).decode 0x7F800000 = .inf false ∧
    ((fmtOf .f32).decode 0x7FC00000).isNan = true ∧ (∃ n e, (fmtOf .f32).decode 0 = .fin n 0 e) ∧
    (∃ m e, (fmtOf .f32).decode 0x3F800000 = .fin false m e) :=
  ⟨meets (by decide +kernel) (by decide +kernel), meets (by decide +kernel) (by decide +kernel), by decide +kernel,
   by decide +kernel, by decide +kernel, ⟨false, -149, by decide +kernel⟩, ⟨2 ^ 23, -23, by decide +kernel⟩⟩

/-- A grid with two variants, of sizes 32 and 64. -/
def variants : Grid := { ext := some (BitVec.ofNat 1024 (32 + 2 ^ 64 * 64 + 2 ^ 96 * 0x40 + 2 ^ 513)) }

theorem wit_PlainControl : Meets (small course {} {} {} variants) (word .none .imm .none .i32 40) (fun f => f.exec = f.active ∧
      variants.variants = [(32, 0), (64, 0x40)] ∧
      (small course {} {} {} variants).aWord f (word .none .imm .none .i32 40) 0 = 40) ∧
    Meets (small) (word .none .imm .none .i32 40) (fun f => f.exec = f.active) ∧
    Meets (small { course with det := true, token := true }) (word .none .none .none) (fun f =>
      (f.c.det && f.c.token) = true ∧ (small { course with det := true, token := true }).sharedPending f.c.stamp = false) ∧
    Meets (small) (word .none .none .none) (fun f => (f.c.det && f.c.token) = false) :=
  ⟨meets (by decide +kernel) (by decide +kernel), meets (by decide +kernel) (by decide +kernel),
   meets (by decide +kernel) (by decide +kernel), meets (by decide +kernel) (by decide +kernel)⟩
/-- BRA that parts its lanes, one that does not, and BRX to good addresses, to one of 2⁵⁷, and to one off four bytes. -/
theorem wit_Branches :
    Meets (small { course with p := [(1, 1)] }) { word .none .none .none .i32 0x00030002 with guard := 1 } (fun f =>
      (∃ K ∈ lanesOf f.active, ∃ L ∈ lanesOf f.active,
        (if f.exec.getLsbD K then addPc f.pc (off16 0x00030002 0) else addPc f.pc 12) ≠
        (if f.exec.getLsbD L then addPc f.pc (off16 0x00030002 0) else addPc f.pc 12)) ∧ off16 0x00030002 16 ≠ 0) ∧
    Meets (small) (word .none .none .none .i32 2) (fun f => (∀ L ∈ lanesOf f.active,
      (if f.exec.getLsbD L then addPc f.pc (off16 2 0) else addPc f.pc 12) = 0x10008) ∧ off16 2 16 = 0) :=
  ⟨meets (by decide +kernel) (by decide +kernel), meets (by decide +kernel) (by decide +kernel)⟩
theorem wit_Branches_brx : let w := word .none (vr 2) .none
    let far := small (regs [(2, 0xFFFFFFFC, 0x10000), (3, 0x01FFFFFF, 0x02000000)])
    let odd := small (regs [(2, 0x10000, 0x10002)])
    Meets far w (fun f => (∃ L ∈ lanesOf f.exec, 2 ^ 57 ≤ (far.src f w .n64 L (vr 2)).toNat) ∧
      (far.src f w .n64 0 (vr 2)).toNat < 2 ^ 57 ∧ (far.src f w .n64 0 (vr 2)).toNat % 4 = 0) ∧
    Meets odd w (fun f => (∀ K ∈ lanesOf f.exec, (odd.src f w .n64 K (vr 2)).toNat < 2 ^ 57) ∧
      (odd.src f w .n64 1 (vr 2)).toNat % 4 ≠ 0 ∧ (odd.src f w .n64 0 (vr 2)).toNat % 4 = 0) :=
  ⟨meets (by decide +kernel) (by decide +kernel), meets (by decide +kernel) (by decide +kernel)⟩
theorem wit_CallAndReturn : Meets (small (regs [(2, 0x10000, 0x10000)])) (word (vr 4) (vr 2) .none .i32 0 true) (fun f =>
      f.exec = f.active ∧ destOk (word (vr 4) (vr 2) .none .i32 0 true) = true ∧
      ∀ L ∈ lanesOf f.exec, (small (regs [(2, 0x10000, 0x10000)])).src f (word (vr 4) (vr 2) .none .i32 0 true) .n64 L (vr 2) = 0x10000) ∧
    Meets (small { course with p := [(1, 1)] }) { word (vr 4) .none .none with guard := 1 } (fun f => f.exec ≠ f.active) :=
  ⟨meets (by decide +kernel) (by decide +kernel), meets (by decide +kernel) (by decide +kernel)⟩
/-- The last lanes of a team's only course; a part of a fragment's lanes; the holder of the token with and without a write to a
shared region on its way. -/
theorem wit_ExitEndsLanes : Meets (small) (word .none .none .none) (fun f => (f.c.entries.map (·.1)).Nodup ∧
      f.c.liveLanes &&& ~~~ f.exec = 0 ∧ f.c.det = false ∧
      ((small).team f.c.team).slots.filter (fun k => k != f.slot) = []) ∧
    Meets (small { course with p := [(1, 1)], det := true, token := true }) { word .none .none .none with guard := 1 } (fun f =>
      (f.c.entries.map (·.1)).Nodup ∧ ¬ f.c.liveLanes &&& ~~~ f.exec = 0 ∧ f.exec ≠ f.active) ∧
    (∀ b : Bool, let o : Op :=
        { id := 2, core := 0, slot := 0, stamp := 3, entry := 0, team := 2, grid := 1, asid := 0, strict := false, sym := false,
          cls := 2, kind := .store .global {} [{ lane := 0, va := 0x10000, pa := 0x10000, size := 4 }] [], shared := b }
      let s : State := { small { course with det := true, token := true } with ops := [o] }
      Meets s (word .none .none .none) (fun f => (f.c.det && f.c.token) = true ∧ f.c.liveLanes &&& ~~~ f.exec = 0 ∧
        s.sharedPending f.c.stamp = b)) := by
  refine ⟨meets (by decide +kernel) (by decide +kernel), meets (by decide +kernel) (by decide +kernel), fun b => ?_⟩
  cases b <;> exact meets (by decide +kernel) (by decide +kernel)

theorem wit_TrapTaken :
    (let s := small course {} {} { handler := 0x20000 }
     s.course? 0 0 = some course ∧ (lookup? course.entries 0).isSome = true ∧ course.super = false ∧
     (s.ctx (s.grid course.grid).asid).handler ≠ 0 ∧ s.outstanding course.stamp = false) ∧
    (let s := small sup
     s.course? 0 0 = some sup ∧ ∃ team, lookup? s.teams sup.team = some team ∧ team.core = 0 ∧ 0 ∈ team.slots ∧ sup.super = true) ∧
    (let s := small
     s.course? 0 0 = some course ∧ (s.ctx (s.grid course.grid).asid).handler = 0) ∧
    Meets (small) (word .none .none .none .i32 0xFFFF) (fun _ => True) :=
  ⟨by decide +kernel, ⟨by decide +kernel, { grid := 1, slots := [0] }, by decide +kernel⟩, by decide +kernel,
   meets (by decide +kernel) trivial⟩
/-- The fragment that holds every saved lane, and one whose other lane lives in a second entry. -/
theorem wit_ReturnFromTrap :
    (let v : Saved := { entry := 0, mask := 3, pc := 0x10000 }
     Meets (small sup) (word .none .none .none .i32 0 true) (fun f => f.c.super = true ∧ f.c.saved = some v ∧
       (lookup? f.c.entries v.entry).isSome = true ∧ (v.mask &&& f.c.liveLanes) &&& ~~~ f.active = 0 ∧
       f.c.live.filter (f.c.inside v.entry) = [] ∧ (f.c.framesOf v.entry).length ≤ v.frames) ∧
     Meets (small { sup with entries := [(0, { mask := 1, valid := true, pc := 0x10000 }), (1, { mask := 2, valid := true, pc := 4 })] })
       (word .none .none .none .i32 0 true) (fun f => f.c.super = true ∧ f.c.saved = some v ∧
         (lookup? f.c.entries v.entry).isSome = true ∧ (v.mask &&& f.c.liveLanes) &&& ~~~ f.active ≠ 0)) :=
  ⟨meets (by decide +kernel) (by decide +kernel), meets (by decide +kernel) (by decide +kernel)⟩
/-- Packets of both lanes at the tenth level, the last one at the end of its page; one off 64 bytes; a level too deep. -/
theorem wit_LaunchSubmits : let w := word (vr 1) (vr 2) .none
    (let s := small (regs [(2, 0x10040, 0x10FC0)]) {} {} {} { depth := 9 : Grid }
     Meets s w (fun f => (s.grid f.c.grid).depth < 10 ∧ (get {} f.c.entries f.entry).launched = 0 ∧
       s.releasable f.core f.c.stamp 3 = true ∧
       (∀ L ∈ lanesOf f.exec, let a := s.src f w .n64 L w.a
         a.toNat < 2 ^ 57 ∧ a.toNat % 64 = 0 ∧
         ∃ pa ∈ [0x10040, 0x10FC0], s.translate f.core f.asid a.toNat = .page ⟨pa, 12, true, true, true, false, false⟩ ∧
           (homeOf pa).inScope 3 = true) ∧ (s.ctx f.asid).children = [] ∧ laneCount f.exec ≤ 64)) ∧
    (let s := small (regs [(2, 0x10040, 0x10FC4)])
     Meets s w (fun f => (s.grid f.c.grid).depth < 10 ∧ 1 ∈ lanesOf f.exec ∧ (s.src f w .n64 1 w.a).toNat % 64 ≠ 0 ∧
       (s.src f w .n64 0 w.a).toNat % 64 = 0)) ∧
    Meets (small course {} {} {} { depth := 10 : Grid }) w (fun f =>
      10 ≤ ((small course {} {} {} { depth := 10 : Grid }).grid f.c.grid).depth) :=
  ⟨meets (by decide +kernel) (by decide +kernel), meets (by decide +kernel) (by decide +kernel),
   meets (by decide +kernel) (by decide +kernel)⟩

/-! ### Further cases -/

/-- SREAD `.ctl` of a number that no register has; SWRITE `.ctl` of a value beyond its limits; a queue's tail while a store is on its
way. -/
theorem wit_RegisterRead_undefined : Meets (small sup) (word (vr 2) .none .none .n64 0xFFF true) (fun f => f.c.super = true ∧
    (small sup).readCtl f.asid (some (f.core, f.c)) 0xFFF = none) ∧ ctlInfo 0xFFF = none ∧
    ctlInfo 0x200 = some (.sv, true) := ⟨meets (by decide +kernel) (by decide +kernel), by decide +kernel, by decide +kernel⟩
theorem wit_ControlWrite_held : Meets (small sup) (word .none (vr 2) .none .n64 0x202 true) (fun f => f.c.super = true ∧
      (small sup).writeCtl f.asid 0x202 true 0 = none) ∧
    (let s := flying (small sup) (flight storing)
     Meets s (word .none (vr 2) .none .b32 0x118 true) (fun f => f.c.super = true ∧ (s.writeCtl f.asid 0x118 false 0).isSome = true ∧
       s.releasable f.core f.c.stamp 5 = false)) ∧ isTail 0x118 = true ∧
    Meets (small sup) (word .none (vr 2) .none .b32 0x118 true) (fun f => (small sup).releasable f.core f.c.stamp 5 = true) :=
  ⟨meets (by decide +kernel) (by decide +kernel), meets (by decide +kernel) (by decide +kernel), by decide +kernel,
   meets (by decide +kernel) (by decide +kernel)⟩
theorem wit_Privilege_requests : (small).captures = [] ∧ (small).restores = [] := ⟨rfl, rfl⟩
/-- A second PROP; ACCEPT with no proposal open, with a shadow result on its way, and with u = 2; a negative log ratio and u = 1/2. -/
theorem wit_Proposals_refused : let w := word (pr 1) (vr 2) (vr 3) .f32
    let open_ := small { regs [(2, 0xBF800000, 0), (3, 0x40000000, 0)] with propOpen := 3 }
    Meets open_ (word .none .none .none) (fun f => f.exec &&& f.c.propOpen ≠ 0) ∧
    (let s := flying open_ (flight storing true); Meets s w (fun f => s.shadowsPending f.c.stamp = true)) ∧
    Meets (small) w (fun f => (small).shadowsPending f.c.stamp = false ∧ f.exec &&& ~~~ f.c.propOpen ≠ 0) ∧
    Meets open_ w (fun f => f.exec &&& ~~~ f.c.propOpen = 0 ∧
      ∃ L ∈ lanesOf f.exec, inUnit ((fmtOf .f32).decode (open_.b f w L)) = false) ∧
    (∃ m e, (fmtOf .f32).decode 0xBF800000 = .fin true m e) ∧ (fmtOf .f32).decode 0x3F000000 = .fin false (2 ^ 23) (-24) ∧
    0 ≤ (Fp.fin false (2 ^ 23) (-24)).val ∧ (Fp.fin false (2 ^ 23) (-24)).val ≤ 1 :=
  ⟨meets (by decide +kernel) (by decide +kernel), meets (by decide +kernel) (by decide +kernel),
   meets (by decide +kernel) (by decide +kernel), meets (by decide +kernel) ⟨by decide +kernel, 0, by decide +kernel, by decide +kernel⟩,
   ⟨2 ^ 23, -23, by decide +kernel⟩, by decide +kernel, by norm_num [Fp.val, Exact], by norm_num [Fp.val, Exact]⟩

/-- A deterministic grid of two courses whose first holds the token, and a write of it to a shared region on its way. -/
def holder : Grid := { det := true, token := some 0, packet := grid1.packet, krec := BitVec.ofNat 256 (2 ^ 97) }
def holding : State := small { course with det := true, token := true } {} {} {} holder
theorem wit_PlainControl_token : Meets holding (word .none .none .none) (fun f => (f.c.det && f.token) = true ∧
      holding.sharedPending f.c.stamp = false ∧ (holding.grid f.c.grid).token = some 0) ∧
    (let s := flying holding (flight storing false true)
     Meets s (word .none .none .none) (fun f => (f.c.det && f.token) = true ∧ s.sharedPending f.c.stamp = true)) ∧
    Meets (small) (word .none .none .none) (fun f => (f.c.det && f.token) = false) :=
  ⟨meets (by decide +kernel) (by decide +kernel), meets (by decide +kernel) (by decide +kernel),
   meets (by decide +kernel) (by decide +kernel)⟩
theorem wit_ExitEndsLanes_token : Meets holding (word .none .none .none) (fun f => (f.c.entries.map (·.1)).Nodup ∧
    f.c.liveLanes &&& ~~~ f.exec = 0 ∧ holding.sharedPending f.c.stamp = false ∧ (holding.grid f.c.grid).det = true ∧
    (holding.grid f.c.grid).token = some ((holding.team f.c.team).linear * 16 + f.c.index) ∧ f.c.index < 16 ∧
    f.c.index < (holding.grid f.c.grid).courses ∧ (holding.team f.c.team).linear < (holding.grid f.c.grid).teams) :=
  meets (by decide +kernel) (by decide +kernel)
/-- LAUNCH with a store on its way, and with its child queue full. -/
theorem wit_LaunchSubmits_waits : let w := word (vr 1) (vr 2) .none
    let child : Child := { queue := 0, packet := 0, parent := 1, op := 0, core := 0, slot := 0, stamp := 3, lane := 0, file := .v, reg := 1 }
    (let s := flying (small (regs [(2, 0x10040, 0x10FC0)])) (flight storing)
     Meets s w (fun f => (s.grid f.c.grid).depth < 10 ∧ (∀ L ∈ lanesOf f.exec, (s.src f w .n64 L w.a).toNat % 64 = 0) ∧
       s.releasable f.core f.c.stamp 3 = false)) ∧
    (let s := small (regs [(2, 0x10040, 0x10FC0)]) {} {} { children := List.replicate 64 child }
     Meets s w (fun f => (get {} f.c.entries f.entry).launched = 0 ∧ s.releasable f.core f.c.stamp 3 = true ∧
       64 ≤ ((s.ctx f.asid).children.filter (fun k =>
         k.queue == field (BitVec.ofNat 512 (s.readNat 0x10040 64)) 86 3 && k.status.isNone)).length ∧
       ∀ L ∈ lanesOf f.exec, let a := s.src f w .n64 L w.a
         ∃ pa ∈ [0x10040, 0x10FC0], s.translate f.core f.asid a.toNat = .page ⟨pa, 12, true, true, true, false, false⟩)) :=
  ⟨meets (by decide +kernel) (by decide +kernel), meets (by decide +kernel) (by decide +kernel)⟩

/-- Checks that pass. -/
def passes {ε α : Type} (e : Except ε α) : Bool :=
  match e with
  | .ok _ => true
  | .error _ => false

theorem passes_ok {ε α : Type} {e : Except ε α} (h : passes e = true) : ∃ x, e = .ok x := by
  cases e with
  | ok x => exact ⟨x, rfl⟩
  | error _ => cases h

def page0 : Page := { pa := 0x10000, bits := 12, read := true, write := true, exec := true, cow := false, dedup := false }

/-- Addresses at the ends of a page that grants everything; one of 2⁵⁷; one off its alignment; one absent. A page that grants
no write, and one whose home is a link that is down. -/
theorem wit_AccessChecks :
    ((small).translate 0 0 0x10000 = .page page0 ∧ (small).translate 0 0 0x10FFC = .page { page0 with pa := 0x10FFC } ∧
      page0.read = true ∧ page0.write = true ∧ (homeOf 0x10FFC).inScope 5 = true ∧ (∀ l, homeOf 0x10FFC ≠ .peer l)) ∧
    ¬ (0x200000000000000 : W64).toNat < 2 ^ 57 ∧ (0x1FFFFFFFFFFFFFF : W64).toNat < 2 ^ 57 ∧
    (0x10002 : Nat) % 4 ≠ 0 ∧ (small).translate 0 0 0x11000 = .absent ∧
    ({ small with mem := assign (small).mem 0x5081 1 } : State).translate 0 0 0x10000 =
      .page { page0 with write := false, exec := false } ∧
    (let s : State := { small with mem := assign (small).mem 0x5085 4 }
     (∃ g, s.translate 0 0 0x10000 = .page g ∧ g.read = true ∧ homeOf g.pa = .peer 0) ∧ s.linkUp 0 = false) := by
  refine ⟨⟨by decide +kernel, by decide +kernel, by decide, by decide, by decide +kernel, ?_⟩, by decide, by decide, by decide,
    by decide +kernel, by decide +kernel, ⟨_, (by decide +kernel : _ = Walk.page { page0 with pa := 0x40000010000 }),
    by decide, by decide +kernel⟩, by decide +kernel⟩
  intro l h
  have : homeOf 0x10FFC = .near 0 := by decide +kernel
  rw [this] at h
  cases h

/-- A team with 4,096 bytes of scratchpad. -/
def team4k : Team := { size := 4096, tiles := true }

/-- Accesses of both lanes: a vector of the last registers at the end of the page; scratchpad; private memory. -/
theorem wit_LoadsIssue : let w := word (vr 124) (vr 2) .none .b32 0x11D
    let s := small (regs [(2, 0x10FF0, 0x10000)])
    Meets s w (fun f => fits w w.d true 4 = true ∧
      passes (s.checkGlobal f.core f.asid { size := 16, read := true, write := false, scope := some 5 }
        ((f.lanes w).map (fun L => { lane := L, va := s.src f w .n64 L w.a }))) = true) ∧
    (let w := word (vr 1) (vr 2) .none .b32 0x10
     let s := small (regs [(2, 0xFFC, 0)]) team4k
     Meets s w (fun f => fits w w.d true 1 = true ∧ ∀ L ∈ f.lanes w, let a := (s.src f w .n32 L w.a).toNat
       a % 4 = 0 ∧ a + 4 ≤ (s.team f.c.team).size)) ∧
    (let w := word (vr 2) (vr 2) .none .n64
     let s := small { regs [(2, 56, 0)] with psize := 64, cbase := 0x10000 }
     Meets s w (fun f => passes (s.privateAccesses f w { size := 8, read := true, write := false } 1 2 (fun _ _ => 0)) = true)) :=
  ⟨meets (by decide +kernel) (by decide +kernel), meets (by decide +kernel) (by decide +kernel),
   meets (by decide +kernel) (by decide +kernel)⟩
theorem wit_LoadsIssue_trap : let w := word (vr 1) (vr 2) .none .b32
    let s := small (regs [(2, 0x11000, 0x10000)])
    Meets s w (fun f => ∃ x, s.checkGlobal f.core f.asid { size := 4, read := true, write := false }
      [{ lane := 0, va := 0x11000 }, { lane := 1, va := 0x10000 }] = .error (.trap x)) := by
  refine meets (by decide +kernel) ⟨{ cause := .pageFault, site := some { va := 0x11000, lane := 0 } }, ?_⟩
  rfl
theorem wit_StoresIssue : let w := word .none (vr 2) (vr 124) .b32 0x115
    let s := small (regs [(2, 0x10FF0, 0x10000)])
    Meets s w (fun f => fits w w.b false 4 = true ∧ s.tokenHeld f 16
        ((f.lanes w).map (fun L => { lane := L, va := s.src f w .n64 L w.a })) = false ∧
      passes (s.checkGlobal f.core f.asid { size := 16, read := false, write := true, scope := some 5 }
        ((f.lanes w).map (fun L => { lane := L, va := s.src f w .n64 L w.a }))) = true) ∧
    (let w := word .none (vr 2) (vr 1) .b32 0x10
     let s := small (regs [(2, 0xFFC, 0)]) team4k
     Meets s w (fun f => fits w w.b false 1 = true ∧ ∀ L ∈ f.lanes w, let a := (s.src f w .n32 L w.a).toNat
       a % 4 = 0 ∧ a + 4 ≤ (s.team f.c.team).size)) ∧
    (let w := word .none (vr 2) (vr 4) .n64
     let s := small { regs [(2, 56, 0)] with psize := 64, cbase := 0x10000 }
     Meets s w (fun f => passes (s.privateAccesses f w { size := 8, read := false, write := true } 1 0 (s.valueWord f w)) = true)) :=
  ⟨meets (by decide +kernel) (by decide +kernel), meets (by decide +kernel) (by decide +kernel),
   meets (by decide +kernel) (by decide +kernel)⟩
theorem wit_AtomicsIssue : let w := word (vr 2) (vr 4) (vr 6) .b32 0xE5
    let s := small (regs [(4, 0x10FFC, 0x10000)])
    Meets s w (fun f => w.imm.getLsbD 9 = false ∧ s.tokenHeld f 4
        ((f.lanes w).map (fun L => { lane := L, va := s.src f w .n64 L w.a })) = false ∧
      passes (s.checkGlobal f.core f.asid { size := 4, read := true, write := true, scope := some 5 }
        ((f.lanes w).map (fun L => { lane := L, va := s.src f w .n64 L w.a }))) = true) ∧
    (let w := word (vr 2) (vr 4) (vr 6) .n64 0x200
     let s := small (regs [(4, 0xFF8, 0)]) team4k
     Meets s w (fun f => w.imm.getLsbD 9 = true ∧ ∀ L ∈ f.lanes w, let a := (s.src f w .n32 L w.a).toNat
       a % 8 = 0 ∧ a + 8 ≤ (s.team f.c.team).size)) :=
  ⟨meets (by decide +kernel) (by decide +kernel), meets (by decide +kernel) (by decide +kernel)⟩

/-- An operation in flight of the small states' course. -/
def opOf (kind : OpKind) (id : Nat := 2) (cls : Nat := 1) : Op :=
  { id, core := 0, slot := 0, stamp := 3, entry := 0, team := 2, grid := 1, asid := 0, strict := false, sym := false, cls, kind }

/-- A fence of all that must be awaited finds only what it need not await; and each kind that it awaits. -/
theorem wit_PrefetchAndFence :
    (let s : State := { small with ops := [{ opOf .hint with stamp := 9, core := 1 }] }
     let w := word .none .none .none .i32 0x0B true
     Meets s w (fun f => w.imm.toNat / 8 % 4 = 1 ∧ ∀ o ∈ s.ops, o.stamp ≠ f.c.stamp ∧ o.inCore = false)) ∧
    (let x : Access := { lane := 0, va := 0x10000, pa := 0x10000, size := 4 }
     let st : OpKind := .store .global {} [x] []
     ∀ o ∈ [opOf (.load .global .v .b32 {} [x]), opOf st, { opOf st with stamp := 9, inCore := true },
         { opOf st with stamp := 9, core := 1, inCore := true }],
       let s : State := { small with ops := [o] }
       let w := word .none .none .none .i32 3 true
       Meets s w (fun f => w.imm.toNat / 8 % 4 ≠ 1 ∧ o.done = false ∧ (o.stamp = f.c.stamp ∨ o.inCore = true))) ∧
    Meets (small) (word .none (vr 2) .none) (fun _ => True) := by
  refine ⟨meets (by decide +kernel) (by decide +kernel), ?_, meets (by decide +kernel) trivial⟩
  intro x st o ho
  simp only [List.mem_cons, List.not_mem_nil, or_false] at ho
  rcases ho with rfl | rfl | rfl | rfl <;> exact meets (by decide +kernel) (by decide +kernel)

/-- A team with barrier 15 in use. -/
def teamB (b : Barrier) : Team := { barriers := [(15, b)] }
def bar : Barrier := { expected := 2, pending := 1 }

theorem wit_Barriers : (let w := word .none (vr 1) (vr 2) .i32 15
      ∀ a ∈ [1#32, 63#32], Meets (small (regs [(1, a, a), (2, 0x7FFFF, 0)])) w (fun _ => 1 ≤ a.toNat ∧ a.toNat ≤ 63)) ∧
    (let s := small course (teamB bar)
     Meets s (word (vr 1) .none .none .i32 15) (fun f => ((s.team f.c.team).barrier 15).expected ≠ 0 ∧
      ((s.team f.c.team).barrier 15).pending ≠ 0 ∧ s.releasable f.core f.c.stamp 0 = true ∧ destOk (word (vr 1) .none .none .i32 15) = true ∧ (s.team f.c.team).bwaits = [])) ∧
    (let s := small (regs [(1, 0xFFFFFF, 0)]) (teamB bar)
     let w := word .none (vr 1) .none .i32 15
     Meets s w (fun f => ((s.team f.c.team).barrier 15).bytes.toNat + (s.src f w .n32 f.low w.a).toNat < 2 ^ 24 ∧
      ((s.team f.c.team).barrier 15).phase ≠ (s.src f w .n32 f.low w.a).getLsbD 0)) ∧
    Meets (small) (word (vr 1) .none .none .i32 15) (fun f => (((small).team f.c.team).barrier 15).expected = 0) ∧
    bar.expected ≠ 0 ∧ { bar with pending := bar.pending - 1 }.pending = 0 ∧ bar.bytes = 0 := by
  refine ⟨?_, meets (by decide +kernel) (by decide +kernel), meets (by decide +kernel) (by decide +kernel),
    meets (by decide +kernel) (by decide +kernel), by decide, by decide, by decide⟩
  intro w a ha
  simp only [List.mem_cons, List.not_mem_nil, or_false] at ha
  rcases ha with rfl | rfl <;> exact meets (by decide +kernel) (by decide +kernel)


/-! ### Traps and holds of memory words and barriers -/

/-- Checks that end in one trap. -/
def trapsWith {α : Type} (e : Except Stop α) (c : Cause) : Bool :=
  match e with
  | .error (.trap x) => x.cause == c
  | _ => false

theorem trapsWith_trap {α : Type} {e : Except Stop α} {c : Cause} (h : trapsWith e c = true) : ∃ x, e = .error (.trap x) := by
  unfold trapsWith at h
  split at h
  · exact ⟨_, rfl⟩
  · cases h

/-- A course with private memory of 64 bytes for each lane, at a page that stands; addresses in v2. -/
def withPriv (a b : W32) (base : Nat := 0x10000) : Course := { regs [(2, a, b)] with psize := 64, cbase := base }
/-- A deterministic grid whose shared region is the first 4 KiB at 0x10000. -/
def region : Grid := { det := true, regions := [(0x10000, 4096)] }
def outside (c : Course) : State := small { c with det := true } {} {} {} region

/-- Offsets off their alignment and past the end; private accesses that are misaligned, too far, at no page, at a page that grants no
write; a course of a deterministic grid without the token at its shared region. -/
theorem wit_AccessChecks_more :
    (∀ p ∈ [({ lane := 0, va := 0xFFE } : Probe), { lane := 1, va := 0x1000 }],
      ¬ (p.va.toNat % 4 = 0 ∧ p.va.toNat + 4 ≤ 4096)) ∧ (0xFFE : W64).toNat % 4 ≠ 0 ∧ (0x1000 : W64).toNat % 4 = 0 ∧
    (∀ x ∈ [(withPriv 2 0, Cause.misaligned), (withPriv 64 0, .permission), (withPriv 0 0 0x11000, .pageFault)],
      let w := word .none (vr 2) (vr 4) .b32
      let s := small x.1
      Meets s w (fun f => trapsWith (s.privateAccesses f w { size := 4, read := false, write := true } 1 0 (fun _ _ => 0)) x.2 = true)) ∧
    (let w := word .none (vr 2) (vr 4) .b32
     let s : State := { small (withPriv 0 0) with mem := assign (small).mem 0x5081 1 }
     Meets s w (fun f => trapsWith (s.privateAccesses f w { size := 4, read := false, write := true } 1 0 (fun _ _ => 0))
       .permission = true)) ∧
    (let w := word .none (vr 2) (vr 4) .b32
     let s := outside (regs [(2, 0x10FFC, 0)])
     Meets s w (fun f => f.token = false ∧ f.c.det = true ∧
       s.tokenHeld f 4 ((f.lanes w).map (fun L => { lane := L, va := s.src f w .n64 L w.a })) = true)) := by
  refine ⟨by decide, by decide, by decide, fun x hx => ?_, meets (by decide +kernel) (by decide +kernel),
    meets (by decide +kernel) (by decide +kernel)⟩
  simp only [List.mem_cons, List.not_mem_nil, or_false] at hx
  rcases hx with rfl | rfl | rfl <;> exact meets (by decide +kernel) (by decide +kernel)

/-- Vectors that run past the registers; scratchpad and private loads that their checks stop. -/
theorem wit_LoadsIssue_traps :
    (∀ x ∈ [(vr 125, false), (sr 61, false), (vr 109, true)],
      let w := word x.1 (vr 2) .none .b32 0x100 false { hint with sym := x.2 }
      Meets (small { course with propOpen := 3 }) w (fun _ => fits w w.d true 4 = false)) ∧
    (let w := word (vr 1) (vr 2) .none .b32
     let s := small (regs [(2, 0x1000, 0)]) team4k
     Meets s w (fun f => fits w w.d true 1 = true ∧ trapsWith (checkOffsets { size := 4, read := true, write := false }
       (s.team f.c.team).size ((f.lanes w).map (fun L => { lane := L, va := s.src f w .n32 L w.a }))) .permission = true)) ∧
    (let w := word (vr 1) (vr 2) .none .b32
     let s := small (withPriv 0 64)
     Meets s w (fun f => fits w w.d true 1 = true ∧ trapsWith (s.privateAccesses f w { size := 4, read := true, write := false } 1 1
       (fun _ _ => 0)) .permission = true)) := by
  refine ⟨fun x hx => ?_, meets (by decide +kernel) (by decide +kernel), meets (by decide +kernel) (by decide +kernel)⟩
  simp only [List.mem_cons, List.not_mem_nil, or_false] at hx
  rcases hx with rfl | rfl | rfl <;> exact meets (by decide +kernel) (by decide +kernel)

/-- The same of stores; one that is held, and one that its page stops. -/
theorem wit_StoresIssue_traps :
    (∀ b ∈ [vr 125, sr 61], let w := word .none (vr 2) b .b32 0x100
      Meets (small) w (fun _ => fits w w.b false 4 = false)) ∧
    (let w := word .none (vr 2) (vr 4) .b32
     let s := outside (regs [(2, 0x10FFC, 0)])
     Meets s w (fun f => fits w w.b false 1 = true ∧
       s.tokenHeld f 4 ((f.lanes w).map (fun L => { lane := L, va := s.src f w .n64 L w.a })) = true)) ∧
    (let w := word .none (vr 2) (vr 4) .b32
     let s := small (regs [(2, 0x11000, 0x10000)])
     Meets s w (fun f => let ps := (f.lanes w).map (fun L => ({ lane := L, va := s.src f w .n64 L w.a } : Probe))
       s.tokenHeld f 4 ps = false ∧
       trapsWith (s.checkGlobal f.core f.asid { size := 4, read := false, write := true } ps) .pageFault = true)) ∧
    (let w := word .none (vr 2) (vr 4) .b32
     let s := small (regs [(2, 2, 0)]) team4k
     Meets s w (fun f => trapsWith (checkOffsets { size := 4, read := false, write := true }
       (s.team f.c.team).size ((f.lanes w).map (fun L => { lane := L, va := s.src f w .n32 L w.a }))) .misaligned = true)) ∧
    (let w := word .none (vr 2) (vr 4) .b32
     let s := small (withPriv 0 64)
     Meets s w (fun f => trapsWith (s.privateAccesses f w { size := 4, read := false, write := true } 1 0 (s.valueWord f w))
       .permission = true)) := by
  refine ⟨fun b hb => ?_, meets (by decide +kernel) (by decide +kernel), meets (by decide +kernel) (by decide +kernel),
    meets (by decide +kernel) (by decide +kernel), meets (by decide +kernel) (by decide +kernel)⟩
  simp only [List.mem_cons, List.not_mem_nil, or_false] at hb
  rcases hb with rfl | rfl <;> exact meets (by decide +kernel) (by decide +kernel)

theorem wit_AtomicsIssue_traps :
    (let w := word (vr 2) (vr 4) (vr 6) .n64 0x200
     let s := small (regs [(4, 0xFFC, 0)]) team4k
     Meets s w (fun f => w.imm.getLsbD 9 = true ∧ trapsWith (checkOffsets { size := 8, read := true, write := true }
       (s.team f.c.team).size ((f.lanes w).map (fun L => { lane := L, va := s.src f w .n32 L w.a }))) .misaligned = true)) ∧
    (let w := word (vr 2) (vr 4) (vr 6) .b32 0xE5
     let s := outside (regs [(4, 0x10FFC, 0x10000)])
     Meets s w (fun f => w.imm.getLsbD 9 = false ∧
       s.tokenHeld f 4 ((f.lanes w).map (fun L => { lane := L, va := s.src f w .n64 L w.a })) = true)) ∧
    (let w := word (vr 2) (vr 4) (vr 6) .b32 0xE5
     let s := small (regs [(4, 0x10FFC, 0x0FFFC)])
     Meets s w (fun f => let ps := (f.lanes w).map (fun L => ({ lane := L, va := s.src f w .n64 L w.a } : Probe))
       w.imm.getLsbD 9 = false ∧ s.tokenHeld f 4 ps = false ∧
       trapsWith (s.checkGlobal f.core f.asid { size := 4, read := true, write := true, scope := some 5 } ps) .pageFault = true)) :=
  ⟨meets (by decide +kernel) (by decide +kernel), meets (by decide +kernel) (by decide +kernel),
   meets (by decide +kernel) (by decide +kernel)⟩

/-- Counts out of range; a barrier in the middle of a phase; no arrival awaited; a store on its way; bytes past 24 bits; a phase that
is still to complete, before and while its fragment waits. -/
theorem wit_Barriers_traps :
    (∀ x ∈ [(0#32, 0#32), (64, 0), (1, 0x80000)], let w := word .none (vr 1) (vr 2) .i32 15
      let s := small (regs [(1, x.1, x.1), (2, x.2, x.2)])
      Meets s w (fun f => ¬ (1 ≤ (s.src f w .n32 f.low w.a).toNat ∧ (s.src f w .n32 f.low w.a).toNat ≤ 63 ∧
        (s.src f w .n32 f.low w.b).toNat < 2 ^ 19))) ∧
    (let w := word .none (vr 1) (vr 2) .i32 15
     let s := small (regs [(1, 1, 1)]) (teamB bar)
     Meets s w (fun f => (s.src f w .n32 f.low w.a).toNat = 1 ∧ ((s.team f.c.team).barrier 15).expected ≠ 0 ∧
       ((s.team f.c.team).barrier 15).pending ≠ ((s.team f.c.team).barrier 15).expected)) ∧
    (let w := word (vr 1) .none .none .i32 15
     let s := small course (teamB { bar with pending := 0, bytes := 1 })
     Meets s w (fun f => ((s.team f.c.team).barrier 15).expected ≠ 0 ∧ ((s.team f.c.team).barrier 15).pending = 0)) ∧
    (let w := word (vr 1) .none .none .i32 15
     let s : State := { small course (teamB bar) with ops := [flight storing] }
     Meets s w (fun f => ((s.team f.c.team).barrier 15).pending ≠ 0 ∧ s.releasable f.core f.c.stamp 0 = false)) ∧
    (let w := word .none (vr 1) .none .i32 15
     let s := small (regs [(1, 0x1000000, 0)]) (teamB bar)
     Meets s w (fun f => 2 ^ 24 ≤ ((s.team f.c.team).barrier 15).bytes.toNat + (s.src f w .n32 f.low w.a).toNat)) ∧
    (∀ b : Bool, let w := word .none .zero .none .i32 15
      let x : BWait := { bar := 15, phase := false, stamp := 3, entry := 0, ended := false }
      let s := small course { teamB bar with bwaits := if b then [x] else [] }
      Meets s w (fun f => ((s.team f.c.team).barrier 15).expected ≠ 0 ∧
        ((s.team f.c.team).barrier 15).phase = (s.src f w .n32 f.low w.a).getLsbD 0 ∧ f.c.stamp = 3 ∧ f.entry = 0)) := by
  refine ⟨fun x hx => ?_, meets (by decide +kernel) (by decide +kernel), meets (by decide +kernel) (by decide +kernel),
    meets (by decide +kernel) (by decide +kernel), meets (by decide +kernel) (by decide +kernel), fun b => ?_⟩
  · simp only [List.mem_cons, List.not_mem_nil, or_false] at hx
    rcases hx with rfl | rfl | rfl <;> exact meets (by decide +kernel) (by decide +kernel)
  · cases b <;> exact meets (by decide +kernel) (by decide +kernel)

/-- Checks that pass with a result. -/
def okIs {ε α : Type} [DecidableEq α] (e : Except ε α) (x : α) : Bool :=
  match e with
  | .ok y => y == x
  | .error _ => false

theorem okIs_eq {ε α : Type} [DecidableEq α] {e : Except ε α} {x : α} (h : okIs e x = true) : e = .ok x := by
  cases e with
  | ok y => simpa [okIs] using h
  | error _ => cases h

/-- Queue 15 with a ring of two words at 256, and its ends. -/
def ring (tail allow : Byte) : Core := { scratch := [(241, 1), (244, 2), (250, tail), (252, allow)] }

/-- A push that fills the ring, a pop that empties it, and a queue whose record lies outside the allocation. -/
theorem wit_LocalQueues :
    (let s := small course team4k (ring 0 2)
     let w := word .none (vr 2) .none .b32 15
     Meets s w (fun f => let t := s.team f.c.team
       s.scratchSettled f.c.stamp = true ∧ queueOk w t (s.queue t 15) (laneCount f.exec) = true ∧
       t.qFirst 15 true f.c.stamp f.entry = true ∧ s.releasable f.core f.c.stamp 0 = true ∧ w.hints.uniform = false ∧ laneCount f.exec ≤ (s.queue t 15).allow ∧
       (s.queue t 15).count + laneCount f.exec ≤ (s.queue t 15).cap)) ∧
    (let s := small course team4k (ring 2 0)
     let w := word (vr 2) .none .none .b32 15
     Meets s w (fun f => let t := s.team f.c.team
       s.scratchSettled f.c.stamp = true ∧ queueOk w t (s.queue t 15) (laneCount f.exec) = true ∧ w.hints.uniform = false ∧
       t.qFirst 15 false f.c.stamp f.entry = true ∧ laneCount f.exec ≤ (s.queue t 15).count)) ∧
    (let s := small
     let w := word .none (vr 2) .none .b32 15
     Meets s w (fun f => s.scratchSettled f.c.stamp = true ∧
       queueOk w (s.team f.c.team) (s.queue (s.team f.c.team) 15) (laneCount f.exec) = false)) :=
  ⟨meets (by decide +kernel) (by decide +kernel), meets (by decide +kernel) (by decide +kernel),
   meets (by decide +kernel) (by decide +kernel)⟩
theorem wit_PoolsIssue : let s := small (regs [(4, 0x10FC0, 0x10000)])
    let w := word .none (vr 4) (vr 6) .b32 0xFB
    Meets s w (fun f => let lanes : List Probe := (lanesOf f.exec).map (fun L => { lane := L, va := s.src f w .n64 L w.a })
      s.tokenHeld f 64 lanes = false ∧
      passes (s.checkGlobal f.core f.asid { size := 64, read := true, write := true, scope := some 3 } lanes) = true) :=
  meets (by decide +kernel) (by decide +kernel)

/-- Queues that cannot serve: scratchpad stores on their way; a push beyond ALLOW, a pop of an empty ring, and either behind another;
a course whose stores are still to be seen; a push past CAP. -/
theorem wit_LocalQueues_held :
    (let s : State := { small course team4k (ring 0 2) with ops := [opOf (.store .scratch {} [{ lane := 0, va := 0, pa := 0, size := 4 }] [])] }
     Meets s (word .none (vr 2) .none .b32 15) (fun f => s.scratchSettled f.c.stamp = false)) ∧
    (let s : State := { small course team4k (ring 0 2) with ops := [flight storing] }
     Meets s (word .none (vr 2) .none .b32 15) (fun f => s.scratchSettled f.c.stamp = true ∧ s.releasable f.core f.c.stamp 0 = false)) ∧
    (let s := small course team4k (ring 2 0)
     let w := word .none (vr 2) .none .b32 15
     Meets s w (fun f => let t := s.team f.c.team
       queueOk w t (s.queue t 15) (laneCount f.exec) = true ∧ (s.queue t 15).allow < laneCount f.exec ∧ t.qwaits = [])) ∧
    (let s := small course team4k (ring 0 2)
     let w := word (vr 2) .none .none .b32 15
     Meets s w (fun f => let t := s.team f.c.team
       queueOk w t (s.queue t 15) (laneCount f.exec) = true ∧ (s.queue t 15).count < laneCount f.exec)) ∧
    (∀ push : Bool, let w := word (vr 2) (vr 2) .none .b32 15
      let x : QWait := { queue := 15, push, slot := 1, stamp := 9, entry := 0, word := w }
      let s := small course { team4k with qwaits := [x] } (ring 1 1)
      Meets s w (fun f => (s.team f.c.team).qFirst 15 push f.c.stamp f.entry = false ∧
        (s.team f.c.team).qFirst 15 (!push) f.c.stamp f.entry = true)) ∧
    (let s := small course team4k (ring 1 2)
     let w := word .none (vr 2) .none .b32 15
     Meets s w (fun f => let t := s.team f.c.team
       queueOk w t (s.queue t 15) (laneCount f.exec) = true ∧ t.qFirst 15 true f.c.stamp f.entry = true ∧
       laneCount f.exec ≤ (s.queue t 15).allow ∧ (s.queue t 15).cap < (s.queue t 15).count + laneCount f.exec)) := by
  refine ⟨meets (by decide +kernel) (by decide +kernel), meets (by decide +kernel) (by decide +kernel),
    meets (by decide +kernel) (by decide +kernel), meets (by decide +kernel) (by decide +kernel), fun push => ?_,
    meets (by decide +kernel) (by decide +kernel)⟩
  cases push <;> exact meets (by decide +kernel) (by decide +kernel)
/-- A pool word that is held, and one whose page is absent. -/
theorem wit_PoolsIssue_traps : let w := word .none (vr 4) (vr 6) .b32 0xFB
    (let s := outside (regs [(4, 0x10FC0, 0x10000)])
     Meets s w (fun f => s.tokenHeld f 64 ((lanesOf f.exec).map (fun L => { lane := L, va := s.src f w .n64 L w.a })) = true)) ∧
    (let s := small (regs [(4, 0x10FC0, 0x11000)])
     Meets s w (fun f => let lanes : List Probe := (lanesOf f.exec).map (fun L => { lane := L, va := s.src f w .n64 L w.a })
       s.tokenHeld f 64 lanes = false ∧
       trapsWith (s.checkGlobal f.core f.asid { size := 64, read := true, write := true, scope := some 3 } lanes) .pageFault = true)) :=
  ⟨meets (by decide +kernel) (by decide +kernel), meets (by decide +kernel) (by decide +kernel)⟩

/-- A small state whose L1 holds the first and the last line of the page under leases, some lines being poisoned; and what a
WAITADDR of the words at the page's ends watches. -/
def watching (c : Course) (p : List Nat) : State := { small c {} { l1 := [(0x200, 5), (0x21F, 5)] } with poison := p }
def watchOf (w : Fields) (s : State) (v : W64) : Watch :=
  { id := 4, core := 0, slot := 0, stamp := 3, entry := 0, asid := 0, left := none, reading := true, at_ := s.clock, word := w,
    lanes := [{ lane := 0, va := 0x10FFC, pa := 0x10FFC, size := 4, cmp := v, who := 1 },
              { lane := 1, va := 0x10000, pa := 0x10000, size := 4, cmp := 1, who := 2 }], woken := false }

/-- WAIT at its thresholds, WAITR, WAKE and a WAITADDR without a timeout at words that its L1 holds: they differ, one does not, one
is poisoned. -/
theorem wit_Waits :
    (let s := small { course with counts := { load := 63, store := 1, copy := 2, tile := 3, queue := 4 } }
     Meets s (word .none .none .none .i32 (63 + 64 * 1 + 4096 * 2 + 2 ^ 18 * 3)) (fun f =>
       f.c.counts.load ≤ 63 ∧ f.c.counts.store ≤ 1 ∧ f.c.counts.copy ≤ 2 ∧ f.c.counts.tile ≤ 3) ∧
     Meets s (word .none .imm .none .i32 4) (fun f => f.c.counts.read 5 ≤ 4)) ∧
    (let s := small (regs [(2, 0x10FFF, 0x10000)])
     let w := word .none (vr 2) .none .i32 5
     Meets s w (fun f => passes (s.checkGlobal f.core f.asid { size := 1, read := true, write := false, scope := some 5 }
       ((f.lanes w).map (fun L => { lane := L, va := s.src f w .n64 L w.a }))) = true)) ∧
    (let w := word (vr 1) (vr 2) (vr 4) .b32
     let near (v : W32) (p : List Nat) : Prop :=
       let s := watching (regs [(2, 0x10FFC, 0x10000), (4, v, 1)]) p
       Meets s w (fun f => destOk w = true ∧
         okIs (s.checkGlobal f.core f.asid { size := 4, read := true, write := false, scope := some 0 }
           ((f.lanes w).map (fun L => { lane := L, va := s.src f w .n64 L w.a }))) [{ page0 with pa := 0x10FFC }, page0] = true ∧
         let x := watchOf w s (v.setWidth 64)
         (∀ y ∈ x.lanes, s.l1Hit f.core (lineOf y.pa) = true) ∧ s.mayPerform x.asOp x.lanes true = true ∧
         (p = [] → ∀ y ∈ x.lanes, s.loadPoison x.asOp .global y = false) ∧
         (v = 1 → ∀ y ∈ x.lanes, s.loadValue x.asOp .global y ≠ y.cmp) ∧ (v = 0 → ∃ y ∈ x.lanes, s.loadValue x.asOp .global y = y.cmp) ∧
         (p = [0x200] → (x.lanes.find? (fun y => s.loadPoison x.asOp .global y)).isSome = true))
     near 1 [] ∧ near 0 [] ∧ near 1 [0x200]) :=
  ⟨⟨meets (by decide +kernel) (by decide +kernel), meets (by decide +kernel) (by decide +kernel)⟩,
   meets (by decide +kernel) (by decide +kernel), meets (by decide +kernel) (by decide +kernel),
   meets (by decide +kernel) (by decide +kernel),
   meets (by decide +kernel) (by decide +kernel)⟩

/-- Thresholds that are passed; a WAITADDR in a STRICT course; one whose words must be fetched. -/
theorem wit_Waits_held :
    (let s := small { course with counts := { load := 63 } }
     Meets s (word .none .none .none .i32 62) (fun f => ¬ f.c.counts.load ≤ 62) ∧
     Meets s (word .none .imm .none .i32 9) (fun f => f.c.counts.read 1 = 63 ∧ ¬ f.c.counts.read 1 ≤ min 9 63)) ∧
    (let w := word (vr 1) (vr 2) (vr 4) .b32
     let s := watching { regs [(2, 0x10FFC, 0x10000), (4, 1, 1)] with strict := true } [0x200]
     Meets s w (fun f => f.c.strict = true)) ∧
    (let w := word (vr 1) (vr 2) (vr 4) .b32
     let s := small (regs [(2, 0x10FFC, 0x10000), (4, 1, 1)])
     Meets s w (fun f => s.l1Hit f.core (lineOf 0x10000) = false)) ∧
    (let s := small (regs [(2, 0x11000, 0x10000)])
     let w := word (vr 1) (vr 2) (vr 4) .b32
     Meets s w (fun f => ∃ x, s.checkGlobal f.core f.asid { size := 4, read := true, write := false, scope := some 0 }
       ((f.lanes w).map (fun L => { lane := L, va := s.src f w .n64 L w.a })) = .error (.trap x) ∧
       s.checkGlobal f.core f.asid { size := 1, read := true, write := false, scope := some 0 }
       ((f.lanes w).map (fun L => { lane := L, va := s.src f w .n64 L w.a })) = .error (.trap x))) :=
  ⟨⟨meets (by decide +kernel) (by decide +kernel), meets (by decide +kernel) (by decide +kernel)⟩,
   meets (by decide +kernel) (by decide +kernel), meets (by decide +kernel) (by decide +kernel),
   meets (by decide +kernel) ⟨{ cause := .pageFault, site := some { va := 0x11000, lane := 0 } }, rfl, rfl⟩⟩

/-- `State.Mapped` as a computation. -/
def mappedB (s : State) (f : Frag) (rd wr : Bool) (va : Nat) (p : Page) : Bool :=
  decide (va < 2 ^ 57) && decide (s.translate f.core f.asid va = .page p) && (!rd || p.read) && (!wr || p.write) &&
    (match homeOf p.pa with | .near _ | .far _ => true | _ => false)

theorem mapped_of {s : State} {f : Frag} {rd wr : Bool} {va : Nat} {p : Page} (h : mappedB s f rd wr va p = true) :
    s.Mapped f rd wr va p := by
  unfold mappedB at h
  simp only [Bool.and_eq_true, decide_eq_true_eq, Bool.or_eq_true, Bool.not_eq_true'] at h
  obtain ⟨⟨⟨⟨h1, h2⟩, h3⟩, h4⟩, h5⟩ := h
  refine ⟨h1, h2, fun hr => ?_, fun hw => ?_, ?_⟩
  · simpa [hr] using h3
  · simpa [hw] using h4
  · cases hh : homeOf p.pa <;> simp_all

/-- What `State.Holds` reads. -/
def heldBytes (s : State) (f : Frag) (va n : Nat) : Option Nat :=
  if va < 2 ^ 57 then
    match s.translate f.core f.asid va with
    | .page p => if p.read && !s.poisoned p.pa then some (s.readNat p.pa n) else none
    | _ => none
  else none

theorem holds_of {s : State} {f : Frag} {va n x : Nat} (h : heldBytes s f va n = some x) : s.Holds f va n x := by
  unfold heldBytes at h
  split at h
  · rename_i hv
    split at h
    · rename_i p hp
      split at h
      · rename_i hr
        simp only [Bool.and_eq_true, Bool.not_eq_true'] at hr
        exact ⟨hv, p, hp, hr.1, hr.2, by simpa using h⟩
      · cases h
    · cases h
  · cases h

/-- `State.Describes` as a computation. -/
def describesB (s : State) (f : Frag) (kind : Nat) (h : W32) (d : BitVec 512) : Bool :=
  decide (h.toNat % 2 ^ 20 < (s.ctx f.asid).zdtCount.toNat) &&
  match heldBytes s f ((s.ctx f.asid).zdtBase.toNat + 16 * (h.toNat % 2 ^ 20)) 16 with
  | none => false
  | some x =>
    let e : BitVec 128 := BitVec.ofNat 128 x
    e.getLsbD 76 && field e 64 12 == h.toNat / 2 ^ 20 && field e 80 4 == kind && field e 0 64 % 64 == 0 &&
    (match heldBytes s f (field e 0 64) 64 with
     | none => false
     | some y => decide (d = BitVec.ofNat 512 y))

theorem describes_of {s : State} {f : Frag} {kind : Nat} {h : W32} {d : BitVec 512} (hd : describesB s f kind h d = true) :
    s.Describes f kind h d := by
  unfold describesB at hd
  simp only [Bool.and_eq_true, decide_eq_true_eq] at hd
  refine ⟨hd.1, ?_⟩
  have h2 := hd.2
  split at h2
  · cases h2
  · rename_i x hx
    simp only [Bool.and_eq_true, beq_iff_eq] at h2
    obtain ⟨⟨⟨⟨h3, h4⟩, h5⟩, h6⟩, h7⟩ := h2
    split at h7
    · cases h7
    · rename_i y hy
      exact ⟨x, y, holds_of hx, h3, h4, h5, h6, holds_of hy, by simpa using h7⟩

/-- A context whose table entry 0, of a generation, names an array of one block at 0x10080. -/
def arrays (k : Core := {}) (t : Team := team4k) (gen : Byte := 0) : State :=
  let s := small course t k { zdtBase := 0x10000, zdtCount := 1 }
  { s with mem := s.mem ++ [(0x10000, 0x40), (0x10002, 1)] ++ (if gen = 0 then [] else [(0x10008, gen)]) ++
                           [(0x10009, 0x10), (0x1000A, 1),
                            (0x10040, 0x80), (0x10042, 1), (0x10048, 0x84), (0x10049, 8), (0x10050, 4), (0x10054, 1), (0x10058, 1)] }

def zdesc : BitVec 512 := BitVec.ofNat 512 ((arrays).readNat 0x10040 64)
def zarr : ZArray := (ZArray.ofBits zdesc).getD { base := 0, shape := { dim := 1, wide := false, rate := 8 }, ext := [] }

theorem zarr_is : ZArray.ofBits zdesc = some zarr := by
  obtain ⟨z, h⟩ := Option.isSome_iff_exists.mp (by decide +kernel : (ZArray.ofBits zdesc).isSome = true)
  simp [zarr, h]

theorem names_of {s : State} {f : Frag} {h : W32} (hd : describesB s f 1 h zdesc = true) : s.Names f h zarr :=
  ⟨zdesc, describes_of hd, zarr_is⟩

/-- The array's block 0 and element 0, for words with registers and without, at a page that stands; a handle past the table. -/
theorem wit_ArraysIssue : let s := arrays
    (∀ w ∈ [word (vr 1) (vr 2) .zero .f32, word .none .zero .zero .i32 0 true],
      Meets s w (fun f => (∀ L ∈ lanesOf f.exec, s.Names f (s.handleOf f w L) zarr) ∧
        s.Mapped f true true (zarr.blockVa 0) { page0 with pa := 0x10080 })) ∧
    ((zarr.blockVa 0 + zarr.shape.bytes - 1) / 4096 = zarr.blockVa 0 / 4096 ∧ zarr.pages = [(zarr.blockVa 0, zarr.shape.bytes)]) ∧
    (let w := word (vr 1) (vr 2) .zero .f32
     Meets s w (fun f => zarr.shape.wide = tyWide w.ty ∧ coordsFit w zarr.shape.dim = true ∧ s.scratchSettled f.c.stamp = true ∧
       w.a ≠ .imm ∧ ∀ L ∈ lanesOf f.exec, (∀ k < zarr.shape.dim, s.coord f w L k = 0 ∧ 0 < zarr.ext_ k) ∧
         (s.src f w .n64 L w.a).toNat < zarr.blocks ∧ (f.old w .n32 L).toNat % 16 = 0 ∧
         (f.old w .n32 L).toNat + zarr.shape.count * zarr.shape.size ≤ (s.team f.c.team).size)) ∧
    (let w := word (vr 1) (vr 2) .zero .f32
     Meets (small) w (fun f => (lanesOf f.exec).head? = some 0 ∧ (small).scratchSettled f.c.stamp = true ∧
       ((small).ctx f.asid).zdtCount.toNat ≤ ((small).handleOf f w 0).toNat % 2 ^ 20)) := by
  intro s
  refine ⟨fun w hw => ?_, by decide +kernel, meets (by decide +kernel) (by decide +kernel), meets (by decide +kernel) (by decide +kernel)⟩
  simp only [List.mem_cons, List.not_mem_nil, or_false] at hw
  rcases hw with rfl | rfl <;> refine meets (by decide +kernel) ⟨fun L hL => names_of ?_, mapped_of (by decide +kernel)⟩ <;>
    revert L <;> decide +kernel

/-- A card at offset 0: 64 bytes from 0x10000 to offset 256, counted by barrier 1; `loops` makes it a COPYL of one iteration. -/
def card (loops : Bool) (last : Byte := 0x80) : Core :=
  { scratch := [(2, 1), (8, 64), (13, 1), (20, 64), (40, last), (43, 2), (45, 0x10), (46, 1)] ++
      if loops then [(52, 1), (56, 64), (60, 0x32)] else [] }
def teamC : Team := { size := 4096, barriers := [(1, bar), (2, bar), (3, bar)] }

/-- A card that decodes block 0 of handle 0x100000 into 16 bytes at 0x10180. -/
def coded : Core := { scratch := [(8, 1), (12, 0x80), (13, 1), (14, 1), (20, 16), (34, 0x10), (40, 0x20), (41, 9), (43, 3)] }

/-- COPY and COPYL of raw bytes, a COPY of a coded block, an illegal chain, another producer. -/
theorem wit_CopiesIssue : (∀ loops ∈ [false, true], let s := small course teamC (card loops)
      Meets s (word .none .zero .none) (fun f =>
        let t := s.team f.c.team
        let bits : BitVec 512 := BitVec.ofNat 512 (s.spadNat f.core (t.base + 0) 64)
        let c := Card.ofBits bits
        t.producer = f.c.index ∧ s.scratchSettled f.c.stamp = true ∧ (s.jobsOf (sectorOf f.core)).length < 256 ∧
        c.reserved = false ∧ c.codedSource = false ∧ c.has 3 = false ∧
        c.first ≠ 1 ∧
        c.legal 0 0 loops = true ∧ c.limits 0 loops t.size (t.barrier c.doneb).progress.toNat = true ∧
        (∀ b ∈ [1, 2, 3], (t.barrier b).expected ≠ 0) ∧ f.c.det = false)) ∧
    (let s := arrays coded teamC 1
     Meets s (word .none .zero .none) (fun f =>
        let t := s.team f.c.team
        let c := Card.ofBits (BitVec.ofNat 512 (s.spadNat f.core 0 64))
        c.reserved = false ∧ c.codedSource = true ∧ c.has 3 = false ∧ s.Describes f 1 c.shandle zdesc ∧
        (ZArray.ofBits zdesc).isSome = true ∧ c.legal zdesc 0 false = true ∧
        c.limits zdesc false t.size (t.barrier c.doneb).progress.toNat = true)) ∧
    (let s := small course teamC (card false 0x20)
     Meets s (word .none .zero .none) (fun f =>
        let c := Card.ofBits (BitVec.ofNat 512 (s.spadNat f.core 0 64))
        c.reserved = false ∧ c.legal 0 0 false = false)) ∧
    Meets (small course { teamC with producer := 1 }) (word .none .zero .none) (fun f =>
      ((small course { teamC with producer := 1 }).team f.c.team).producer ≠ f.c.index) := by
  refine ⟨fun loops h => ?_, meets (by decide +kernel) ⟨by decide +kernel, by decide +kernel, by decide +kernel,
    describes_of (by decide +kernel), by decide +kernel, by decide +kernel, by decide +kernel⟩,
    meets (by decide +kernel) (by decide +kernel), meets (by decide +kernel) (by decide +kernel)⟩
  simp only [List.mem_cons, List.not_mem_nil, or_false] at h
  rcases h with rfl | rfl <;> exact meets (by decide +kernel) (by decide +kernel)

/-- A team that uses the tiles, with 64 KiB, and the first four pages at 0x10000. -/
def teamT : Team := { size := 65536, tiles := true }
def fourPages (s : State) : State :=
  { s with mem := s.mem ++ [(0x5088, 0x81), (0x5089, 0x17), (0x508A, 1), (0x5090, 0x81), (0x5091, 0x27), (0x5092, 1),
                            (0x5098, 0x81), (0x5099, 0x37), (0x509A, 1)] }

/-- A tile operation of the small course: its region at 0, the worked format block. -/
def tileOp (kind : TileKind) (started : Bool) : TileOp :=
  { kind, op := 2, stamp := 3, slot := 0, team := 2, asid := 0, d := 7, a := 0, ty := .f32, round := .rne, sat := false, modx := false,
    imm := 0x10, x := 0, z := 0, base := 0, fa := 0xC + 2 ^ 64 * 0xC + 2 ^ 128 * 0x200020, counts := [],
    frames := [0x10000, 0x11000, 0x12000, 0x13000], exact := false, started }

/-- MZERO, an MLOAD and an MSTORE that end where the allocation does, MSMAX, a drain to scratchpad and one to memory, PLANES. -/
theorem wit_TilesIssue :
    (let s := small course teamT
     Meets s (word (.tile 7) .none .none) (fun f => (s.team f.c.team).tiles = true ∧ f.active = f.c.liveLanes ∧
       f.c.live.length = 1 ∧ (s.core f.core).tileQ.length < 16 ∧ s.scratchSettled f.c.stamp = true) ∧
     (let w := word (.tile 1) (.special .core) .none .f32 0
      let p := 64 * tyBytes w.ty
      Meets s w (fun f => (s.src f w .n32 f.low w.a).toNat % 16 = 0 ∧ p ≤ p ∧
        (s.src f w .n32 f.low w.a).toNat + (63 * p + p) ≤ (s.team f.c.team).size)) ∧
     (let w := word (.tile 1) (.tile 2) .none .i32 0x3F800000
      Meets s w (fun _ => tileOf w.d ≠ tileOf w.a ∧ ∃ m ∈ [2 ^ 23], (fmtOf .f32).decode (w.imm.setWidth 64) = .fin false m (-23)))) ∧
    (let s := fourPages (small (regs []) teamT)
     let w := word (.tile 0) (sr 2) .none .f32
     let s' : State := s.mapCourse 0 0 (fun c => { c with s := [(2, 0x10000)] })
     Meets s' w (fun f => let va := s'.src f w .n64 f.low w.a
       va.toNat % 16384 = 0 ∧ s'.tokenHeld f 16384 [{ lane := f.low, va }] = false ∧
       ∀ k < 4, s'.Mapped f true true (va.toNat + 4096 * k) { page0 with pa := 0x10000 + 4096 * k })) ∧
    (let s := small course teamT { tileQ := List.replicate 16 (tileOp .zero false) }
     Meets s (word (.tile 7) .none .none) (fun f => (s.team f.c.team).tiles = true ∧ f.active = f.c.liveLanes ∧
       f.c.live.length = 1 ∧ 16 ≤ (s.core f.core).tileQ.length)) ∧
    (let s := small course teamT
     let w := word .none .zero .zero .e4m3 (0x80 + 2 ^ 16 * 8)
     Meets s w (fun f => (s.src f w .n32 f.low w.b).toNat % 256 = 0 ∧ 0x80 * tyBytes w.ty ≤ 16 * 8 ∧
       63 * (16 * 8) + 0x80 * tyBytes w.ty ≤ (s.team f.c.team).size ∧ imageBytes w.ty (chunkCols 0) ≤ (s.team f.c.team).size)) ∧
    Meets (small) (word (.tile 0) .none .none) (fun f => ((small).team f.c.team).tiles = false) :=
  ⟨⟨meets (by decide +kernel) (by decide +kernel), meets (by decide +kernel) (by decide +kernel),
    meets (by decide +kernel) (by decide +kernel)⟩,
   meets (by decide +kernel) ⟨by decide +kernel, by decide +kernel, fun k hk => mapped_of (by revert k; decide +kernel)⟩,
   meets (by decide +kernel) (by decide +kernel), meets (by decide +kernel) (by decide +kernel),
   meets (by decide +kernel) (by decide +kernel)⟩

/-- The format block of the worked MMAC (e4m3, no scales, K 32), its sparse form with SPN 1, and its grouped form of one group
whose count stands at 64. -/
def fmtCore (kind : TileKind) : Core :=
  { scratch := [(0, 0xC), (8, 0xC), (16, 0x20), (18, if kind = .macSparse then 0x21 else 0x20)] ++
      (if kind = .macGrouped then [(24, 64), (64, 5)] else []) }

/-- Whether the block of a small state meets every condition of a multiply-accumulate with its operands at 0. -/
def mmacMeets (kind : TileKind) (w : Fields) (s : State) (f : Frag) : Bool :=
  let t := s.team f.c.team
  let a := (s.src f w .n32 f.low w.a).toNat
  let b := (s.src f w .n32 f.low w.b).toNat
  let r : BitVec 256 := BitVec.ofNat 256 (s.spadNat f.core (t.base + 0) 32)
  let m := MmacFmt.ofBits r f.c.exact
  let counts := if kind = .macGrouped then
    (List.range (m.ng + 1)).map (fun g => s.spadNat f.core (t.base + m.groff + 2 * g) 2) else []
  let groups := if kind = .macGrouped then (groupsOf 0 0 counts).1.map (fun g => g.1) else [0]
  let holds (off n : Nat) : Bool := n == 0 || off + n ≤ t.size
  t.tiles && f.active == f.c.liveLanes && f.c.live.length == 1 && (s.core f.core).tileQ.length < 16 &&
  s.scratchSettled f.c.stamp && 32 ≤ t.size && (kind != .macGrouped || (m.groff + 2 * (m.ng + 1) ≤ t.size && m.groff % 2 == 0)) &&
  !formatReserved r kind && m.legal kind 0 && a % 256 == 0 && b % 16 == 0 && m.aScale % 4 == 0 && m.bScale % 4 == 0 &&
  holds a ((m.chunks - 1) * m.stride + imageBytes m.aTy (chunkCols m.spn)) &&
  groups.all (fun g => holds (b + g * 256 * m.gstride) (m.k * m.pitch) &&
    holds (m.bScale + g * 256 * m.gstride) (scaleBytes m.bGran m.chunks)) &&
  holds m.aScale (scaleBytes m.aGran m.chunks) &&
  (kind != .macSparse || holds m.metaOff (64 * (m.k / 16) * spN m.spn / 2))

/-- Operands at 0 with each block; a reserved bit of the block; a block without a depth. -/
theorem wit_MultiplyAccumulateIssues : let w := word (.tile 0) .zero .zero
    (∀ kind ∈ [TileKind.mac, .macSparse, .macGrouped],
      Meets (small course teamT (fmtCore kind)) w (fun f => mmacMeets kind w (small course teamT (fmtCore kind)) f = true)) ∧
    (let reserved : Core := { scratch := assign (fmtCore .mac).scratch 31 0x80 }
     let s := small course teamT reserved
     Meets s w (fun f => formatReserved (BitVec.ofNat 256 (s.spadNat f.core ((s.team f.c.team).base + 0) 32)) .mac = true ∧
       (s.team f.c.team).tiles = true ∧ s.scratchSettled f.c.stamp = true)) ∧
    (let shallow : Core := { scratch := assign (fmtCore .mac).scratch 16 0 }
     let s := small course teamT shallow
     Meets s w (fun f =>
       let r : BitVec 256 := BitVec.ofNat 256 (s.spadNat f.core ((s.team f.c.team).base + 0) 32)
       formatReserved r .mac = false ∧ (MmacFmt.ofBits r f.c.exact).legal .mac 0 = false ∧ (s.team f.c.team).tiles = true)) := by
  refine ⟨fun kind h => ?_, meets (by decide +kernel) (by decide +kernel), meets (by decide +kernel) (by decide +kernel)⟩
  simp only [List.mem_cons, List.not_mem_nil, or_false] at h
  rcases h with rfl | rfl | rfl <;> exact meets (by decide +kernel) (by decide +kernel)

/-- The small course held by a request. -/
def me : Waiter := { core := 0, slot := 0, stamp := 3, entry := 0 }
/-- A context that may capture core 1. -/
def rights : Ctx := { capRight := 1, grants := [(0, 2)] }

/-- TLBINV over a range, with a count of 0 and past 2^20, and at a scope above 3; a CAPTURE and a RESTORE that have ended. -/
theorem wit_SystemWords :
    (let s := small { sup with v := [(2 * 32, 0x10000), (4 * 32, 0x100000)] }
     let w := word .none (vr 2) (vr 4) .i32 0x0B true
     Meets s w (fun f => f.c.super = true ∧ w.imm.toNat % 8 < 4 ∧ s.storesPending f.c.stamp = false ∧
       1 ≤ (s.src f w .n32 f.low w.b).toNat ∧ (s.src f w .n32 f.low w.b).toNat ≤ 2 ^ 20)) ∧
    (∀ n ∈ [0, 0x100001], let s := small { sup with v := [(2 * 32, 0x10000), (4 * 32, n)] }
     let w := word .none (vr 2) (vr 4) .i32 0x0B true
     Meets s w (fun f => f.c.super = true ∧ w.imm.toNat % 8 < 4 ∧
       ((s.src f w .n32 f.low w.b).toNat = 0 ∨ 2 ^ 20 < (s.src f w .n32 f.low w.b).toNat))) ∧
    Meets (small sup) (word .none (vr 2) .none .i32 4) (fun f => f.c.super = true ∧ 4 ≤ (4#32).toNat % 8) ∧
    (let s : State := { small sup with
       captures := [{ target := 1, asid := 0, va := 0x10000, origin := 1, who := some me, via := some 0, done := true }]
       restores := [{ target := 1, asid := 0, va := 0x10000, who := some me, via := some 0, host := false, status := some 0 }] }
     Meets s (word (vr 1) (vr 2) (vr 4)) (fun f =>
       (let mine : Waiter := { core := f.core, slot := f.slot, stamp := f.c.stamp, entry := f.entry }
        (∃ r ∈ s.captures, s.captures.find? (fun r => r.who == some mine) = some r ∧ r.done = true) ∧
        ∃ r ∈ s.restores, s.restores.find? (fun r => r.who == some mine) = some r ∧ r.status = some 0) ∧
       destOk (word (vr 1) (vr 2) (vr 4)) = true)) := by
  refine ⟨meets (by decide +kernel) (by decide +kernel), fun n hn => ?_, meets (by decide +kernel) (by decide +kernel),
    meets (by decide +kernel) (by decide +kernel)⟩
  simp only [List.mem_cons, List.not_mem_nil, or_false] at hn
  rcases hn with rfl | rfl <;> exact meets (by decide +kernel) (by decide +kernel)

/-- POISONCLR of two lines that may be cleared, of one under a lease, and behind an acquire that has not returned. -/
theorem wit_SystemWords_poison :
    let w := word .none (vr 2) .none
    let r := regs [(2, 0x10F80, 0x10000)]
    let acq : Op := { id := 2, core := 0, slot := 0, stamp := 3, entry := 0, team := 2, grid := 1, asid := 0, strict := false,
                      sym := false, cls := 1,
                      kind := .load .global .v .b32 { acquire := true, scope := 5 } [{ lane := 0, va := 0x10000, pa := 0x10000, size := 4 }] }
    let pages (L : Nat) : Page := if L = 0 then { page0 with pa := 0x10F80 } else page0
    let xs (f : Frag) : List Access := (f.lanes w).map (fun L => { lane := 0, va := 0, pa := (pages L).pa, size := 128 })
    let stands (s : State) (f : Frag) : Prop := ∀ L ∈ f.lanes w, (s.src f w .n64 L w.a).toNat % 128 = 0 ∧
      s.Mapped f false true (s.src f w .n64 L w.a).toNat (pages L)
    (let s : State := { small r with poison := [0x10F80 / 128] }
     Meets s w (fun f => stands s f ∧ s.mayPerform (f.lineWrite (xs f)) (xs f) false = true ∧
       ∀ l ∈ ((f.lanes w).map (fun L => lineOf (pages L).pa)).eraseDups, s.mayClear f.c.stamp l = true)) ∧
    (let s : State := { small r with poison := [0x200], lmax := [(0x200, 1)] }
     Meets s w (fun f => stands s f ∧ s.mayPerform (f.lineWrite (xs f)) (xs f) false = true ∧
       ∃ l ∈ ((f.lanes w).map (fun L => lineOf (pages L).pa)).eraseDups, s.mayClear f.c.stamp l = false)) ∧
    (let s : State := { small r with ops := [acq] }
     Meets s w (fun f => stands s f ∧ s.mayPerform (f.lineWrite (xs f)) (xs f) false = false)) := by
  refine ⟨meets (by decide +kernel) ⟨fun L hL => ⟨?_, mapped_of ?_⟩, by decide +kernel, by decide +kernel⟩,
    meets (by decide +kernel) ⟨fun L hL => ⟨?_, mapped_of ?_⟩, by decide +kernel, by decide +kernel⟩,
    meets (by decide +kernel) ⟨fun L hL => ⟨?_, mapped_of ?_⟩, by decide +kernel⟩⟩ <;> revert L <;> decide +kernel

/-- CAPTURE and RESTORE: the first megabyte from 2³⁰, on one page of a gigabyte. -/
def gigabyte (s : State) : State := { s with mem := assign (assign (assign s.mem 0x3008 0x81) 0x3009 7) 0x300B 0x40 }
/-- A supervisor that names core 1 and 2³⁰, with the right. -/
def capturing : State := gigabyte (small { sup with v := [(2 * 32, 1), (4 * 32, 0x40000000)] } {} {} rights)

theorem gigabyte_page (i : Nat) (h : i < 256) : capturing.translate 0 0 (0x40000000 + 4096 * i) =
    .page { page0 with pa := 0x40000000 + 4096 * i, bits := 30 } := by
  have e1 : (0x40000000 + 4096 * i) / 2 ^ 48 % 512 = 0 := by omega
  have e2 : (0x40000000 + 4096 * i) / 2 ^ 39 % 512 = 0 := by omega
  have e3 : (0x40000000 + 4096 * i) / 2 ^ 30 % 512 = 1 := by omega
  have e4 : (0x40000000 + 4096 * i) % 2 ^ 30 = 4096 * i := by omega
  have t1 : capturing.tableEntry 4 0x1000 = .table 0x2000 := by decide +kernel
  have t2 : capturing.tableEntry 3 0x2000 = .table 0x3000 := by decide +kernel
  have t3 : capturing.tableEntry 2 0x3008 = .leaf { page0 with pa := 0x40000000, bits := 30 } := by decide +kernel
  have clean (a : Nat) : capturing.poisoned a = false := rfl
  have hw : capturing.translate 0 0 (0x40000000 + 4096 * i) = capturing.walkFrom (0x40000000 + 4096 * i) 5 0x1000 := rfl
  have hn : 0x40000000 + 4096 * i < 0x1000000000 := by omega
  rw [hw]
  simp only [State.walkFrom, clean, e1, e2, e3, t1, t2, t3, Nat.reduceMul, Nat.reduceAdd, Bool.false_eq_true, if_false]
  rw [e4]
  simp [Page.walk, homeOf, hn]

theorem wit_SystemWords_capture :
    let s := capturing
    let w := word (vr 1) (vr 2) (vr 4)
    Meets s w (fun f => s.captures = [] ∧ s.restores = [] ∧ f.c.super = true ∧ (s.ctx f.asid).capRight.getLsbD 0 = true ∧
      (s.src f w .n32 f.low w.a).toNat = 1 ∧ f.core = 0 ∧ s.grants f.asid 1 = true ∧ (s.src f w .n64 f.low w.b).toNat = 0x40000000 ∧
      (∀ i < 256, ∃ p : Page, s.translate f.core f.asid (0x40000000 + 4096 * i) = .page p ∧ (p.write && p.read) = true ∧
        (homeOf p.pa).package = true) ∧
      (s.core 1).binding = none ∧ (s.core 1).run = .running ∧ s.teamsOn 1 = []) := by
  refine meets (by decide +kernel) ⟨by decide +kernel, by decide +kernel, by decide +kernel, by decide +kernel, by decide +kernel,
    by decide +kernel, by decide +kernel, by decide +kernel, fun i hi => ?_, by decide +kernel, by decide +kernel, by decide +kernel⟩
  have hn : 0x40000000 + 4096 * i < 0x1000000000 := by omega
  exact ⟨_, gigabyte_page i hi, rfl, by simp [Home.package, homeOf, hn]⟩

/-- Two fragments of cores 0 and 1 that exchange, the first with some time left. -/
def pairing (left : Nat) : State :=
  let w := word (vr 1) (vr 2) (sr 3) .b32 0x1F00
  { small with cores := [(0, { courses := [(0, course)] }), (1, { courses := [(0, { course with stamp := 8 })] })]
               xwaits := [{ id := 10, core := 0, slot := 0, stamp := 3, entry := 0, target := 1, mask := 3,
                            vals := [(0, 5), (1, 6)], left, word := w },
                          { id := 11, core := 1, slot := 0, stamp := 8, entry := 0, target := 0, mask := 1,
                            vals := [(0, 7)], left := 9, word := w }] }

/-- A partner in the sector, the own core, a core outside the sector; two waits that pair; one whose time has passed. -/
theorem wit_Exchange :
    (let s := small { course with s := [(3, 1)] }
     let w := word (vr 1) (vr 2) (sr 3) .b32
     Meets s w (fun f => (s.src f w .n32 f.low w.b).toNat ≠ f.core ∧
       sectorOf (s.src f w .n32 f.low w.b).toNat = sectorOf f.core ∧ s.xwaits = [])) ∧
    (let w := word (vr 1) (vr 2) .zero .b32
     Meets (small) w (fun f => ((small).src f w .n32 f.low w.b).toNat = f.core)) ∧
    (let s := small { course with s := [(3, 64)] }
     let w := word (vr 1) (vr 2) (sr 3) .b32
     Meets s w (fun f => sectorOf (s.src f w .n32 f.low w.b).toNat ≠ sectorOf f.core)) ∧
    (let s := pairing 1
     let tag (z : XWait) : Nat := z.word.imm.toNat % 256
     ∃ x ∈ s.xwaits, ∃ y ∈ s.xwaits, s.xwaits = [x, y] ∧ x.id ≠ y.id ∧ x.core ≠ y.core ∧ x.target = y.core ∧ y.target = x.core ∧
       tag x = tag y ∧ 0 < x.left ∧ 0 < y.left ∧ x.ans = none ∧ y.ans = none ∧
       (∀ p ∈ [(x, y), (y, x)], s.xwaits.find? (fun z => z.id == p.1.id) = some p.1 ∧ s.xwaits.find? (fun z =>
         z.core == p.1.core && z.target == p.2.core && p.1.core == p.2.target && tag z == tag p.2 && decide (0 < z.left) &&
           z.ans.isNone) = some p.1) ∧ s.runs x.core = true ∧ s.runs y.core = true ∧
       s.course? x.core x.slot = some course ∧ s.course? y.core y.slot = some { course with stamp := y.stamp } ∧
       (get {} course.entries x.entry).valid = true ∧ x.vals.map (·.1) = lanesOf x.mask ∧ y.vals.map (·.1) = lanesOf y.mask ∧
       destOk x.word = true ∧ x.word.hints.uniform = false) ∧
    (let s := pairing 0
     ∃ x ∈ s.xwaits, s.xwaits.find? (fun z => z.id == x.id) = some x ∧ x.left = 0 ∧ x.ans = none ∧ s.runs x.core = true ∧
       s.course? x.core x.slot = some course ∧ (get {} course.entries x.entry).valid = true) :=
  ⟨meets (by decide +kernel) (by decide +kernel), meets (by decide +kernel) (by decide +kernel),
   meets (by decide +kernel) (by decide +kernel), by decide +kernel, by decide +kernel⟩

/-! ### Traps and holds of arrays and copies -/

/-- The array's small state with registers. -/
def arraysWith (xs : List (Nat × W32 × W32)) (gen kind : Byte := 0) : State :=
  let s := (arrays {} team4k gen).mapCourse 0 0 (fun _ => regs xs)
  { s with mem := if kind = 0 then s.mem else assign s.mem 0x1000A kind }

theorem named (s : State) (f : Frag) (w : Fields) (h : (lanesOf f.exec).all (fun L => describesB s f 1 (s.handleOf f w L) zdesc) = true) :
    ∀ L ∈ lanesOf f.exec, s.Names f (s.handleOf f w L) zarr :=
  fun L hL => names_of (List.all_eq_true.mp h L hL)

/-- A coordinate and a block past the array's ends; a type of another width; ZFLUSH.all with an operand; scratchpad offsets off 16
bytes and past the allocation; a page that grants no write; scratchpad stores on their way. -/
theorem wit_ArraysIssue_traps : let w := word (vr 1) (vr 2) .zero .f32
    let names (s : State) (f : Frag) := (lanesOf f.exec).all (fun L => describesB s f 1 (s.handleOf f w L) zdesc) = true
    (let s := arraysWith [(2, 4, 0)]
     Meets s w (fun f => names s f ∧ 0 ∈ lanesOf f.exec ∧ ¬ s.coord f w 0 0 < zarr.ext_ 0 ∧ ¬ (s.src f w .n64 0 w.a).toNat < zarr.blocks ∧
       w.a ≠ .zero)) ∧
    (let s := arraysWith []
     Meets s { w with ty := .f64, d := vr 2 } (fun f => names s f ∧ zarr.shape.wide ≠ tyWide .f64)) ∧
    (∀ x ∈ [(8, false), (4096, true)], let s := arraysWith [(1, x.1, 0)]
     Meets s w (fun f => names s f ∧ ((f.old w .n32 0).toNat % 16 = 0 ↔ x.2 = true) ∧
       (x.2 = true → (s.team f.c.team).size < (f.old w .n32 0).toNat + zarr.shape.count * zarr.shape.size))) ∧
    (let s : State := { arraysWith [] with mem := assign (arraysWith []).mem 0x5081 1 }
     Meets s w (fun f => names s f ∧ trapsWith (s.checkGlobal f.core f.asid { size := 1, read := true, write := true, scope := some 3, peers := false }
       [{ lane := 0, va := BitVec.ofNat 64 (zarr.blockVa 0) }]) .permission = true)) ∧
    (let s : State := { arraysWith [] with ops := [opOf (.store .scratch {} [{ lane := 0, va := 0, pa := 0, size := 4 }] [])] }
     Meets s w (fun f => s.scratchSettled f.c.stamp = false)) := by
  refine ⟨meets (by decide +kernel) (by decide +kernel), meets (by decide +kernel) (by decide +kernel), fun x hx => ?_,
    meets (by decide +kernel) (by decide +kernel), meets (by decide +kernel) (by decide +kernel)⟩
  simp only [List.mem_cons, List.not_mem_nil, or_false] at hx
  rcases hx with rfl | rfl <;> exact meets (by decide +kernel) (by decide +kernel)

/-- A handle whose slot is past the table, of an entry of another generation, and of an entry of another kind; a descriptor that R252
does not allow. -/
theorem wit_ArraysIssue_handles : let w := word (vr 1) (vr 2) .zero .f32
    Meets (small) w (fun f => 0 ∈ lanesOf f.exec ∧ ((small).ctx f.asid).zdtCount.toNat ≤ ((small).handleOf f w 0).toNat % 2 ^ 20 ∧
      trapsWith ((small).handle f 0 1 ((small).handleOf f w 0)) .staleHandle = true) ∧
    (∀ x ∈ [(1, 0), (0, 0x12)], let s := arraysWith [] x.1 x.2
     Meets s w (fun f => ∃ y, s.Holds f ((s.ctx f.asid).zdtBase.toNat + 16 * ((s.handleOf f w 0).toNat % 2 ^ 20)) 16 y ∧
       let e : BitVec 128 := BitVec.ofNat 128 y
       e.getLsbD 76 = true ∧ (x.1 = 1 → field e 64 12 ≠ (s.handleOf f w 0).toNat / 2 ^ 20) ∧
       (x.2 = 0x12 → field e 64 12 = (s.handleOf f w 0).toNat / 2 ^ 20 ∧ field e 80 4 ≠ 1))) ∧
    (let s : State := { arraysWith [] with mem := erase (arraysWith []).mem 0x10048 }
     Meets s w (fun f => ∃ d, s.Describes f 1 (s.handleOf f w 0) d ∧ ZArray.ofBits d = none)) := by
  refine ⟨meets (by decide +kernel) (by decide +kernel), fun x hx => ?_, ?_⟩
  · simp only [List.mem_cons, List.not_mem_nil, or_false] at hx
    rcases hx with rfl | rfl
    · exact meets (by decide +kernel) ⟨_, holds_of (by decide +kernel : _ = some ((arraysWith [] 1 0).readNat 0x10000 16)), by decide +kernel⟩
    · exact meets (by decide +kernel) ⟨_, holds_of (by decide +kernel : _ = some ((arraysWith [] 0 0x12).readNat 0x10000 16)), by decide +kernel⟩
  · let s : State := { arraysWith [] with mem := erase (arraysWith []).mem 0x10048 }
    refine meets (by decide +kernel) ⟨BitVec.ofNat 512 (s.readNat 0x10040 64), describes_of ?_, Option.isNone_iff_eq_none.mp ?_⟩ <;>
      decide +kernel

/-- Cards off 64 bytes and past the allocation; a full table; a reserved bit; a handle that is stale; a coded source whose descriptor
R252 does not allow; a card with DONE 3; a barrier that is not set up; a write to a shared region without the token. -/
theorem wit_CopiesIssue_traps : let w := word .none (vr 2) .none
    let c (s : State) (f : Frag) (a : Nat := 0) := Card.ofBits (BitVec.ofNat 512 (s.spadNat f.core a 64))
    (∀ a ∈ [32#32, 4096], let s := small (regs [(2, a, 0)]) teamC (card false)
     Meets s w (fun f => (s.team f.c.team).producer = f.c.index ∧ ((s.src f w .n32 f.low w.a).toNat % 64 ≠ 0 ∨
       (s.team f.c.team).size < (s.src f w .n32 f.low w.a).toNat + 64))) ∧
    (let j : Job := { id := 1, core := 1, slot := 0, stamp := 1, team := 1, linear := 0, base := 0, grid := 1, gid := 0, asid := 0,
                      strict := false, card := 0, sdesc := 0, ddesc := 0, indices := [], state := .queued }
     let s : State := { small course teamC (card false) with jobs := List.replicate 256 j }
     Meets s w (fun f => 256 ≤ (s.jobsOf (sectorOf f.core)).length)) ∧
    (let s := small course teamC { scratch := (card false).scratch ++ [(63, 0x80)] }
     Meets s w (fun f => (c s f).reserved = true ∧ s.scratchSettled f.c.stamp = true ∧ (s.jobsOf (sectorOf f.core)).length < 256)) ∧
    (let s := small course teamC coded
     Meets s w (fun f => (c s f).reserved = false ∧ (c s f).codedSource = true ∧
       trapsWith (s.handle f f.low 1 (c s f).shandle) .staleHandle = true)) ∧
    (let s : State := { arrays coded teamC 1 with mem := erase (arrays coded teamC 1).mem 0x10048 }
     Meets s w (fun f => (c s f).codedSource = true ∧ ∃ d, s.Describes f 1 (c s f).shandle d ∧ (ZArray.ofBits d).isSome = false)) ∧
    (let s := small course teamC { scratch := assign (card false).scratch 46 3 }
     Meets s w (fun f => (c s f).reserved = false ∧ (c s f).codedSource = false ∧ (c s f).has 3 = false ∧
       (c s f).legal 0 0 false = true ∧ (c s f).limits 0 false (s.team f.c.team).size 0 = false)) ∧
    (let s := small course { teamC with barriers := [] } (card false)
     Meets s w (fun f => (c s f).legal 0 0 false = true ∧ (c s f).limits 0 false (s.team f.c.team).size 0 = true ∧
       (c s f).done = 1 ∧ ((s.team f.c.team).barrier (c s f).doneb).expected = 0)) ∧
    (let s := small { course with det := true } teamC
       { scratch := [(2, 1), (8, 64), (13, 1), (14, 1), (20, 64), (40, 0x90), (43, 2)] } {} region
     Meets s w (fun f => f.c.det = true ∧ f.token = false ∧ (c s f).reserved = false ∧ (c s f).legal 0 0 false = true ∧
       (c s f).limits 0 false (s.team f.c.team).size 0 = true ∧ (c s f).last = 9 ∧
       (c s f).writes 0 [] = [⟨0, 0x10100, 0x10140⟩] ∧ (s.grid f.c.grid).regions = [(0x10000, 4096)])) := by
  refine ⟨fun a ha => ?_, meets (by decide +kernel) (by decide +kernel), meets (by decide +kernel) (by decide +kernel),
    meets (by decide +kernel) (by decide +kernel), ?_, meets (by decide +kernel) (by decide +kernel),
    meets (by decide +kernel) (by decide +kernel), meets (by decide +kernel) (by decide +kernel)⟩
  · simp only [List.mem_cons, List.not_mem_nil, or_false] at ha
    rcases ha with rfl | rfl <;> exact meets (by decide +kernel) (by decide +kernel)
  · let s : State := { arrays coded teamC 1 with mem := erase (arrays coded teamC 1).mem 0x10048 }
    refine meets (by decide +kernel) ⟨by decide +kernel, BitVec.ofNat 512 (s.readNat 0x10040 64), describes_of ?_, ?_⟩ <;>
      decide +kernel

/-! ### Events -/

theorem flyingOf (s : State) (o : Op) (h : s.ops.find? (fun p => p.id == o.id) = some o) (hd : o.done = false) : s.Flying o := ⟨h, hd⟩

/-- `State.Lands` and `State.MayAct` as computations. -/
def landsB (s : State) (o : Op) (ys : List Access) : Bool :=
  let sp := o.kind.parts.1
  (sp != .scratch || (lookup? s.teams o.team).isSome) && (sp != .priv || (s.courseOf o.core o.slot o.stamp).isSome) &&
  (sp != .priv || decide ((s.core o.core).privs.length + ys.length + (s.core o.core).l1.length ≤ (s.core o.core).l1Room)) &&
  ys.all (fun x => decide (1 ≤ x.size) && lineOf (x.pa + x.size - 1) == lineOf x.pa) && ys.all (fun x => !s.meetsPoison sp x)

theorem lands_of {s : State} {o : Op} {ys : List Access} (h : landsB s o ys = true) : s.Lands o ys := by
  unfold landsB at h
  simp only [Bool.and_eq_true, Bool.or_eq_true, bne_iff_ne, ne_eq, Bool.not_eq_true', List.all_eq_true, decide_eq_true_eq,
    beq_iff_eq] at h
  obtain ⟨⟨⟨⟨h1, h2⟩, h3⟩, h4⟩, h5⟩ := h
  exact ⟨fun hk => h1.resolve_left (fun hn => hn hk), fun hk => h2.resolve_left (fun hn => hn hk),
    fun hk => h3.resolve_left (fun hn => hn hk), h4, h5⟩

def mayActB (s : State) (o : Op) (ys : List Access) : Bool :=
  landsB s o ys && s.mayPerform o ys false && ((o.kind.parts.1 == .global && !o.inCore) || s.runs o.core) &&
  !s.leaseWait.any (fun x => x.1 == o.id) && o.nextLines.all s.leaseOver

theorem mayAct_of {s : State} {o : Op} {ys : List Access} (h : mayActB s o ys = true) : s.MayAct o ys := by
  unfold mayActB at h
  simp only [Bool.and_eq_true, Bool.or_eq_true, beq_iff_eq, Bool.not_eq_true', List.all_eq_true] at h
  obtain ⟨⟨⟨⟨h1, h2⟩, h3⟩, h4⟩, h5⟩ := h
  refine ⟨lands_of h1, h2, fun hk => h3.resolve_left (fun hn => ?_), h4, h5⟩
  rcases hk with hk | hk
  · exact hk hn.1
  · rw [hn.2] at hk; cases hk

/-- Two words of 4 bytes that lie on both sides of a line's end, of lanes 0 and 1. -/
def pairOf : List Access := [{ lane := 0, va := 0x1007C, pa := 0x1007C, size := 4, val := 5, reg := 1, who := 1 },
                             { lane := 1, va := 0x10080, pa := 0x10080, size := 4, val := 6, reg := 1, who := 2 }]
def aloft (kind : OpKind) : State := { small course team4k with ops := [opOf kind] }

/-- L2 holds the lines of `pairOf`. -/
def filled (s : State) : State := { s with l2 := [(0x200, .e), (0x201, .e)] }

/-- Reads that are performed when the data returns, in strand registers and in shadows, and ones performed before. -/
theorem wit_LoadsReturn : ∀ p ∈ [(File.v, pairOf), (.y, pairOf.map (fun x => { x with reg := 96 })),
      (.s, pairOf.map (fun x => { x with reg := x.lane })), (.v, pairOf.map (fun x => { x with got := true, val := 9 }))],
    let k : OpKind := .load .global p.1 .b32 {} p.2
    let s := filled (aloft k)
    s.Flying (opOf k) ∧ s.runs 0 = true ∧ s.courseOf 0 0 3 = some course ∧ s.showsLater 0 0 3 = false ∧
    ((∀ x ∈ p.2, x.got = true) ∨ (s.mayRead (opOf k) = true ∧ s.absorbs = [] ∧ s.watches = [] ∧
      ∀ x ∈ p.2, s.present 0 (lineOf x.pa) = true)) ∧
    (opOf k).strict = false ∧ (∀ x ∈ p.2, x.lane < 32 ∧ (p.1 = .y → 96 ≤ x.reg)) ∧
    p.2.Pairwise (fun x y => (p.1 ≠ .s ∧ x.lane ≠ y.lane) ∨ x.reg + regsPer .b32 ≤ y.reg ∨ y.reg + regsPer .b32 ≤ x.reg) ∧
    s.ops.filter (fun q => q.stamp == (opOf k).stamp && q.cls == (opOf k).cls) = [opOf k] := by
  intro p hp k s
  refine ⟨flyingOf _ _ ?_ rfl, ?_⟩ <;> revert p <;> decide +kernel

/-- A store of two lines in memory, of scratchpad and of private memory that may be performed, a release of two lanes of one line; one
under a lease, one whose lease is over and one whose lease is not, one that enters its core's store path, and one that poison drops or
a neighbour refuses. -/
theorem wit_StoresPerform : let k : OpKind := .store .global {} pairOf []
    let o := opOf k
    let s := aloft k
    let leased : State := { s with lmax := [(0x200, 1)] }
    let waits : State := { s with leaseWait := [(2, 0x200)] }
    let x : Access := { lane := 0, va := 0x1007C, pa := 0x1007C, size := 4, val := 5 }
    let one : OpKind := .store .global {} [x] []
    let bad : State := { aloft one with poison := [0x200] }
    let away : OpKind := .store .global {} [{ x with pa := 0x40000000000, lost := true }] []
    s.Flying o ∧ o.next 128 = pairOf.take 1 ∧ (o.next 128).Pairwise (fun x y => x.overlaps y = false) ∧ s.MayAct o (o.next 128) ∧
    (∀ sp ∈ [Space.scratch, .priv], let k : OpKind := .store sp {} [{ x with pa := 0x7C }] []
      (aloft k).MayAct (opOf k) ((opOf k).next 1) ∧ (opOf k).next 1 = [{ x with pa := 0x7C }]) ∧
    (let k : OpKind := .store .global { release := true, scope := 5 } [x, { x with lane := 1, va := 0x10078, pa := 0x10078 }] []
     (aloft k).MayAct (opOf k) ((opOf k).next 128) ∧ ((opOf k).next 128).length = 2 ∧
       ((opOf k).next 128).Pairwise (fun x y => x.overlaps y = false)) ∧
    (leased.mayPerform o (o.next 128) false = true ∧ o.nextLines = [0x200] ∧ leased.leaseOver 0x200 = false ∧
      leased.leaseWait = []) ∧
    (waits.leaseWait.any (fun x => x.1 == o.id) = true ∧ (∀ x ∈ waits.leaseWait, waits.leaseOver x.2 = true ∧
      waits.leaseWait.find? (fun y => y.1 != 0 && y.2 == x.2) = some x) ∧ waits.Lands o (o.next 128)) ∧
    (let w : State := { leased with leaseWait := [(2, 0x200)] }
     w.leaseWait.any (fun x => x.1 == o.id) = true ∧ ∃ x ∈ w.leaseWait, x.1 = o.id ∧ w.leaseOver x.2 = false) ∧
    (s.runs 0 = true ∧ o.inCore = false ∧ s.leaseWait = [] ∧ (∀ x ∈ pairOf, (homeOf x.pa).package = true) ∧
      ∀ p ∈ s.ops, s.lets p o .global pairOf false = true) ∧
    (bad.mayPerform (opOf one) [x] false = true ∧ bad.leaseWait = [] ∧ (opOf one).nextLines = [0x200] ∧
      bad.leaseOver 0x200 = true ∧ bad.poisoned x.pa = true ∧ bad.showsLater 0 0 3 = false ∧
      bad.ops.filter (fun p => p.stamp == (opOf one).stamp) = [opOf one]) ∧
    ((aloft away).mayPerform (opOf away) [{ x with pa := 0x40000000000, lost := true }] false = true ∧ (opOf away).nextLines = []) := by
  intro k o s leased waits x one bad away
  refine ⟨flyingOf _ _ (by decide +kernel) (by decide +kernel), by decide +kernel, by decide +kernel, mayAct_of (by decide +kernel),
    fun sp hs => ?_, ⟨mayAct_of (by decide +kernel), by decide +kernel, by decide +kernel⟩, by decide +kernel,
    ⟨by decide +kernel, by decide +kernel, lands_of (by decide +kernel)⟩, by decide +kernel, by decide +kernel, by decide +kernel,
    by decide +kernel⟩
  simp only [List.mem_cons, List.not_mem_nil, or_false] at hs
  rcases hs with rfl | rfl <;> exact ⟨mayAct_of (by decide +kernel), by decide +kernel⟩

theorem wit_AtomicsPerform : let x : Access := { lane := 31, va := 0x10FFC, pa := 0x10FFC, size := 4, val := 5, reg := 127, who := 0 }
    let k : OpKind := .rmw .global .v 0 .i32 .rne true {} [x] []
    let y : Access := { x with va := 0xFFC, pa := 0xFFC }
    let j : OpKind := .rmw .scratch .v 0 .i32 .rne false {} [y] []
    let r : Reply := { lane := 31, reg := 127, val := 5, poisoned := false, flags := 0 }
    let b : OpKind := .reply .v false {} [r]
    ((aloft k).Flying (opOf k) ∧ (aloft k).MayAct (opOf k) [x] ∧ (aloft k).courseOf 0 0 3 = some course ∧ x.lane < 32) ∧
    ((aloft j).Flying (opOf j) ∧ (aloft j).MayAct (opOf j) [y] ∧ (aloft j).showsLater 0 0 3 = false ∧
      (opOf j).flags = [] ∧ (aloft j).ops.filter (fun p => p.stamp == (opOf j).stamp) = [opOf j]) ∧
    ((aloft b).Flying (opOf b) ∧ (aloft b).runs 0 = true ∧ (aloft b).courseOf 0 0 3 = some course ∧
      (aloft b).showsLater 0 0 3 = false) ∧
    (∀ ret ∈ [true, false], let k : OpKind := .rmw .global .v 0 .i32 .rne ret {} [x] []
     let s : State := { aloft k with poison := [0x21F] }
     s.ops = [opOf k] ∧ s.mayPerform (opOf k) [x] false = true ∧ s.leaseWait = [] ∧ (∀ l ∈ (opOf k).nextLines, s.leaseOver l = true) ∧
       s.poisoned x.pa = true ∧
       let y : Access := { x with pa := 0x40000000000, lost := true }
       let k : OpKind := .rmw .global .v 0 .i32 .rne ret {} [y] []
       (aloft k).mayPerform (opOf k) [y] false = true ∧ (opOf k).nextLines = []) ∧
    tyFloat .i32 = false ∧ tyFloat .f32 = true :=
  ⟨⟨flyingOf _ _ (by decide +kernel) (by decide +kernel), mayAct_of (by decide +kernel), by decide +kernel, by decide +kernel⟩,
   ⟨flyingOf _ _ (by decide +kernel) (by decide +kernel), mayAct_of (by decide +kernel), by decide +kernel, by decide +kernel,
    by decide +kernel⟩,
   ⟨flyingOf _ _ (by decide +kernel) (by decide +kernel), by decide +kernel, by decide +kernel, by decide +kernel⟩, by decide +kernel, by decide +kernel, by decide +kernel⟩

/-- A WAITADDR of both lanes in a pass or out of one, with its comparand and its time. -/
def watched (cmp : W64) (left : Option Nat) (reading woken : Bool) (missing : Bool := false) : State :=
  { (if missing then small else filled (small)) with
    watches := [{ id := 10, core := 0, slot := 0, stamp := 3, entry := 0, asid := 0, left, woken, reading,
                  lanes := [{ lane := 0, va := 0x1007C, pa := 0x1007C, size := 4, cmp, got := reading },
                            { lane := 1, va := 0x10080, pa := 0x10080, size := 4, cmp, got := reading }],
                  word := word (vr 1) (vr 2) (vr 4) .b32 }] }

def watchMeets (s : State) (x : Watch) : Bool :=
  s.watch 10 == some x && s.runs x.core && s.course? x.core x.slot == some course && course.stamp == x.stamp &&
  (get {} course.entries x.entry).valid && destOk x.word && x.lanes.map (·.lane) == [0, 1] && !x.word.hints.uniform

/-- Passes that are made: the words differ, do not, do not at the timeout; a wake and a timeout, each before its reads may be made; and
a WAITADDR that nothing wakes. -/
theorem wit_HeldWordsEnd_watch :
    (∃ x, (watched 1 none true false).watches = [x] ∧ watchMeets (watched 1 none true false) x = true ∧ x.reading = true ∧
      ∀ y ∈ x.lanes, y.got = true ∧ y.bad = false ∧ y.val ≠ y.cmp) ∧
    (∃ x, (watched 0 none true false).watches = [x] ∧ watchMeets (watched 0 none true false) x = true ∧ x.left ≠ some 0 ∧
      ∃ y ∈ x.lanes, y.val = y.cmp) ∧
    (∃ x, (watched 0 (some 0) true false).watches = [x] ∧ watchMeets (watched 0 (some 0) true false) x = true ∧ x.left = some 0) ∧
    (∀ woken : Bool, ∃ x, (watched 0 (some 0) false woken true).watches = [x] ∧
      watchMeets (watched 0 (some 0) false woken true) x = true ∧ x.reading = false ∧ x.lanes ≠ [] ∧ x.woken = woken ∧
      x.left = some 0 ∧
      (let anew : Watch := { x with reading := true, woken := false, at_ := (watched 0 (some 0) false woken true).clock,
                                    lanes := x.lanes.map (fun k => { k with got := false, bad := false }) }
       ({ watched 0 (some 0) false woken true with watches := [anew] } : State).mayRead anew.asOp = false)) := by
  refine ⟨⟨_, rfl, by decide +kernel, rfl, by decide +kernel⟩, ⟨_, rfl, by decide +kernel, by decide +kernel, by decide +kernel⟩,
    ⟨_, rfl, by decide +kernel, rfl⟩, fun woken => ⟨_, rfl, ?_⟩⟩
  cases woken <;> decide +kernel

/-- A queue operation that waits first on queue 15. -/
def queueing (push : Bool) : State :=
  small course { team4k with qwaits := [{ queue := 15, push, slot := 0, stamp := 3, entry := 0,
                                          word := if push then word .none (vr 2) .none .b32 15 else word (vr 2) .none .none .b32 15 }] }
    (ring (if push then 0 else 2) 2)

def queueMeets (push : Bool) : Bool :=
  let s := queueing push
  let t := s.team 2
  match t.qwaits with
  | [x] =>
    let w := x.word
    let q := s.queue t 15
    match ({ s with issuer := { core := t.core, slot := x.slot, entry := x.entry } } : State).frag w with
    | some f =>
      let n := laneCount f.exec
      f.c.stamp == x.stamp && x.entry == f.entry && f.c.team == 2 && w.imm.toNat % 16 == 15 && !s.gated f w && s.mayIssue t.core &&
      f.exec != 0 && !w.hints.uniform && s.scratchSettled x.stamp && queueOk w t q n &&
      (if push then s.releasable f.core f.c.stamp 0 && n ≤ q.allow && q.count + n ≤ q.cap else n ≤ q.count)
    | none => false
  | _ => false

theorem wit_HeldWordsEnd_queue : queueMeets true = true ∧ queueMeets false = true ∧
    (let s := queueing true
     (s.mapCore 0 (fun k => { k with change := some (5, 700) })).mayIssue (s.team 2).core = false) := by decide +kernel
theorem wit_HeldWordsEnd_items : ∀ p ∈ [(File.v, 127), (.y, 96), (.s, 63)],
    let k : OpKind := .qpop p.1 false [{ lane := 31, reg := p.2, val := 5, poisoned := false, flags := 0 }]
    (aloft k).Flying (opOf k) ∧ (aloft k).runs 0 = true ∧ (aloft k).courseOf 0 0 3 = some course ∧
      (aloft k).showsLater 0 0 3 = false := by
  intro p hp k
  refine ⟨flyingOf _ _ ?_ rfl, ?_⟩ <;> revert p <;> decide +kernel

/-- A pool operation of the small course at a stage, its descriptor at 0x10000. -/
def poolOp (push : Bool) (stage : Nat) (id : Nat := 10) (until_ : Nat := 0) : PoolOp :=
  { id, op := 2, core := 0, slot := 0, stamp := 3, asid := 0, grid := 1, gid := 0, team := 2, linear := 0, lane := 31, push,
    va := 0x10000, pa := 0x10000, item := 7, wide := false, file := .v, reg := 127, pred := 31, window := 3, marked := false,
    strict := false, entry := 0, stage, until_, scope := 2, ans := 0, ok := false, poisoned := false, info := none }
def pooling (qs : List PoolOp) : State := { aloft (.pool true) with pool := qs }

/-- At each of the three switches: an opposite held there to pair with, none, none with room to be held, a window of zero; and
the ends of both holds. -/
theorem wit_PoolsRun_switch :
    (∀ n ∈ [(0, 1), (2, 3), (4, 3)], let q := poolOp true n.1
      let x := { poolOp false n.2 9 1 with op := 3 }
      let s := pooling [q, x]
      let here (y : PoolOp) : Bool := if n.1 = 0 then sectorOf y.core == sectorOf q.core else dieOf y.core == dieOf q.core
      s.poolOp q.id = some q ∧ s.poolMayGo q = true ∧ s.runs 0 = true ∧ s.poolTurn q = true ∧ s.poolTurn x = true ∧ homeDie q.pa = dieOf q.core ∧
        q.partner s.clock (heldAt n.2 here s) = some x ∧ x.id ≠ q.id ∧ q.core ≠ peerCore ∧ x.core ≠ peerCore ∧
        (let s := pooling [q]
         s.poolOp q.id = some q ∧ s.poolMayGo q = true ∧ q.partner s.clock (heldAt n.2 here s) = none ∧
         (q.window + 1) / 2 < q.window ∧ (heldAt n.2 here s).length < 32)) ∧
    (∀ n ∈ [0, 2], let q := { poolOp true n with window := 0 }
     (pooling [q]).poolOp q.id = some q ∧ (pooling [q]).poolMayGo q = true ∧
       q.partner 0 (heldAt (n + 1) (fun _ => true) (pooling [q])) = none) ∧
    (∀ n ∈ [1, 3], let q := poolOp true n
      (pooling [q]).poolOp q.id = some q ∧ q.until_ ≤ (pooling [q]).clock) ∧
    (let q := poolOp true 0; let before := { poolOp true 0 9 with lane := 30 }
     (pooling [before, q]).poolTurn q = false ∧ (pooling [before, q]).poolOp q.id = some q) := by decide +kernel

/-- A descriptor of a ring of two items at 0x10080, with a count. -/
def ringed (count : Byte) (q : PoolOp) : State :=
  let s := pooling [q]
  { s with mem := s.mem ++ [(0x10000, 1), (0x10009, 0x40), (0x1000A, 0x80), (0x10010, 2)] ++
                    if count = 0 then [] else [(0x1001C, count)] }

def homeMeets (s : State) (q : PoolOp) : Bool :=
  let d := s.poolDesc q.pa
  s.poolOp q.id == some q && !q.lost && !s.poisoned q.pa && !d.bad && (s.poolLines q).all (fun l => s.linesFree l && !s.fetching l) &&
  q.core != peerCore && s.poolTurn q && d.mode && d.base == 0x10080 && d.cap == 2

/-- A push and a pop at a ring with none, one and two items; leases on the descriptor; an operation that a neighbour refuses, a
poisoned and a malformed descriptor; a slot on no page, on one that grants no write, and poisoned. -/
theorem wit_PoolsRun_home : (∀ push ∈ [true, false], ∀ n ∈ [0#8, 1#8, 2#8],
      homeMeets (ringed n (poolOp push 5)) (poolOp push 5) = true) ∧
    (∀ push ∈ [true, false], (ringed 1 (poolOp push 5)).walk 0 (0x10080 + 8 * 0) = .page { page0 with pa := 0x10080 } ∧
      ((ringed 1 (poolOp push 5)).poolDesc 0x10000).count = 1 ∧ (ringed 1 (poolOp push 5)).linkDown 0x10080 = false) ∧
    ((ringed 2 (poolOp true 5)).poolDesc 0x10000).count = 2 ∧ ((ringed 0 (poolOp false 5)).poolDesc 0x10000).count = 0 ∧
    (let q := poolOp false 5
     let free (s : State) := (s.poolLines q).filter (fun l => !s.linesFree l || s.fetching l) = []
     let leased : State := { ringed 1 q with lmax := [(0x200, 1)] }
     let lost : PoolOp := { q with lost := true }
     let bad : State := { ringed 1 q with poison := [0x200] }
     let item : State := { ringed 1 q with poison := [0x201] }
     let malformed : State := { ringed 1 q with mem := assign (ringed 1 q).mem 0x10009 0x41 }
     let away : State := { ringed 1 q with mem := assign (ringed 1 q).mem 0x1000B 1 }
     leased.poolOp q.id = some q ∧ ¬ free leased ∧ leased.leaseWait = [] ∧
     ((ringed 1 lost).poolOp q.id = some lost ∧ free (ringed 1 lost)) ∧
     (bad.poisoned q.pa = true ∧ free bad) ∧ (homeMeets item q = true ∧ item.poisoned 0x10080 = true ∧ free item) ∧
     (malformed.poolOp q.id = some q ∧ (malformed.poolDesc 0x10000).bad = true ∧ free malformed) ∧
     ((away.poolDesc 0x10000).bad = false ∧ away.walk 0 ((away.poolDesc 0x10000).base) = .absent ∧ free away)) ∧
    (let q := poolOp true 5
     let shut : State := { ringed 1 q with mem := assign (ringed 1 q).mem 0x5081 1 }
     homeMeets shut q = true ∧ shut.walk 0 0x10080 = .page { page0 with pa := 0x10080, write := false, exec := false }) := by
  decide +kernel
theorem wit_PoolsRun_answer : let s := pooling [poolOp false 6]
    s.Flying (opOf (.pool true)) ∧ s.runs 0 = true ∧ s.showsLater 0 0 3 = false ∧ s.courseOf 0 0 3 = some course ∧
    (∀ q ∈ s.pool.filter (fun q => q.op == 2), q.stage = 6 ∧ q.poisoned = false ∧ q.lane < 32 ∧ q.core = 0 ∧ q.slot = 0 ∧
      q.stamp = 3 ∧ q.push = !true ∧ q.file ≠ .s) ∧ (s.pool.filter (fun q => q.op == 2)).length = 1 :=
  ⟨flyingOf _ _ (by decide +kernel) (by decide +kernel), by decide +kernel, by decide +kernel, by decide +kernel, by decide +kernel,
   by decide +kernel⟩

/-- A decoded block of the array at 0x10080. -/
def block (dirty : W64) : ZEntry :=
  { pa := 0x10080, pa2 := 0, asid := 0, shape := { dim := 1, wide := false, rate := 8 }, elems := [0, 0x3F800000, 0, 0], dirty }
def zacc : ZAccess := { lane := 31, shape := (block 0).shape, va := 0x10080, pa := 0x10080, pa2 := 0, elem := 3, val := 0x40000000,
                        reg := 127 }
/-- A hit and a miss of a load, a store of an element, a changed block that leaves, one under a lease, and an unchanged one. -/
theorem wit_ArraysPerform :
    (∀ k ∈ [OpKind.zload .v false [zacc], .zstore [zacc]], let s : State := { aloft k with zbuf := [block 0] }
      s.ops.find? (fun p => p.id == (opOf k).id) = some (opOf k) ∧ (opOf k).done = false ∧ s.mayPerformZ (opOf k) = true ∧
      s.runs 0 = true ∧ s.zentry zacc.pa = some (block 0) ∧ (block 0).shape = zacc.shape ∧ zacc.lane < 32 ∧ zacc.got = false ∧
      zacc.elem < (block 0).elems.length ∧ s.courseOf 0 0 3 = some course ∧ s.showsLater 0 0 3 = false) ∧
    (let k : OpKind := .zload .v false [zacc]
     let s := aloft k
     s.mayPerformZ (opOf k) = true ∧ s.zentry zacc.pa = none ∧ s.zvictims zacc.shape zacc.pa = [] ∧
     ∀ l ∈ zacc.shape.lines zacc.pa zacc.pa2, l ∉ s.poison) ∧
    (let s : State := { small with zbuf := [block 2] }
     s.zentry (block 2).pa = some (block 2) ∧ s.zwrites (block 2) = true ∧ s.zbusy (block 2) = [] ∧
     (block 2).pa % 4096 + (block 2).shape.bytes ≤ 4096 ∧ s.poison = []) ∧
    (let s : State := { small with zbuf := [block 2], lmax := [(0x201, 1)] }
     s.zentry (block 2).pa = some (block 2) ∧ s.zbusy (block 2) ≠ [] ∧ s.leaseWait = []) ∧
    (let s : State := { small with zbuf := [block 0] }
     s.zentry (block 0).pa = some (block 0) ∧ s.zwrites (block 0) = false) := by decide +kernel

/-- The job of the COPY card above, in a state of its life; to memory at 0x10100 rather than to scratchpad. -/
def job (state : JobState) (iter : Nat) (buffer : Option (List Byte)) (dst : Nat) (loop : Nat) : Job :=
  { id := 2, core := 0, slot := 0, stamp := 3, team := 2, linear := 0, base := 0, grid := 1, gid := 0, asid := 0, strict := false,
    card := BitVec.ofNat 512 (0x10000 + 2 ^ 64 * 256 + 2 ^ 96 * 0x10180 + 2 ^ 160 * 256 + 2 ^ 320 * 0x90 + 2 ^ 344 * 2 + 2 ^ 364 * 1 +
      2 ^ 368 * 1 + (if loop = 0 then 0 else 2 ^ 416 * loop + 2 ^ 480 * 0x32)),
    sdesc := 0, ddesc := 0, indices := [], state, iter, srcDone := dst, dstDone := dst, chunkSrc := dst, chunkDst := dst, buffer,
    phases := [0] }
def jobbing (j : Job) : State := { small course teamC with ops := [opOf (.copy 2) 2 3], jobs := [j] }

def jobGoes (s : State) (j : Job) : Bool :=
  s.jobAt j.id == some j && s.jobRuns j false && s.jobRuns j true && j.state == .running && s.slotFree j && !j.iterDone && (j.c.loop == 0 || j.iter < j.c.loop) && s.teams.all (fun p => s.runs p.2.core)

theorem wit_JobsRun :
    (let j := job .queued 0 none 0 0
     (jobbing j).jobAt j.id = some j ∧ (jobbing j).jobRuns j false = true ∧ (jobbing j).jobs = [j]) ∧
    (let j := job .running 0 none 0 0
     jobGoes (jobbing j) j = true ∧ j.c.raw = true ∧ j.c.sspace = false ∧
     (∀ p ∈ pieces (wrapVa (j.c.srcAt j.iter + j.srcDone)) (min (j.c.srclen - j.srcDone) 4096),
       okIs ((jobbing j).engPage j false p.1) p.1 = true ∧ (jobbing j).poisoned p.1 = false ∧ (homeOf p.1).package = true)) ∧
    (let j := { job .running 0 none 0 0 with asid := 9 }
     jobGoes (jobbing j) j = true ∧ j.c.raw = true ∧ j.c.sspace = false ∧
     (match (jobbing j).engRead j (wrapVa (j.c.srcAt j.iter + j.srcDone)) (min (j.c.srclen - j.srcDone) 4096) with
      | .error e => e.cause != .poison
      | .ok _ => false) = true) ∧
    (let bs := List.replicate 256 (7 : Byte)
     let j := job .running 0 (some bs) 0 0
     let parts := pieces (j.c.dst + j.dstDone) bs.length
     jobGoes (jobbing j) j = true ∧ j.c.last = 9 ∧ j.c.has 3 = false ∧ j.dstDone = j.chunkDst ∧ j.dstDone + bs.length ≤ j.c.dstlen ∧
     parts = [(0x10180, 128), (0x10200, 128)] ∧
     (∀ p ∈ parts, okIs ((jobbing j).engPage j true p.1) p.1 = true ∧ (jobbing j).poisoned p.1 = false ∧ (homeOf p.1).package = true ∧
       (jobbing j).leaseOver (lineOf p.1) = true) ∧ parts.Pairwise (fun p r => p.1 + p.2 ≤ r.1 ∨ r.1 + r.2 ≤ p.1)) ∧
    (let j := job .running 0 none 256 2
     (jobbing j).jobAt j.id = some j ∧ (jobbing j).jobRuns j false = true ∧ j.iterDone = true ∧ j.iter + 1 < j.c.loop) ∧
    (∀ n ∈ [0, 1], let j := job .running 0 none 256 n
     let o := opOf (.copy 2) 2 3
     (jobbing j).jobAt j.id = some j ∧ (jobbing j).jobRuns j false = true ∧ (j.c.loop = 0 ∨ j.iter + 1 = j.c.loop) ∧ j.iterDone = true ∧
     (jobbing j).ops = [o] ∧ o.id = j.id ∧ o.done = false ∧ o.flags = [] ∧
     (jobbing j).courseOf o.core o.slot o.stamp = some course ∧ (jobbing j).showsLater o.core o.slot o.stamp = false) := by
  decide +kernel

/-- A tile operation at the head of the queue of core 0. -/
def tiling (o : TileOp) : State := { small course teamT { tileQ := [o] } with ops := [opOf .tile 2 4] }

theorem wit_TilesRun :
    (∀ kind ∈ [TileKind.zero, .load, .store, .mac], let o := tileOp kind true
      (tiling o).runs 0 = true ∧ ((tiling o).core 0).tileQ = [o] ∧ (lookup? (tiling o).teams o.team).isSome = true ∧
      (∀ p ∈ (tiling o).ops, p.id = o.op → p.core = 0) ∧ o.imm.getLsbD 12 = false ∧ 256 ≤ 16 * (o.imm.toNat % 4096)) ∧
    (let o := { tileOp .mac true with fa := (tileOp .mac true).fa + 2 ^ 128 * 0x100 }
     (tiling o).runs 0 = true ∧ o.chunk + 1 < (MmacFmt.ofBits o.fa false).chunks ∧ (MmacFmt.ofBits o.fa false).wide = false) ∧
    (MmacFmt.ofBits (tileOp .mac true).fa false).chunks = 1 ∧ (tileOp .mac true).chunk = 0 ∧ (MmacFmt.ofBits (tileOp .mac true).fa false).wide = false ∧
    (tileOp .zero false).started = false ∧
    (let o := tileOp .drain true
     o.drained = false ∧ o.modx = false ∧ o.frames = (List.range 4).map (fun b => 0x10000 + 0x1000 * b) ∧
     (∀ l ∈ o.drainLines, (tiling o).leaseOver l = true ∧ l ∉ (tiling o).poison)) := by decide +kernel

/-- A join at entry 0 of two fragments that wait at its address. -/
def joining : Course :=
  { course with entries := [(0, { mask := 3, valid := true, pc := 0x500 }),
                            (1, { mask := 1, valid := true, pc := 0x500, rpc := 0x500, age := 1 }),
                            (2, { mask := 2, valid := true, pc := 0x500, rpc := 0x500, age := 2 })] }
/-- A serialised fragment at its frame's address. -/
def serial (pending : List Group) : Course :=
  { course with entries := [(0, { mask := 1, valid := true, pc := 0x500 })],
                frames := [{ entry := 0, rpc := 0x500, pending, held := 4 }] }
def trapping : Course := { course with trapWait := some { entry := 0, trap := { cause := .software } } }

theorem wit_FragmentsAndTeams :
    (let s := small joining
     s.course? 0 0 = some joining ∧ s.strictHeld 3 = false ∧ (get {} joining.entries 0).valid = true ∧
     joining.live.filter (joining.inside 0) ≠ [] ∧
     (∀ p ∈ joining.live.filter (joining.inside 0), joining.isWaiting p.1 = true ∧ p.2.pc = (get {} joining.entries 0).pc) ∧
     (joining.entries.map (fun p => p.1)).Nodup) ∧
    (∀ gs ∈ [[], [(⟨2, 0x600⟩ : Group)]], let c := serial gs
     (small c).course? 0 0 = some c ∧ (c.framesOf 0).getLast? = some { entry := 0, rpc := 0x500, pending := gs, held := 4 } ∧
     (lookup? c.entries 0).isSome = true ∧ (get {} c.entries 0).valid = true ∧ (get {} c.entries 0).pc = 0x500) ∧
    (let s := small trapping {} {} { handler := 0x20000 }
     s.course? 0 0 = some trapping ∧ trapping.trapWait.isSome = true ∧ (lookup? trapping.entries 0).isSome = true ∧
     s.outstanding trapping.stamp = false) ∧
    (let s := small
     (lookup? s.teams 2).isSome = true ∧ (s.grid 1).det = false ∧ (lookup? s.grids 1).isSome = true) := by decide +kernel

/-! ### Arrays, blocks and tiles: further cases -/

/-- A ZFLUSH of the block, with or without a decode, over a buffer with the block or none, and leases. -/
def zr (opens : Bool) : ZRange := { shape := (block 0).shape, lo := 0x10080, len := 1, opens }
def zs (dirty : W64) (leased opens : Bool) : State :=
  { aloft (.zflush [zr opens]) with zbuf := if opens then [] else [block dirty], lmax := if leased then [(0x201, 1)] else [] }
def blank : ZEntry :=
  { pa := 0x10080, pa2 := 0, asid := 0, shape := (block 0).shape,
    elems := (block 0).shape.decode ((zs 0 false true).codedBits (block 0).shape 0x10080 0), dirty := 0 }

/-- The ways that a new block takes have room; ZFLUSH without a changed block, with one that it writes, with one under a lease, and one
that it names and that must be decoded. -/
theorem wit_ArraysPerform_flush :
    (((((aloft (.zload .v false [zacc])).l2Reads (zacc.shape.lines 0x10080 0)).setZ blank).zroom blank).isSome = true ∧
      ((((zs 0 false true).l2Reads ((zr true).shape.lines 0x10080 0)).setZ blank).zroom blank).isSome = true) ∧
    ((zs 0 false false).mayPerformZ (opOf (.zflush [zr false])) = true ∧ (zs 0 false false).leaseWait = []) ∧
    (zs 0 false false).zDirty [zr false] = [] ∧
    ((zs 2 false false).zDirty [zr false] = [block 2] ∧ (zs 2 false false).zbusy (block 2) = [] ∧
      (zs 2 false false).zwrites (block 2) = true) ∧
    ((zs 2 true false).zDirty [zr false] = [block 2] ∧ (zs 2 true false).zbusy (block 2) ≠ []) ∧
    ((zs 0 false true).zentry 0x10080 = none ∧ (zs 0 false true).zvictims (zr true).shape 0x10080 = [] ∧
      (zs 0 false true).mayPerformZ (opOf (.zflush [zr true])) = true) := by
  refine ⟨⟨?_, ?_⟩, ⟨?_, rfl⟩, ?_, ⟨?_, ?_, ?_⟩, ⟨?_, ?_⟩, ?_, ?_, ?_⟩ <;> decide +kernel

/-- Whether a number is finite. -/
def finB (x : Fp) : Bool := match x with | .fin _ _ _ => true | _ => false
theorem finB_eq {x : Fp} (h : finB x = true) : ∃ s k e, x = .fin s k e := by
  cases x with
  | fin s k e => exact ⟨s, k, e, rfl⟩
  | nan _ => cases h
  | inf _ => cases h

/-- A multiply-accumulate of zeros; one whose first element of A is a quiet NaN, and one with a signalling NaN. -/
def macOf (head : Byte) : Core × TileOp := ({ scratch := if head = 0 then [] else [(0, head)] }, tileOp .mac true)
def macA (h : Byte) (q : Nat) : Option Fp := (macOf h).1.aVal (macOf h).2 (MmacFmt.ofBits (macOf h).2.fa false) 0 q
def macB (h : Byte) (q : Nat) : Fp :=
  let m := MmacFmt.ofBits (macOf h).2.fa false
  (macOf h).1.bElem m.bTy m.bPlanes (0x4000 + q * m.pitch)
theorem wit_TilesRun_mac :
    (let m := MmacFmt.ofBits (macOf 0).2.fa false
     min 128 m.k = 32 ∧ (∀ q < 32, finB (macB 0 q) = true ∧ ∀ x, macA 0 q = some x → finB x = true)) ∧
    (∃ x, macA 0x40 0 = some x ∧ x = .nan false) ∧ (∃ x, macA 0x60 0 = some x ∧ x.isSnan = true) ∧
    finB ((macOf 0).1.scaleAt 0 0 0 0) = true ∧ finB ((fmtOf .f32).decode ((macOf 0).1.elem false 7 0 0)) = true := by
  have hb : ∀ q < 32, finB (macB 0 q) = true := by decide +kernel
  have ha : ∀ q < 32, (match macA 0 q with | some x => finB x | none => true) = true := by decide +kernel
  have h4 : macA 0x40 0 = some (.nan false) := by decide +kernel
  have h6 : macA 0x60 0 = some (.nan true) := by decide +kernel
  refine ⟨⟨by decide +kernel, fun q hq => ⟨hb q hq, fun x hx => ?_⟩⟩, ⟨_, h4, rfl⟩, ⟨_, h6, rfl⟩, by decide +kernel,
    by decide +kernel⟩
  have := ha q hq
  rw [hx] at this
  exact this

/-- The other completions, the start of an operation, chunks of one of two, MMACS and MMACG, and a drain that waits for leases. -/
theorem wit_TilesRun_more :
    (∀ kind ∈ [TileKind.smax, .drainSpad, .planes, .macSparse, .macGrouped], let o := tileOp kind true
      (tiling o).runs 0 = true ∧ ((tiling o).core 0).tileQ = [o] ∧ (lookup? (tiling o).teams o.team).isSome = true ∧
      o.d ≠ o.a ∧ o.ty = .f32) ∧
    (let o := { tileOp .drainSpad true with imm := 0 }
     o.imm.toNat / 2 % 4096 = 0) ∧
    (let o := { tileOp .planes true with imm := 0x10 + 2 ^ 16 * 4, z := 0x8000 }
     o.imm.toNat % 2 ^ 16 = 16 ∧ ∀ i < 64, ∀ q < 16, o.x + i * (16 * (o.imm.toNat / 2 ^ 16 % 4096)) + q * 4 + 4 ≤ o.z) ∧
    (let o := { tileOp .mac true with fa := (tileOp .mac true).fa + 2 ^ 128 * 0x100 }
     o.chunksLeft.length = 3 ∧ (tiling o).runs 0 = true) ∧ (tileOp .mac true).chunksLeft = [((0, 0, 64), 0)] ∧
    ({ tileOp .macGrouped true with counts := [5] }).chunksLeft.length = 1 ∧
    (∀ side ∈ [0x10, 0x1000], ∀ kind ∈ [TileKind.load, .store], let o := { tileOp kind true with imm := BitVec.ofNat 32 side }
      o.imm.getLsbD 12 = (side == 0x1000)) ∧
    (let o := tileOp .drain true
     let s : State := { tiling o with lmax := [(0x200, 1)] }
     (∃ l ∈ o.drainLines, s.leaseOver l = false) ∧ s.leaseWait = []) := by
  refine ⟨?_, ?_, ?_, ⟨?_, ?_⟩, ?_, ?_, ?_, ?_⟩ <;> decide +kernel

/-- What a read of line 0x200 by some core asks (R247). -/
def missesB (s : State) (o : Op) : Bool :=
  o.missing.contains 0x200 && !s.combining o.id && !s.absorbed o.id && s.cached 0x10000 && !s.l1Hit o.core 0x200 &&
  !s.authorityHolds o.core 0x200 && s.mayPerform o (o.kind.parts.2.filter (fun x => lineOf x.pa == 0x200)) true

/-- A load of the word at 0x10000, of class 3 or not, by a course of a core. -/
def reading (class3 : Bool) (id : Nat := 2) (core : Nat := 0) (stamp : Nat := 3) : Op :=
  { opOf (.load .global .v .b32 { class3 } [{ lane := 31, va := 0x10000, pa := 0x10000, size := 4, reg := 127 }]) id with core, stamp }

/-- A walk that answers, one that does not, and one whose entry the core's TLB or its sector's holds. -/
theorem wit_CachesAndWalks_walks :
    (small).walk 0 0x10000 = .page page0 ∧ (small).walk 0 0x11000 = .absent ∧ (small).runs 0 = true ∧
    ((small).core 0).tlb = [] ∧ (small).sectorTlb = [] ∧
    (let e := page0.entry 0 0x10000
     (∃ x ∈ ((small course {} { tlb := [e] }).core 0).tlb, x.covers 0 0x10000 = true) ∧
     (let s : State := { small with sectorTlb := [(0, e)] }
      (∀ x ∈ (s.core 0).tlb, x.covers 0 0x10000 = false) ∧ s.runs 0 = true ∧
      s.sectorTlb.find? (fun x => x.1 == sectorOf 0 && x.2.covers 0 0x10000) = some (0, e))) := by decide +kernel

/-- A miss without an entry; one that joins the entry of another cluster, comes too late, or meets its own cluster's; data that arrives;
a class-3 read on its way through a switch without an entry, with one that it joins, and with a full table. -/
theorem wit_CachesAndWalks :
    (let s : State := { small with ops := [reading false] }
     s.readers = [reading false] ∧ missesB s (reading false) = true ∧ s.combines = []) ∧
    (∀ x ∈ [(8, 0), (8, 32), (1, 0)], let o := reading false
     let s : State := { small with ops := [reading false 1 x.1 9, o], clock := x.2, combines := [{ die := 0, line := 0x200, since := 0, ops := [1] }] }
     o ∈ s.readers ∧ missesB s o = true ∧ missesB s (reading false 1 x.1 9) = false ∧ authorityDie o.core 0x200 = 0 ∧
     (s.reader 1).map (·.core) = some x.1) ∧
    (let o := reading true
     let s : State := { small with ops := [o], combines := [{ die := 0, line := 0x200, since := 0, ops := [2] }] }
     s.ops.find? (fun p => p.id == 2) = some o ∧ o.done = false ∧ s.runs 0 = true ∧ s.courseOf 0 0 3 = some course ∧ s.watches = [] ∧
     s.absorbs = [] ∧ (∀ x ∈ o.kind.parts.2, s.loadPoison o .global x = false ∧ x.got = false ∧ lineOf x.pa = 0x200) ∧
     ((s.sliceLines 0 (sliceOf 0x10000)).filter (fun l => l != 0x200)).length < 6) ∧
    (∀ n ∈ [(0, 0), (0, 1), (0, 16), (32, 0)], let o := reading true
     let a : Absorb := { switch := n.1, line := 0x200, asid := 0, op := 9, passed := 0 }
     let s : State := { small with ops := [o], absorbs := if n.2 = 1 then [a] else List.replicate n.2 { a with asid := 1 } }
     let table := s.absorbs.filter (fun a => a.switch == n.1)
     let joins (a : Absorb) : Bool := a.line == 0x200 && a.asid == o.asid && decide (o.at_ ≤ a.passed) && a.op != o.id
     s.reader o.id = some o ∧ o.kind.order.class3 = true ∧ o.missing = [0x200] ∧ (n.1 = o.core / 64 ∨ n.1 = 32 + o.core / 512) ∧
     table.find? joins = (if n.2 = 1 then some a else none) ∧ table.length = n.2) := by
  refine ⟨?_, ?_, ?_, ?_⟩ <;> decide +kernel

/-- A line that leaves L2, clean, changed, or of a page that is deduplicated; one under a lease; a private line that spills; a recall,
its answers and its end; a copy and a line of the host that enter a victim buffer, and what waits there. -/
theorem wit_CachesAndWalks_copies :
    (∀ st ∈ [Mesi.e, .m], let s : State := { State.reset with l2 := [(0x200, st)] }
     lookup? s.l2 0x200 = some st ∧ s.leaseOver 0x200 = true ∧ get 0 s.directory 0x200 = 0 ∧ s.kept = [] ∧
     (homeOf 0x10000).package = true ∧ s.dedupFor 0x200 = none) ∧
    (∀ leased : Bool, let s : State := { small with mem := assign (small).mem 0x5087 8, l2 := [(0x200, .m)],
                                                    lmax := if leased then [(0x200, 1)] else [] }
     s.leaseOver 0x200 = !leased ∧ lookup? s.l2 0x200 = some .m) ∧
    (let p : PrivLine := { line := 0x200, stamp := 3, bytes := [(0x10000, 5)] }
     let s := small course {} { privs := [p] }
     lookup? s.l2 0x200 = none ∧ (s.core 0).run = .running ∧ (s.core 0).privs.find? (fun y => y.line == 0x200) = some p ∧
     (p.bytes.map (fun b => b.1)).Nodup ∧ (∀ b ∈ p.bytes, lineOf b.1 = 0x200) ∧ s.poison = []) ∧
    (let s : State := { small with copies := [(0x200 * 4 + 1, .m)], l2 := [(0x200, .s)] }
     let r : State := { s with recalls := [(0x200, 0)], clock := 2 ^ 20 }
     s.recallFree 0x200 = true ∧ s.heldElsewhere 0x200 = true ∧ r.recallFree 0x200 = false ∧ r.leaseOver 0x200 = true ∧
     r.recalls.find? (fun y => y.1 == 0x200) = some (0x200, 0) ∧ 0x200 ∉ r.poison ∧ (∃ y ∈ r.copies, y.1 / 4 = 0x200 ∧ y.2 ≠ .s) ∧
     s.victims = [] ∧ s.leaseOver 0x200 = true ∧ lookup? s.copies (0x200 * 4 + 1) = some .m ∧ homeDie 0x10000 ≠ 1) ∧
    (let l := 0x400000000
     let s : State := { small with l2 := [(l, .m)] }
     homeDie (128 * l) = 0 ∧ homeOf (128 * l) = .host ∧ lookup? s.l2 l = some .m ∧ get 0 s.directory l = 0 ∧ s.leaseOver l = true) ∧
    (∀ taken ∈ [true, false], let v : Victim := { die := 1, line := 0x200, taken }
      ({ small with victims := [v] } : State).victims.find? (fun x => x.die == 1 && x.line == 0x200) = some v) := by
  refine ⟨?_, ?_, ?_, ?_, ?_, ?_⟩ <;> decide +kernel

/-- A page that is deduplicated: its changed line, the state of its L2, and an equal copy in the table. -/
theorem wit_CachesAndWalks_dedup :
    let s : State := { small with
      mem := assign (small).mem 0x5087 8, l2 := [(0x200, .m)], shared := [(7, { data := List.replicate 128 0, count := 1, asid := 0 })]
      hashes := [(tierOf 0x200 * 2 ^ 32 + (hashLine (List.replicate 128 0)).toNat, 7)] }
    s.dedupFor 0x200 = some 0 ∧ lookup? s.dedup 0x200 = none ∧ s.readBytes 0x10000 128 = List.replicate 128 0 ∧
    lookup? s.hashes (tierOf 0x200 * 2 ^ 32 + (hashLine (s.readBytes 0x10000 128)).toNat) = some 7 := by decide +kernel

/-- A snoop of a host line that L2 holds, with its lease over and not, and one that only other dies hold; a back-invalidate of a line of
which a port has a copy; reads of the host without a port, and through a port that has a copy and one that has none. -/
theorem wit_HostAndPeers_reads :
    (∀ leased : Bool, let l := 0x400000000
     let s : State := { small with l2 := [(l, .m)], lmax := if leased then [(l, 1)] else [] }
     homeOf (128 * l) = .host ∧ s.cached (128 * l) = true ∧ s.leaseOver l = !leased ∧ (lookup? s.l2 l).isSome = true) ∧
    (∀ leased : Bool, let s : State := { small with directory := [(0x200, 0x128)], lmax := if leased then [(0x200, 1)] else [] }
     (homeOf (128 * 0x200)).package = true ∧ (get 0 s.directory 0x200).toNat / 8 % 16 ≠ 0 ∧ s.leaseOver 0x200 = !leased) ∧
    (let s : State := { small with directory := [(0x200, 8)] }
     (homeOf 0x10000).package = true ∧ 0x10000 % 128 + 128 ≤ 128 ∧ 0 ∉ s.pcie ∧ (get 0 s.directory 0x200).toNat / 2 ^ (3 + 0) % 2 = 1 ∧
     (get 0 s.directory 0x200).toNat / 2 ^ (3 + 1) % 2 = 0) := by decide +kernel

/-- Writes of the host and of a neighbour: of a line that is free, poisoned or under a lease; of the host's own memory and of a
neighbour's; inside its aperture, to its last byte, and outside; atomics that write and that do not; pool operations and wakes; links
that may be trained and that have failed. -/
theorem wit_HostAndPeers :
    (let free (s : State) : Prop := s.leaseOver 0x200 = true ∧ s.recallFree 0x200 = true ∧ s.leaseWait = []
     let bad : State := { small with poison := [0x200] }
     let leased : State := { small with lmax := [(0x200, 1)] }
     free small ∧ (small).poisoned 0x10000 = false ∧ free bad ∧ bad.poisoned 0x10000 = true ∧ ¬ leased.leaseOver 0x200 = true) ∧
    (homeOf 0x20000000000 = .host ∧ lookup? (small).l2 0x400000000 = none ∧ (small).heldElsewhere 0x400000000 = false ∧
      homeOf 0x40000000000 = .peer 0) ∧
    (let s : State := { small with links := [17], apertures := [(17, 0x10000, 0x10080)] }
     s.linkUp 17 = true ∧ lookup? s.apertures 17 = some (0x10000, 0x10080) ∧ 0x10000 % 64 = 0 ∧ 0x10000 + 128 ≤ 0x10080 ∧
     ¬ (0x10040 + 128 ≤ 0x10080) ∧
     let acc (cmp : W64) : Access := { lane := 0, va := 0x10000, pa := 0x10000, size := 4, val := 5, cmp }
     let old := extend .b32 (BitVec.ofNat 64 (s.readNat 0x10000 4))
     (rmwValue 7 .b32 .rne old (acc 0)).1 = some 5 ∧ (rmwValue 7 .b32 .rne old (acc 1)).1 = none) ∧
    ((small).linkUp 17 = false ∧ 17 ∉ (small).mgmt.dead ∧ ∃ m : Mgmt, 17 ∈ m.dead) := by
  refine ⟨?_, ?_, ?_, ?_, ?_, ⟨{ dead := [17] }, ?_⟩⟩ <;> decide +kernel

/-- A queue whose next packet is a grid of one team of one course, with its kernel's record and image header. -/
def launching : State :=
  let s := small course {} {} { grants := [(0, 1)], lqBase := [(7, 0x10000)], lqTail := [(7, 1)], lqSize := 2 }
  { s with mem := s.mem ++ [(0x10001, 1), (0x10002, 1), (0x1000C, 1), (0x10010, 1), (0x10014, 1), (0x10018, 3),
      (0x100C0, 0x34), (0x100C1, 0x5A), (0x100C2, 0x5A), (0x100C3, 0x4C), (0x100C4, 4), (0x100C6, 1), (0x100C8, 64), (0x100D0, 12),
      (0x10108, 12), (0x1010C, 1)] }

/-- A grid that waits for its event word, one with a team to admit, and one that is over and reports at 0x10008. -/
def gridsOf (g : Grid) : State := { small course {} {} { grants := [(0, 1)] } g with teams := [], cores := [] }
def admits : Grid :=
  { packet := BitVec.ofNat 512 (2 ^ 96 + 2 ^ 128 + 2 ^ 160 + 2 ^ 192 * 3), krec := BitVec.ofNat 256 (12 * 2 ^ 64 + 2 * 2 ^ 96),
    eventSeen := true }
def overG : Grid := { packet := BitVec.ofNat 512 (2 ^ 96 + 2 ^ 128 + 2 ^ 160 + 2 ^ 448 * 0x10008), nextTeam := 1 }

/-- A packet accepted from a queue and one from a child queue; an event word; an admission, with room for two courses, of a plain
grid; a retirement that counts at DONE; the energy tick; the supply on its way down to what is wanted, and to what is not; the
host's writes. -/
theorem wit_DispatcherRuns :
    (let s := launching
     (s.ctx 0).state = 1 ∧ get 0 (s.ctx 0).lqHead 7 ≠ get 0 (s.ctx 0).lqTail 7 ∧ (s.ctx 0).queueWaits 7 = false ∧
     (match s.readNum 0 0x10000 64 with
      | some x => let g : Grid := { asid := 0, packet := BitVec.ofNat 512 x, queue := 7, prio := 7 }
                  s.doneFree g && (s.decide g).1 == 0 && s.grids.length < 2 ^ 32
      | none => false) = true) ∧
    (let k : Child := { queue := 3, packet := 0, parent := 1, op := 2, core := 0, slot := 0, stamp := 3, lane := 31, file := .y, reg := 96 }
     let s := small course {} {} { children := [k] }
     let g : Grid := { asid := 0, packet := k.packet, queue := 3, child := true, prio := 3, depth := (s.grid k.parent).depth + 1,
                       parent := some k.parent }
     (s.ctx 0).state = 1 ∧ (s.ctx 0).children.find? (fun k => k.queue == 3 && k.status.isNone) = some k ∧ s.doneFree g = true ∧
     s.runs 0 = true ∧ s.courseOf 0 0 3 = some course ∧ k.lane < 32) ∧
    (let s := gridsOf { admits with eventSeen := false }
     (lookup? s.grids 1).isSome = true ∧ s.eventRead { admits with eventSeen := false } = some true) ∧
    (let s := gridsOf admits
     lookup? s.grids 1 = some admits ∧ admits.left ≠ 0 ∧ admits.replays = false ∧ s.dispatchable 1 admits = true ∧
     s.grids.all (fun x => x.1 == 1 || !before x.1 x.2 1 admits || !s.wants x.1 x.2 0) = true ∧
     s.grids.any (fun x => x.1 != 1 && x.2.cores && x.2.nextTeam != 0 && x.2.left != 0 && !x.2.killed) = false ∧
     (match s.roomFor admits 0 3 with
      | some p => p.slots == [12, 0] && (let u := s.placeTeam 1 0 0 3 p; u.togetherOk (u.grid 1))
      | none => false) = true ∧ admits.killed = false ∧ s.togetherOk admits = true ∧ admits.exact = false) ∧
    (let s := gridsOf overG
     lookup? s.grids 1 = some overG ∧ s.gridOver 1 overG = true ∧ s.gridWork 1 = false ∧ s.doneFree overG = true ∧ overG.det = false ∧
     overG.doneVa = 0x10008 ∧ 0x10008 % 8 = 0 ∧ page0.write = true ∧ s.walk 0 0x1000C = .page { page0 with pa := 0x1000C } ∧ s.poisoned 0x1000C = false) ∧
    (let s : State := { small course {} {} { mode := 2, vtarget := 560 } with turn := 8192 }
     (s.ctx 0).eon = true ∧ (s.ctx 0).ticked = false ∧ 8192 ≤ s.turn ∧ (s.core 0).change = none ∧ s.wantedMv 0 ≠ (s.core 0).mv) ∧
    (∀ mv ∈ [560, 650, 600], let s := small course {} { change := some (0, mv) } { vtarget := 560 }
     (s.core 0).change = some (0, mv) ∧ s.wantedMv 0 = 560) ∧
    (State.reset.ctx 0).state = 0 ∧
    (ctlInfo 0x200 = some (.sv, true) ∧ ctlOk 0x200 0x20000 = true ∧ ctlInfo 0x108 = some (.sv, false) ∧ ctlOk 0x108 3 = false ∧
      ctlInfo 0x302 = some (.ro, true)) := by decide +kernel

/-- A deterministic grid that is over, with an extension whose trace starts at 0x10100. -/
def recorded : Grid :=
  { packet := BitVec.ofNat 512 (2 ^ 96 + 2 ^ 128 + 2 ^ 160 + 2 ^ 288 * 0x10080), nextTeam := 1, det := true,
    ext := some (BitVec.ofNat 1024 (2 ^ 704 * 0x10100)) }

/-- A packet that waits for a lower queue's of the same cycle; one whose limits are broken; one whose launch is read, with no core
granted and with one; an event word below its value; an exact team's admission on a core away from 650 mV; a retirement that records,
one whose DONE line is under a lease, and a grid that is not over; a context without a budget; a core with an EXACT team and one that
no longer holds any; a tail, a value out of range and registers of the host. -/
theorem wit_DispatcherRuns_more :
    (let c : Ctx := { lqTail := [(0, 1), (1, 1)], tails := [(0, 5, 1), (1, 5, 1)] }
     get 0 c.lqHead 0 ≠ get 0 c.lqTail 0 ∧ (∃ y ∈ c.tails, y.1 = 0 ∧ some y.2.1 = c.submitted 1) ∧
       c.queueWaits 1 = true ∧ c.queueWaits 0 = false) ∧
    ({} : Grid).lmask = 0 ∧
    (match (launching).readNum 0 0x10000 64 with
      | some x =>
        let g : Grid := { asid := 0, packet := BitVec.ofNat 512 x, queue := 7, prio := 7 }
        (match (launching).readLaunch g with
         | (some h, u) => (u.readTrace h).1.isSome && h.capacity (u.core 0) != 0 && u.grants h.asid 0 && !h.cores && !h.det
         | _ => false)
      | none => false) = true ∧
    (let s := gridsOf { admits with eventSeen := false, packet := admits.packet + BitVec.ofNat 512 (2 ^ 352 * 0x10000 + 2 ^ 416) }
     (s.grid 1).eventVa = 0x10000 ∧ s.readNum 0 0x10000 4 = some 0 ∧ (s.grid 1).eventVal = 1) ∧
    (let g : Grid := { admits with exact := true }
     let s : State := { gridsOf g with cores := [(0, { mv := 560 })] }
     s.dispatchable 1 g = true ∧ g.left ≠ 0 ∧ s.togetherOk g = true ∧ (s.core 0).mv ≠ 650 ∧ (s.core 0).change = none ∧
       (s.roomFor g 0 3).isSome = true) ∧
    (let s := gridsOf recorded
     s.gridOver 1 recorded = true ∧ s.gridWork 1 = false ∧ recorded.tmode = 0 ∧ recorded.doneVa = 0 ∧
       (s.writeVia 0 recorded.traceVa recorded.traceBytes).isSome = true) ∧
    (let s : State := { gridsOf overG with lmax := [(0x200, 1)] }
     s.gridOver 1 overG = true ∧ s.gridWork 1 = false ∧ s.doneFree overG = false) ∧
    (gridsOf admits).gridOver 1 admits = false ∧ ((small).ctx 0).eon = false ∧
    ((small course {} {} {} { exact := true }).teamsOn 0 ≠ [] ∧ (State.reset).teamsOn 0 = [] ∧
      ∃ p ∈ ((small { course with exact := true }).core 0).courses, p.2.exact = true) ∧
    (isTail 0x118 = true ∧ ctlInfo 0x118 = some (.sv, false) ∧ ctlOk 0x118 0xFFFFFFFF = true) := by
  refine ⟨?_, ?_, ?_, ?_, ?_, ?_, ?_, ?_, ?_, ?_, ?_⟩ <;> decide +kernel

/-- A core whose clock stopped at cycle 5, with what its port keeps. -/
def stopped (k : Core) (x : Ctx := {}) : State := small course {} { k with run := .stopped 5 } x

theorem wit_ContextsAndCores_commands :
    ((State.reset.ctx 63).cmdStatus ≠ 1 ∧ (State.reset.ctx 63).state = 0) ∧ (∃ c : Ctx, c.cmdStatus = 1) ∧
    (let s : State := { small with cores := [], teams := [], grids := [] }
     (s.ctx 0).cmdStatus ≠ 1 ∧ (s.ctx 0).state = 1 ∧ s.quiet 0 = true ∧ s.stillCores 0 = [] ∧ s.zbuf = []) ∧
    (let s := small course {} {} { state := 2 }
     s.grids.any (fun p => p.2.asid == 0) = true ∧ (s.mapCtx 0 (fun c => { c with state := 2 })).quiet 0 = false) ∧
    (let s := small course {} {} { grants := [(0, 2)], capCore := 1, capAddr := 0x11000 }
     s.grants 0 1 = true ∧ (s.core 1).run = .running ∧ s.capturePages 0 0x11000 = false) ∧
    (let s := stopped {} { grants := [(0, 1)] }
     s.grants 0 0 = true ∧ (s.core 0).run = .stopped 5) := by
  refine ⟨?_, ⟨{ cmdStatus := 1 }, rfl⟩, ?_, ?_, ?_, ?_⟩ <;> decide +kernel

/-- A capture that arrives at a core that runs and at one that stands; what comes to the port of a stopped core: data that is there,
data that must be read, an atomic's answer, an exchange's answer and a wake, also where they lie there already and where no flit has room. -/
theorem wit_ContextsAndCores_stop :
    (∀ k ∈ [RunState.running, .stopped 5], let r : CapReq := { target := 0, asid := 0, va := 0x40000000, origin := 1, who := some me, via := some 1 }
     let s : State := { small course {} { run := k } with captures := [r] }
     s.captures.find? (fun r => r.target == 0 && !r.arrived) = some r ∧ (s.core 0).run = k) ∧
    (∀ k ∈ [OpKind.load .global .v .b32 {} pairOf, .load .global .v .b32 {} (pairOf.map (fun x => { x with got := true })),
        .reply .v false {} []],
     let s : State := filled { stopped {} with ops := [opOf k] }
     s.ops.find? (fun p => p.id == 2) = some (opOf k) ∧ (opOf k).done = false ∧ (s.core 0).run ≠ .running ∧ (s.core 0).parked = [] ∧
     s.xwaits = [] ∧ s.watches = [] ∧ (∀ x ∈ pairOf, s.present 0 (lineOf x.pa) = true) ∧
     s.portFlits 0 < 512 ∧ ((k.parts.2 = []) ∨ s.mayRead (opOf k) = true) ∧ (s.readAll 2 (fun _ => true)).portFlits 0 < 512) ∧
    (∀ full : Bool, let p (n : Nat) : Parked := { seq := n, item := .answer n }
     let s : State := { stopped { parked := if full then (List.range 512).map p else [] } with
       xwaits := [{ id := 10, core := 0, slot := 0, stamp := 3, entry := 0, target := 1, mask := 3, vals := [], left := 1,
                    word := word (vr 1) (vr 2) (sr 3) .b32, ans := some [] }]
       watches := [{ id := 11, core := 0, slot := 0, stamp := 3, entry := 0, asid := 0, lanes := [], left := none, woken := true,
                     word := word (vr 1) (vr 2) (vr 4) .b32 }] }
     (s.xwaits.find? (fun x => x.id == 10 && x.ans.isSome)).map (·.core) = some 0 ∧
     ((∀ y ∈ s.xwaits, y.id ≠ 11) ∧ (s.watches.find? (fun x => x.id == 11 && x.woken)).map (·.core) = some 0) ∧
     (decide (s.portFlits 0 < 512) = !full) ∧ (∀ p ∈ (s.core 0).parked, p.item ≠ .xchg 10 ∧ p.item ≠ .wake 11) ∧
     (s.ctx 0).parkStride = 0) := by
  refine ⟨?_, ?_, fun full => ?_⟩
  · decide +kernel
  · decide +kernel
  · cases full <;> decide +kernel

/-- A stopped core that the host releases, and one that a binding holds; a restore whose image cannot be read; a binding that closes,
and one that waits for an operation and for a job. -/
theorem wit_ContextsAndCores_start :
    (∀ b ∈ [none, some 1], let r : RestReq := { target := 0, asid := 0, va := 0, who := none, via := none, host := true }
     let s : State := { stopped { binding := b } with restores := [r] }
     s.restores.find? (fun r => r.target == 0 && r.status.isNone) = some r ∧ s.captures = [] ∧ (s.core 0).binding = b ∧
     (s.core 0).parked = [] ∧ s.xwaits = []) ∧
    (let r : RestReq := { target := 1, asid := 0, va := 0x10000, who := some me, via := some 0, host := false }
     let s : State := { small with restores := [r] }
     s.restores.find? (fun r => r.target == 1 && r.status.isNone) = some r ∧ s.captures = [] ∧ s.xwaits = [] ∧
     s.imageRead r.via 0 0x10000 0xF6000 = none ∧ s.teamsOn 1 = []) ∧
    (let s : State := { small with cores := [(0, { binding := some 1, bound := [2], run := .stopped 5 })] }
     let j : Job := job .running 0 none 0 0
     (s.core 0).binding = some 1 ∧ s.ops = [] ∧ s.jobs = [] ∧ s.captures = [] ∧
     (∃ o ∈ ({ s with ops := [opOf storing] } : State).ops, o.id ∈ (s.core 0).bound ∧ o.done = false) ∧
     ∃ k ∈ ({ s with jobs := [j] } : State).jobs, k.id ∈ (s.core 0).bound) := by
  refine ⟨?_, ?_, ?_⟩ <;> decide +kernel

/-- The firmware: attestation asked for and not; a boot with its image, one without and one that is too old; a state of recovery; the
thermal limits reached and left; and a line with one error of one bit or of two, in DRAM, in L2 as it stands there, and in L2 over DRAM. -/
theorem wit_FirmwareRuns :
    (State.reset.mgmt.state ≠ 1 ∧ State.reset.mgmt.railsUp = true ∧ State.reset.mgmt.state = 0 ∧
      State.reset.mgmt.throttle = false ∧ State.reset.mgmt.stalled = false ∧ State.reset.softErrors = [] ∧ State.reset.mgmt.attStatus ≠ 1) ∧
    (∃ m : Mgmt, m.state = 1 ∧ m.attStatus = 1 ∧ m.throttle = true ∧ m.railsUp = false) ∧
    (∃ m : Mgmt, m.railsUp = true ∧ m.state = 0 ∧ m.slot.1 = true ∧ m.fwMin ≤ m.slot.2) ∧
    (∃ m : Mgmt, m.railsUp = true ∧ m.state = 0 ∧ m.slot.1 = false) ∧
    (∃ m : Mgmt, m.railsUp = true ∧ m.state = 0 ∧ m.slot.1 = true ∧ m.slot.2 < m.fwMin) ∧
    (∃ m : Mgmt, m.state = 2 ∧ m.fwMin ≤ (1 : W32)) ∧
    (∀ x ∈ [(1, false, none), (2, false, none), (1, true, some Mesi.e), (2, true, some .m), (2, true, some .s), (2, false, some .m)],
     let e : SoftError := { spot := { site := .line 0x10000 x.2.1, row := { unit := .sram 0 0, row := 0 } }, bits := x.1 }
     let s : State := { small with softErrors := [e], l2 := match x.2.2 with | some st => [(0x200, st)] | none => [] }
     s.softErrors = [e] ∧ (homeOf (lineOf 0x10000 * 128)).package = true ∧ lookup? s.l2 0x200 = x.2.2) := by
  refine ⟨by decide +kernel, ⟨{ state := 1, attStatus := 1, throttle := true, railsUp := false }, by decide⟩,
    ⟨{ slot := (true, 1) }, by decide +kernel⟩, ⟨{ slot := (false, 1) }, by decide⟩, ⟨{ slot := (true, 1), fwMin := 2 }, by decide⟩,
    ⟨{ state := 2 }, by decide⟩, by decide +kernel⟩

/-! ### The image of a core, on a page of a gigabyte -/

def giga (k : Core) : State := gigabyte (small course {} k)

theorem giga_walk_of (s : State) (hp : s.poison = []) (hw : ∀ va, s.walk 0 va = s.walkFrom va 5 0x1000)
    (t1 : s.tableEntry 4 0x1000 = .table 0x2000) (t2 : s.tableEntry 3 0x2000 = .table 0x3000)
    (t3 : s.tableEntry 2 0x3008 = .leaf { page0 with pa := 0x40000000, bits := 30 })
    (va : Nat) (h : 0x40000000 ≤ va) (h' : va < 0x40000000 + 0x100000) :
    s.walk 0 va = .page { page0 with pa := va, bits := 30 } := by
  have e1 : va / 2 ^ 48 % 512 = 0 := by omega
  have e2 : va / 2 ^ 39 % 512 = 0 := by omega
  have e3 : va / 2 ^ 30 % 512 = 1 := by omega
  have e4 : 0x40000000 + va % 2 ^ 30 = va := by omega
  have clean (a : Nat) : s.poisoned a = false := by simp [State.poisoned, hp]
  have hn : va < 0x1000000000 := by omega
  rw [hw]
  simp only [State.walkFrom, clean, e1, e2, e3, t1, t2, t3, Nat.reduceMul, Nat.reduceAdd, Bool.false_eq_true, if_false]
  rw [e4]
  simp [Page.walk, homeOf, hn]

theorem giga_walk (k : Core) (va : Nat) (h : 0x40000000 ≤ va) (h' : va < 0x40000000 + 0x100000) :
    (giga k).walk 0 va = .page { page0 with pa := va, bits := 30 } := by
  have hk (n a : Nat) : (giga k).tableEntry n a = (giga {}).tableEntry n a := rfl
  have t1 : (giga {}).tableEntry 4 0x1000 = .table 0x2000 := by decide +kernel
  have t2 : (giga {}).tableEntry 3 0x2000 = .table 0x3000 := by decide +kernel
  have t3 : (giga {}).tableEntry 2 0x3008 = .leaf { page0 with pa := 0x40000000, bits := 30 } := by decide +kernel
  exact giga_walk_of (giga k) rfl (fun _ => rfl) ((hk _ _).trans t1) ((hk _ _).trans t2) ((hk _ _).trans t3) va h h'

theorem firstBad_ok {α : Type} {xs : List α} {bad : α → Bool} {trap : α → Trap} (h : ∀ x ∈ xs, bad x = false) :
    firstBad xs bad trap = .ok () := by
  unfold firstBad
  have : xs.find? bad = none := List.find?_eq_none.mpr (fun x hx => by simp [h x hx])
  rw [this]

/-- Every page of an image's megabyte stands and may be written. -/
theorem wit_ContextsAndCores_pages : (giga {}).capturePages 0 0x40000000 = true ∧
    (let s := giga {}
     (s.mapCtx 0 (fun c => { c with grants := [(0, 2)], capCore := 1, capAddr := 0x40000000 })).grants 0 1 = true) := by
  refine ⟨?_, by decide +kernel⟩
  have hm : ∀ p ∈ imageProbes 0 0x40000000, ∃ i < 256, p.va.toNat = 0x40000000 + 4096 * i := by
    intro p hp
    simp only [imageProbes, List.mem_map, List.mem_range] at hp
    obtain ⟨i, hi, rfl⟩ := hp
    exact ⟨i, hi, by simp; omega⟩
  have hw : ∀ p ∈ imageProbes 0 0x40000000, ∃ g : Page, (giga {}).walk 0 p.va.toNat = .page g ∧ g.write = true ∧
      ∃ d, homeOf g.pa = .near d := by
    intro p hp
    obtain ⟨i, hi, hv⟩ := hm p hp
    have hn : p.va.toNat < 0x1000000000 := by omega
    refine ⟨_, giga_walk {} p.va.toNat (by omega) (by omega), rfl, p.va.toNat / 0x400000000, ?_⟩
    simp [homeOf, hn]
  unfold State.capturePages State.checkPages
  rw [firstBad_ok, firstBad_ok, firstBad_ok]
  · decide
  all_goals
    intro x hx
    obtain ⟨p, hp, rfl⟩ := List.mem_map.mp hx
    obtain ⟨g, hg, hgw, d, hd⟩ := hw p hp
    simp [hg, Walk.found, Walk.get, Page.grants, hgw, hd]

/-- The pieces of an image lie one after another inside their megabyte, each in one line. -/
theorem pieces_apart (va n : Nat) (h : 0 < n) : (∀ p ∈ pieces va n, va ≤ p.1 ∧ p.1 < va + n) ∧
    (pieces va n).Pairwise (fun p q => p.1 + p.2 ≤ q.1) := by
  unfold pieces linesOf lineOf
  rw [if_neg (by omega), List.map_map]
  constructor
  · intro p hp
    simp only [List.mem_map, List.mem_range, Function.comp] at hp
    obtain ⟨i, hi, rfl⟩ := hp
    dsimp only
    omega
  · rw [List.pairwise_map]
    refine List.pairwise_lt_range.imp ?_
    intro a b hab
    simp only [Function.comp]
    omega

theorem near_home (a : Nat) (h : a < 0x1000000000) : (homeOf a).package = true := by
  unfold homeOf
  rw [if_pos h]
  rfl

theorem mapM_isSome {α β : Type} (f : α → Option β) (l : List α) (h : ∀ x ∈ l, (f x).isSome = true) :
    (l.mapM f).isSome = true := by
  induction l with
  | nil => rfl
  | cons x xs ih =>
    obtain ⟨y, hy⟩ := Option.isSome_iff_exists.mp (h x (by simp))
    obtain ⟨ys, hys⟩ := Option.isSome_iff_exists.mp (ih (fun z hz => h z (by simp [hz])))
    simp [List.mapM_cons, hy, hys]

theorem wit_ContextsAndCores_image :
    let r : CapReq := { target := 0, asid := 0, va := 0x40000000, origin := 1, who := some me, via := some 0, arrived := true }
    let s : State := { giga { run := .stopped 5 } with captures := [r] }
    let g (a : Nat) : Page := { page0 with pa := a, bits := 30 }
    let parts := pieces r.va 0xF6000
    s.captures.find? (fun r => r.target == 0 && r.arrived && !r.done) = some r ∧ (s.core 0).run = .stopped 5 ∧
    r.origin = 1 ∧ r.who.isSome = true ∧
    (∀ p ∈ parts, s.translateFor r.via r.asid p.1 = .page (g p.1) ∧ (g p.1).write = true ∧ (homeOf (g p.1).pa).package = true ∧
      s.leaseOver (lineOf (g p.1).pa) = true ∧ s.leaseWait = []) ∧
    parts.Pairwise (fun p q => (g p.1).pa + p.2 ≤ (g q.1).pa ∨ (g q.1).pa + q.2 ≤ (g p.1).pa) := by
  refine ⟨by decide +kernel, by decide +kernel, rfl, rfl, fun p hp => ?_, ?_⟩
  · obtain ⟨h, h'⟩ := (pieces_apart 0x40000000 0xF6000 (by decide)).1 p hp
    have hw := giga_walk { run := .stopped 5 } p.1 h (by omega)
    exact ⟨Eq.trans rfl hw, rfl, near_home p.1 (by omega), rfl, rfl⟩
  · exact (pieces_apart 0x40000000 0xF6000 (by decide)).2.imp (fun h => Or.inl h)

theorem imageRead_of (s : State) (via : Option Nat) (asid va n : Nat)
    (h : (physical (s.translateFor via asid) (·.read) va n).isSome = true) (hp : s.poison = []) :
    (s.imageRead via asid va n).isSome = true := by
  obtain ⟨ps, hps⟩ := Option.isSome_iff_exists.mp h
  unfold State.imageRead
  rw [hps]
  have : ps.any (fun p => s.anyPoisoned p.1 p.2) = false := by simp [State.anyPoisoned, hp]
  simp [this]

theorem giga_image (s : State) (via : Option Nat) (h : s.translateFor via 0 = (giga {}).walk 0) :
    (physical (s.translateFor via 0) (·.read) 0x40000000 0xF6000).isSome = true := by
  refine mapM_isSome _ _ (fun p hp => ?_)
  obtain ⟨hl, hh⟩ := (pieces_apart 0x40000000 0xF6000 (by decide)).1 p hp
  rw [h, giga_walk {} p.1 hl (by omega)]
  simp only [page0, Bool.true_and, Option.isSome_ite, decide_eq_true_eq]
  omega

/-- A restore of an image that can be read, of courses that stand nowhere any more. -/
theorem wit_ContextsAndCores_restore :
    let r : RestReq := { target := 1, asid := 0, va := 0x40000000, who := some me, via := some 0, host := false }
    let s : State := { giga {} with restores := [r] }
    s.restores.find? (fun r => r.target == 1 && r.status.isNone) = some r ∧ s.captures = [] ∧ r.who.isSome = true ∧ r.held = false ∧
    s.xwaits = [] ∧ (∀ p ∈ s.ctxs, p.2.children = []) ∧ ∃ image, s.imageRead r.via r.asid r.va 0xF6000 = some image := by
  refine ⟨by decide +kernel, rfl, rfl, rfl, rfl, by decide +kernel, ?_⟩
  exact Option.isSome_iff_exists.mp (imageRead_of _ _ 0 0x40000000 0xF6000 (giga_image _ _ rfl) rfl)


/-- An image of one course in slot 0 that no core of the device wrote, in the giga's page, and a core that stands stopped with a course
of its stamp. -/
def moving : State :=
  { giga {} with
    mem := (giga {}).mem ++ [(0x40000012, 1)]
    cores := [(2048, { run := .stopped 0, courses := [(0, {})] })]
    restores := [{ target := 1, asid := 0, va := 0x40000000, who := some me, via := none, host := false, held := true }] }

theorem moving_walk (va : Nat) (h : 0x40000000 ≤ va) (h' : va < 0x40000000 + 0x100000) :
    moving.walk 0 va = .page { page0 with pa := va, bits := 30 } :=
  giga_walk_of moving rfl (fun _ => rfl) (by decide +kernel) (by decide +kernel) (by decide +kernel) va h h'

theorem image_head (s : State) (via : Option Nat) (asid va n len : Nat) (q : Page) (rest : List (Nat × Nat)) (image : List Byte)
    (hc : pieces va n = (va, len) :: rest) (hx : s.translateFor via asid va = .page q)
    (h : s.imageRead via asid va n = some image) : ∃ tail, image = getBlock emptyByte s.mem q.pa len ++ tail := by
  unfold State.imageRead at h
  cases hp : physical (s.translateFor via asid) (·.read) va n with
  | none => simp [hp] at h
  | some ps =>
    rw [hp] at h
    obtain ⟨x, xs, rfl, hx'⟩ : ∃ x xs, ps = x :: xs ∧ x = (q.pa, len) := by
      unfold physical at hp
      rw [hc, List.mapM_cons, hx] at hp
      simp only [Option.bind_eq_bind, Option.bind_eq_some_iff, Option.pure_def, Option.some.injEq] at hp
      obtain ⟨x, hx, xs, -, rfl⟩ := hp
      refine ⟨x, xs, rfl, ?_⟩
      split at hx
      · exact (Option.some.inj hx).symm
      · cases hx
    dsimp only at h
    split at h
    · cases h
    · subst hx'
      exact ⟨_, (Option.some.inj h).symm⟩

theorem moving_header (image : List Byte) (h : moving.imageRead none 0 0x40000000 0xF6000 = some image) :
    leNat (image.take 64) = 2 ^ 144 := by
  obtain ⟨rest, hc⟩ : ∃ rest, pieces 0x40000000 0xF6000 = (0x40000000, 128) :: rest := by
    unfold pieces linesOf
    rw [if_neg (by decide), show lineOf (0x40000000 + (0xF6000 - 1)) + 1 - lineOf 0x40000000 = 7871 + 1 from by decide,
      List.range_succ_eq_map]
    exact ⟨_, rfl⟩
  obtain ⟨tail, rfl⟩ := image_head moving none 0 _ _ _ _ rest image hc
    (Eq.trans rfl (moving_walk 0x40000000 (by decide) (by decide))) h
  rw [List.take_append_of_le_length (by decide +kernel)]
  decide +kernel

/-- A restore that moves the courses of a core that stands stopped. -/
theorem wit_ContextsAndCores_move : ∃ r image, moving.restores = [r] ∧ r.target = 1 ∧ r.status = none ∧ r.host = false ∧ r.held = true ∧
    r.who.isSome = true ∧ moving.captures = [] ∧ moving.xwaits = [] ∧ (∀ p ∈ moving.ctxs, p.2.children = []) ∧
    moving.imageRead r.via r.asid r.va 0xF6000 = some image ∧ leNat (image.take 64) / 2 ^ 144 % 2 ^ 16 ≠ 0 ∧
    (let z := moving.snapOf r.asid image
     moving.stillHeld z = true ∧ z.num ≠ 1 ∧ (moving.core z.num).parked = []) := by
  have hi : (moving.imageRead none 0 0x40000000 0xF6000).isSome = true := by
    refine imageRead_of _ _ 0 0x40000000 0xF6000 (mapM_isSome _ _ (fun p hp => ?_)) rfl
    obtain ⟨hl, hh⟩ := (pieces_apart 0x40000000 0xF6000 (by decide)).1 p hp
    rw [show moving.translateFor none 0 p.1 = moving.walk 0 p.1 from rfl, moving_walk p.1 hl (by omega)]
    simp only [page0, Bool.true_and, Option.isSome_ite, decide_eq_true_eq]
    omega
  obtain ⟨image, hi⟩ := Option.isSome_iff_exists.mp hi
  have hh := moving_header image hi
  refine ⟨_, image, rfl, rfl, rfl, rfl, rfl, rfl, rfl, rfl, by decide +kernel, hi, by rw [hh]; decide, ?_⟩
  have hz : moving.snapOf 0 image = Snap.ofBytes image moving.stamp 0 := rfl
  simp only [hz]
  have hs : (List.range 16).filter (fun k => (2 ^ 144 : Nat).testBit (144 + k)) = [0] := by decide +kernel
  refine ⟨?_, by simp [Snap.ofBytes], by rfl⟩
  unfold State.stillHeld
  simp only [Snap.ofBytes, hh, hs]
  rfl

/-! ### The catalogue of chapter 11 -/

open Sys2Proof.Ordering in
/-- A store or load of core `c`, by lane 0 of its course `n`, at a word. -/
def ev (c n : Nat) (kind : Kind) (l : Nat) (acq rel : Bool := false) (scope : Nat := 0) (promoted : Bool := false) : Event :=
  { agent := .core c, strand := some (32 * n), kind, at_ := [.word l], acquire := acq, release := rel, scope, promoted }

open Sys2Proof.Ordering in
/-- Message passing: x and y are written by core 0, y and then x are read by core `c`: y's new value and x's old one. -/
def messages (c : Nat) (rel acq promote : Bool) (w r : Nat) : Execution :=
  { events := [ev 0 0 .write 0 (scope := w), ev 0 0 .write 1 (rel := rel) (scope := w), ev c 1 .read 1 acq false r promote,
               ev c 1 .read 0 (scope := r)]
    co := [(.word 0, [0]), (.word 1, [1])], source := [((.word 1, 2), 1)] }

/-- Tests 1, 2 and 3, and R294's sixth row on two dies: forbidden by a release and an acquire that agree in scope, or by promotion; allowed without. -/
theorem test_litmus_messages : (messages 512 true true false 3 3).allowed = false ∧
    (messages 512 false false false 3 3).allowed = true ∧ (messages 1 true true false 0 2).allowed = true ∧
    (messages 1 true true true 0 2).allowed = false ∧ (messages 512 true true true 0 3).allowed = false := by decide +kernel

open Sys2Proof.Ordering in
/-- Store buffering, the fence between each store and load at a scope or absent. -/
def buffering (fence : Option Nat) : Execution :=
  let f (c n : Nat) : Event := { agent := .core c, strand := some (32 * n), kind := .fence, acquire := true, release := true,
                                 scope := fence.getD 0 }
  { events := [ev 0 0 .write 0 (scope := 2)] ++ (if fence.isSome then [f 0 0] else []) ++ [ev 0 0 .read 1 (scope := 2)] ++
      [ev 1 1 .write 1 (scope := 2)] ++ (if fence.isSome then [f 1 1] else []) ++ [ev 1 1 .read 0 (scope := 2)]
    co := [(.word 0, [0]), (.word 1, [if fence.isSome then 3 else 2])] }
/-- Test 4. -/
theorem test_litmus_buffering : (buffering (some 2)).allowed = false ∧ (buffering none).allowed = true ∧
    (buffering (some 0)).allowed = true := by decide +kernel

open Sys2Proof.Ordering in
/-- Two readers on dies 2 and 3 see two independent writes in opposite orders. -/
def opposite (acq : Bool) : Execution :=
  { events := [ev 0 0 .write 0 (scope := 3), ev 512 1 .write 1 (scope := 3), ev 1024 2 .read 0 acq false 3,
               ev 1024 2 .read 1 (scope := 3), ev 1536 3 .read 1 acq false 3, ev 1536 3 .read 0 (scope := 3)]
    co := [(.word 0, [0]), (.word 1, [1])], source := [((.word 0, 2), 0), ((.word 1, 4), 1)] }
/-- Test 5. -/
theorem test_litmus_opposite : (opposite true).allowed = false ∧ (opposite false).allowed = true := by decide +kernel

open Sys2Proof.Ordering in
/-- Each of two parties reads what the other writes after; `moves` when the value written is the value read. -/
def loads (acq moved : Bool) : Execution :=
  { events := [ev 0 0 .read 0 acq false 3, ev 0 0 .write 1 (scope := 3), ev 512 1 .read 1 acq false 3, ev 512 1 .write 0 (scope := 3)]
    co := [(.word 0, [3]), (.word 1, [1])], source := [((.word 0, 0), 3), ((.word 1, 2), 1)], moves := if moved then [(0, 1), (2, 3)] else [] }
/-- Tests 6 and 7. -/
theorem test_litmus_loads : (loads false false).allowed = true ∧ (loads true false).allowed = false ∧
    (loads false true).allowed = false := by decide +kernel

open Sys2Proof.Ordering in
/-- Test 8: two stores of one strand, and a second strand that reads the later and then the earlier; R277: a write between. -/
theorem test_litmus_coherence :
    let x : Execution := { events := [ev 0 0 .write 0, ev 0 0 .write 0, ev 1 1 .read 0, ev 1 1 .read 0], co := [(.word 0, [0, 1])],
                           source := [((.word 0, 2), 1), ((.word 0, 3), 0)] }
    let y : Execution := { events := [ev 0 0 .rmw 0, ev 1 1 .rmw 0], co := [(.word 0, [0, 1])], source := [((.word 0, 1), 0)] }
    x.allowed = false ∧ { x with source := [((.word 0, 2), 0), ((.word 0, 3), 0)] }.allowed = true ∧ y.allowed = true ∧
    { y with source := [] }.allowed = false := by decide +kernel

open Sys2Proof.Ordering in
/-- R274: a job's reads come after the stores before a release fence, and before a load after the WAIT that covers it. -/
theorem test_engine_order :
    let j : Work := { course := 0, issue := 2, engine := .transfer 0, reads := [.word 0], writes := [.word 1], covered := some 4 }
    let x : Execution := { events := [ev 0 0 .write 0, { agent := .core 0, strand := some 0, kind := .fence, release := true, scope := 1 },
                                      { agent := .transfer 0, strand := none, kind := .read, at_ := [.word 0], job := some 0 },
                                      { agent := .transfer 0, strand := none, kind := .write, at_ := [.word 1], job := some 0 },
                                      ev 0 0 .read 1]
                           co := [(.word 0, [0]), (.word 1, [3])], source := [((.word 0, 2), 0), ((.word 1, 4), 3)], work := [j] }
    let y : Execution := { x with ep := x.engineEdges x.hb }
    (0, 2) ∈ y.ep ∧ (3, 4) ∈ y.ep ∧ y.allowed = true ∧ { y with source := [((.word 1, 4), 3)] }.allowed = false := by decide +kernel

open Sys2Proof.Ordering in
/-- R160: a ring gives its oldest item, a stack its youngest; a full pool refuses; R280: a pop stands before no push before it. -/
theorem test_pool_order :
    (replay true 2 [.push 5 true, .push 6 true, .push 7 false, .pop (some 5)] {}).map (fun x => (x.items, x.pushes)) = some ([6], 3) ∧
    (replay false 2 [.push 5 true, .push 6 true, .pop (some 6)] {}).map (fun x => x.items) = some [5] ∧
    replay true 2 [.pop (some 5)] {} = none ∧ (replay false 1 [.pop none, .paired 9] {}).map (fun x => x.pops) = some 1 ∧
    (let e : Event := { agent := .core 0, strand := some 0, kind := .rmw, at_ := [.pool 0] }
     let x : Execution := { events := [e, e], pools := [{ object := 0, ring := true, cap := 2, lin := [(.push 5 true, [0]), (.push 6 true, [1])] }] }
     x.pooled = true ∧
     { x with pools := [{ object := 0, ring := true, cap := 2, lin := [(.push 6 true, [1]), (.push 5 true, [0])] }] }.pooled = false) := by
  decide +kernel

open Sys2Proof.Ordering in
/-- Test 9's last row: a pair is a pair of pp, whether the list of pp says so or not: x, which the push releases, is seen by the popper. -/
theorem test_pool_pair :
    let p (c : Nat) (push : Bool) : Event := { agent := .core c, strand := some (32 * c), kind := .pairing, at_ := [.pool 0],
                                               acquire := !push, release := push, scope := 2 }
    let x : Execution := { events := [ev 0 0 .write 0 (scope := 2), p 0 true, p 1 false, ev 1 1 .read 0 (scope := 2)], co := [(.word 0, [0])]
                           pp := [(1, 2)], pools := [{ object := 0, ring := true, cap := 2, lin := [(.paired 5, [1, 2])] }] }
    x.allowed = false ∧ { x with pp := [] }.allowed = false ∧ { x with source := [((.word 0, 3), 0)] }.allowed = true := by decide +kernel

open Sys2Proof.Ordering in
/-- Test 11: two STS of one strand to a granule of scratchpad, in order; an engine that reads the granule does not see the later alone. -/
theorem test_bank_order :
    let w (n : Nat) : Event := { agent := .core 0, strand := some 0, instr := some n, kind := .write, at_ := [.scratch 0 n] }
    let j : Work := { course := 1, issue := 2, engine := .transfer 0, reads := [.scratch 0 0, .scratch 0 1] }
    let x : Execution := { events := [w 0, w 1, { agent := .transfer 0, strand := none, kind := .read, at_ := [.scratch 0 0, .scratch 0 1], job := some 0 }]
                           co := [(.scratch 0 0, [0]), (.scratch 0 1, [1])], work := [j] }
    { x with source := [((.scratch 0 1, 2), 1)] }.allowed = false ∧ { x with source := [((.scratch 0 0, 2), 0)] }.allowed = true ∧
    { x with source := [((.scratch 0 0, 2), 0), ((.scratch 0 1, 2), 1)] }.allowed = true := by decide +kernel

end Sys2Proof.Tests
end

section
/-! Integers in registers (R40, R41): the number that a type reads out of a register is the wrapped value of whatever was put in. -/

namespace Sys2Proof.Machine

theorem tyBits_le (t : Ty) : tyBits t ≤ 64 := by cases t <;> decide

theorem eight_le_tyBits (t : Ty) : 8 ≤ tyBits t := by cases t <;> decide

theorem tyBits_of_wide {t : Ty} (h : tyWide t = true) : tyBits t = 64 := by simpa [tyWide] using h

theorem tyBits_le_of_narrow {t : Ty} (h : tyWide t = false) : tyBits t ≤ 32 := by
  revert h; cases t <;> decide

/-- A type's range holds as many numbers as its width has bit patterns. -/
theorem tyHi_eq (t : Ty) : tyHi t = tyLo t + 2 ^ tyBits t - 1 := by
  unfold tyHi tyLo
  split
  · obtain ⟨n, hn⟩ : ∃ n, tyBits t = n + 1 := ⟨tyBits t - 1, by have := eight_le_tyBits t; omega⟩
    rw [hn, Nat.add_sub_cancel, pow_succ]
    ring
  · ring

theorem tyLo_lt_tyHi (t : Ty) : tyLo t < tyHi t := by
  have h : (2 : Int) ^ 8 ≤ 2 ^ tyBits t := pow_le_pow_right₀ (by decide) (eight_le_tyBits t)
  rw [tyHi_eq]
  omega

theorem tyLo_le_zero_le_tyHi (t : Ty) : tyLo t ≤ 0 ∧ 0 ≤ tyHi t := by cases t <;> decide

/-! ### Wrapping -/

theorem brought_congr (t : Ty) {x y : Int} (h : x ≡ y [ZMOD 2 ^ tyBits t]) : brought t false x = brought t false y := by
  simp only [brought, Bool.false_eq_true, if_false]
  rw [show _ % _ = _ from h.sub_right (tyLo t)]

theorem brought_modEq (t : Ty) (x : Int) : brought t false x ≡ x [ZMOD 2 ^ tyBits t] := by
  simp only [brought, Bool.false_eq_true, if_false]
  simpa using (Int.mod_modEq (x - tyLo t) (2 ^ tyBits t)).add_right (tyLo t)

theorem brought_mem (t : Ty) (x : Int) : tyLo t ≤ brought t false x ∧ brought t false x ≤ tyHi t := by
  have hp : (0 : Int) < 2 ^ tyBits t := by positivity
  have h0 := Int.emod_nonneg (x - tyLo t) hp.ne'
  have h1 := Int.emod_lt_of_pos (x - tyLo t) hp
  simp only [brought, Bool.false_eq_true, if_false, tyHi_eq]
  omega

/-- A number in range is left as it is, wrapped or clamped. -/
theorem brought_of_mem (t : Ty) (sat : Bool) {x : Int} (hlo : tyLo t ≤ x) (hhi : x ≤ tyHi t) : brought t sat x = x := by
  cases sat with
  | true => simp only [brought, if_true]; omega
  | false =>
    rw [tyHi_eq] at hhi
    simp only [brought, Bool.false_eq_true, if_false]
    rw [Int.emod_eq_of_lt (by omega) (by omega)]
    omega

/-! ### Reading and writing registers -/

theorem two_pow_double {n : Nat} (h : n ≠ 0) : 2 ^ n = 2 * 2 ^ (n - 1) := by rw [mul_comm, Nat.pow_pred_mul (by omega)]

theorem two_pow_tyBits (t : Ty) : 2 ^ tyBits t = 2 * 2 ^ (tyBits t - 1) :=
  two_pow_double (by have := eight_le_tyBits t; omega)

theorem tyLo_eq (t : Ty) : tyLo t = if tySigned t then -((2 ^ (tyBits t - 1) : Nat) : Int) else 0 := by
  unfold tyLo; push_cast; rfl

theorem tyHi_eq_cast (t : Ty) : tyHi t = tyLo t + (2 ^ tyBits t : Nat) - 1 := by
  rw [tyHi_eq]; push_cast; rfl

/-- The bits of a register are read as the one number in range that they are congruent to. -/
theorem intOf_eq_brought (t : Ty) (x : W64) : intOf t x = brought t false x.toNat := by
  have hmod : ((x.toNat % 2 ^ tyBits t : Nat) : Int) ≡ x.toNat [ZMOD 2 ^ tyBits t] := by
    push_cast; exact Int.mod_modEq _ _
  have hlt : x.toNat % 2 ^ tyBits t < 2 ^ tyBits t := Nat.mod_lt _ (by positivity)
  have hhalf := two_pow_tyBits t
  have hlo := tyLo_eq t
  have hhi := tyHi_eq_cast t
  have hpos : 0 < 2 ^ (tyBits t - 1) := by positivity
  have hcast : (2 : Int) ^ tyBits t = (2 ^ tyBits t : Nat) := by push_cast; rfl
  rw [← brought_congr t hmod]
  unfold intOf
  dsimp only
  split
  · next h =>
    obtain ⟨hs, hge⟩ := h
    have hsub : ((x.toNat % 2 ^ tyBits t : Nat) : Int) - 2 ^ tyBits t ≡ (x.toNat % 2 ^ tyBits t : Nat)
        [ZMOD 2 ^ tyBits t] := by simp [Int.ModEq]
    rw [if_pos hs] at hlo
    rw [← brought_congr t hsub, hcast, brought_of_mem t false] <;> omega
  · next h =>
    cases hs : tySigned t with
    | true =>
      have hsmall : x.toNat % 2 ^ tyBits t < 2 ^ (tyBits t - 1) := by
        by_contra hge; exact h ⟨hs, by omega⟩
      rw [hs, if_pos rfl] at hlo
      rw [brought_of_mem t false] <;> omega
    | false =>
      rw [hs, if_neg (by decide)] at hlo
      rw [brought_of_mem t false] <;> omega

theorem intOf_mem (t : Ty) (x : W64) : tyLo t ≤ intOf t x ∧ intOf t x ≤ tyHi t := by
  rw [intOf_eq_brought]; exact brought_mem t _

theorem ofInt_modEq (n : Nat) (x : Int) : ((BitVec.ofInt n x).toNat : Int) ≡ x [ZMOD 2 ^ n] := by
  have hp : (0 : Int) < 2 ^ n := by positivity
  rw [BitVec.toNat_ofInt, Int.toNat_of_nonneg (by push_cast; exact Int.emod_nonneg _ hp.ne')]
  push_cast
  exact Int.mod_modEq _ _

theorem ofInt_congr (n : Nat) {x y : Int} (h : x ≡ y [ZMOD 2 ^ n]) : BitVec.ofInt n x = BitVec.ofInt n y := by
  apply BitVec.eq_of_toNat_eq
  rw [BitVec.toNat_ofInt, BitVec.toNat_ofInt]
  push_cast
  rw [show x % 2 ^ n = y % 2 ^ n from h]

theorem intOf_ofInt (t : Ty) (x : Int) : intOf t (BitVec.ofInt 64 x) = brought t false x := by
  rw [intOf_eq_brought]
  exact brought_congr t ((ofInt_modEq 64 x).of_dvd (pow_dvd_pow 2 (tyBits_le t)))

/-- What a register holds depends on the number only up to the width of its type. -/
theorem regOfInt_congr (t : Ty) {x y : Int} (h : x ≡ y [ZMOD 2 ^ tyBits t]) : regOfInt t x = regOfInt t y := by
  cases hw : tyWide t with
  | true =>
    rw [tyBits_of_wide hw] at h
    simp only [regOfInt, hw, if_true, ofInt_congr 64 h]
  | false => simp only [regOfInt, hw, Bool.false_eq_true, if_false, intOf_ofInt, brought_congr t h]

theorem regOfInt_brought (t : Ty) (x : Int) : regOfInt t (brought t false x) = regOfInt t x :=
  regOfInt_congr t (brought_modEq t x)

/-- A number written to a register and read again comes back wrapped. -/
theorem intOf_regOfInt (t : Ty) (x : Int) : intOf t (regOfInt t x) = brought t false x := by
  cases hw : tyWide t with
  | true => rw [regOfInt, if_pos hw, intOf_ofInt]
  | false =>
    rw [regOfInt, if_neg (by simp [hw]), intOf_ofInt, intOf_eq_brought,
      BitVec.toNat_setWidth_of_le (by decide)]
    have h32 := (ofInt_modEq 32 (brought t false x)).of_dvd (pow_dvd_pow 2 (tyBits_le_of_narrow hw))
    exact brought_congr t (h32.trans (brought_modEq t x))

theorem intOf_regOfInt_of_mem (t : Ty) {x : Int} (hlo : tyLo t ≤ x) (hhi : x ≤ tyHi t) : intOf t (regOfInt t x) = x := by
  rw [intOf_regOfInt, brought_of_mem t false hlo hhi]

/-! ### Exact results brought into range -/

theorem fitInt_eq (t : Ty) (sat : Bool) (x : Int) : fitInt t sat x = regOfInt t (brought t sat x) := by
  cases sat with
  | true =>
    have hlt := tyLo_lt_tyHi t
    simp only [fitInt, brought, if_true]
    congr 1
    omega
  | false => rw [regOfInt_brought]; rfl

theorem intBin_eq (t : Ty) (sat : Bool) (fn : Int → Int → Int) (a b : W64) :
    intBin t sat fn a b = regOfInt t (brought t sat (fn (intOf t a) (intOf t b))) := fitInt_eq t sat _

theorem intUn_eq (t : Ty) (sat : Bool) (fn : Int → Int) (a : W64) :
    intUn t sat fn a = regOfInt t (brought t sat (fn (intOf t a))) := fitInt_eq t sat _

theorem intMulHi_eq (t : Ty) (a b : W64) :
    intMulHi t a b = regOfInt t (brought t false (intOf t a * intOf t b / 2 ^ tyBits t)) := (regOfInt_brought t _).symm

/-- A quotient of numbers in range is in range, but for the lowest number divided by -1. -/
theorem tdiv_mem (t : Ty) {x y : Int} (hlo : tyLo t ≤ x) (hhi : x ≤ tyHi t) (hy : y ≠ 0) (hy0 : tyLo t ≤ y)
    (hxy : ¬ (x = tyLo t ∧ y = -1)) : tyLo t ≤ x.tdiv y ∧ x.tdiv y ≤ tyHi t := by
  have habs : (x.tdiv y).natAbs = x.natAbs / y.natAbs := Int.natAbs_tdiv x y
  have hle : x.natAbs / y.natAbs ≤ x.natAbs := Nat.div_le_self _ _
  have hhi' := tyHi_eq_cast t
  have hlo' := tyLo_eq t
  have hhalf := two_pow_tyBits t
  have hpos : 0 < 2 ^ (tyBits t - 1) := by positivity
  cases hs : tySigned t with
  | false =>
    rw [hs, if_neg (by decide)] at hlo'
    have hnonneg : 0 ≤ x.tdiv y := Int.tdiv_nonneg (by omega) (by omega)
    omega
  | true =>
    rw [hs, if_pos rfl] at hlo'
    by_cases h1 : y = 1
    · rw [h1, Int.tdiv_one]; exact ⟨hlo, hhi⟩
    by_cases h2 : y = -1
    · have hx : x ≠ tyLo t := fun hx => hxy ⟨hx, h2⟩
      rw [h2, Int.tdiv_neg, Int.tdiv_one]; omega
    · have hhalve : x.natAbs / y.natAbs ≤ x.natAbs / 2 := Nat.div_le_div_left (by omega) (by omega)
      omega

/-- The one quotient out of range clamps to the highest number. -/
theorem brought_neg_lo (t : Ty) (h : tyLo t < 0) : brought t true (-tyLo t) = tyHi t := by
  have hhi := tyHi_eq_cast t
  have hlo := tyLo_eq t
  have hhalf := two_pow_tyBits t
  split at hlo
  · simp only [brought, if_true]; omega
  · omega

/-- DIV case by case (R101): only the lowest number divided by -1 leaves the range. -/
theorem intDiv_eq (t : Ty) (sat : Bool) (a b : W64) :
    intDiv t sat a b = regOfInt t (
      if intOf t b = 0 then (if intOf t a < 0 then tyLo t else tyHi t)
      else if intOf t a = tyLo t ∧ intOf t b = -1 then (if sat then tyHi t else brought t false (-intOf t a))
      else (intOf t a).tdiv (intOf t b)) := by
  obtain ⟨alo, ahi⟩ := intOf_mem t a
  obtain ⟨blo, -⟩ := intOf_mem t b
  unfold intDiv
  dsimp only
  by_cases hb : intOf t b = 0
  · rw [if_pos hb, if_pos hb]
  rw [if_neg hb, if_neg hb, fitInt_eq]
  by_cases hout : intOf t a = tyLo t ∧ intOf t b = -1
  · rw [if_pos hout, hout.2, Int.tdiv_neg, Int.tdiv_one]
    cases sat with
    | false => rfl
    | true => rw [hout.1, brought_neg_lo t (by omega)]; rfl
  · obtain ⟨hlo, hhi⟩ := tdiv_mem t alo ahi hb blo hout
    rw [if_neg hout, brought_of_mem t sat hlo hhi]

theorem intRem_eq (t : Ty) (a b : W64) :
    intRem t a b = regOfInt t (
      if intOf t b = 0 then intOf t a else intOf t a - intOf t b * (intOf t a).tdiv (intOf t b)) := by
  unfold intRem
  dsimp only
  split <;> rfl

end Sys2Proof.Machine
end

section
/-! Arithmetic words: what a word gives is what its function answers in each computing lane. -/

namespace Sys2Proof.Machine

section
variable {i : Instr} {s : State} {w : Fields} {f : Frag} {P : Nat → W64 × Flags → Prop}

/-- A word that computes lane by lane gives whatever its function satisfies: reads see the state before the issue, from which the
issuing state differs by its stamp alone. -/
theorem gives_lanewise {wide : Bool} {fn : Frag → State → Nat → W64 × Flags} (hr : s.Ready w f) (hd : destOk w = true)
    (hi : exec i s = issueWord w s (lanewise w wide fn))
    (hP : ∀ L ∈ f.lanes w, P L (fn f { s with stamp := s.stamp + 1 } L)) : Gives i s w f wide P := by
  obtain ⟨t, c, hnext, hwrote⟩ := lanewise_wrote hr hd wide fn
  exact ⟨t, c, _, hi.trans hnext, hwrote, hP⟩

theorem gives_binary {fn : W64 → W64 → W64} (hr : s.Ready w f) (hd : destOk w = true) (hi : exec i s = binary w fn s)
    (hP : ∀ L, P L (fn (s.a f w L) (s.b f w L), Flags.none)) : Gives i s w f (tyWide w.ty) P :=
  gives_lanewise hr hd hi fun L _ => hP L

theorem gives_unary {fn : W64 → W64} (hr : s.Ready w f) (hd : destOk w = true) (hi : exec i s = unary w fn s)
    (hP : ∀ L, P L (fn (s.a f w L), Flags.none)) : Gives i s w f (tyWide w.ty) P :=
  gives_lanewise hr hd hi fun L _ => hP L

theorem gives_shifty {fn : W64 → Nat → W64} (hr : s.Ready w f) (hd : destOk w = true) (hi : exec i s = shifty w fn s)
    (hP : ∀ L, P L (fn (s.a f w L) (s.bWord f w L), Flags.none)) : Gives i s w f (tyWide w.ty) P :=
  gives_lanewise hr hd hi fun L _ => hP L

theorem gives_ternary {fn : W64 → W64 → W64 → W64} (hr : s.Ready w f) (hd : destOk w = true)
    (hi : exec i s = ternary w fn s) (hP : ∀ L, P L (fn (f.old w w.ty L) (s.a f w L) (s.b f w L), Flags.none)) :
    Gives i s w f (tyWide w.ty) P :=
  gives_lanewise hr hd hi fun L _ => hP L

end

/-! ### The words

What `exec` answers for each integer word: its function of the operands in every computing lane. -/

section
variable (w : Fields) (s : State)

theorem exec_add : exec (.add w) s = binary w (intBin w.ty w.sat (· + ·)) s := rfl
theorem exec_sub : exec (.sub w) s = binary w (intBin w.ty w.sat (· - ·)) s := rfl
theorem exec_mul : exec (.mul w) s = binary w (intBin w.ty w.sat (· * ·)) s := rfl
theorem exec_mulhi : exec (.mulhi w) s = binary w (intMulHi w.ty) s := rfl
theorem exec_mad : exec (.mad w) s =
    ternary w (fun d a b => fitInt w.ty w.sat (intOf w.ty a * intOf w.ty b + intOf w.ty d)) s := rfl
theorem exec_div : exec (.div w) s = binary w (intDiv w.ty w.sat) s := rfl
theorem exec_rem : exec (.rem w) s = binary w (intRem w.ty) s := rfl
theorem exec_min : exec (.min w) s = binary w (intBin w.ty false min) s := rfl
theorem exec_max : exec (.max w) s = binary w (intBin w.ty false max) s := rfl
theorem exec_abs : exec (.abs w) s = unary w (intUn w.ty w.sat (fun x => (x.natAbs : Int))) s := rfl
theorem exec_neg : exec (.neg w) s = unary w (intUn w.ty w.sat (fun x => -x)) s := rfl
theorem exec_and : exec (.and w) s = binary w (fun a b => a &&& b) s := rfl
theorem exec_or : exec (.or w) s = binary w (fun a b => a ||| b) s := rfl
theorem exec_xor : exec (.xor w) s = binary w (fun a b => a ^^^ b) s := rfl
theorem exec_not : exec (.not w) s = unary w (fun a => ~~~ a) s := rfl
theorem exec_shl : exec (.shl w) s = shifty w (fun a k => bitUn w.ty (shlNat k) a) s := rfl
theorem exec_shr : exec (.shr w) s = shifty w (fun a k => bitUn w.ty (shrNat k) a) s := rfl
theorem exec_sar : exec (.sar w) s = shifty w (fun a k => sarInt w.ty k a) s := rfl
theorem exec_rot : exec (.rot w) s = shifty w (fun a k => bitUn w.ty (rotNat k) a) s := rfl
theorem exec_brev : exec (.brev w) s = unary w (bitUn w.ty brevNat) s := rfl
theorem exec_bfx : exec (.bfx w) s = shifty w (bfx w.ty) s := rfl
theorem exec_clz : exec (.clz w) s =
    issueWord w s (lanewise w false (fun f s L => (bitUn w.ty clzNat (s.a f w L), Flags.none))) := rfl
theorem exec_popc : exec (.popc w) s =
    issueWord w s (lanewise w false (fun f s L => (bitUn w.ty popcNat (s.a f w L), Flags.none))) := rfl
theorem exec_bfi : exec (.bfi w) s =
    issueWord w s (lanewise w (tyWide w.ty) (fun f s L =>
      (bfi w.ty (f.old w w.ty L) (s.a f w L) (s.bWord f w L), Flags.none))) := rfl

end

/-- Settles O9: every word is a function of its operands lane by lane, and what that function leaves in the register is the exact
result brought into range (`fitInt_eq`). -/
theorem integerArithmetic : Obligations.IntegerArithmetic := by
  intro w s f hr hd
  refine ⟨?add, ?sub, ?mul, ?mad, ?abs, ?neg, ?mulhi, ?min, ?max⟩
  case add => exact gives_binary hr hd (exec_add w s) fun L => by rw [intBin_eq]
  case sub => exact gives_binary hr hd (exec_sub w s) fun L => by rw [intBin_eq]
  case mul => exact gives_binary hr hd (exec_mul w s) fun L => by rw [intBin_eq]
  case mad => exact gives_ternary hr hd (exec_mad w s) fun L => by rw [fitInt_eq]
  case abs => exact gives_unary hr hd (exec_abs w s) fun L => by rw [intUn_eq, Int.natCast_natAbs]
  case neg => exact gives_unary hr hd (exec_neg w s) fun L => by rw [intUn_eq]
  case mulhi => exact gives_binary hr hd (exec_mulhi w s) fun L => by rw [intMulHi_eq]
  case min => exact gives_binary hr hd (exec_min w s) fun L => by rw [intBin_eq]
  case max => exact gives_binary hr hd (exec_max w s) fun L => by rw [intBin_eq]

/-- Settles O10: DIV and REM are functions of their operands lane by lane, which `intDiv_eq` and `intRem_eq` give case by case. -/
theorem integerDivision : Obligations.IntegerDivision := by
  intro w s f hr hd
  refine ⟨?div, ?rem⟩
  case div => exact gives_binary hr hd (exec_div w s) fun L => by rw [intDiv_eq]
  case rem => exact gives_binary hr hd (exec_rem w s) fun L => by rw [intRem_eq]

end Sys2Proof.Machine
end

section
/-! Shifts and bits (R102, R103): what each function does to the bits of a number of `w` bits. -/

namespace Sys2Proof.Machine

/-! ### Sums and differences of numbers without a common bit -/

theorem add_eq_or_of_and_eq_zero {x y : Nat} (h : x &&& y = 0) : x + y = x ||| y := by
  have hlt : x + y < 2 ^ (x + y) := Nat.lt_two_pow_self
  have hx : x % 2 ^ (x + y) = x := Nat.mod_eq_of_lt (by omega)
  have hy : y % 2 ^ (x + y) = y := Nat.mod_eq_of_lt (by omega)
  have hand : BitVec.ofNat (x + y) x &&& BitVec.ofNat (x + y) y = 0 := by
    apply BitVec.eq_of_toNat_eq; simp [hx, hy, h]
  simpa [hx, hy, Nat.mod_eq_of_lt hlt] using congrArg BitVec.toNat (BitVec.add_eq_or_of_and_eq_zero _ _ hand)

theorem and_eq_zero_of_testBit {x y : Nat} (h : ∀ i, x.testBit i = true → y.testBit i = false) : x &&& y = 0 := by
  apply Nat.eq_of_testBit_eq
  intro i
  cases hx : x.testBit i <;> simp [hx]
  exact h i hx

theorem testBit_sub_and (x m i : Nat) : (x - (x &&& m)).testBit i = (x.testBit i && !m.testBit i) := by
  have hsplit : (x &&& m) + (x ^^^ (x &&& m)) = x := by
    rw [add_eq_or_of_and_eq_zero]
    · apply Nat.eq_of_testBit_eq; intro j; cases hx : x.testBit j <;> simp [hx]
    · refine and_eq_zero_of_testBit fun j hj => ?_
      simp only [Nat.testBit_and, Bool.and_eq_true] at hj
      simp [hj]
  rw [show x - (x &&& m) = x ^^^ (x &&& m) by omega]
  cases hx : x.testBit i <;> simp [hx]

/-! ### Functions of the low bits -/

theorem toNat_mod_tyBits (t : Ty) (n : Nat) : (BitVec.ofNat 64 n).toNat % 2 ^ tyBits t = n % 2 ^ tyBits t := by
  rw [BitVec.toNat_ofNat, Nat.mod_mod_of_dvd _ (pow_dvd_pow 2 (tyBits_le t))]

/-- A function of the low bits leaves the low bits of its answer. -/
theorem bitUn_low (t : Ty) (fn : Nat → Nat → Nat) (a : W64) :
    (bitUn t fn a).toNat % 2 ^ tyBits t = fn (tyBits t) (a.toNat % 2 ^ tyBits t) % 2 ^ tyBits t := by
  rw [bitUn, toNat_mod_tyBits, Nat.mod_mod]

/-- A small answer is the whole register. -/
theorem bitUn_toNat {t : Ty} {fn : Nat → Nat → Nat} {a : W64}
    (h : fn (tyBits t) (a.toNat % 2 ^ tyBits t) ≤ tyBits t) :
    (bitUn t fn a).toNat = fn (tyBits t) (a.toNat % 2 ^ tyBits t) := by
  have hlt : tyBits t < 2 ^ tyBits t := Nat.lt_two_pow_self
  have hle : 2 ^ tyBits t ≤ 2 ^ 64 := Nat.pow_le_pow_right (by decide) (tyBits_le t)
  rw [bitUn, BitVec.toNat_ofNat, Nat.mod_eq_of_lt (by omega), Nat.mod_eq_of_lt (by omega)]

theorem shlNat_mod (k w n : Nat) : shlNat k w n % 2 ^ w = if w ≤ k then 0 else n * 2 ^ k % 2 ^ w := by
  unfold shlNat
  split
  · exact Nat.zero_mod _
  · rw [Nat.shiftLeft_eq]

theorem shrNat_mod (k : Nat) {w n : Nat} (h : n < 2 ^ w) : shrNat k w n % 2 ^ w = if w ≤ k then 0 else n / 2 ^ k := by
  unfold shrNat
  split
  · exact Nat.zero_mod _
  · rw [Nat.shiftRight_eq_div_pow, Nat.mod_eq_of_lt (lt_of_le_of_lt (Nat.div_le_self _ _) h)]

/-- Bit i of a number goes to bit i + k, around the width. -/
theorem testBit_rotNat (k : Nat) {w n i : Nat} (h : n < 2 ^ w) (hi : i < w) :
    (rotNat k w n % 2 ^ w).testBit ((i + k) % w) = n.testBit i := by
  have hr : k % w < w := Nat.mod_lt _ (by omega)
  have hhigh : n.testBit (w + i) = false :=
    Nat.testBit_lt_two_pow (lt_of_lt_of_le h (Nat.pow_le_pow_right (by decide) (by omega)))
  rw [← Nat.add_mod_mod, Nat.testBit_mod_two_pow, rotNat, Nat.testBit_or, Nat.testBit_shiftLeft, Nat.testBit_shiftRight]
  by_cases hwrap : i + k % w < w
  · have hback : w - k % w + (i + k % w) = w + i := by omega
    rw [Nat.mod_eq_of_lt hwrap, hback, hhigh]
    simp [hwrap]
  · have hto : (i + k % w) % w = i + k % w - w := by
      rw [Nat.mod_eq_sub_mod (by omega), Nat.mod_eq_of_lt (by omega)]
    have hback : w - k % w + (i + k % w - w) = i := by omega
    have hlt : ¬ i + k % w - w ≥ k % w := by omega
    rw [hto, hback]
    simp [hlt, show i + k % w - w < w by omega]

/-- After `k` bits of a number have been turned over, they stand in the `k` highest places. -/
theorem testBit_foldl_brev {w a : Nat} (k : Nat) (hk : k ≤ w) (j : Nat) :
    ((List.range k).foldl (fun r i => if a.testBit i then r + 2 ^ (w - 1 - i) else r) 0).testBit j =
      (decide (w - k ≤ j ∧ j < w) && a.testBit (w - 1 - j)) := by
  induction k generalizing j with
  | zero => simp
  | succ k ih =>
    specialize ih (by omega)
    rw [List.range_succ, List.foldl_append, List.foldl_cons, List.foldl_nil]
    generalize (List.range k).foldl (fun r i => if a.testBit i then r + 2 ^ (w - 1 - i) else r) 0 = r at ih
    have hfree : r &&& 2 ^ (w - 1 - k) = 0 := by
      refine and_eq_zero_of_testBit fun i hi => ?_
      rw [ih i, Bool.and_eq_true, decide_eq_true_iff] at hi
      rw [Nat.testBit_two_pow, decide_eq_false_iff_not]
      omega
    have hstep : (if a.testBit k then r + 2 ^ (w - 1 - k) else r).testBit j =
        (r.testBit j || (a.testBit k && decide (w - 1 - k = j))) := by
      split
      · next hbit => rw [add_eq_or_of_and_eq_zero hfree, Nat.testBit_or, Nat.testBit_two_pow, hbit, Bool.true_and]
      · next hbit => simp [hbit]
    rw [hstep, ih j]
    by_cases hj : w - 1 - k = j
    · have hback : w - 1 - j = k := by omega
      simp [hj, hback, show w - (k + 1) ≤ j ∧ j < w by omega, show ¬ (w - k ≤ j) by omega]
    · have hsame : (w - (k + 1) ≤ j ∧ j < w) ↔ (w - k ≤ j ∧ j < w) := by omega
      simp only [hj, hsame, decide_false, Bool.and_false, Bool.or_false]

/-- Bit i of a number goes to bit w - 1 - i. -/
theorem testBit_brevNat {w i : Nat} (a : Nat) (hi : i < w) : (brevNat w a % 2 ^ w).testBit (w - 1 - i) = a.testBit i := by
  rw [Nat.testBit_mod_two_pow, brevNat, testBit_foldl_brev w le_rfl, show w - 1 - (w - 1 - i) = i by omega]
  simp; omega

theorem clzNat_spec {w n : Nat} (h : n < 2 ^ w) : clzNat w n ≤ w ∧ n < 2 ^ (w - clzNat w n) ∧
    (clzNat w n < w → 2 ^ (w - 1 - clzNat w n) ≤ n) := by
  unfold clzNat
  split
  · next h0 => subst h0; simp
  · next h0 =>
    have hlog : n.log2 < w := (Nat.log2_lt h0).mpr h
    refine ⟨by omega, ?_, fun _ => ?_⟩
    · rw [show w - (w - 1 - n.log2) = n.log2 + 1 by omega]; exact Nat.lt_log2_self
    · rw [show w - 1 - (w - 1 - n.log2) = n.log2 by omega]; exact Nat.log2_self_le h0

theorem popcNat_le (w n : Nat) : popcNat w n ≤ w := by
  simpa [popcNat] using List.length_filter_le (fun i => n.testBit i) (List.range w)

/-! ### Shifts of signed numbers, and bit fields -/

theorem intOf_sarInt (t : Ty) (k : Nat) (a : W64) : intOf t (sarInt t k a) = intOf t a / 2 ^ min k (tyBits t - 1) := by
  obtain ⟨hlo, hhi⟩ := intOf_mem t a
  obtain ⟨hlo0, hhi0⟩ := tyLo_le_zero_le_tyHi t
  have hp : (1 : Int) ≤ 2 ^ min k (tyBits t - 1) := one_le_pow₀ (by decide)
  refine intOf_regOfInt_of_mem t ?_ ?_
  · rw [Int.le_ediv_iff_mul_le (by omega)]; nlinarith
  · refine Int.lt_add_one_iff.mp ((Int.ediv_lt_iff_lt_mul (by omega)).mpr ?_); nlinarith

/-- The highest bit of a number of `len` bits. -/
theorem testBit_top {len n : Nat} (hlen : len ≠ 0) (hn : n < 2 ^ len) : n.testBit (len - 1) = decide (2 ^ (len - 1) ≤ n) := by
  have hpow := two_pow_double hlen
  by_cases hge : 2 ^ (len - 1) ≤ n
  · obtain ⟨r, rfl⟩ := Nat.exists_eq_add_of_le hge
    rw [Nat.testBit_two_pow_add_eq, Nat.testBit_lt_two_pow (by omega)]
    simp
  · rw [Nat.testBit_lt_two_pow (by omega)]; simp [hge]

/-- A field of `len` bits that holds `x`, read as a signed or an unsigned number. -/
def fieldInt (signed : Bool) (len : Nat) (x : Int) : Int :=
  if signed ∧ len ≠ 0 ∧ 2 ^ (len - 1) ≤ x then x - 2 ^ len else x

/-- A field no longer than a type, read with the type's sign, is in the type's range. -/
theorem fieldInt_mem (t : Ty) {len : Nat} {x : Int} (hlen : len ≤ tyBits t) (hx0 : 0 ≤ x) (hx1 : x < 2 ^ len) :
    tyLo t ≤ fieldInt (tySigned t) len x ∧ fieldInt (tySigned t) len x ≤ tyHi t := by
  obtain ⟨hlo0, hhi0⟩ := tyLo_le_zero_le_tyHi t
  have hmax : (2 : Int) ^ len ≤ 2 ^ tyBits t := pow_le_pow_right₀ (by decide) hlen
  have hhi := tyHi_eq t
  unfold fieldInt
  cases hs : tySigned t with
  | false =>
    have hlo := tyLo_eq t
    rw [hs, if_neg (by decide)] at hlo
    rw [if_neg (by simp)]
    omega
  | true =>
    have hlo := tyLo_eq t
    rw [hs, if_pos rfl] at hlo
    push_cast at hlo
    by_cases h0 : len = 0
    · subst h0
      rw [if_neg (by simp)]
      omega
    have hhalf : (2 : Int) ^ (len - 1) ≤ 2 ^ (tyBits t - 1) := pow_le_pow_right₀ (by decide) (by omega)
    have hdouble : (2 : Int) ^ len = 2 * 2 ^ (len - 1) := by exact_mod_cast two_pow_double h0
    have hdouble' : (2 : Int) ^ tyBits t = 2 * 2 ^ (tyBits t - 1) := by exact_mod_cast two_pow_tyBits t
    split
    · omega
    · next hneg =>
      have hlt : x < 2 ^ (len - 1) := by by_contra hge; exact hneg ⟨rfl, h0, by omega⟩
      omega

/-- BFX takes the field out of the number and reads it with the sign of the type: its test of the field's highest bit is a
comparison. -/
theorem bfx_eq (t : Ty) (a : W64) (b : Nat) {pos len : Nat} (hf : fieldOf (tyBits t) b = (pos, len)) :
    bfx t a b = regOfInt t (fieldInt (tySigned t) len (intOf t a / 2 ^ pos % 2 ^ len)) := by
  have hp : (0 : Int) < 2 ^ len := by positivity
  obtain ⟨n, hn⟩ := Int.eq_ofNat_of_zero_le (Int.emod_nonneg (intOf t a / 2 ^ pos) hp.ne')
  have hlt : n < 2 ^ len := by exact_mod_cast hn ▸ Int.emod_lt_of_pos (intOf t a / 2 ^ pos) hp
  have hsign : (tySigned t && len != 0 && n.testBit (len - 1)) = true ↔
      tySigned t = true ∧ len ≠ 0 ∧ (2 : Int) ^ (len - 1) ≤ n := by
    by_cases h0 : len = 0
    · simp [h0]
    · have hcast : (2 : Int) ^ (len - 1) ≤ n ↔ 2 ^ (len - 1) ≤ n := by norm_cast
      simp [testBit_top h0 hlt, h0, hcast]
  unfold bfx fieldInt
  dsimp only
  rw [hf, hn, Int.toNat_natCast]
  simp only [hsign]

theorem intOf_bfx (t : Ty) (a : W64) (b : Nat) {pos len : Nat} (hf : fieldOf (tyBits t) b = (pos, len)) :
    intOf t (bfx t a b) = fieldInt (tySigned t) len (intOf t a / 2 ^ pos % 2 ^ len) := by
  have hp : (0 : Int) < 2 ^ len := by positivity
  have hlen : len ≤ tyBits t := (congrArg Prod.snd hf).symm.trans_le (min_le_right _ _)
  obtain ⟨hlo, hhi⟩ := fieldInt_mem t hlen (Int.emod_nonneg (intOf t a / 2 ^ pos) hp.ne') (Int.emod_lt_of_pos _ hp)
  rw [bfx_eq t a b hf, intOf_regOfInt_of_mem t hlo hhi]

/-- BFI puts the low bits of a number at the place of a field, and leaves the other bits. -/
theorem getLsbD_bfi (t : Ty) (d a : W64) (b : Nat) {pos len i : Nat} (hf : fieldOf (tyBits t) b = (pos, len))
    (hi : i < tyBits t) :
    (bfi t d a b).getLsbD i = if pos ≤ i ∧ i < pos + len then a.getLsbD (i - pos) else d.getLsbD i := by
  unfold bfi
  dsimp only
  rw [hf]
  have hm : (((2 ^ len - 1) <<< pos) % 2 ^ tyBits t).testBit i = decide (pos ≤ i ∧ i < pos + len) := by
    rw [Nat.testBit_mod_two_pow, Nat.testBit_shiftLeft, Nat.testBit_two_pow_sub_one]
    rw [decide_eq_true hi, Bool.true_and, ← Bool.decide_and, decide_eq_decide]
    omega
  generalize (((2 ^ len - 1) <<< pos) % 2 ^ tyBits t) = m at hm
  have hdis : (d.toNat % 2 ^ tyBits t - (d.toNat % 2 ^ tyBits t &&& m)) &&& ((a.toNat % 2 ^ len) <<< pos &&& m) = 0 := by
    refine and_eq_zero_of_testBit fun j hj => ?_
    rw [testBit_sub_and, Bool.and_eq_true, Bool.not_eq_true'] at hj
    rw [Nat.testBit_and, hj.2, Bool.and_false]
  have h64 : i < 64 := lt_of_lt_of_le hi (tyBits_le t)
  rw [add_eq_or_of_and_eq_zero hdis, BitVec.getLsbD_ofNat, Nat.testBit_or, testBit_sub_and, Nat.testBit_and, hm,
    Nat.testBit_shiftLeft, Nat.testBit_mod_two_pow, Nat.testBit_mod_two_pow, BitVec.testBit_toNat, BitVec.testBit_toNat]
  by_cases hin : pos ≤ i ∧ i < pos + len
  · simp [hin, h64, show i - pos < len by omega]
  · simp [hin, h64, hi]

/-! ### Bits of a register -/

theorem testBit_low (t : Ty) (x : W64) {i : Nat} (hi : i < tyBits t) :
    (x.toNat % 2 ^ tyBits t).testBit i = x.getLsbD i := by
  rw [Nat.testBit_mod_two_pow, decide_eq_true hi, Bool.true_and, BitVec.testBit_toNat]

theorem low_lt (t : Ty) (x : W64) : x.toNat % 2 ^ tyBits t < 2 ^ tyBits t := Nat.mod_lt _ (by positivity)

/-- Settles O11: each word is a function of its operands lane by lane, whose bits the lemmas above give. -/
theorem shiftsAndBits : Obligations.ShiftsAndBits := by
  refine ⟨fun w s f hr hd _ => ⟨?shl, ?shr, ?rot, ?and, ?or, ?xor, ?not, ?brev, ?clz, ?popc⟩, fun w s f hr hd _ => ?sar,
    fun w s f hr hd => ⟨fun _ => ?bfx, fun _ => ?bfi⟩⟩
  case shl => exact gives_shifty hr hd (exec_shl w s) fun L => ⟨(bitUn_low _ _ _).trans (shlNat_mod _ _ _), rfl⟩
  case shr => exact gives_shifty hr hd (exec_shr w s) fun L => ⟨(bitUn_low _ _ _).trans (shrNat_mod _ (low_lt _ _)), rfl⟩
  case rot =>
    refine gives_shifty hr hd (exec_rot w s) fun L => ⟨fun i hi => ?_, rfl⟩
    rw [bitUn_low, testBit_rotNat _ (low_lt _ _) hi]
  case and =>
    refine gives_binary hr hd (exec_and w s) fun L => ⟨fun i hi => ?_, rfl⟩
    rw [testBit_low _ _ hi, testBit_low _ _ hi, testBit_low _ _ hi, BitVec.getLsbD_and]
  case or =>
    refine gives_binary hr hd (exec_or w s) fun L => ⟨fun i hi => ?_, rfl⟩
    rw [testBit_low _ _ hi, testBit_low _ _ hi, testBit_low _ _ hi, BitVec.getLsbD_or]
  case xor =>
    refine gives_binary hr hd (exec_xor w s) fun L => ⟨fun i hi => ?_, rfl⟩
    rw [testBit_low _ _ hi, testBit_low _ _ hi, testBit_low _ _ hi, BitVec.getLsbD_xor]
  case not =>
    refine gives_unary hr hd (exec_not w s) fun L => ⟨fun i hi => ?_, rfl⟩
    rw [testBit_low _ _ hi, testBit_low _ _ hi, BitVec.getLsbD_not, decide_eq_true (lt_of_lt_of_le hi (tyBits_le _)),
      Bool.true_and]
  case brev =>
    refine gives_unary hr hd (exec_brev w s) fun L => ⟨fun i hi => ?_, rfl⟩
    rw [bitUn_low, testBit_brevNat _ hi]
  case clz =>
    refine gives_lanewise hr hd (exec_clz w s) fun L _ => ⟨?_, rfl⟩
    have hspec := clzNat_spec (low_lt w.ty (s.a f w L))
    rw [← bitUn_toNat hspec.1] at hspec
    exact hspec
  case popc => exact gives_lanewise hr hd (exec_popc w s) fun L _ => ⟨bitUn_toNat (popcNat_le _ _), rfl⟩
  case sar => exact gives_shifty hr hd (exec_sar w s) fun L => ⟨intOf_sarInt _ _ _, rfl⟩
  case bfx => exact gives_shifty hr hd (exec_bfx w s) fun L => ⟨intOf_bfx _ _ _ rfl, rfl⟩
  case bfi => exact gives_lanewise hr hd (exec_bfi w s) fun L _ => ⟨fun i hi => getLsbD_bfi _ _ _ _ rfl hi, rfl⟩

end Sys2Proof.Machine
end

section
/-! Branches (R89, R90): the groups of a fragment's lanes, and the table that a split leaves (R221, R224). -/

namespace Sys2Proof.Machine

/-! ### Groups of lanes -/

theorem groupBy_concat (ls : List Nat) (L : Nat) (addr : Nat → W64) :
    groupBy (ls ++ [L]) addr =
      if (groupBy ls addr).any (fun g => g.pc == addr L) then
        (groupBy ls addr).map (fun g => if g.pc == addr L then { g with mask := g.mask ||| laneBit L } else g)
      else groupBy ls addr ++ [{ mask := laneBit L, pc := addr L }] := by
  unfold groupBy
  rw [List.foldl_append]
  rfl

/-- There is one group for each address, in the order of the lowest lanes. -/
theorem groupBy_pcs (ls : List Nat) (addr : Nat → W64) : (groupBy ls addr).map (·.pc) = (ls.map addr).eraseDups := by
  induction ls using List.reverseRecOn with
  | nil => rfl
  | append_singleton ls L ih =>
    have hmem : (groupBy ls addr).any (fun g => g.pc == addr L) = true ↔ addr L ∈ ls.map addr := by
      rw [← List.mem_eraseDups, ← ih, List.any_eq_true, List.mem_map]; simp only [beq_iff_eq]
    rw [groupBy_concat, List.map_append, List.map_singleton, List.eraseDups_append, ← ih]
    by_cases h : addr L ∈ ls.map addr
    · have hnone : [addr L].removeAll (ls.map addr) = [] := by simpa [List.removeAll] using h
      rw [if_pos (hmem.mpr h), hnone, List.map_map]
      simp only [List.eraseDups_nil, List.append_nil]
      refine List.map_congr_left fun g _ => ?_
      simp only [Function.comp_apply]
      split <;> rfl
    · have hone : [addr L].removeAll (ls.map addr) = [addr L] := by simpa [List.removeAll] using h
      rw [if_neg (mt hmem.mp h), hone, List.map_append]
      rfl

/-- A group holds the lanes that go on at its address. -/
theorem groupBy_masks {ls : List Nat} (addr : Nat → W64) (hls : ∀ L ∈ ls, L < 32) :
    ∀ g ∈ groupBy ls addr, ∀ K < 32, g.mask.getLsbD K = (ls.contains K && addr K == g.pc) := by
  induction ls using List.reverseRecOn with
  | nil => simp [groupBy]
  | append_singleton ls L ih =>
    have hL : L < 32 := hls L (by simp)
    specialize ih fun K hK => hls K (by simp [hK])
    rw [groupBy_concat]
    split
    · intro g hg K hK
      obtain ⟨q, hq, rfl⟩ := List.mem_map.mp hg
      have hmask := ih q hq K hK
      by_cases hKL : K = L
      · subst hKL
        cases hpc : q.pc == addr K with
        | true => simp [laneBit_getLsbD K K hL hL, eq_of_beq hpc]
        | false => simp [hmask, show (addr K == q.pc) = false by rw [Bool.beq_comm, hpc]]
      · have hsame : (ls ++ [L]).contains K = ls.contains K := by simp [hKL]
        rw [hsame]
        split
        · rw [BitVec.getLsbD_or, hmask, laneBit_getLsbD L K hL hK]; simp [hKL]
        · exact hmask
    · next hnone =>
      have hfresh : ∀ p ∈ ls.map addr, p ≠ addr L := by
        intro p hp hpL
        rw [← List.mem_eraseDups, ← groupBy_pcs, List.mem_map] at hp
        obtain ⟨q, hq, rfl⟩ := hp
        exact hnone (List.any_eq_true.mpr ⟨q, hq, beq_iff_eq.mpr hpL⟩)
      intro g hg K hK
      rcases List.mem_append.mp hg with hold | hnew
      · have hmask := ih g hold K hK
        by_cases hKL : K = L
        · subst hKL
          have hpc : g.pc ∈ ls.map addr := by
            rw [← List.mem_eraseDups, ← groupBy_pcs]; exact List.mem_map_of_mem hold
          have hne : (addr K == g.pc) = false := beq_false_of_ne (hfresh _ hpc).symm
          rw [hmask, hne, Bool.and_false, Bool.and_false]
        · rw [hmask]; simp [hKL]
      · rw [List.mem_singleton.mp hnew, laneBit_getLsbD L K hL hK]
        by_cases hKL : K = L
        · simp [hKL]
        · have hne : K ∈ ls → addr K ≠ addr L := fun hk => hfresh _ (List.mem_map_of_mem hk)
          simpa [hKL] using hne

theorem groupBy_bound {f : Frag} {addr : Nat → W64} {g : Group} (h : g ∈ groupBy (lanesOf f.active) addr) :
    f.bound addr g.pc g.mask := by
  intro L hL
  rw [groupBy_masks addr (fun K hK => (mem_lanesOf.mp hK).1) g h L hL]
  congr 1
  rw [Bool.eq_iff_iff, List.contains_iff_mem, mem_lanesOf]
  simp [hL]

/-- The groups of a fragment's lanes, place by place. -/
theorem groupBy_getElem? {f : Frag} {addr : Nat → W64} {i : Nat} {p : W64}
    (h : ((lanesOf f.active).map addr).eraseDups[i]? = some p) :
    ∃ g, (groupBy (lanesOf f.active) addr)[i]? = some g ∧ g.pc = p ∧ f.bound addr p g.mask := by
  rw [← groupBy_pcs, List.getElem?_map, Option.map_eq_some_iff] at h
  obtain ⟨g, hg, rfl⟩ := h
  exact ⟨g, hg, rfl, groupBy_bound (List.mem_of_getElem? hg)⟩

theorem length_groupBy (f : Frag) (addr : Nat → W64) :
    (groupBy (lanesOf f.active) addr).length = ((lanesOf f.active).map addr).eraseDups.length := by
  rw [← groupBy_pcs, List.length_map]

theorem lanesOf_eq_cons {m : Mask} (h : m ≠ 0) : ∃ ls, lanesOf m = lowest m :: ls := by
  obtain ⟨L, hL, hbit⟩ : ∃ L, L < 32 ∧ m.getLsbD L = true := by
    by_contra hc
    push Not at hc
    exact h (BitVec.eq_of_getLsbD_eq fun i hi => by simpa using hc i hi)
  have hhead : (lanesOf m).head? = some (lowest m) := by
    unfold lanesOf lowest
    rw [List.head?_filter]
    cases hf : (List.range 32).find? (fun L => m.getLsbD L) with
    | none => exact absurd hbit (List.find?_eq_none.mp hf L (List.mem_range.mpr hL))
    | some K => rfl
  exact ⟨_, List.eq_cons_of_mem_head? hhead⟩

/-- The first group is that of the lowest lane, and it is the only one where the lanes agree. -/
theorem groupBy_eq_cons {m : Mask} (h : m ≠ 0) (addr : Nat → W64) :
    ∃ g gs, groupBy (lanesOf m) addr = g :: gs ∧ g.pc = addr (lowest m) ∧
      ((∀ L ∈ lanesOf m, addr L = addr (lowest m)) → gs = []) := by
  obtain ⟨ls, hls⟩ := lanesOf_eq_cons h
  have hpcs := groupBy_pcs (lanesOf m) addr
  rw [hls, List.map_cons, List.eraseDups_cons, List.map_eq_cons_iff] at hpcs
  obtain ⟨g, gs, hgs, hpc, hrest⟩ := hpcs
  refine ⟨g, gs, by rw [hls, hgs], hpc, fun hagree => ?_⟩
  have hnone : (ls.map addr).filter (fun b => !b == addr (lowest m)) = [] := by
    rw [List.filter_eq_nil_iff]
    intro p hp
    obtain ⟨L, hL, rfl⟩ := List.mem_map.mp hp
    simp [hagree L (by rw [hls]; exact List.mem_cons_of_mem _ hL)]
  rw [hnone, List.eraseDups_nil] at hrest
  exact List.map_eq_nil_iff.mp hrest

/-! ### What a branch answers -/

theorem branch_agree {f : Frag} {w : Fields} {s : State} {addr : Nat → W64} {p : W64} (hact : f.active ≠ 0)
    (h : ∀ L ∈ lanesOf f.active, addr L = p) : branch f w s addr = .ok { s, pc := some p } := by
  obtain ⟨ls, hls⟩ := lanesOf_eq_cons hact
  obtain ⟨g, gs, hgs, hpc, hone⟩ := groupBy_eq_cons hact addr
  have hlow : addr (lowest f.active) = p := h _ (by rw [hls]; exact List.mem_cons_self)
  rw [branch, hgs, hone fun L hL => (h L hL).trans hlow.symm, ← hlow, ← hpc]

theorem branch_differ {f : Frag} {w : Fields} {s : State} {addr : Nat → W64}
    (h : ∃ K ∈ lanesOf f.active, ∃ L ∈ lanesOf f.active, addr K ≠ addr L) :
    branch f w s addr =
      if off16 w.imm 16 = 0 then trapOf .illegalConvergence
      else .ok { s := s.course f (fun c => c.split f.entry (addPc f.pc (off16 w.imm 16)) (groupBy (lanesOf f.active) addr)),
                 moved := true } := by
  obtain ⟨K, hK, L, hL, hne⟩ := h
  have hmem : ∀ J ∈ lanesOf f.active, addr J ∈ (groupBy (lanesOf f.active) addr).map (·.pc) := fun J hJ => by
    rw [groupBy_pcs, List.mem_eraseDups]; exact List.mem_map_of_mem hJ
  have hK := hmem K hK
  have hL := hmem L hL
  unfold branch
  generalize groupBy (lanesOf f.active) addr = gs at hK hL
  match gs with
  | [] => rfl
  | [g] => simp at hK hL; exact absurd (hK.trans hL.symm) hne
  | _ :: _ :: _ => rfl

/-! ### The table after a split -/

theorem get_adjust_of_valid {m : List (Nat × Entry)} {k : Nat} (g : Entry → Entry) (h : (get {} m k).valid = true) (n : Nat) :
    get {} (adjust m k g) n = if n = k then g (get {} m k) else get {} m n := by
  unfold get at h ⊢
  rw [lookup?_adjust]
  cases hl : lookup? m k with
  | none => rw [hl] at h; simp at h
  | some x => split <;> rfl

theorem Course.place_rest (c : Course) (x : W64) (gs : List Group) (ns : List Nat) (age : Nat) :
    c.place x gs ns age = { c with entries := (c.place x gs ns age).entries } := by
  induction gs generalizing c ns age with
  | nil => rfl
  | cons g gs ih =>
    cases ns with
    | nil => rfl
    | cons n ns => rw [Course.place, ih]; rfl

/-- Each group lies in the entry that stands at its place, and no other entry has changed. -/
theorem Course.get_place (x : W64) (gs : List Group) {ns : List Nat} (hnd : ns.Nodup) (c : Course) (age : Nat) :
    (∀ i g n, gs[i]? = some g → ns[i]? = some n → get {} (c.place x gs ns age).entries n =
      { mask := g.mask, valid := true, pc := g.pc, rpc := x, age := age + i }) ∧
    ∀ n, n ∉ ns.take gs.length → get {} (c.place x gs ns age).entries n = get {} c.entries n := by
  induction gs generalizing c ns age with
  | nil => exact ⟨by simp, fun _ _ => rfl⟩
  | cons g gs ih =>
    cases ns with
    | nil => exact ⟨by simp, fun _ _ => rfl⟩
    | cons n ns =>
      obtain ⟨hn, hnd⟩ := List.nodup_cons.mp hnd
      obtain ⟨hin, hout⟩ := ih hnd
        (c.setEntries (assign c.entries n { mask := g.mask, valid := true, pc := g.pc, rpc := x, age := age })) (age + 1)
      rw [Course.place]
      refine ⟨fun i q k hq hk => ?_, fun k hk => ?_⟩
      · cases i with
        | zero =>
          simp only [List.getElem?_cons_zero, Option.some.injEq] at hq hk
          subst hq hk
          rw [hout n (fun hm => hn (List.mem_of_mem_take hm)), Course.setEntries, get_assign, if_pos rfl]
          rfl
        | succ i =>
          rw [hin i q k hq hk, Nat.add_right_comm, Nat.add_assoc]
      · rw [List.length_cons, List.take_succ_cons, List.mem_cons, not_or] at hk
        rw [hout k hk.2, Course.setEntries, get_assign, if_neg hk.1]

theorem Course.split_rest (c : Course) (n : Nat) (x : W64) (gs : List Group) :
    c.split n x gs = { c with entries := (c.split n x gs).entries, frames := (c.split n x gs).frames } := by
  unfold Course.split
  split
  · dsimp only; rw [Course.place_rest]; rfl
  · cases gs <;> rfl

theorem Course.nodup_freeEntries (c : Course) : c.freeEntries.Nodup := List.nodup_range.filter _

theorem Course.not_mem_freeEntries {c : Course} {n : Nat} (h : (get {} c.entries n).valid = true) : n ∉ c.freeEntries := by
  unfold Course.freeEntries
  rw [List.mem_filter, h]
  simp

/-- A split with room: the entry becomes the join, and the groups lie in the lowest free entries. -/
theorem Course.split_room {c : Course} {n : Nat} {gs : List Group} (x : W64) (hv : (get {} c.entries n).valid = true)
    (hfr : (c.framesOf n).isEmpty = true) (hroom : gs.length ≤ c.freeEntries.length) :
    (c.split n x gs).frames = c.frames ∧
    get {} (c.split n x gs).entries n = { get {} c.entries n with pc := x, passed := 0, held := false } ∧
    (∀ i g k, gs[i]? = some g → c.freeEntries[i]? = some k → get {} (c.split n x gs).entries k =
      { mask := g.mask, valid := true, pc := g.pc, rpc := x, age := c.live.length + i }) ∧
    ∀ k, k ≠ n → k ∉ c.freeEntries.take gs.length → get {} (c.split n x gs).entries k = get {} c.entries k := by
  have hsplit : c.split n x gs =
      (c.mapEntry n (fun e => { e with pc := x, passed := 0, held := false })).place x gs c.freeEntries c.live.length := by
    simp [Course.split, hfr, hroom]
  obtain ⟨hin, hout⟩ := Course.get_place x gs c.nodup_freeEntries
    (c.mapEntry n (fun e => { e with pc := x, passed := 0, held := false })) c.live.length
  have hjoin := get_adjust_of_valid (fun e => { e with pc := x, passed := 0, held := false }) hv
  rw [hsplit]
  refine ⟨by rw [Course.place_rest]; rfl, ?_, hin, fun k hk hfree => ?_⟩
  · rw [hout n fun h => Course.not_mem_freeEntries hv (List.mem_of_mem_take h)]
    exact (hjoin n).trans (if_pos rfl)
  · rw [hout k hfree]
    exact (hjoin k).trans (if_neg hk)

/-- A split without room: the first group goes on in the entry, the others are pending in a new frame. -/
theorem Course.split_serial {c : Course} {n : Nat} {g : Group} {gs : List Group} (x : W64)
    (hv : (get {} c.entries n).valid = true)
    (hfull : (c.framesOf n).isEmpty = false ∨ c.freeEntries.length < (g :: gs).length) :
    (c.split n x (g :: gs)).frames = c.frames ++ [{ entry := n, rpc := x, pending := gs, held := 0 }] ∧
    get {} (c.split n x (g :: gs)).entries n =
      { get {} c.entries n with mask := g.mask, pc := g.pc, passed := 0, held := false } ∧
    ∀ k, k ≠ n → get {} (c.split n x (g :: gs)).entries k = get {} c.entries k := by
  have hcond : ¬ ((c.framesOf n).isEmpty && Decidable.decide ((g :: gs).length ≤ c.freeEntries.length)) = true := by
    rw [Bool.and_eq_true, decide_eq_true_iff]
    rintro ⟨hfr, hroom⟩
    rcases hfull with h | h
    · rw [hfr] at h; cases h
    · omega
  have hown := get_adjust_of_valid (fun e => { e with mask := g.mask, pc := g.pc, passed := 0, held := false }) hv
  unfold Course.split
  rw [if_neg hcond]
  exact ⟨rfl, (hown n).trans (if_pos rfl), fun k hk => (hown k).trans (if_neg hk)⟩

theorem Course.split_valid {c : Course} {n : Nat} (x : W64) (hv : (get {} c.entries n).valid = true) (g : Group)
    (gs : List Group) : (get {} (c.split n x (g :: gs)).entries n).valid = true := by
  by_cases hroom : (c.framesOf n).isEmpty = true ∧ (g :: gs).length ≤ c.freeEntries.length
  · obtain ⟨-, hown, -, -⟩ := Course.split_room x hv hroom.1 hroom.2
    rw [hown]; exact hv
  · rw [not_and_or, Bool.not_eq_true, Nat.not_le] at hroom
    obtain ⟨-, hown, -⟩ := Course.split_serial x hv hroom
    rw [hown]; exact hv

/-! ### The issue of a branch -/

section
variable {s : State} {w : Fields} {f : Frag} {body : Frag → State → Except Stop Effect}

/-- A word whose meaning leaves the state as it is goes on, where its meaning says. -/
theorem issueWord_goes {e : Effect} (hr : s.Ready w f) (hb : body f { s with stamp := s.stamp + 1 } = .ok e)
    (hs : e.s = { s with stamp := s.stamp + 1 }) (hk : e.kind = .hint) (hm : e.moved = false) :
    ∃ t c, issueWord w s body = .next t ∧ s.Moved t f w f.c c (e.pc.getD (addPc f.pc 12)) := by
  obtain ⟨hc, he, -, -, -, -⟩ := State.frag_spec hr.frag
  obtain ⟨c', hc', hbill, hbook⟩ := State.billed_finish (s := s) (w := w) (e := e) false (by rw [hs]; exact hc) rfl hm
    (by rw [Frag.lookup hr.frag]; rfl) (by rw [hs]) (by rw [hs]; rfl) ⟨fun hx => absurd hk hx, fun hx => by simp at hx⟩
  have hbeside := State.beside_finish e.s f w e (by rw [hk]; rfl)
  refine ⟨_, c', issueWord_ok hr hb, ⟨?_, hbill, hc', hbook, ?_⟩⟩
  · rw [hs] at hbeside ⊢
    exact (State.beside_stamp s f _).trans hbeside
  · rw [hbook.table.own]
    show (get {} f.c.entries f.entry).mask = f.active
    rw [he]

/-- A word that places its fragment's lanes itself leaves its course as its meaning has it, but for the bookkeeping of the issue. -/
theorem issueWord_placed {e : Effect} {g : Course → Course} (hr : s.Ready w f)
    (hb : body f { s with stamp := s.stamp + 1 } = .ok e) (hs : e.s = { s with stamp := s.stamp + 1 }.course f g)
    (hg : g f.c = { f.c with entries := (g f.c).entries, frames := (g f.c).frames })
    (hv : (get {} (g f.c).entries f.entry).valid = true) (hk : e.kind = .hint) (hm : e.moved = true) :
    ∃ t c, issueWord w s body = .next t ∧ s.Beside t f ∧ s.Billed t f w f.c c false ∧ t.course? f.core f.slot = some c ∧
      c = { f.c with entries := c.entries, frames := (g f.c).frames, counts := c.counts, nextIssue := c.nextIssue,
                     yieldAt := c.yieldAt, pendingAt := c.pendingAt, replays := c.replays, token := c.token } ∧
      get {} c.entries f.entry = { get {} (g f.c).entries f.entry with passed := 0, began := none } ∧
      ∀ n, n ≠ f.entry → get {} c.entries n = get {} (g f.c).entries n := by
  obtain ⟨hc, -, -, -, -, -⟩ := State.frag_spec hr.frag
  have hcourse : e.s.course? f.core f.slot = some (g f.c) := by
    rw [hs, State.course, State.course?_mapCourse, if_pos ⟨rfl, rfl⟩,
      show State.course? { s with stamp := s.stamp + 1 } f.core f.slot = some f.c from hc]
    rfl
  obtain ⟨c, hc', hent, hrest, hnext, hyield, htoken, hreplay, hcount⟩ :=
    State.course?_finish (w := w) hcourse (by rw [hg])
  obtain ⟨hissued, hdebit⟩ := State.finish_cost e.s f w e
  have hbeside := State.beside_finish e.s f w e (by rw [hk]; rfl)
  have hown := get_adjust_of_valid (fun x => { x with passed := 0, began := none }) hv
  rw [Course.advanced, hm, if_pos rfl] at hent
  refine ⟨_, c, issueWord_ok hr hb, ?_, ⟨?_, ?_, ?_, ?_, ?_, ?_, ?_⟩, hc', ?_, ?_, fun n hn => ?_⟩
  · rw [hs] at hbeside ⊢
    exact ((State.beside_stamp s f _).trans (State.beside_mapCourse _ f g)).trans hbeside
  · rw [hissued, hs]; rfl
  · intro a; rw [hdebit a, hs]; rfl
  · rw [hnext, hs]; rfl
  · intro hy; rw [hyield hy, hs]; rfl
  · rw [htoken, hs, hg]; rfl
  · intro hv
    rw [hreplay (by rw [hs, State.course, State.core_mapCourse]; exact hv), hg]
  · intro n h1 h5
    rw [hcount n h1 h5, hs, hg, hk]
    simp only [ne_eq, not_true_eq_false, Bool.false_eq_true]
    rfl
  · rw [hrest, hg]
  · rw [hent, hown, if_pos rfl]
  · rw [hent, hown, if_neg hn]

/-- A word that parts its fragment by address leaves the table that R221 and R224 describe. -/
theorem issueWord_parted {e : Effect} {addr : Nat → W64} {x : W64} (hr : s.Ready w f)
    (hb : body f { s with stamp := s.stamp + 1 } = .ok e)
    (hs : e.s = { s with stamp := s.stamp + 1 }.course f (fun c => c.split f.entry x (groupBy (lanesOf f.active) addr)))
    (hact : f.active ≠ 0) (hk : e.kind = .hint) (hm : e.moved = true) :
    ∃ t c, issueWord w s body = .next t ∧ s.Parted t f w addr x c := by
  obtain ⟨-, he, -, -, -, -⟩ := State.frag_spec hr.frag
  have hvalid : (get {} f.c.entries f.entry).valid = true := by rw [he]
  have hmask : (get {} f.c.entries f.entry).mask = f.active := by rw [he]
  have hlen := length_groupBy f addr
  obtain ⟨g, gs, hgs, hpc, -⟩ := groupBy_eq_cons hact addr
  have hsplitv : (get {} (f.c.split f.entry x (groupBy (lanesOf f.active) addr)).entries f.entry).valid = true := by
    rw [hgs]; exact Course.split_valid x hvalid g gs
  obtain ⟨t, c, hnext, hbeside, hbill, hcourse, hrest, hown, hother⟩ :=
    issueWord_placed hr hb hs (Course.split_rest _ _ _ _) hsplitv hk hm
  have hframes : c.frames = (f.c.split f.entry x (groupBy (lanesOf f.active) addr)).frames := by rw [hrest]
  refine ⟨t, c, hnext, ⟨hbeside, hbill, hcourse, by rw [hrest], fun hfr hroom => ?_, fun hfull => ?_⟩⟩
  · rw [← hlen] at hroom ⊢
    obtain ⟨hsame, hjoin, hin, hout⟩ := Course.split_room x hvalid hfr hroom
    rw [hjoin] at hown
    refine ⟨hframes.trans hsame, by rw [hown]; exact hmask, by rw [hown], by rw [hown], fun i p hp => ?_, fun n hn hfree => ?_⟩
    · obtain ⟨g, hg, rfl, hbound⟩ := groupBy_getElem? hp
      have hi : i < f.c.freeEntries.length := (List.getElem?_eq_some_iff.mp hg).1.trans_le hroom
      have hn : f.c.freeEntries[i] ≠ f.entry := fun h => Course.not_mem_freeEntries hvalid (h ▸ List.getElem_mem hi)
      have hni : f.c.freeEntries[i]? = some f.c.freeEntries[i] := List.getElem?_eq_getElem hi
      exact ⟨_, g.mask, hni, hbound, (hother _ hn).trans (hin i g _ hg hni)⟩
    · rw [hother n hn, hout n hn hfree]
  · rw [← hlen, hgs] at hfull ⊢
    rw [hgs] at hown hother hframes
    obtain ⟨hnew, hfirst, hsame⟩ := Course.split_serial x hvalid hfull
    rw [hfirst] at hown
    refine ⟨by rw [hown]; exact hpc, ?_, fun n hn => by rw [hother n hn, hsame n hn],
      _, hframes.trans hnew, rfl, rfl, rfl, rfl, fun i p hp => ?_⟩
    · rw [hown, ← hpc]
      exact groupBy_bound (by rw [hgs]; exact List.mem_cons_self)
    · obtain ⟨q, hq, hqp⟩ := groupBy_getElem? hp
      rw [hgs] at hq
      exact ⟨q, hq, hqp⟩

theorem active_ne_zero (hr : s.Ready w f) : f.active ≠ 0 := by
  obtain ⟨-, -, hexec, -, -, -⟩ := State.frag_spec hr.frag
  intro h0
  exact hr.lanes (by rw [hexec, h0]; exact BitVec.zero_and)

/-- A word whose meaning is a branch: it goes on where its lanes agree, parts where they do not and the word names a reconvergence
address, and traps where it names none. -/
theorem exec_branch {i : Instr} {addr : Nat → W64} (hr : s.Ready w f) (hi : exec i s = issueWord w s body)
    (hb : body f { s with stamp := s.stamp + 1 } = branch f w { s with stamp := s.stamp + 1 } addr) :
    (∀ p, (∀ L ∈ lanesOf f.active, addr L = p) → ∃ t c, exec i s = .next t ∧ s.Moved t f w f.c c p) ∧
    ((∃ K ∈ lanesOf f.active, ∃ L ∈ lanesOf f.active, addr K ≠ addr L) →
      (off16 w.imm 16 ≠ 0 → ∃ t c, exec i s = .next t ∧ s.Parted t f w addr (addPc f.pc (off16 w.imm 16)) c) ∧
      (off16 w.imm 16 = 0 → exec i s = .next (s.takeTrap f.core f.slot f.entry { cause := .illegalConvergence }))) := by
  have hact := active_ne_zero hr
  rw [hi]
  refine ⟨fun p hp => ?_, fun hdiff => ⟨fun hoff => ?_, fun hoff => ?_⟩⟩
  · exact issueWord_goes hr (hb.trans (branch_agree hact hp)) rfl rfl rfl
  · rw [branch_differ hdiff, if_neg hoff] at hb
    exact issueWord_parted hr hb rfl hact rfl rfl
  · rw [branch_differ hdiff, if_pos hoff] at hb
    exact issueWord_trap hr hb

end

/-! ### The target checks of BRX (R90) -/

theorem ushiftRight_57_ne_zero (x : W64) : (x >>> 57 != 0) = true ↔ 2 ^ 57 ≤ x.toNat := by
  rw [bne_iff_ne, ne_eq, ← BitVec.toNat_inj, BitVec.toNat_ushiftRight, Nat.shiftRight_eq_div_pow]
  change ¬ _ = 0 ↔ _
  omega

theorem and_3_ne_zero (x : W64) : (x &&& 3 != 0) = true ↔ x.toNat % 4 ≠ 0 := by
  rw [bne_iff_ne, ne_eq, ← BitVec.toNat_inj, BitVec.toNat_and]
  change ¬ x.toNat &&& (2 ^ 2 - 1) = 0 ↔ _
  rw [Nat.and_two_pow_sub_one_eq_mod]

section
variable {f : Frag} {a : Nat → W64}

theorem find?_high_none (h : ∀ L ∈ lanesOf f.exec, (a L).toNat < 2 ^ 57) :
    (lanesOf f.exec).find? (fun L => a L >>> 57 != 0) = none := by
  rw [List.find?_eq_none]
  intro L hL
  rw [ushiftRight_57_ne_zero]
  exact Nat.not_le_of_lt (h L hL)

theorem targetsOk_legal (h : ∀ L ∈ lanesOf f.exec, (a L).toNat < 2 ^ 57 ∧ (a L).toNat % 4 = 0) : targetsOk f a = .ok () := by
  have hlow : (lanesOf f.exec).find? (fun L => a L &&& 3 != 0) = none := by
    rw [List.find?_eq_none]
    intro L hL
    rw [and_3_ne_zero]
    exact not_not_intro (h L hL).2
  rw [targetsOk, find?_high_none fun L hL => (h L hL).1, hlow]

theorem targetsOk_high (h : ∃ L ∈ lanesOf f.exec, 2 ^ 57 ≤ (a L).toNat) : targetsOk f a = trapOf .illegalOperand := by
  obtain ⟨L, hL, hhigh⟩ := h
  rw [targetsOk]
  cases hf : (lanesOf f.exec).find? (fun L => a L >>> 57 != 0) with
  | some K => rfl
  | none => exact absurd ((ushiftRight_57_ne_zero _).mpr hhigh) (List.find?_eq_none.mp hf L hL)

/-- The lowest lane with a misaligned target is the one that the trap names. -/
theorem targetsOk_misaligned {L : Nat} (hL : L ∈ lanesOf f.exec) (hlegal : ∀ K ∈ lanesOf f.exec, (a K).toNat < 2 ^ 57)
    (hodd : (a L).toNat % 4 ≠ 0) (hleast : ∀ K ∈ lanesOf f.exec, K < L → (a K).toNat % 4 = 0) :
    targetsOk f a = trapAt .misaligned { va := (a L).toNat, lane := L } := by
  have hfind : (lanesOf f.exec).find? (fun L => a L &&& 3 != 0) = some L := by
    obtain ⟨h32, hbit⟩ := mem_lanesOf.mp hL
    rw [lanesOf, List.find?_filter, List.find?_range_eq_some]
    refine ⟨?_, List.mem_range.mpr h32, fun K hK => ?_⟩
    · exact decide_eq_true ⟨hbit, (and_3_ne_zero _).mpr hodd⟩
    · rw [Bool.not_eq_true', decide_eq_false_iff_not, and_3_ne_zero]
      exact fun ⟨hb, hne⟩ => hne (hleast K (mem_lanesOf.mpr ⟨hK.trans h32, hb⟩) hK)
  rw [targetsOk, find?_high_none hlegal, hfind]

end

section
variable (w : Fields) (s : State)

theorem exec_bra : exec (.bra w) s = issueWord w s (fun f s =>
    branch f w s (fun L => if f.exec.getLsbD L then addPc f.pc (off16 w.imm 0) else addPc f.pc 12)) := rfl

theorem exec_brx : exec (.brx w) s = issueWord w s (fun f s => do
    targetsOk f (fun L => s.src f w .n64 L w.a)
    branch f w s (fun L => if f.exec.getLsbD L then s.src f w .n64 L w.a else addPc f.pc 12)) := rfl

end

/-- Settles O26: BRA and BRX are branches (`exec_branch`), BRX after its checks, which a legal target passes. -/
theorem branches : Obligations.Branches := by
  intro w s f hr
  refine ⟨exec_branch hr (exec_bra w s) rfl, fun hlegal => exec_branch hr (exec_brx w s) ?_, fun hhigh => ?_,
    fun L hL hlegal hodd hleast => ?_⟩
  · change (do targetsOk f (fun L => s.src f w .n64 L w.a); branch f w { s with stamp := s.stamp + 1 } _) = _
    rw [targetsOk_legal hlegal]
    rfl
  · rw [exec_brx]
    refine issueWord_trap hr ?_
    change (do targetsOk f (fun L => s.src f w .n64 L w.a); _) = _
    rw [targetsOk_high hhigh]
    rfl
  · rw [exec_brx]
    refine issueWord_trap hr ?_
    change (do targetsOk f (fun L => s.src f w .n64 L w.a); _) = _
    rw [targetsOk_misaligned hL hlegal hodd hleast]
    rfl

end Sys2Proof.Machine
end
